-- ==== Sys2Proof/Word.lean ====
section
/-!
DEFINITION. The words of the Lyilo 7: bytes, 32-bit and 64-bit words, and the words of the command pool (R3, R22, R38).
-/

namespace Sys2Proof

/-- A byte of memory (R3). -/
abbrev Byte := BitVec 8

/-- A control-stream instruction, an f register or a count (R54, R66). -/
abbrev Word32 := BitVec 32

/-- An x register, an address held in a register, a command word part (R38, R66). -/
abbrev Word := BitVec 64

/-- The number of an x or f register, or a small number in a register field (R58). -/
abbrev Reg := BitVec 5

/-- The number of a bx, td or vp register (R58: bit 4 of the field is zero). -/
abbrev Reg4 := BitVec 4

/-- The number of an accumulator (R11). -/
abbrev AccReg := BitVec 3

end Sys2Proof
end

