-- ==== Sys2Proof/Config.lean ====
section
/-!
DEFINITION. What one part fixes, and the values the manual leaves open. An `opaque` constant here has no body: nothing can
be proved about its value, so a theorem about the machine holds for every value of it.
-/

namespace Sys2Proof.Config

/-! ## Figures of the part -/

/-- Bytes of HBM of a package that carries all eight stacks (R1, R52): 768 GiB. -/
def hbmBytes : Nat := 0xC0_0000_0000

/-- Offset limit of one device's Span window (R52). -/
def spanBytes : Nat := 0xC0_0000_0000

/-- Bytes of a scratchpad (R47). -/
def spadBytes : Nat := 0xC_0000

/-- Bytes of the address range of one CXL port: 1,536 GiB (R352). -/
def cxlPortBytes : Nat := 0x180_0000_0000

/-- The part code, with the ordering code LY7-P and the production stepping B0 of R371. Log 8: the ordering code is the model's. -/
def identity : BitVec 64 := 0x0002_4C59_0007_1000

/-! ## Free values: time (log 3) -/

/-- A reading of the global time base in ns, by step of the model; the clock of State is the greatest so far. -/
opaque timeBase : Nat → BitVec 64

/-- The `cycle` counter of a core (by physical id) after a number of steps of the model. -/
opaque cycleCount : Nat → Nat → BitVec 64

/-! ## Free values: choices the ordering rules leave open to one core -/

/-- Which version of a code or pool line a fetch sees before a `fence.i` (R53, R54): an index into the versions. -/
opaque codeVersion : Nat → Nat

/-- A read goes on showing what a byte was before a write that its agent may miss (R9): step, address of the write, and its place among the
writes of its core that may be missed. -/
opaque readsOld : Nat → Nat → Nat → Bool

/-- A contribution of `am.faddn` still finds the operand before it pending, and merges into it (R191), by step. -/
opaque mergesAdd : Nat → Bool

/-- Which translation an access uses between a page-table store and `tlb.inv` (R306): an index into the candidates. -/
opaque tlbVersion : Nat → Nat

/-- The home port of an address (R190, R192): the manual does not state how addresses map to memory channels. -/
opaque homePort : Nat → Nat

/-- How many entries a partition's spill table holds (R245). -/
opaque spillEntries : Nat

/-! ## Free values: standards the manual names and does not state (log 9) -/

/-- What a decoder makes of one access unit (R354, R356). -/
inductive Decoded where
  | bitstreamError
  | unsupported
  | noPicture
  /-- A picture: width, height, bits per sample, and the Y, Cb and Cr samples, row by row. -/
  | picture (w h : Nat) (y cb cr : List Nat)
  deriving DecidableEq, Repr, Inhabited

/-- The codec's output process: codec number (0 AV1, 1 H.265, 2 H.266), the slot's width and height, the access units decoded since
its reference pictures were last dropped, and the access unit. -/
opaque decodeAccessUnit : Nat → Nat → Nat → List (List Byte) → List Byte → Decoded

/-- SHA3-512 (R347, R349): 64 bytes, the first lowest. -/
opaque sha3_512 : List Byte → BitVec 512

/-- Does an ML-DSA-87 signature over a digest check against the public key in ROM (R347)? Arguments: digest, signature. -/
opaque firmwareSignatureGood : BitVec 512 → List Byte → Bool

/-- The ML-DSA-87 signature of the device identity key over a digest (R349): 4,627 bytes. -/
opaque identitySign : BitVec 512 → BitVec 37016

/-- The boot ROM's contents (R349). -/
opaque bootRom : List Byte

/-- The identity public key (R349): 2,592 bytes. -/
opaque identityKey : BitVec 20736

/-- The Ndeisk certificate of the identity key (R349). -/
opaque identityCertificate : List Byte

/-! ## Free values: choices the dispatcher, the manager and the fabric make -/

/-- A choice the manual leaves to the dispatcher or the partition manager: step counter, kind of choice, number of
alternatives. The machine takes it modulo the number of alternatives. -/
opaque managerChoice : Nat → Nat → Nat → Nat

/-- A value the manual does not state, for a step, a place in the step and a width taken by truncation. -/
opaque unstated : Nat → Nat → BitVec 64

end Sys2Proof.Config
end

