-- ==== Sys2Proof/Syntax.lean ====
section
/-!
DEFINITION. The instructions, commands and steps of the Lyilo 7: one constructor per row of the opcode table. Operand fields
are the fields of R57, R66 and the command tables; an event's arguments say where it happens and what comes from outside.
-/

namespace Sys2Proof

/-! ## Codes shared by several encodings -/

/-- The twelve scopes (R63, R174). -/
inductive Scope where
  | stream | core | gang | row | cluster | quad | die | device | board | pod | slice | system
  deriving DecidableEq, Repr

/-- The element formats (R64, R116). -/
inductive Fmt where
  | f32 | f16 | b16 | k8 | k4 | i32 | i16 | i8 | i4 | n32 | n16 | n8 | e8
  deriving DecidableEq, Repr

/-- The rounding modes of engine commands (R66). -/
inductive Rnd where
  | rne | rz | sr
  deriving DecidableEq, Repr

/-- The mode of a matrix instruction (R11). -/
inductive MxMode where
  | acc | ow | sub
  deriving DecidableEq, Repr

/-- The patch mode of a command word (R66). -/
inductive Patch where
  | plain | carry | times64
  deriving DecidableEq, Repr

/-- The operation of a virtual stream entry (R274). -/
inductive CombineOp where
  | add | max | min
  deriving DecidableEq, Repr

/-- The codecs (R354, R355). -/
inductive Codec where
  | av1 | h265 | h266
  deriving DecidableEq, Repr

/-! ## The standard part (R54, R56) -/

/-- RV64I loads and `flw`. -/
inductive LoadOp where
  | lb | lh | lw | ld | lbu | lhu | lwu | flw
  deriving DecidableEq, Repr

/-- RV64I stores and `fsw`. -/
inductive StoreOp where
  | sb | sh | sw | sd | fsw
  deriving DecidableEq, Repr

/-- Branch conditions. -/
inductive BrOp where
  | beq | bne | blt | bge | bltu | bgeu
  deriving DecidableEq, Repr

/-- OP-IMM forms with a 12-bit immediate. -/
inductive ImmOp where
  | addi | slti | sltiu | xori | ori | andi
  deriving DecidableEq, Repr

/-- Shifts. -/
inductive ShOp where
  | sll | srl | sra
  deriving DecidableEq, Repr

/-- OP forms of RV64I and M. -/
inductive AluOp where
  | add | sub | sll | slt | sltu | xor | srl | sra | or | and
  | mul | mulh | mulhsu | mulhu | div | divu | rem | remu
  deriving DecidableEq, Repr

/-- OP-32 forms of RV64I and M. -/
inductive AluWOp where
  | addw | subw | sllw | srlw | sraw | mulw | divw | divuw | remw | remuw
  deriving DecidableEq, Repr

/-- OP-FP forms with two operands and a rounding mode. -/
inductive FArith where
  | fadd | fsub | fmul | fdiv
  deriving DecidableEq, Repr

/-- The four fused forms. -/
inductive FFused where
  | fmadd | fmsub | fnmsub | fnmadd
  deriving DecidableEq, Repr

/-- OP-FP forms with two operands and no rounding mode, with an f destination. -/
inductive FPick where
  | fsgnj | fsgnjn | fsgnjx | fmin | fmax
  deriving DecidableEq, Repr

/-- Comparisons. -/
inductive FCmp where
  | feq | flt | fle
  deriving DecidableEq, Repr

/-- The integer side of a conversion. -/
inductive FInt where
  | w | wu | l | lu
  deriving DecidableEq, Repr

/-- An RV64I, M or F computation or control-flow instruction (R54). -/
inductive RvInstr where
  | lui (rd : Reg) (imm : BitVec 20)
  | auipc (rd : Reg) (imm : BitVec 20)
  /-- The immediate counts half-words: the offset is `2 * imm`. -/
  | jal (rd : Reg) (imm : BitVec 20)
  | jalr (rd rs1 : Reg) (imm : BitVec 12)
  /-- The immediate counts half-words. -/
  | branch (op : BrOp) (rs1 rs2 : Reg) (imm : BitVec 12)
  | opImm (op : ImmOp) (rd rs1 : Reg) (imm : BitVec 12)
  | shiftImm (op : ShOp) (rd rs1 : Reg) (sh : BitVec 6)
  | addiw (rd rs1 : Reg) (imm : BitVec 12)
  | shiftImmW (op : ShOp) (rd rs1 : Reg) (sh : BitVec 5)
  | op (op : AluOp) (rd rs1 rs2 : Reg)
  | opW (op : AluWOp) (rd rs1 rs2 : Reg)
  | farith (op : FArith) (rd rs1 rs2 : Reg) (rm : BitVec 3)
  | fsqrt (rd rs1 : Reg) (rm : BitVec 3)
  | fused (op : FFused) (rd rs1 rs2 rs3 : Reg) (rm : BitVec 3)
  | fpick (op : FPick) (rd rs1 rs2 : Reg)
  | fcmp (op : FCmp) (rd rs1 rs2 : Reg)
  | fclass (rd rs1 : Reg)
  | fmvXW (rd rs1 : Reg)
  | fmvWX (rd rs1 : Reg)
  | fcvtToInt (dst : FInt) (rd rs1 : Reg) (rm : BitVec 3)
  | fcvtToFloat (src : FInt) (rd rs1 : Reg) (rm : BitVec 3)
  deriving DecidableEq, Repr

/-- The Zicsr operations. -/
inductive CsrOp where
  | rw | rs | rc
  deriving DecidableEq, Repr

/-- The source of a Zicsr instruction: a register or the 5-bit immediate. -/
inductive CsrSrc where
  | reg (rs1 : Reg)
  | imm (u : BitVec 5)
  deriving DecidableEq, Repr

/-! ## Command words (R66) -/

/-- The four words of a command, w0 to w3 (R22). -/
structure CmdWords where
  w0 : Word
  w1 : Word
  w2 : Word
  w3 : Word
  deriving DecidableEq, Repr

/-- The fields of word w0 that every command of a family shares, as the word carries them: patch mode, captured region
(`none` when `used` is clear), rounding, format code (`none` is code 0x00) and count. -/
structure CmdHead where
  patch : Patch
  region : Option Reg4
  round : Rnd
  fmt : Option Fmt
  count : BitVec 32
  deriving DecidableEq, Repr

/-- Operands of `cp.rg` (R98). -/
structure CpRg where
  head : CmdHead
  disp : BitVec 40
  dtd : Reg4
  std : Reg4
  sdisp : BitVec 40
  rel : Bool
  tag : BitVec 8
  deriving DecidableEq, Repr

/-- Operands of `cp.gx` and `cp.sx` (R98); `rel` belongs to `cp.sx` alone. -/
structure CpRows where
  head : CmdHead
  disp : BitVec 40
  dtd : Reg4
  std : Reg4
  list : BitVec 20
  rel : Bool
  tag : BitVec 8
  deriving DecidableEq, Repr

/-- Operands of `cp.fill` (R98). -/
structure CpFill where
  head : CmdHead
  disp : BitVec 40
  dtd : Reg4
  value : BitVec 32
  tag : BitVec 8
  deriving DecidableEq, Repr

/-- Operands of `cp.reg` (R98): `off` counts bytes from the register window's start. -/
structure CpReg where
  head : CmdHead
  src : BitVec 40
  core : BitVec 12
  off : BitVec 10
  tag : BitVec 8
  deriving DecidableEq, Repr

/-- Operands of `cp.pf` (R98). -/
structure CpPf where
  head : CmdHead
  src : BitVec 40
  dst : BitVec 55
  tag : BitVec 8
  deriving DecidableEq, Repr

/-- Operands of a vector command (R149). -/
structure VOps where
  head : CmdHead
  disp : BitVec 40
  vp1 : Reg4
  vpb : Reg4
  sfmt : Option Fmt
  imm : BitVec 32
  vpd : Reg4
  vpc : Reg4
  tag : BitVec 8
  msg : Bool
  sat : Bool
  deriving DecidableEq, Repr

/-- Operands of `m.clr` (R147). -/
structure MClr where
  head : CmdHead
  acd : AccReg
  deriving DecidableEq, Repr

/-- Operands of `m.ld` (R147). -/
structure MLd where
  head : CmdHead
  disp : BitVec 40
  td : Reg4
  row0 : BitVec 32
  col0 : BitVec 32
  acd : AccReg
  deriving DecidableEq, Repr

/-- Operands of `m.cvt` (R147). -/
structure MCvt where
  head : CmdHead
  disp : BitVec 40
  td : Reg4
  tds : Reg4
  row0 : BitVec 32
  col0 : BitVec 32
  acs : AccReg
  tag : BitVec 8
  deriving DecidableEq, Repr

/-- Operands of `m.sv` and `m.rs` (R147); `tag` is zero for `m.rs`. -/
structure MImg where
  head : CmdHead
  addr : BitVec 40
  ac : AccReg
  tag : BitVec 8
  deriving DecidableEq, Repr

/-- Operands of `tt.bind` (R108). -/
structure TtBind where
  head : CmdHead
  tile : BitVec 8
  off : BitVec 20
  len : BitVec 20
  rows : BitVec 16
  lo0 : BitVec 32
  deriving DecidableEq, Repr

/-- Operands of `tt.wait` (R108). -/
structure TtWait where
  head : CmdHead
  tile : BitVec 8
  n : BitVec 9
  deriving DecidableEq, Repr

/-- Operands of `tt.rel` and `tt.stat` (R108); `rd` is zero for `tt.rel`. -/
structure TtTile where
  head : CmdHead
  tile : BitVec 8
  rd : Reg
  deriving DecidableEq, Repr

/-- Operands of `ib.deq` and `ib.peek` (R111); `i` is zero for `ib.deq`. -/
structure IbOps where
  head : CmdHead
  i : BitVec 6
  rd : Reg
  deriving DecidableEq, Repr

/-- One port set of a virtual stream entry: in and out masks over local, W, N, E, S (R273). -/
structure PortSet where
  inm : BitVec 5
  outm : BitVec 5
  deriving DecidableEq, Repr

/-- Operands of `co.cfg` (R274). -/
structure CoCfg where
  head : CmdHead
  vsn : BitVec 8
  last : BitVec 2
  op : CombineOp
  s0 : PortSet
  s1 : PortSet
  s2 : PortSet
  s3 : PortSet
  deriving DecidableEq, Repr

/-- Operands of `co.red` and `co.bcast` (R276). -/
structure CoMove where
  head : CmdHead
  src : BitVec 20
  dst : BitVec 20
  vsn : BitVec 8
  tag : BitVec 8
  deriving DecidableEq, Repr

/-- Operands of `co.allr` (R278). -/
structure CoAllr where
  head : CmdHead
  buf : BitVec 20
  vsn : BitVec 8
  xdev : Bool
  lo : BitVec 12
  n : BitVec 13
  tag : BitVec 8
  deriving DecidableEq, Repr

/-- Operands of `co.mark` (R277). -/
structure CoMark where
  head : CmdHead
  vsn : BitVec 8
  deriving DecidableEq, Repr

/-- Operands of `sp.open` (R282). -/
structure SpOpen where
  head : CmdHead
  ring : BitVec 20
  len : BitVec 20
  port : BitVec 2
  recv : Bool
  role : Bool
  target : BitVec 12
  tport : BitVec 2
  tag : BitVec 8
  deriving DecidableEq, Repr

/-- Operands of `sp.send` (R283). -/
structure SpSend where
  head : CmdHead
  src : BitVec 20
  port : BitVec 2
  tag : BitVec 8
  msg : Bool
  deriving DecidableEq, Repr

/-- Operands of `sp.close` (R284). -/
structure SpClose where
  head : CmdHead
  port : BitVec 2
  deriving DecidableEq, Repr

/-- Operands of `d.cfg` (R355). -/
structure DCfg where
  head : CmdHead
  ws : BitVec 40
  slot : BitVec 6
  codec : Codec
  w : BitVec 13
  h : BitVec 13
  tag : BitVec 8
  deriving DecidableEq, Repr

/-- Operands of `d.dec` (R355). -/
structure DDec where
  head : CmdHead
  au : BitVec 40
  td : Reg4
  tds : Reg4
  slot : BitVec 6
  tag : BitVec 8
  deriving DecidableEq, Repr

/-! ## Accesses from outside (R52, SPAN_OR_BIRLIN_TRAFFIC) -/

/-- The atomic operations at memory (R190). -/
inductive AmoOp where
  | add | min | max | and | or | xor | swp
  deriving DecidableEq, Repr

/-- An access of a host or of another slice device to this device's memory, by physical address. -/
inductive Traffic where
  | read (addr n : Nat)
  | write (addr : Nat) (bytes : List Byte)
  | amo (op : AmoOp) (addr : Nat) (v : BitVec 64)
  | cas (addr : Nat) (expected new : BitVec 64)
  | fadd (addr : Nat) (v : BitVec 32)
  deriving DecidableEq, Repr

/-- The constructors are the rows of the opcode table, in its order, but for the rows without operands, which stand last. -/
inductive Instr where
  -- custom-0, regions (R84)
  | rgAnd (d a b : Reg4)
  | rgOr (d a b : Reg4)
  | rgSub (d a b : Reg4)
  | rgIn (d : Reg) (a b : Reg4)
  | rgDil (d a : Reg4) (s : Reg)
  | rgShf (d a : Reg4) (s : Reg)
  | rgProj (d a : Reg4) (m : Reg)
  | rgSplitK (d a : Reg4) (k : Reg)
  | rgClip (d a t : Reg4)
  | rgCnt (d : Reg) (a : Reg4)
  | rgNbox (d : Reg) (a : Reg4)
  | rgGet (d : Reg) (a : Reg4) (i : Reg)
  | rgSplit (d a : Reg4) (n : Reg)
  | rgBox (d : Reg4) (s k : Reg)
  | rgBoxs (d : Reg4) (s k : Reg)
  | rgBoxr (d : Reg4) (s k : Reg)
  | rgLd (d : Reg4) (s : Reg) (imm : BitVec 12)
  | rgSt (b : Reg4) (s : Reg) (imm : BitVec 12)
  | tdLd (d : Reg4) (s : Reg) (imm : BitVec 12)
  | tdSt (t : Reg4) (s : Reg) (imm : BitVec 12)
  -- custom-0, pointers, queues, peers, gangs, cinches (R60)
  | vPtr (d : Reg4) (s : Reg)
  | qPush (s : Reg)
  | qPop (d : Reg)
  | qCnt (d q : Reg)
  | paPeer (d a o : Reg)
  | gFuse (n : Reg)
  | tkTake (d n : Reg)
  | tkClr (n b : Reg)
  | tkQs (d n : Reg)
  -- custom-0, loop buffer and skiver (R252)
  | lpSet (a b : Reg)
  | lpStep (i f c : Reg)
  | lpCnt (d : Reg)
  | ovSet (a b : Reg) (t : Reg4) (c : Reg)
  | ovDecl (x : Reg4)
  | ovStat (d : Reg)
  | ovCov (d : Reg) (x : Reg4)
  -- custom-1 (R11)
  | mxK8k8 (acd : AccReg) (a b : Reg) (m : MxMode) (f : Reg)
  | mxK4k4 (acd : AccReg) (a b : Reg) (m : MxMode) (f : Reg)
  | mxK8k4 (acd : AccReg) (a b : Reg) (m : MxMode) (f : Reg)
  | mxK4k8 (acd : AccReg) (a b : Reg) (m : MxMode) (f : Reg)
  | mxI8i8 (acd : AccReg) (a b : Reg) (m : MxMode) (f : Reg)
  | mxI4i4 (acd : AccReg) (a b : Reg) (m : MxMode) (f : Reg)
  | mxF16f16 (acd : AccReg) (a b : Reg) (m : MxMode) (f : Reg)
  | mxB16b16 (acd : AccReg) (a b : Reg) (m : MxMode) (f : Reg)
  /-- The row barrier of the row that holds this core (R132). -/
  | jointProductStart (core : Nat)
  -- custom-2 (R61)
  | lAqB (d a : Reg) (s : Scope)
  | lAqH (d a : Reg) (s : Scope)
  | lAqW (d a : Reg) (s : Scope)
  | lAqD (d a : Reg) (s : Scope)
  | lAqBu (d a : Reg) (s : Scope)
  | lAqHu (d a : Reg) (s : Scope)
  | lAqWu (d a : Reg) (s : Scope)
  | tLd (d : Reg) (t : Reg4) (c : Reg)
  | sRlB (v a : Reg) (s : Scope)
  | sRlH (v a : Reg) (s : Scope)
  | sRlW (v a : Reg) (s : Scope)
  | sRlD (v a : Reg) (s : Scope)
  | tSt (v : Reg) (t : Reg4) (c : Reg)
  | feFull (s : Scope)
  | feAcq (s : Scope)
  | feRel (s : Scope)
  | amAdd (d v a : Reg) (s : Scope)
  | amMin (d v a : Reg) (s : Scope)
  | amMax (d v a : Reg) (s : Scope)
  | amAnd (d v a : Reg) (s : Scope)
  | amOr (d v a : Reg) (s : Scope)
  | amXor (d v a : Reg) (s : Scope)
  | amSwp (d v a : Reg) (s : Scope)
  | amCas (d e a : Reg) (s : Scope)
  | amAddn (v a : Reg) (s : Scope)
  | amMinn (v a : Reg) (s : Scope)
  | amMaxn (v a : Reg) (s : Scope)
  | amAndn (v a : Reg) (s : Scope)
  | amOrn (v a : Reg) (s : Scope)
  | amXorn (v a : Reg) (s : Scope)
  | amFadd (d v a : Reg) (s : Scope)
  | amFaddn (v a : Reg) (s : Scope)
  | wtCh (d v a : Reg) (s : Scope)
  /-- The waking of the `wt.ch` asleep on this core (R192). -/
  | monitorWake (core : Nat)
  | mvBlk (d s n : Reg)
  | rep (c a : Reg)
  /-- `l` is the cache level as the rd field carries it (R196). -/
  | icPf (l s n : Reg)
  | icPin (l s n : Reg)
  | icUnpin (l s n : Reg)
  | evWait (d s : Reg)
  | evFire (s : Reg)
  | evBar (d s : Reg)
  | evLock (s : Reg)
  | evUnlock (s : Reg)
  | evCadd (d c v : Reg)
  | evArm (c t : Reg)
  | evMsg (t w : Reg)
  /-- A load of the word of a line through the event-unit alias (R243). -/
  | eventLineWordLoad (d line : Reg)
  /-- A store to the word of a line through the event-unit alias (R243). -/
  | eventLineWordStore (line : Reg)
  | tsSpawn (d a b c : Reg)
  | tsWeight (d : Reg)
  | fuNew (d : Reg)
  | fuSet (h v : Reg)
  | fuGet (d h : Reg)
  | fuPoll (d h : Reg)
  | fuDrop (h : Reg)
  -- custom-3 (R65)
  | engineIssue (e : BitVec 3) (index : BitVec 12) (a b : Reg)
  | sqRd (d i : Reg)
  | polSwap (a : Reg)
  | migBegin (a l : Reg)
  | migEnd (a l : Reg)
  | tlbInv (a l : Reg)
  | svScrub (c : Reg)
  | svHalt (c : Reg)
  -- the standard part (R54)
  | scalarLoad (op : LoadOp) (rd rs1 : Reg) (imm : BitVec 12)
  | scalarStore (op : StoreOp) (rs2 rs1 : Reg) (imm : BitVec 12)
  | rv64Compute (i : RvInstr)
  | fence (fm pred succ : BitVec 4) (rd rs1 : Reg)
  | fenceI (imm : BitVec 12) (rd rs1 : Reg)
  | csrAccess (op : CsrOp) (rd : Reg) (src : CsrSrc) (csr : BitVec 12)
  -- copy engine (R97)
  | cpRg (o : CpRg)
  | cpGx (o : CpRows)
  | cpSx (o : CpRows)
  | cpFill (o : CpFill)
  | cpReg (o : CpReg)
  | cpPf (o : CpPf)
  | tileCellArrival (core : Nat)
  | inboxMessagePost (core : Nat)
  | q1EntryPush (core : Nat)
  -- vector engine (R160)
  | vAdd (o : VOps)
  | vSub (o : VOps)
  | vMul (o : VOps)
  | vFma (o : VOps)
  | vMin (o : VOps)
  | vMax (o : VOps)
  | vAnd (o : VOps)
  | vOr (o : VOps)
  | vXor (o : VOps)
  | vShl (o : VOps)
  | vShr (o : VOps)
  | vCmpEq (o : VOps)
  | vCmpLt (o : VOps)
  | vCmpLe (o : VOps)
  | vSel (o : VOps)
  | vCvt (o : VOps)
  | vExp2 (o : VOps)
  | vLog2 (o : VOps)
  | vRcp (o : VOps)
  | vRsq (o : VOps)
  | vSig (o : VOps)
  | vRedAdd (o : VOps)
  | vRedMax (o : VOps)
  | vScanAdd (o : VOps)
  | vNzs (o : VOps)
  | vScl (o : VOps)
  | vFmas (o : VOps)
  | vBcast (o : VOps)
  | vPerm (o : VOps)
  | vMov (o : VOps)
  | vFill (o : VOps)
  | vTrn (o : VOps)
  -- matrix engine, accumulator commands (R147)
  | mClr (o : MClr)
  | mLd (o : MLd)
  | mCvt (o : MCvt)
  | mSv (o : MImg)
  | mRs (o : MImg)
  -- tile table and inbox (R108, R111)
  | ttBind (o : TtBind)
  | ttWait (o : TtWait)
  | ttRel (o : TtTile)
  | ttStat (o : TtTile)
  | ibDeq (o : IbOps)
  | ibPeek (o : IbOps)
  -- collectives (R272)
  | coCfg (o : CoCfg)
  | coRed (o : CoMove)
  | coBcast (o : CoMove)
  | coAllr (o : CoAllr)
  | coMark (o : CoMark)
  | spOpen (o : SpOpen)
  | spSend (o : SpSend)
  | spClose (o : SpClose)
  /-- The router of this core combines for entry `vsn`, along port set `set` (R275, R278). -/
  | routerCombine (core vsn set : Nat)
  | entrySetStep (core vsn : Nat)
  | collectiveAbort (core vsn : Nat)
  | streamDataArrival (core : Nat)
  | streamCloseArrival (core : Nat)
  /-- A link is named by a core and a router port 1 to 4: W, N, E, S (R268). -/
  | linkFlitResend (core port : Nat)
  | linkDown (core port : Nat)
  -- media (R355)
  | dCfg (o : DCfg)
  | dDec (o : DDec)
  -- traps and the dispatcher
  | trapEntry (core : Nat)
  | dispatchDecision (p core : Nat)
  | deferredCoreReoffer (p core : Nat)
  | preemptionDecision (p : Nat)
  | faultDecision (p : Nat)
  | queueDeadlock (p : Nat)
  | futureOrphan (p launch : Nat)
  | launchRecordWrite (p : Nat) (record : BitVec 512)
  | launchAcceptance (p : Nat)
  | launchCompletion (p launch : Nat)
  | switchStop (p : Nat)
  | switchQuiet (p : Nat)
  | switchDrain (p : Nat)
  | switchSave (p : Nat)
  | switchClearRestore (p : Nat)
  | switchResume (p : Nat)
  -- masters and the management view (R341)
  | ownerClaim (m : Nat)
  | ownerHandover (m new : Nat)
  | ownerRelease (m : Nat)
  | masterLinkUp (m : Nat)
  | createPartition (m : Nat)
  | destroyPartition (m : Nat)
  | setMode (m : Nat)
  | reStitch (m : Nat)
  | writeGrant (m : Nat)
  | releaseParkedDomain (m : Nat)
  | haltOrResume (m : Nat)
  | gangSwitch (m : Nat)
  | assignCinch (m : Nat)
  | sliceConfiguration (m : Nat)
  | attest (m : Nat)
  | fwgo (m : Nat) (len : BitVec 64)
  | bootRetry (m : Nat)
  | managementRegisterWrite (m off : Nat) (v : BitVec 64)
  -- the bridle (R229)
  | bridleLi (d : BitVec 3) (i : BitVec 8)
  | bridleLdq (d q f : BitVec 3)
  | bridleLdc (d c : BitVec 3)
  | bridleAdd (d a b : BitVec 3)
  | bridleSub (d a b : BitVec 3)
  | bridleMin (d a b : BitVec 3)
  | bridleMax (d a b : BitVec 3)
  | bridleAnd (d a b : BitVec 3)
  | bridleOr (d a b : BitVec 3)
  | bridleShl (d a b : BitVec 3)
  | bridleShr (d a b : BitVec 3)
  | bridleClt (d a b : BitVec 3)
  | bridleCeq (d a b : BitVec 3)
  | bridleSel (d a b : BitVec 3)
  | bridleJf (a : BitVec 3) (o : BitVec 8)
  | bridlePick (a : BitVec 3)
  | bridleVeto (a : BitVec 3)
  | bridleAct (a : BitVec 3) (k : BitVec 2)
  -- power, links and faults from outside
  /-- The link that carried these master ids loses training. -/
  | birlinLinkDown (ids : List Nat)
  | cxlLinkDown (port : Nat)
  | spanOrBirlinTraffic (t : Traffic)
  | coreFaultInService (core : Nat)
  | thermalLimit (on : Bool)
  -- Rows without operands stand last: the runtime numbers constructors with fields up to 244 only.
  | gSplit
  | tsExit
  | tret
  | ecall
  | ebreak
  | ownerSilenceTimeout
  | requestDone
  | deviceStart
  | startTimeout
  | powerStateEntry
  | powerWake
  | powerRemoval
  | bridleEnd
  | bridleDefer
  | powerOn
  | reset
  deriving DecidableEq, Repr

end Sys2Proof
end

