-- ==== Sys2Proof/WellFormed.lean ====
section
/-!
DEFINITION. Which terms of `Instr` are words the decoder accepts. Fields whose type already has exactly the legal values need
no check. An operand a register or a state decides is checked by the meaning, not here.
-/

namespace Sys2Proof

/-! ## Formats (R64, R116, R160) -/

/-- Width of an element in bits (R116). -/
def Fmt.width : Fmt → Nat
  | .f32 => 32 | .f16 => 16 | .b16 => 16 | .k8 => 8 | .k4 => 4
  | .i32 => 32 | .i16 => 16 | .i8 => 8 | .i4 => 4
  | .n32 => 32 | .n16 => 16 | .n8 => 8 | .e8 => 8

/-- F32, F16 and B16: the group FL of R160. -/
def Fmt.isFloat : Fmt → Bool
  | .f32 | .f16 | .b16 => true
  | .k8 | .k4 | .i32 | .i16 | .i8 | .i4 | .n32 | .n16 | .n8 | .e8 => false

/-- The group IN of R160. -/
def Fmt.isInt : Fmt → Bool
  | .i32 | .i16 | .i8 | .i4 | .n32 | .n16 | .n8 => true
  | .f32 | .f16 | .b16 | .k8 | .k4 | .e8 => false

/-- The block-scaled formats (R120). -/
def Fmt.isBlock : Fmt → Bool
  | .k8 | .k4 => true
  | .f32 | .f16 | .b16 | .i32 | .i16 | .i8 | .i4 | .n32 | .n16 | .n8 | .e8 => false

/-- The group AL of R160. -/
def Fmt.isArith (f : Fmt) : Bool := f.isFloat || f.isInt

/-! ## The checks of one command word -/

/-- No region is named: `used` and `region` are zero (R66). -/
def CmdHead.noRegion (h : CmdHead) : Bool := h.region.isNone

/-- Round 000, format 0x00 and count 0, as the tile-table and inbox commands need (R108, R111). -/
def CmdHead.bare (h : CmdHead) : Bool := h.round == .rne && h.fmt == none && h.count == 0

/-- The round field of a command whose Round entry in R160 is "FL": 000 unless the format is a float. -/
def VOps.roundFl (o : VOps) : Bool :=
  match o.head.fmt with
  | some f => f.isFloat || o.head.round == .rne
  | none => false

/-- The format lies in AL (R160). -/
def VOps.fmtAl (o : VOps) : Bool :=
  match o.head.fmt with
  | some f => f.isArith
  | none => false

/-- The format lies in FL (R160). -/
def VOps.fmtFl (o : VOps) : Bool :=
  match o.head.fmt with
  | some f => f.isFloat
  | none => false

/-- The format lies in IN (R160). -/
def VOps.fmtIn (o : VOps) : Bool :=
  match o.head.fmt with
  | some f => f.isInt
  | none => false

/-- `sat` is clear, or the command allows it and its format is an integer format (R160). -/
def VOps.satOk (o : VOps) (allowed : Bool) : Bool := !o.sat || (allowed && o.fmtIn)

/-- What every vector command needs: no region, and a zero tag without `msg` (R149). -/
def VOps.common (o : VOps) : Bool := o.head.noRegion && (o.msg || o.tag == 0)

/-- The pointer fields a command does not use are zero (R149): the flags say which of vp1, vpb, vpd and vpc it uses. -/
def VOps.unused (o : VOps) (p1 pb pd pc : Bool) : Bool :=
  (p1 || o.vp1 == 0) && (pb || o.vpb == 0) && (pd || o.vpd == 0) && (pc || o.vpc == 0)

/-- `sfmt` and `imm` are zero, as in every command that does not use them (R149). -/
def VOps.plainWord (o : VOps) : Bool := o.sfmt == none && o.imm == 0

/-- `v.add`, `v.sub`, `v.mul` (R160). -/
def VOps.wfArith2 (o : VOps) : Bool :=
  o.common && o.plainWord && o.unused true true true false && o.fmtAl && o.roundFl && o.satOk true

/-- `v.fma` (R160). -/
def VOps.wfFma (o : VOps) : Bool :=
  o.common && o.plainWord && o.fmtAl && o.roundFl && o.satOk true

/-- Two-source commands that do not round: `v.min`, `v.max`, the logic commands (R160). -/
def VOps.wfPlain2 (o : VOps) : Bool :=
  o.common && o.plainWord && o.unused true true true false && o.fmtAl && o.head.round == .rne && o.satOk false

/-- `v.shl`, `v.shr` (R160). -/
def VOps.wfShift (o : VOps) : Bool := o.wfPlain2 && o.fmtIn

/-- `v.cmp`: the mask goes through vpc, and vpd is zero (R160). -/
def VOps.wfCmp (o : VOps) : Bool :=
  o.common && o.plainWord && o.unused true true false true && o.fmtAl && o.head.round == .rne && o.satOk false

/-- `v.sel` (R160). -/
def VOps.wfSel (o : VOps) : Bool :=
  o.common && o.plainWord && o.fmtAl && o.head.round == .rne && o.satOk false

/-- `v.cvt` (R160, R163). -/
def VOps.wfCvt (o : VOps) : Bool :=
  o.common && o.imm == 0 && o.vpb == 0 && !o.sat &&
  match o.head.fmt, o.sfmt with
  | some d, some s =>
    let block := d.isBlock || s.isBlock
    d != s && (d.isArith || d.isBlock) && (s.isArith || s.isBlock) && !(d.isBlock && s.isBlock) &&
    (!block || o.head.count.toNat % 32 == 0) && (block || o.vpc == 0)
  | _, _ => false

/-- The functions of R128: `v.exp2` to `v.sig` (R160). -/
def VOps.wfFunc (o : VOps) : Bool :=
  o.common && o.plainWord && o.unused true false true false && o.fmtFl && !o.sat

/-- `v.red.add` (R160). -/
def VOps.wfRedAdd (o : VOps) : Bool :=
  o.common && o.plainWord && o.unused true false false false && o.fmtAl && o.roundFl && !o.sat

/-- `v.red.max` (R160). -/
def VOps.wfRedMax (o : VOps) : Bool :=
  o.common && o.plainWord && o.unused true false false false && o.fmtAl && o.head.round == .rne && !o.sat

/-- `v.scan.add`, `v.scl` and `v.fmas` (R160). -/
def VOps.wfArith1 (o : VOps) : Bool :=
  o.common && o.plainWord && o.unused true false true false && o.fmtAl && o.roundFl && o.satOk true

/-- `v.nzs`: `imm` is the index base (R149, R160). -/
def VOps.wfNzs (o : VOps) : Bool :=
  o.common && o.sfmt == none && o.unused true false true true && o.fmtAl && o.head.round == .rne && !o.sat

/-- `v.bcast`: the destination is vp1 (R160). -/
def VOps.wfBcast (o : VOps) : Bool :=
  o.common && o.plainWord && o.unused true false false false && o.fmtAl && o.head.round == .rne && !o.sat

/-- `v.perm` (R160). -/
def VOps.wfPerm (o : VOps) : Bool :=
  o.common && o.plainWord && o.unused true true true false && o.fmtAl && o.head.round == .rne && !o.sat

/-- `v.mov` (R160). -/
def VOps.wfMov (o : VOps) : Bool :=
  o.common && o.plainWord && o.unused true false true false && o.fmtAl && o.head.round == .rne && !o.sat

/-- `v.fill`: no bit of the value lies above the element (R167). -/
def VOps.wfFill (o : VOps) : Bool :=
  o.common && o.sfmt == none && o.unused true false false false && o.fmtAl && o.head.round == .rne && !o.sat &&
  match o.head.fmt with
  | some f => o.imm.toNat < 2 ^ f.width
  | none => false

/-- `v.trn`: pitches are multiples of 64, and I4 is refused (R160, R167). -/
def VOps.wfTrn (o : VOps) : Bool :=
  o.common && o.sfmt == none && o.unused true false true false && o.fmtAl && o.head.fmt != some .i4 &&
  o.head.round == .rne && !o.sat && o.imm.toNat % 65536 % 64 == 0 && o.imm.toNat / 65536 % 64 == 0

/-- One port set within or beyond the entry's sets (R274). -/
def PortSet.wf (p : PortSet) (inUse : Bool) : Bool :=
  if inUse then p.inm != 0 && p.outm != 0 && ((p.inm &&& p.outm) &&& 0b11110) == 0 else p.inm == 0 && p.outm == 0

/-- Formats of a virtual stream entry (R274). -/
def Fmt.isStream : Fmt → Bool
  | .f32 | .f16 | .b16 | .i32 | .n32 => true
  | .k8 | .k4 | .i16 | .i8 | .i4 | .n16 | .n8 | .e8 => false

/-- Formats an accumulator can be loaded from (R148). -/
def Fmt.isAccSource : Fmt → Bool
  | .f32 | .f16 | .b16 | .i32 | .i16 | .i8 | .i4 | .n16 | .n8 => true
  | .k8 | .k4 | .n32 | .e8 => false

/-- Commands of the collective engine: round 000 and no region (R272). -/
def CmdHead.coll (h : CmdHead) : Bool := h.noRegion && h.round == .rne

/-- Rounding mode fields 101 and 110 are not legal (R54). -/
def rmOk (rm : BitVec 3) : Bool := rm != 5 && rm != 6

/-- The rounding modes of an F instruction are legal (R54). -/
def RvInstr.wf : RvInstr → Bool
  | .farith _ _ _ _ rm | .fsqrt _ _ rm | .fused _ _ _ _ _ rm | .fcvtToInt _ _ _ rm | .fcvtToFloat _ _ _ rm => rmOk rm
  | .lui .. | .auipc .. | .jal .. | .jalr .. | .branch .. | .opImm .. | .shiftImm .. | .addiw .. | .shiftImmW .. | .op ..
  | .opW .. | .fpick .. | .fcmp .. | .fclass .. | .fmvXW .. | .fmvWX .. => true

/-- Well-formed instructions: those a word of the spec's encoding stands for. Events have no word and no check. A count of zero is legal in
every command (R66); a count above its range, and one of `d.cfg` above 0 and below its least, is BAD_COMMAND (log 67). -/
def Instr.wf : Instr → Bool
  | .engineIssue e _ _ _ => e != 7
  | .rv64Compute i => i.wf
  -- copy (R97, R98)
  | .cpRg o => o.head.round == .rne && o.head.region.isSome
  | .cpGx o => o.head.round == .rne && o.head.noRegion && o.list.toNat % 4 == 0 && !o.rel
  | .cpSx o => o.head.round == .rne && o.head.noRegion && o.list.toNat % 4 == 0
  | .cpFill o => o.head.round == .rne && o.head.region.isSome
  | .cpReg o => o.head.round == .rne && o.head.noRegion && o.src.toNat % 8 == 0 && o.off.toNat % 8 == 0 &&
      o.head.count.toNat ≤ 128
  | .cpPf o => o.head.round == .rne && o.head.noRegion && o.src.toNat % 64 == 0 && o.dst.toNat % 64 == 0 &&
      o.head.count.toNat % 64 == 0
  -- vector (R160)
  | .vAdd o | .vSub o | .vMul o => o.wfArith2
  | .vFma o => o.wfFma
  | .vMin o | .vMax o | .vAnd o | .vOr o | .vXor o => o.wfPlain2
  | .vShl o | .vShr o => o.wfShift
  | .vCmpEq o | .vCmpLt o | .vCmpLe o => o.wfCmp
  | .vSel o => o.wfSel
  | .vCvt o => o.wfCvt
  | .vExp2 o | .vLog2 o | .vRcp o | .vRsq o | .vSig o => o.wfFunc
  | .vRedAdd o => o.wfRedAdd
  | .vRedMax o => o.wfRedMax
  | .vScanAdd o | .vScl o | .vFmas o => o.wfArith1
  | .vNzs o => o.wfNzs
  | .vBcast o => o.wfBcast
  | .vPerm o => o.wfPerm
  | .vMov o => o.wfMov
  | .vFill o => o.wfFill
  | .vTrn o => o.wfTrn
  -- accumulators (R147, R148)
  | .mClr o => o.head.round == .rne && o.head.noRegion && o.head.count == 0 &&
      (o.head.fmt == none || o.head.fmt == some .f32 || o.head.fmt == some .i32)
  | .mLd o => o.head.round == .rne && o.head.noRegion && o.head.count.toNat ≤ 32 &&
      match o.head.fmt with
      | some f => f.isAccSource
      | none => false
  | .mCvt o => o.head.noRegion && o.head.count.toNat ≤ 32 &&
      match o.head.fmt with
      | some f => f != .e8 && (f.isBlock || o.tds == 0) && (!f.isBlock || o.col0.toNat % 32 == 0)
      | none => false
  | .mSv o => o.head.bare && o.head.noRegion && o.addr.toNat % 64 == 0
  | .mRs o => o.head.bare && o.head.noRegion && o.addr.toNat % 64 == 0 && o.tag == 0
  -- tile table (R108) and inbox (R111)
  | .ttBind o => o.head.bare && o.head.noRegion && 1 ≤ o.len.toNat && o.off.toNat + o.len.toNat ≤ 0xC_0000
  | .ttWait o => o.head.bare && o.head.region.isSome && 1 ≤ o.n.toNat && o.n.toNat ≤ 256 && o.tile.toNat + o.n.toNat ≤ 256
  | .ttRel o => o.head.bare && o.head.noRegion && o.rd == 0
  | .ttStat o => o.head.bare && o.head.noRegion
  | .ibDeq o => o.head.bare && o.head.noRegion && o.i == 0
  | .ibPeek o => o.head.bare && o.head.noRegion
  -- collectives (R274 to R284)
  | .coCfg o => o.head.coll && o.head.count == 0 && o.s0.wf true && o.s1.wf (1 ≤ o.last.toNat) && o.s2.wf (2 ≤ o.last.toNat) &&
      o.s3.wf (3 ≤ o.last.toNat) &&
      match o.head.fmt with
      | some f => f.isStream
      | none => false
  | .coRed o | .coBcast o => o.head.coll &&
      match o.head.fmt with
      | some f => f.isStream
      | none => false
  | .coAllr o => o.head.coll && (!o.xdev || (1 ≤ o.n.toNat && o.lo.toNat + o.n.toNat ≤ 4096)) &&
      match o.head.fmt with
      | some f => f.isStream
      | none => false
  | .coMark o => o.head.coll && o.head.bare
  | .spOpen o => o.head.coll && o.head.bare &&
      if o.recv then
        o.ring.toNat % 64 == 0 && o.len.toNat % 64 == 0 && 64 ≤ o.len.toNat && o.ring.toNat + o.len.toNat ≤ 0xC_0000 &&
        !o.role && o.target == 0 && o.tport == 0
      else o.ring == 0 && o.len == 0
  | .spSend o => o.head.coll && o.head.fmt == none && o.head.count.toNat % 8 == 0
  | .spClose o => o.head.coll && o.head.bare
  -- media (R355)
  | .dCfg o => o.head.noRegion && o.head.round == .rne && o.head.fmt == none && o.ws.toNat % 4096 == 0 &&
      16 ≤ o.w.toNat && o.w.toNat ≤ 4096 && 16 ≤ o.h.toNat && o.h.toNat ≤ 2304 &&
      (o.head.count == 0 || 4096 + 24 * o.w.toNat * o.h.toNat ≤ o.head.count.toNat)
  | .dDec o => o.head.noRegion && o.head.count.toNat ≤ 16777216 &&
      (o.head.fmt == some .k8 || (o.head.fmt == some .f16 && o.tds == 0))
  -- policy program (R229)
  | .bridleJf _ o => o.toNat ≤ 126
  | .bridleAct _ k => k != 3
  | _ => true

end Sys2Proof
end

