-- ==== Sys2Proof/Decode.lean ====
section
/-!
DEFINITION. From words to instructions and back: the 32-bit words of the control stream (R54 to R65), the 256-bit command
words of the engines (R66, R67) and the 16-bit words of the bridle (R229).
-/

namespace Sys2Proof

/-- Why a word is no instruction (R55, R69). -/
inductive Reject where
  /-- Bits [1:0] are not 0b11 (R55). -/
  | shortWord
  /-- A longer-instruction prefix (R55). -/
  | longWord
  /-- An illegal major opcode (R56). -/
  | major
  /-- An unassigned funct3, funct7, sub or op value (R69). -/
  | unassigned
  /-- A nonzero reserved or unused field, or bit 4 set in a bx, td or vp field (R58, R69). -/
  | reservedField
  /-- Scope code 12 to 15 (R63). -/
  | scopeCode
  /-- A static rounding mode 101 or 110 (R54). -/
  | rounding
  /-- A command word that raises BAD_COMMAND by its own bits (R69). -/
  | command
  /-- No instruction has this length. -/
  | length
  deriving DecidableEq, Repr

/-- What the decoder answers. -/
abbrev Decoding := Except Reject Instr

/-- The word, half-word or command words of an instruction; an event has none. -/
inductive Code where
  | word (w : Word32)
  | half (w : BitVec 16)
  | command (engine : BitVec 3) (w : CmdWords)
  | none
  deriving DecidableEq, Repr

/-! ## Fields and small codes -/

/-- A word put together from fields whose widths add up to its own. -/
def pack {n w : Nat} (x : BitVec n) (h : n = w := by rfl) : BitVec w := x.cast h

/-- The R layout, whose fields every layout shares (R57). -/
def mkR (f7 : BitVec 7) (rs2 rs1 : Reg) (f3 : BitVec 3) (rd : Reg) (maj : BitVec 7) : Word32 :=
  pack (f7 ++ (rs2 ++ (rs1 ++ (f3 ++ (rd ++ maj)))))

/-- A bx, td or vp register in a 5-bit field (R58). -/
def r4 (d : Reg4) : Reg := 0#1 ++ d

/-- A bx, td or vp register from a 5-bit field: bit 4 must be zero (R58). -/
def reg4? (r : Reg) : Option Reg4 := if r.extractLsb' 4 1 = 0 then some (r.extractLsb' 0 4) else none

/-- The code of a scope (R63). -/
def Scope.code : Scope → BitVec 4
  | .stream => 0 | .core => 1 | .gang => 2 | .row => 3 | .cluster => 4 | .quad => 5
  | .die => 6 | .device => 7 | .board => 8 | .pod => 9 | .slice => 10 | .system => 11

/-- The scope of a code; 12 to 15 name none (R63). -/
def scope? (c : BitVec 4) : Option Scope :=
  match c.toNat with
  | 0 => some .stream | 1 => some .core | 2 => some .gang | 3 => some .row | 4 => some .cluster | 5 => some .quad
  | 6 => some .die | 7 => some .device | 8 => some .board | 9 => some .pod | 10 => some .slice | 11 => some .system
  | _ => none

/-- The code of a format (R64). -/
def Fmt.code : Fmt → BitVec 8
  | .f32 => 1 | .f16 => 2 | .b16 => 3 | .k8 => 4 | .k4 => 5 | .i32 => 8 | .i16 => 9 | .i8 => 10 | .i4 => 11
  | .n32 => 12 | .n16 => 13 | .n8 => 14 | .e8 => 16

/-- The format of a code: `some none` for 0x00, `none` for a code R64 does not list. -/
def fmt? (c : BitVec 8) : Option (Option Fmt) :=
  match c.toNat with
  | 0 => some none
  | 1 => some (some .f32) | 2 => some (some .f16) | 3 => some (some .b16) | 4 => some (some .k8) | 5 => some (some .k4)
  | 8 => some (some .i32) | 9 => some (some .i16) | 10 => some (some .i8) | 11 => some (some .i4)
  | 12 => some (some .n32) | 13 => some (some .n16) | 14 => some (some .n8) | 16 => some (some .e8)
  | _ => none

/-- The code of an optional format. -/
def fmtCode : Option Fmt → BitVec 8
  | none => 0
  | some f => f.code

/-- The mode field of a matrix instruction (R11). -/
def MxMode.code : MxMode → BitVec 2
  | .acc => 0 | .ow => 1 | .sub => 2

/-- The mode of a code; 11 is illegal (R62). -/
def mxMode? (c : BitVec 2) : Option MxMode :=
  match c.toNat with
  | 0 => some .acc | 1 => some .ow | 2 => some .sub
  | _ => none

/-! ## The 32-bit words: helpers -/

/-- An instruction with one bx, td or vp operand. -/
def dec1 (mk : Reg4 → Instr) (a : Reg) : Decoding :=
  match reg4? a with
  | some a => .ok (mk a)
  | none => .error .reservedField

/-- An instruction with two bx, td or vp operands. -/
def dec2 (mk : Reg4 → Reg4 → Instr) (a b : Reg) : Decoding :=
  match reg4? a, reg4? b with
  | some a, some b => .ok (mk a b)
  | _, _ => .error .reservedField

/-- An instruction with three bx, td or vp operands. -/
def dec3 (mk : Reg4 → Reg4 → Reg4 → Instr) (a b c : Reg) : Decoding :=
  match reg4? a, reg4? b, reg4? c with
  | some a, some b, some c => .ok (mk a b c)
  | _, _, _ => .error .reservedField

/-- The unused fields are zero (R58). -/
def ifZero (zero : Bool) (d : Decoding) : Decoding := if zero then d else .error .reservedField

/-- A C-layout form with a scope field (R61, R63). -/
def decScope (mk : Scope → Instr) (s : BitVec 4) : Decoding :=
  match scope? s with
  | some s => .ok (mk s)
  | none => .error .scopeCode

/-! ## custom-0 (R60) -/

/-- Group 000, regions. -/
def decodeRegion (f7 : BitVec 7) (rs2 rs1 rd : Reg) : Decoding :=
  match f7.toNat with
  | 0x00 => dec3 .rgAnd rd rs1 rs2
  | 0x01 => dec3 .rgOr rd rs1 rs2
  | 0x02 => dec3 .rgSub rd rs1 rs2
  | 0x03 => dec2 (.rgIn rd) rs1 rs2
  | 0x04 => dec2 (fun d a => .rgDil d a rs2) rd rs1
  | 0x05 => dec2 (fun d a => .rgShf d a rs2) rd rs1
  | 0x06 => dec2 (fun d a => .rgProj d a rs2) rd rs1
  | 0x07 => dec2 (fun d a => .rgSplitK d a rs2) rd rs1
  | 0x08 => dec3 .rgClip rd rs1 rs2
  | 0x09 => ifZero (rs2 == 0) (dec1 (.rgCnt rd) rs1)
  | 0x0A => ifZero (rs2 == 0) (dec1 (.rgNbox rd) rs1)
  | 0x0B => dec1 (fun a => .rgGet rd a rs2) rs1
  | 0x0C => dec2 (fun d a => .rgSplit d a rs2) rd rs1
  | 0x10 => dec1 (fun d => .rgBox d rs1 rs2) rd
  | 0x11 => dec1 (fun d => .rgBoxs d rs1 rs2) rd
  | 0x12 => dec1 (fun d => .rgBoxr d rs1 rs2) rd
  | _ => .error .unassigned

/-- Group 101: pointers, queues, peers, gangs and cinches. -/
def decodePointer (f7 : BitVec 7) (rs2 rs1 rd : Reg) : Decoding :=
  match f7.toNat with
  | 0x00 => ifZero (rs2 == 0) (dec1 (fun d => .vPtr d rs1) rd)
  | 0x08 => ifZero (rs2 == 0 && rd == 0) (.ok (.qPush rs1))
  | 0x09 => ifZero (rs2 == 0 && rs1 == 0) (.ok (.qPop rd))
  | 0x0A => ifZero (rs1 == 0) (.ok (.qCnt rd rs2))
  | 0x10 => .ok (.paPeer rd rs1 rs2)
  | 0x18 => ifZero (rs2 == 0 && rd == 0) (.ok (.gFuse rs1))
  | 0x19 => ifZero (rs2 == 0 && rs1 == 0 && rd == 0) (.ok .gSplit)
  | 0x20 => ifZero (rs2 == 0) (.ok (.tkTake rd rs1))
  | 0x21 => ifZero (rd == 0) (.ok (.tkClr rs1 rs2))
  | 0x22 => ifZero (rs2 == 0) (.ok (.tkQs rd rs1))
  | _ => .error .unassigned

/-- Group 110, the loop buffer (Q layout: rs3 in [31:27], sub in [26:25]). -/
def decodeLoop (rs3 : Reg) (sub : BitVec 2) (rs2 rs1 rd : Reg) : Decoding :=
  match sub.toNat with
  | 0 => ifZero (rs3 == 0 && rd == 0) (.ok (.lpSet rs1 rs2))
  | 1 => ifZero (rd == 0) (.ok (.lpStep rs1 rs2 rs3))
  | 2 => ifZero (rs3 == 0 && rs2 == 0 && rs1 == 0) (.ok (.lpCnt rd))
  | _ => .error .unassigned

/-- Group 111, the skiver: `ov.set` has its descriptor in rs3 and the cover in rd (R58). -/
def decodeSkiver (rs3 : Reg) (sub : BitVec 2) (rs2 rs1 rd : Reg) : Decoding :=
  match sub.toNat with
  | 0 => dec1 (fun t => .ovSet rs1 rs2 t rd) rs3
  | 1 => ifZero (rs3 == 0 && rs2 == 0 && rd == 0) (dec1 .ovDecl rs1)
  | 2 => ifZero (rs3 == 0 && rs2 == 0 && rs1 == 0) (.ok (.ovStat rd))
  | _ => ifZero (rs3 == 0 && rs2 == 0) (dec1 (.ovCov rd) rs1)

/-- custom-0 by funct3 (R59). -/
def decodeCustom0 (f7 : BitVec 7) (rs2 rs1 : Reg) (f3 : BitVec 3) (rd : Reg) : Decoding :=
  match f3.toNat with
  | 0 => decodeRegion f7 rs2 rs1 rd
  | 1 => dec1 (fun d => .rgLd d rs1 (f7 ++ rs2)) rd
  | 2 => dec1 (fun b => .rgSt b rs1 (f7 ++ rd)) rs2
  | 3 => dec1 (fun d => .tdLd d rs1 (f7 ++ rs2)) rd
  | 4 => dec1 (fun t => .tdSt t rs1 (f7 ++ rd)) rs2
  | 5 => decodePointer f7 rs2 rs1 rd
  | 6 => decodeLoop (f7.extractLsb' 2 5) (f7.extractLsb' 0 2) rs2 rs1 rd
  | _ => decodeSkiver (f7.extractLsb' 2 5) (f7.extractLsb' 0 2) rs2 rs1 rd

/-! ## custom-1 (R11, R62) -/

/-- custom-1 by format pair: fs in [31:27], the mode in [26:25], the accumulator in [9:7]. -/
def decodeCustom1 (f7 : BitVec 7) (rs2 rs1 : Reg) (f3 : BitVec 3) (rd : Reg) : Decoding :=
  match mxMode? (f7.extractLsb' 0 2) with
  | none => .error .unassigned
  | some m =>
    let acd := rd.extractLsb' 0 3
    let fs := f7.extractLsb' 2 5
    ifZero (rd.extractLsb' 3 2 == 0) <|
    match f3.toNat with
    | 0 => .ok (.mxK8k8 acd rs1 rs2 m fs)
    | 1 => .ok (.mxK4k4 acd rs1 rs2 m fs)
    | 2 => .ok (.mxK8k4 acd rs1 rs2 m fs)
    | 3 => .ok (.mxK4k8 acd rs1 rs2 m fs)
    | 4 => .ok (.mxI8i8 acd rs1 rs2 m fs)
    | 5 => .ok (.mxI4i4 acd rs1 rs2 m fs)
    | 6 => .ok (.mxF16f16 acd rs1 rs2 m fs)
    | _ => .ok (.mxB16b16 acd rs1 rs2 m fs)

/-! ## custom-2 (R61) -/

/-- Group 000: acquire loads, and `t.ld` without a scope. -/
def decodeAcquire (s : BitVec 4) (op : BitVec 3) (rs2 rs1 rd : Reg) : Decoding :=
  match op.toNat with
  | 0 => ifZero (rs2 == 0) (decScope (.lAqB rd rs1) s)
  | 1 => ifZero (rs2 == 0) (decScope (.lAqH rd rs1) s)
  | 2 => ifZero (rs2 == 0) (decScope (.lAqW rd rs1) s)
  | 3 => ifZero (rs2 == 0) (decScope (.lAqD rd rs1) s)
  | 4 => ifZero (rs2 == 0) (decScope (.lAqBu rd rs1) s)
  | 5 => ifZero (rs2 == 0) (decScope (.lAqHu rd rs1) s)
  | 6 => ifZero (rs2 == 0) (decScope (.lAqWu rd rs1) s)
  | _ => ifZero (s == 0) (dec1 (fun t => .tLd rd t rs2) rs1)

/-- Group 001: release stores, and `t.st`, whose data register is in the rd field (R188). -/
def decodeRelease (s : BitVec 4) (op : BitVec 3) (rs2 rs1 rd : Reg) : Decoding :=
  match op.toNat with
  | 0 => ifZero (rd == 0) (decScope (.sRlB rs2 rs1) s)
  | 1 => ifZero (rd == 0) (decScope (.sRlH rs2 rs1) s)
  | 2 => ifZero (rd == 0) (decScope (.sRlW rs2 rs1) s)
  | 3 => ifZero (rd == 0) (decScope (.sRlD rs2 rs1) s)
  | 4 => ifZero (s == 0) (dec1 (fun t => .tSt rd t rs2) rs1)
  | _ => .error .unassigned

/-- Group 010: fences. -/
def decodeFence (s : BitVec 4) (op : BitVec 3) (rs2 rs1 rd : Reg) : Decoding :=
  let zero := rs2 == 0 && rs1 == 0 && rd == 0
  match op.toNat with
  | 0 => ifZero zero (decScope .feFull s)
  | 1 => ifZero zero (decScope .feAcq s)
  | 2 => ifZero zero (decScope .feRel s)
  | _ => .error .unassigned

/-- Group 011: returning atomics. -/
def decodeAtomic (s : BitVec 4) (op : BitVec 3) (rs2 rs1 rd : Reg) : Decoding :=
  match op.toNat with
  | 0 => decScope (.amAdd rd rs2 rs1) s
  | 1 => decScope (.amMin rd rs2 rs1) s
  | 2 => decScope (.amMax rd rs2 rs1) s
  | 3 => decScope (.amAnd rd rs2 rs1) s
  | 4 => decScope (.amOr rd rs2 rs1) s
  | 5 => decScope (.amXor rd rs2 rs1) s
  | 6 => decScope (.amSwp rd rs2 rs1) s
  | _ => decScope (.amCas rd rs2 rs1) s

/-- Group 100: non-returning atomics, and the two float adds. -/
def decodeAtomicN (s : BitVec 4) (op : BitVec 3) (rs2 rs1 rd : Reg) : Decoding :=
  match op.toNat with
  | 0 => ifZero (rd == 0) (decScope (.amAddn rs2 rs1) s)
  | 1 => ifZero (rd == 0) (decScope (.amMinn rs2 rs1) s)
  | 2 => ifZero (rd == 0) (decScope (.amMaxn rs2 rs1) s)
  | 3 => ifZero (rd == 0) (decScope (.amAndn rs2 rs1) s)
  | 4 => ifZero (rd == 0) (decScope (.amOrn rs2 rs1) s)
  | 5 => ifZero (rd == 0) (decScope (.amXorn rs2 rs1) s)
  | 6 => decScope (.amFadd rd rs2 rs1) s
  | _ => ifZero (rd == 0) (decScope (.amFaddn rs2 rs1) s)

/-- Group 101: `wt.ch`, which has a scope; block move, repeat and fetch control, which have none. -/
def decodeWait (s : BitVec 4) (op : BitVec 3) (rs2 rs1 rd : Reg) : Decoding :=
  match op.toNat with
  | 0 => decScope (.wtCh rd rs2 rs1) s
  | 1 => ifZero (s == 0) (.ok (.mvBlk rd rs1 rs2))
  | 2 => ifZero (s == 0 && rd == 0) (.ok (.rep rs1 rs2))
  | 3 => ifZero (s == 0) (.ok (.icPf rd rs1 rs2))
  | 4 => ifZero (s == 0) (.ok (.icPin rd rs1 rs2))
  | 5 => ifZero (s == 0) (.ok (.icUnpin rd rs1 rs2))
  | _ => .error .unassigned

/-- Group 110: events. -/
def decodeEvent (s : BitVec 4) (op : BitVec 3) (rs2 rs1 rd : Reg) : Decoding :=
  ifZero (s == 0) <|
  match op.toNat with
  | 0 => ifZero (rs2 == 0) (.ok (.evWait rd rs1))
  | 1 => ifZero (rs2 == 0 && rd == 0) (.ok (.evFire rs1))
  | 2 => ifZero (rs2 == 0) (.ok (.evBar rd rs1))
  | 3 => ifZero (rs2 == 0 && rd == 0) (.ok (.evLock rs1))
  | 4 => ifZero (rs2 == 0 && rd == 0) (.ok (.evUnlock rs1))
  | 5 => .ok (.evCadd rd rs1 rs2)
  | 6 => ifZero (rd == 0) (.ok (.evArm rs1 rs2))
  | _ => ifZero (rd == 0) (.ok (.evMsg rs1 rs2))

/-- Group 111: tasks and futures (Q layout; with sub 01, rs3 selects the form). -/
def decodeTask (rs3 : Reg) (sub : BitVec 2) (rs2 rs1 rd : Reg) : Decoding :=
  match sub.toNat with
  | 0 => .ok (.tsSpawn rd rs1 rs2 rs3)
  | 1 =>
    match rs3.toNat with
    | 0 => ifZero (rs2 == 0 && rs1 == 0 && rd == 0) (.ok .tsExit)
    | 1 => ifZero (rs2 == 0 && rs1 == 0) (.ok (.tsWeight rd))
    | 2 => ifZero (rs2 == 0 && rs1 == 0) (.ok (.fuNew rd))
    | 3 => ifZero (rd == 0) (.ok (.fuSet rs1 rs2))
    | 4 => ifZero (rs2 == 0) (.ok (.fuGet rd rs1))
    | 5 => ifZero (rs2 == 0) (.ok (.fuPoll rd rs1))
    | 6 => ifZero (rs2 == 0 && rd == 0) (.ok (.fuDrop rs1))
    | _ => .error .unassigned
  | _ => .error .unassigned

/-- custom-2 by funct3 (R59). The scope is in [31:28] and op in [27:25]; group 111 has the Q layout. -/
def decodeCustom2 (f7 : BitVec 7) (rs2 rs1 : Reg) (f3 : BitVec 3) (rd : Reg) : Decoding :=
  let s := f7.extractLsb' 3 4
  let op := f7.extractLsb' 0 3
  match f3.toNat with
  | 0 => decodeAcquire s op rs2 rs1 rd
  | 1 => decodeRelease s op rs2 rs1 rd
  | 2 => decodeFence s op rs2 rs1 rd
  | 3 => decodeAtomic s op rs2 rs1 rd
  | 4 => decodeAtomicN s op rs2 rs1 rd
  | 5 => decodeWait s op rs2 rs1 rd
  | 6 => decodeEvent s op rs2 rs1 rd
  | _ => decodeTask (f7.extractLsb' 2 5) (f7.extractLsb' 0 2) rs2 rs1 rd

/-! ## custom-3 (R65) -/

/-- custom-3: engine 111 holds the system forms, every other value issues a command. -/
def decodeCustom3 (f7 : BitVec 7) (rs2 rs1 : Reg) (f3 : BitVec 3) (rd : Reg) : Decoding :=
  if f3 = 7 then
    match f7.toNat with
    | 0x00 => ifZero (rs2 == 0 && rs1 == 0 && rd == 0) (.ok .tret)
    | 0x01 => ifZero (rs2 == 0) (.ok (.sqRd rd rs1))
    | 0x08 => ifZero (rs2 == 0 && rd == 0) (.ok (.polSwap rs1))
    | 0x09 => ifZero (rd == 0) (.ok (.migBegin rs1 rs2))
    | 0x0A => ifZero (rd == 0) (.ok (.migEnd rs1 rs2))
    | 0x0B => ifZero (rd == 0) (.ok (.tlbInv rs1 rs2))
    | 0x10 => ifZero (rs2 == 0 && rd == 0) (.ok (.svScrub rs1))
    | 0x11 => ifZero (rs2 == 0 && rd == 0) (.ok (.svHalt rs1))
    | _ => .error .unassigned
  else .ok (.engineIssue f3 (f7 ++ rd) rs1 rs2)

/-! ## The standard part (R54 to R56) -/

/-- A computation instruction. -/
def decRv (i : RvInstr) : Decoding := if i.wf then .ok (.rv64Compute i) else .error .rounding

/-- LOAD: funct3 gives width and extension. -/
def decodeLoad (imm : BitVec 12) (rs1 : Reg) (f3 : BitVec 3) (rd : Reg) : Decoding :=
  match f3.toNat with
  | 0 => .ok (.scalarLoad .lb rd rs1 imm)
  | 1 => .ok (.scalarLoad .lh rd rs1 imm)
  | 2 => .ok (.scalarLoad .lw rd rs1 imm)
  | 3 => .ok (.scalarLoad .ld rd rs1 imm)
  | 4 => .ok (.scalarLoad .lbu rd rs1 imm)
  | 5 => .ok (.scalarLoad .lhu rd rs1 imm)
  | 6 => .ok (.scalarLoad .lwu rd rs1 imm)
  | _ => .error .unassigned

/-- STORE: the immediate is split over funct7 and rd. -/
def decodeStore (f7 : BitVec 7) (rs2 rs1 : Reg) (f3 : BitVec 3) (rd : Reg) : Decoding :=
  match f3.toNat with
  | 0 => .ok (.scalarStore .sb rs2 rs1 (f7 ++ rd))
  | 1 => .ok (.scalarStore .sh rs2 rs1 (f7 ++ rd))
  | 2 => .ok (.scalarStore .sw rs2 rs1 (f7 ++ rd))
  | 3 => .ok (.scalarStore .sd rs2 rs1 (f7 ++ rd))
  | _ => .error .unassigned

/-- OP-IMM. -/
def decodeOpImm (f7 : BitVec 7) (rs2 rs1 : Reg) (f3 : BitVec 3) (rd : Reg) : Decoding :=
  let imm := f7 ++ rs2
  let sh : BitVec 6 := f7.extractLsb' 0 1 ++ rs2
  match f3.toNat with
  | 0 => decRv (.opImm .addi rd rs1 imm)
  | 1 => if f7.extractLsb' 1 6 = 0 then decRv (.shiftImm .sll rd rs1 sh) else .error .unassigned
  | 2 => decRv (.opImm .slti rd rs1 imm)
  | 3 => decRv (.opImm .sltiu rd rs1 imm)
  | 4 => decRv (.opImm .xori rd rs1 imm)
  | 5 =>
    if f7.extractLsb' 1 6 = 0 then decRv (.shiftImm .srl rd rs1 sh)
    else if f7.extractLsb' 1 6 = 0x10 then decRv (.shiftImm .sra rd rs1 sh)
    else .error .unassigned
  | 6 => decRv (.opImm .ori rd rs1 imm)
  | _ => decRv (.opImm .andi rd rs1 imm)

/-- OP-IMM-32. -/
def decodeOpImmW (f7 : BitVec 7) (rs2 rs1 : Reg) (f3 : BitVec 3) (rd : Reg) : Decoding :=
  match f3.toNat with
  | 0 => decRv (.addiw rd rs1 (f7 ++ rs2))
  | 1 => if f7 = 0 then decRv (.shiftImmW .sll rd rs1 rs2) else .error .unassigned
  | 5 =>
    if f7 = 0 then decRv (.shiftImmW .srl rd rs1 rs2)
    else if f7 = 0x20 then decRv (.shiftImmW .sra rd rs1 rs2)
    else .error .unassigned
  | _ => .error .unassigned

/-- OP. -/
def decodeOp (f7 : BitVec 7) (rs2 rs1 : Reg) (f3 : BitVec 3) (rd : Reg) : Decoding :=
  let mk (o : AluOp) := decRv (.op o rd rs1 rs2)
  match f7.toNat with
  | 0x00 =>
    match f3.toNat with
    | 0 => mk .add | 1 => mk .sll | 2 => mk .slt | 3 => mk .sltu | 4 => mk .xor | 5 => mk .srl | 6 => mk .or | _ => mk .and
  | 0x20 =>
    match f3.toNat with
    | 0 => mk .sub
    | 5 => mk .sra
    | _ => .error .unassigned
  | 0x01 =>
    match f3.toNat with
    | 0 => mk .mul | 1 => mk .mulh | 2 => mk .mulhsu | 3 => mk .mulhu | 4 => mk .div | 5 => mk .divu | 6 => mk .rem
    | _ => mk .remu
  | _ => .error .unassigned

/-- OP-32. -/
def decodeOpW (f7 : BitVec 7) (rs2 rs1 : Reg) (f3 : BitVec 3) (rd : Reg) : Decoding :=
  let mk (o : AluWOp) := decRv (.opW o rd rs1 rs2)
  match f7.toNat with
  | 0x00 =>
    match f3.toNat with
    | 0 => mk .addw | 1 => mk .sllw | 5 => mk .srlw
    | _ => .error .unassigned
  | 0x20 =>
    match f3.toNat with
    | 0 => mk .subw | 5 => mk .sraw
    | _ => .error .unassigned
  | 0x01 =>
    match f3.toNat with
    | 0 => mk .mulw | 4 => mk .divw | 5 => mk .divuw | 6 => mk .remw | 7 => mk .remuw
    | _ => .error .unassigned
  | _ => .error .unassigned

/-- The integer side of a conversion, in the rs2 field. -/
def fInt? (r : Reg) : Option FInt :=
  match r.toNat with
  | 0 => some .w | 1 => some .wu | 2 => some .l | 3 => some .lu
  | _ => none

/-- OP-FP with fmt 00 (R55). -/
def decodeOpFp (f7 : BitVec 7) (rs2 rs1 : Reg) (rm : BitVec 3) (rd : Reg) : Decoding :=
  match f7.toNat with
  | 0x00 => decRv (.farith .fadd rd rs1 rs2 rm)
  | 0x04 => decRv (.farith .fsub rd rs1 rs2 rm)
  | 0x08 => decRv (.farith .fmul rd rs1 rs2 rm)
  | 0x0C => decRv (.farith .fdiv rd rs1 rs2 rm)
  | 0x2C => if rs2 = 0 then decRv (.fsqrt rd rs1 rm) else .error .unassigned
  | 0x10 =>
    match rm.toNat with
    | 0 => decRv (.fpick .fsgnj rd rs1 rs2) | 1 => decRv (.fpick .fsgnjn rd rs1 rs2) | 2 => decRv (.fpick .fsgnjx rd rs1 rs2)
    | _ => .error .unassigned
  | 0x14 =>
    match rm.toNat with
    | 0 => decRv (.fpick .fmin rd rs1 rs2) | 1 => decRv (.fpick .fmax rd rs1 rs2)
    | _ => .error .unassigned
  | 0x50 =>
    match rm.toNat with
    | 0 => decRv (.fcmp .fle rd rs1 rs2) | 1 => decRv (.fcmp .flt rd rs1 rs2) | 2 => decRv (.fcmp .feq rd rs1 rs2)
    | _ => .error .unassigned
  | 0x60 =>
    match fInt? rs2 with
    | some t => decRv (.fcvtToInt t rd rs1 rm)
    | none => .error .unassigned
  | 0x68 =>
    match fInt? rs2 with
    | some t => decRv (.fcvtToFloat t rd rs1 rm)
    | none => .error .unassigned
  | 0x70 =>
    if rs2 = 0 then
      match rm.toNat with
      | 0 => decRv (.fmvXW rd rs1) | 1 => decRv (.fclass rd rs1)
      | _ => .error .unassigned
    else .error .unassigned
  | 0x78 => if rs2 = 0 ∧ rm = 0 then decRv (.fmvWX rd rs1) else .error .unassigned
  | _ => .error .unassigned

/-- The four fused majors: fmt 00 and rs3 in [31:27]. -/
def decodeFused (op : FFused) (f7 : BitVec 7) (rs2 rs1 : Reg) (rm : BitVec 3) (rd : Reg) : Decoding :=
  if f7.extractLsb' 0 2 = 0 then decRv (.fused op rd rs1 rs2 (f7.extractLsb' 2 5) rm) else .error .unassigned

/-- BRANCH. The offset bits of the word, from bit 31 down, are 12, 10:5 in funct7 and 4:1, 11 in rd. -/
def decodeBranch (f7 : BitVec 7) (rs2 rs1 : Reg) (f3 : BitVec 3) (rd : Reg) : Decoding :=
  let imm : BitVec 12 := f7.extractLsb' 6 1 ++ (rd.extractLsb' 0 1 ++ (f7.extractLsb' 0 6 ++ rd.extractLsb' 1 4))
  let mk (o : BrOp) := decRv (.branch o rs1 rs2 imm)
  match f3.toNat with
  | 0 => mk .beq | 1 => mk .bne | 4 => mk .blt | 5 => mk .bge | 6 => mk .bltu | 7 => mk .bgeu
  | _ => .error .unassigned

/-- JAL. The offset bits of the word, from bit 31 down, are 20, 10:1, 11, 19:12. -/
def decodeJal (f7 : BitVec 7) (rs2 rs1 : Reg) (f3 : BitVec 3) (rd : Reg) : Decoding :=
  decRv (.jal rd (f7.extractLsb' 6 1 ++ (rs1 ++ (f3 ++ (rs2.extractLsb' 0 1 ++ (f7.extractLsb' 0 6 ++ rs2.extractLsb' 1 4))))))

/-- SYSTEM: `ecall`, `ebreak` and Zicsr (R56). -/
def decodeSystem (f7 : BitVec 7) (rs2 rs1 : Reg) (f3 : BitVec 3) (rd : Reg) : Decoding :=
  match f3.toNat with
  | 0 =>
    if f7 = 0 ∧ rs1 = 0 ∧ rd = 0 then
      if rs2 = 0 then .ok .ecall else if rs2 = 1 then .ok .ebreak else .error .unassigned
    else .error .unassigned
  | 1 => .ok (.csrAccess .rw rd (.reg rs1) (f7 ++ rs2))
  | 2 => .ok (.csrAccess .rs rd (.reg rs1) (f7 ++ rs2))
  | 3 => .ok (.csrAccess .rc rd (.reg rs1) (f7 ++ rs2))
  | 5 => .ok (.csrAccess .rw rd (.imm rs1) (f7 ++ rs2))
  | 6 => .ok (.csrAccess .rs rd (.imm rs1) (f7 ++ rs2))
  | 7 => .ok (.csrAccess .rc rd (.imm rs1) (f7 ++ rs2))
  | _ => .error .unassigned

/-- MISC-MEM: `fence` and `fence.i`; the unused fields are ignored, as the specification asks. -/
def decodeMiscMem (f7 : BitVec 7) (rs2 rs1 : Reg) (f3 : BitVec 3) (rd : Reg) : Decoding :=
  match f3.toNat with
  | 0 => .ok (.fence (f7.extractLsb' 3 4) (f7.extractLsb' 0 3 ++ rs2.extractLsb' 4 1) (rs2.extractLsb' 0 4) rd rs1)
  | 1 => .ok (.fenceI (f7 ++ rs2) rd rs1)
  | _ => .error .unassigned

/-- One word by its fields (R56). -/
def decodeFields (f7 : BitVec 7) (rs2 rs1 : Reg) (f3 : BitVec 3) (rd : Reg) (maj : BitVec 7) : Decoding :=
  match maj.toNat with
  | 0x03 => decodeLoad (f7 ++ rs2) rs1 f3 rd
  | 0x07 => if f3 = 2 then .ok (.scalarLoad .flw rd rs1 (f7 ++ rs2)) else .error .unassigned
  | 0x0B => decodeCustom0 f7 rs2 rs1 f3 rd
  | 0x0F => decodeMiscMem f7 rs2 rs1 f3 rd
  | 0x13 => decodeOpImm f7 rs2 rs1 f3 rd
  | 0x17 => decRv (.auipc rd (f7 ++ (rs2 ++ (rs1 ++ f3))))
  | 0x1B => decodeOpImmW f7 rs2 rs1 f3 rd
  | 0x23 => decodeStore f7 rs2 rs1 f3 rd
  | 0x27 => if f3 = 2 then .ok (.scalarStore .fsw rs2 rs1 (f7 ++ rd)) else .error .unassigned
  | 0x2B => decodeCustom1 f7 rs2 rs1 f3 rd
  | 0x33 => decodeOp f7 rs2 rs1 f3 rd
  | 0x37 => decRv (.lui rd (f7 ++ (rs2 ++ (rs1 ++ f3))))
  | 0x3B => decodeOpW f7 rs2 rs1 f3 rd
  | 0x43 => decodeFused .fmadd f7 rs2 rs1 f3 rd
  | 0x47 => decodeFused .fmsub f7 rs2 rs1 f3 rd
  | 0x4B => decodeFused .fnmsub f7 rs2 rs1 f3 rd
  | 0x4F => decodeFused .fnmadd f7 rs2 rs1 f3 rd
  | 0x53 => decodeOpFp f7 rs2 rs1 f3 rd
  | 0x5B => decodeCustom2 f7 rs2 rs1 f3 rd
  | 0x63 => decodeBranch f7 rs2 rs1 f3 rd
  | 0x67 => if f3 = 0 then decRv (.jalr rd rs1 (f7 ++ rs2)) else .error .unassigned
  | 0x6F => decodeJal f7 rs2 rs1 f3 rd
  | 0x73 => decodeSystem f7 rs2 rs1 f3 rd
  | 0x7B => decodeCustom3 f7 rs2 rs1 f3 rd
  | _ =>
    if maj.extractLsb' 0 2 ≠ 3 then .error .shortWord
    else if maj.extractLsb' 2 3 = 7 then .error .longWord
    else .error .major

/-- A 32-bit word of the control stream. -/
def decode32 (w : Word32) : Decoding :=
  decodeFields (w.extractLsb' 25 7) (w.extractLsb' 20 5) (w.extractLsb' 15 5) (w.extractLsb' 12 3) (w.extractLsb' 7 5)
    (w.extractLsb' 0 7)

/-! ## Command words (R66, R67) -/

/-- The rounding code of a command (R66). -/
def Rnd.code : Rnd → BitVec 3
  | .rne => 0 | .rz => 1 | .sr => 2

/-- The rounding mode of a code; 011 to 111 are reserved. -/
def rnd? (c : BitVec 3) : Option Rnd :=
  match c.toNat with
  | 0 => some .rne | 1 => some .rz | 2 => some .sr
  | _ => none

/-- The patch code of a command (R66). -/
def Patch.code : Patch → BitVec 2
  | .plain => 0 | .carry => 1 | .times64 => 2

/-- The patch mode of a code; 11 is reserved. -/
def patch? (c : BitVec 2) : Option Patch :=
  match c.toNat with
  | 0 => some .plain | 1 => some .carry | 2 => some .times64
  | _ => none

/-- The `used` and region fields. -/
def regionCode : Option Reg4 → BitVec 5
  | none => 0
  | some r => 1#1 ++ r

/-- The captured region: the field must be zero when `used` is clear (R66). -/
def region? (c : BitVec 5) : Option (Option Reg4) :=
  if c.extractLsb' 4 1 = 1 then some (some (c.extractLsb' 0 4))
  else if c = 0 then some none else none

/-- The shared fields of w0. -/
def head? (w0 : Word) : Option CmdHead :=
  match patch? (w0.extractLsb' 14 2), region? (w0.extractLsb' 16 5), rnd? (w0.extractLsb' 21 3), fmt? (w0.extractLsb' 24 8) with
  | some p, some r, some q, some f => some ⟨p, r, q, f, w0.extractLsb' 32 32⟩
  | _, _, _, _ => none

/-- The combining operation of `co.cfg` (R274). -/
def CombineOp.code : CombineOp → BitVec 2
  | .add => 0 | .max => 1 | .min => 2

/-- The operation of a code; 11 is not one. -/
def combine? (c : BitVec 2) : Option CombineOp :=
  match c.toNat with
  | 0 => some .add | 1 => some .max | 2 => some .min
  | _ => none

/-- The codec code (R355). -/
def Codec.code : Codec → BitVec 2
  | .av1 => 0 | .h265 => 1 | .h266 => 2

/-- The codec of a code. -/
def codec? (c : BitVec 2) : Option Codec :=
  match c.toNat with
  | 0 => some .av1 | 1 => some .h265 | 2 => some .h266
  | _ => none

/-- A one-bit field. -/
def flag (c : BitVec 1) : Bool := c == 1

/-- A Bool as a one-bit field. -/
def flagCode (b : Bool) : BitVec 1 := BitVec.ofBool b

/-- The operands of a vector command from w1 to w3 (R149). -/
def vops? (h : CmdHead) (w : CmdWords) : Option VOps :=
  match fmt? (w.w2.extractLsb' 8 8) with
  | some sf =>
    if w.w1.extractLsb' 44 20 = 0 ∧ w.w2.extractLsb' 4 4 = 0 ∧ w.w2.extractLsb' 16 16 = 0 ∧ w.w3.extractLsb' 18 46 = 0 then
      some ⟨h, w.w1.extractLsb' 0 40, w.w1.extractLsb' 40 4, w.w2.extractLsb' 0 4, sf, w.w2.extractLsb' 32 32,
        w.w3.extractLsb' 0 4, w.w3.extractLsb' 4 4, w.w3.extractLsb' 8 8, flag (w.w3.extractLsb' 16 1),
        flag (w.w3.extractLsb' 17 1)⟩
    else none
  | none => none

/-- A vector command by its opcode (R67). -/
def vectorOp? (op : Nat) : Option (VOps → Instr) :=
  match op with
  | 0x001 => some .vAdd | 0x002 => some .vSub | 0x003 => some .vMul | 0x004 => some .vFma | 0x005 => some .vMin
  | 0x006 => some .vMax
  | 0x008 => some .vAnd | 0x009 => some .vOr | 0x00A => some .vXor | 0x00B => some .vShl | 0x00C => some .vShr
  | 0x010 => some .vCmpEq | 0x011 => some .vCmpLt | 0x012 => some .vCmpLe | 0x013 => some .vSel
  | 0x018 => some .vCvt
  | 0x020 => some .vExp2 | 0x021 => some .vLog2 | 0x022 => some .vRcp | 0x023 => some .vRsq | 0x024 => some .vSig
  | 0x028 => some .vRedAdd | 0x029 => some .vRedMax | 0x02A => some .vScanAdd | 0x02B => some .vNzs
  | 0x030 => some .vScl | 0x031 => some .vFmas | 0x032 => some .vBcast
  | 0x038 => some .vPerm | 0x039 => some .vMov | 0x03A => some .vFill | 0x03B => some .vTrn
  | _ => none

/-- Rows of a gather or scatter copy (R98). -/
def cpRows? (h : CmdHead) (w : CmdWords) (rel : Bool) : Option CpRows :=
  if w.w1.extractLsb' 48 16 = 0 ∧ w.w2.extractLsb' 20 44 = 0 ∧ w.w3.extractLsb' 16 48 = 0 ∧ w.w3.extractLsb' 1 7 = 0 then
    some ⟨h, w.w1.extractLsb' 0 40, w.w1.extractLsb' 40 4, w.w1.extractLsb' 44 4, w.w2.extractLsb' 0 20, rel,
      w.w3.extractLsb' 8 8⟩
  else none

/-- A copy command (R98). -/
def copyOp? (op : Nat) (h : CmdHead) (w : CmdWords) : Option Instr :=
  match op with
  | 1 =>
    if w.w1.extractLsb' 48 16 = 0 ∧ w.w2.extractLsb' 40 24 = 0 ∧ w.w3.extractLsb' 16 48 = 0 ∧ w.w3.extractLsb' 1 7 = 0 then
      some (.cpRg ⟨h, w.w1.extractLsb' 0 40, w.w1.extractLsb' 40 4, w.w1.extractLsb' 44 4, w.w2.extractLsb' 0 40,
        flag (w.w3.extractLsb' 0 1), w.w3.extractLsb' 8 8⟩)
    else none
  | 2 => if w.w3.extractLsb' 0 1 = 0 then (cpRows? h w false).map .cpGx else none
  | 3 => (cpRows? h w (flag (w.w3.extractLsb' 0 1))).map .cpSx
  | 4 =>
    if w.w1.extractLsb' 44 20 = 0 ∧ w.w2.extractLsb' 32 32 = 0 ∧ w.w3.extractLsb' 16 48 = 0 ∧ w.w3.extractLsb' 0 8 = 0 then
      some (.cpFill ⟨h, w.w1.extractLsb' 0 40, w.w1.extractLsb' 40 4, w.w2.extractLsb' 0 32, w.w3.extractLsb' 8 8⟩)
    else none
  | 5 =>
    if w.w1.extractLsb' 40 24 = 0 ∧ w.w2.extractLsb' 22 42 = 0 ∧ w.w3.extractLsb' 16 48 = 0 ∧ w.w3.extractLsb' 0 8 = 0 then
      some (.cpReg ⟨h, w.w1.extractLsb' 0 40, w.w2.extractLsb' 0 12, w.w2.extractLsb' 12 10, w.w3.extractLsb' 8 8⟩)
    else none
  | 6 =>
    if w.w1.extractLsb' 40 24 = 0 ∧ w.w2.extractLsb' 55 9 = 0 ∧ w.w3.extractLsb' 16 48 = 0 ∧ w.w3.extractLsb' 0 8 = 0 then
      some (.cpPf ⟨h, w.w1.extractLsb' 0 40, w.w2.extractLsb' 0 55, w.w3.extractLsb' 8 8⟩)
    else none
  | _ => none

/-- An accumulator command (R147). -/
def matrixOp? (op : Nat) (h : CmdHead) (w : CmdWords) : Option Instr :=
  match op with
  | 1 => if w.w1.extractLsb' 3 61 = 0 ∧ w.w2 = 0 ∧ w.w3 = 0 then some (.mClr ⟨h, w.w1.extractLsb' 0 3⟩) else none
  | 2 =>
    if w.w1.extractLsb' 44 20 = 0 ∧ w.w3.extractLsb' 3 61 = 0 then
      some (.mLd ⟨h, w.w1.extractLsb' 0 40, w.w1.extractLsb' 40 4, w.w2.extractLsb' 0 32, w.w2.extractLsb' 32 32,
        w.w3.extractLsb' 0 3⟩)
    else none
  | 3 =>
    if w.w1.extractLsb' 48 16 = 0 ∧ w.w3.extractLsb' 16 48 = 0 ∧ w.w3.extractLsb' 3 5 = 0 then
      some (.mCvt ⟨h, w.w1.extractLsb' 0 40, w.w1.extractLsb' 40 4, w.w1.extractLsb' 44 4, w.w2.extractLsb' 0 32,
        w.w2.extractLsb' 32 32, w.w3.extractLsb' 0 3, w.w3.extractLsb' 8 8⟩)
    else none
  | 4 =>
    if w.w1.extractLsb' 40 24 = 0 ∧ w.w2 = 0 ∧ w.w3.extractLsb' 16 48 = 0 ∧ w.w3.extractLsb' 3 5 = 0 then
      some (.mSv ⟨h, w.w1.extractLsb' 0 40, w.w3.extractLsb' 0 3, w.w3.extractLsb' 8 8⟩)
    else none
  | 5 =>
    if w.w1.extractLsb' 40 24 = 0 ∧ w.w2 = 0 ∧ w.w3.extractLsb' 16 48 = 0 ∧ w.w3.extractLsb' 3 5 = 0 then
      some (.mRs ⟨h, w.w1.extractLsb' 0 40, w.w3.extractLsb' 0 3, w.w3.extractLsb' 8 8⟩)
    else none
  | _ => none

/-- A port set of `co.cfg` in its 16 bits (R274). -/
def portSet? (c : BitVec 16) : Option PortSet :=
  if c.extractLsb' 5 3 = 0 ∧ c.extractLsb' 13 3 = 0 then some ⟨c.extractLsb' 0 5, c.extractLsb' 8 5⟩ else none

/-- The source, destination and entry of `co.red` and `co.bcast` (R276). -/
def coMove? (h : CmdHead) (w : CmdWords) : Option CoMove :=
  if w.w1.extractLsb' 40 24 = 0 ∧ w.w2.extractLsb' 8 56 = 0 ∧ w.w3.extractLsb' 16 48 = 0 ∧ w.w3.extractLsb' 0 8 = 0 then
    some ⟨h, w.w1.extractLsb' 0 20, w.w1.extractLsb' 20 20, w.w2.extractLsb' 0 8, w.w3.extractLsb' 8 8⟩
  else none

/-- A collective command (R274 to R284). -/
def collectiveOp? (op : Nat) (h : CmdHead) (w : CmdWords) : Option Instr :=
  match op with
  | 1 =>
    match combine? (w.w1.extractLsb' 10 2), portSet? (w.w2.extractLsb' 0 16), portSet? (w.w2.extractLsb' 16 16),
        portSet? (w.w2.extractLsb' 32 16), portSet? (w.w2.extractLsb' 48 16) with
    | some o, some s0, some s1, some s2, some s3 =>
      if w.w1.extractLsb' 12 52 = 0 ∧ w.w3 = 0 then
        some (.coCfg ⟨h, w.w1.extractLsb' 0 8, w.w1.extractLsb' 8 2, o, s0, s1, s2, s3⟩)
      else none
    | _, _, _, _, _ => none
  | 2 => (coMove? h w).map .coRed
  | 3 => (coMove? h w).map .coBcast
  | 4 =>
    if w.w1.extractLsb' 20 44 = 0 ∧ w.w2.extractLsb' 34 30 = 0 ∧ w.w3.extractLsb' 16 48 = 0 ∧ w.w3.extractLsb' 0 8 = 0 then
      some (.coAllr ⟨h, w.w1.extractLsb' 0 20, w.w2.extractLsb' 0 8, flag (w.w2.extractLsb' 8 1), w.w2.extractLsb' 9 12,
        w.w2.extractLsb' 21 13, w.w3.extractLsb' 8 8⟩)
    else none
  | 5 => if w.w1 = 0 ∧ w.w2.extractLsb' 8 56 = 0 ∧ w.w3 = 0 then some (.coMark ⟨h, w.w2.extractLsb' 0 8⟩) else none
  | 8 =>
    if w.w1.extractLsb' 40 24 = 0 ∧ w.w2.extractLsb' 18 46 = 0 ∧ w.w3.extractLsb' 16 48 = 0 ∧ w.w3.extractLsb' 0 8 = 0 then
      some (.spOpen ⟨h, w.w1.extractLsb' 0 20, w.w1.extractLsb' 20 20, w.w2.extractLsb' 0 2, flag (w.w2.extractLsb' 2 1),
        flag (w.w2.extractLsb' 3 1), w.w2.extractLsb' 4 12, w.w2.extractLsb' 16 2, w.w3.extractLsb' 8 8⟩)
    else none
  | 9 =>
    if w.w1.extractLsb' 20 44 = 0 ∧ w.w2.extractLsb' 2 62 = 0 ∧ w.w3.extractLsb' 17 47 = 0 ∧ w.w3.extractLsb' 0 8 = 0 then
      some (.spSend ⟨h, w.w1.extractLsb' 0 20, w.w2.extractLsb' 0 2, w.w3.extractLsb' 8 8, flag (w.w3.extractLsb' 16 1)⟩)
    else none
  | 10 => if w.w1 = 0 ∧ w.w2.extractLsb' 2 62 = 0 ∧ w.w3 = 0 then some (.spClose ⟨h, w.w2.extractLsb' 0 2⟩) else none
  | _ => none

/-- A media command (R355). -/
def mediaOp? (op : Nat) (h : CmdHead) (w : CmdWords) : Option Instr :=
  match op with
  | 0x801 =>
    match codec? (w.w2.extractLsb' 8 2) with
    | some c =>
      if w.w1.extractLsb' 40 24 = 0 ∧ w.w2.extractLsb' 6 2 = 0 ∧ w.w2.extractLsb' 10 6 = 0 ∧ w.w2.extractLsb' 29 3 = 0 ∧
          w.w2.extractLsb' 45 19 = 0 ∧ w.w3.extractLsb' 16 48 = 0 ∧ w.w3.extractLsb' 0 8 = 0 then
        some (.dCfg ⟨h, w.w1.extractLsb' 0 40, w.w2.extractLsb' 0 6, c, w.w2.extractLsb' 16 13, w.w2.extractLsb' 32 13,
          w.w3.extractLsb' 8 8⟩)
      else none
    | none => none
  | 0x802 =>
    if w.w1.extractLsb' 48 16 = 0 ∧ w.w2.extractLsb' 6 58 = 0 ∧ w.w3.extractLsb' 16 48 = 0 ∧ w.w3.extractLsb' 0 8 = 0 then
      some (.dDec ⟨h, w.w1.extractLsb' 0 40, w.w1.extractLsb' 40 4, w.w1.extractLsb' 44 4, w.w2.extractLsb' 0 6,
        w.w3.extractLsb' 8 8⟩)
    else none
  | _ => none

/-- A tile-table command (R108). -/
def tileOp? (op : Nat) (h : CmdHead) (w : CmdWords) : Option Instr :=
  match op with
  | 0x801 =>
    if w.w1.extractLsb' 28 36 = 0 ∧ w.w2.extractLsb' 36 28 = 0 ∧ w.w3.extractLsb' 32 32 = 0 then
      some (.ttBind ⟨h, w.w1.extractLsb' 0 8, w.w1.extractLsb' 8 20, w.w2.extractLsb' 0 20, w.w2.extractLsb' 20 16,
        w.w3.extractLsb' 0 32⟩)
    else none
  | 0x802 =>
    if w.w1.extractLsb' 17 47 = 0 ∧ w.w2 = 0 ∧ w.w3 = 0 then
      some (.ttWait ⟨h, w.w1.extractLsb' 0 8, w.w1.extractLsb' 8 9⟩)
    else none
  | 0x803 =>
    if w.w1.extractLsb' 8 56 = 0 ∧ w.w2 = 0 ∧ w.w3.extractLsb' 5 59 = 0 then
      some (.ttRel ⟨h, w.w1.extractLsb' 0 8, w.w3.extractLsb' 0 5⟩)
    else none
  | 0x804 =>
    if w.w1.extractLsb' 8 56 = 0 ∧ w.w2 = 0 ∧ w.w3.extractLsb' 5 59 = 0 then
      some (.ttStat ⟨h, w.w1.extractLsb' 0 8, w.w3.extractLsb' 0 5⟩)
    else none
  | _ => none

/-- An inbox command (R111). -/
def inboxOp? (op : Nat) (h : CmdHead) (w : CmdWords) : Option Instr :=
  if w.w1.extractLsb' 6 58 = 0 ∧ w.w2 = 0 ∧ w.w3.extractLsb' 5 59 = 0 then
    match op with
    | 0x801 => some (.ibDeq ⟨h, w.w1.extractLsb' 0 6, w.w3.extractLsb' 0 5⟩)
    | 0x802 => some (.ibPeek ⟨h, w.w1.extractLsb' 0 6, w.w3.extractLsb' 0 5⟩)
    | _ => none
  else none

/-- The echo and bit 11 of the opcode agree with the engine field (R66). -/
def echoOk (engine : BitVec 3) (w0 : Word) : Bool :=
  w0.extractLsb' 12 2 == engine.extractLsb' 0 2 && w0.extractLsb' 11 1 == engine.extractLsb' 2 1

/-- The command of an engine, before the checks of its fields. -/
def parseCommand (engine : BitVec 3) (w : CmdWords) : Option Instr :=
  match head? w.w0 with
  | none => none
  | some h =>
    let op := (w.w0.extractLsb' 0 12).toNat
    if echoOk engine w.w0 then
      match engine.toNat with
      | 0 => copyOp? op h w
      | 1 =>
        match vectorOp? op, vops? h w with
        | some mk, some o => some (mk o)
        | _, _ => none
      | 2 => matrixOp? op h w
      | 3 => collectiveOp? op h w
      | 4 => mediaOp? op h w
      | 5 => tileOp? op h w
      | 6 => inboxOp? op h w
      | _ => none
    else none

/-- A command word, as its engine reads it after the issue patch; every rejection is BAD_COMMAND (R69). -/
def decodeCommand (engine : BitVec 3) (w : CmdWords) : Decoding :=
  match parseCommand engine w with
  | some i => if i.wf then .ok i else .error .command
  | none => .error .command

/-! ## The bridle (R229) -/

/-- Three register fields in the low 11 bits, with bits [1:0] zero. -/
def dec16 (mk : BitVec 3 → BitVec 3 → BitVec 3 → Instr) (d : BitVec 3) (r : BitVec 8) : Decoding :=
  ifZero (r.extractLsb' 0 2 == 0) (.ok (mk d (r.extractLsb' 5 3) (r.extractLsb' 2 3)))

/-- A bridle word by its opcode, bits [10:8] and bits [7:0]. -/
def decodeBridleFields (op : BitVec 5) (d : BitVec 3) (r : BitVec 8) : Decoding :=
  match op.toNat with
  | 0 => ifZero (d == 0 && r == 0) (.ok .bridleEnd)
  | 1 => .ok (.bridleLi d r)
  | 2 => dec16 .bridleLdq d r
  | 3 => ifZero (r.extractLsb' 3 5 == 0) (.ok (.bridleLdc d (r.extractLsb' 0 3)))
  | 4 => dec16 .bridleAdd d r
  | 5 => dec16 .bridleSub d r
  | 6 => dec16 .bridleMin d r
  | 7 => dec16 .bridleMax d r
  | 8 => dec16 .bridleAnd d r
  | 9 => dec16 .bridleOr d r
  | 10 => dec16 .bridleShl d r
  | 11 => dec16 .bridleShr d r
  | 12 => dec16 .bridleClt d r
  | 13 => dec16 .bridleCeq d r
  | 14 => dec16 .bridleSel d r
  | 15 => if (Instr.bridleJf d r).wf then .ok (.bridleJf d r) else .error .unassigned
  | 16 => ifZero (r == 0) (.ok (.bridlePick d))
  | 17 => ifZero (r == 0) (.ok (.bridleVeto d))
  | 18 => ifZero (d == 0 && r == 0) (.ok .bridleDefer)
  | 19 => ifZero (r.extractLsb' 0 6 == 0)
      (if (Instr.bridleAct d (r.extractLsb' 6 2)).wf then .ok (.bridleAct d (r.extractLsb' 6 2)) else .error .unassigned)
  | _ => .error .unassigned

/-- A 16-bit word of a policy program. -/
def decodeBridle (w : BitVec 16) : Decoding :=
  decodeBridleFields (w.extractLsb' 11 5) (w.extractLsb' 8 3) (w.extractLsb' 0 8)

/-! ## Any word -/

/-- The instruction of a word, by its kind. -/
def decode : Code → Decoding
  | .word w => decode32 w
  | .half w => decodeBridle w
  | .command e w => decodeCommand e w
  | .none => .error .length

/-- The engine that a 256-bit command word itself names: bit 11 of its opcode and its echo (R66). -/
def commandEngine (w0 : Word) : BitVec 3 := w0.extractLsb' 11 1 ++ w0.extractLsb' 12 2

/-- The instruction whose bits are `w`, bit 0 being the lowest bit of the first word. -/
def decodeTableWord (nbits w : Nat) : Option Instr :=
  if nbits ≤ 16 then (decodeBridle (BitVec.ofNat 16 w)).toOption
  else if nbits ≤ 32 then (decode32 (BitVec.ofNat 32 w)).toOption
  else
    let c : CmdWords := ⟨BitVec.ofNat 64 w, BitVec.ofNat 64 (w >>> 64), BitVec.ofNat 64 (w >>> 128), BitVec.ofNat 64 (w >>> 192)⟩
    (decodeCommand (commandEngine c.w0) c).toOption

/-! ## The encoder -/

/-- A C-layout word (R57). -/
def mkC (s : Scope) (op : BitVec 3) (rs2 rs1 : Reg) (f3 : BitVec 3) (rd : Reg) : Word32 :=
  mkR (pack (s.code ++ op)) rs2 rs1 f3 rd 0x5B

/-- A Q-layout word of custom-0 (R57). -/
def mkQ (rs3 : Reg) (sub : BitVec 2) (rs2 rs1 : Reg) (f3 : BitVec 3) (rd : Reg) (maj : BitVec 7) : Word32 :=
  mkR (pack (rs3 ++ sub)) rs2 rs1 f3 rd maj

/-- An I-layout word. -/
def mkI (imm : BitVec 12) (rs1 : Reg) (f3 : BitVec 3) (rd : Reg) (maj : BitVec 7) : Word32 :=
  mkR (imm.extractLsb' 5 7) (imm.extractLsb' 0 5) rs1 f3 rd maj

/-- An S-layout word. -/
def mkS (imm : BitVec 12) (rs2 rs1 : Reg) (f3 : BitVec 3) (maj : BitVec 7) : Word32 :=
  mkR (imm.extractLsb' 5 7) rs2 rs1 f3 (imm.extractLsb' 0 5) maj

/-- An M-layout word (R11). -/
def mkM (fs : Reg) (m : MxMode) (b a : Reg) (pair : BitVec 3) (acd : AccReg) : Word32 :=
  mkR (pack (fs ++ m.code)) b a pair (pack (0#2 ++ acd)) 0x2B

/-- A U-layout word. -/
def mkU (imm : BitVec 20) (rd : Reg) (maj : BitVec 7) : Word32 :=
  mkR (imm.extractLsb' 13 7) (imm.extractLsb' 8 5) (imm.extractLsb' 3 5) (imm.extractLsb' 0 3) rd maj

/-- funct3 of an operation of RV64I, M or F. -/
def BrOp.f3 : BrOp → BitVec 3
  | .beq => 0 | .bne => 1 | .blt => 4 | .bge => 5 | .bltu => 6 | .bgeu => 7

/-- funct3 of an OP-IMM form. -/
def ImmOp.f3 : ImmOp → BitVec 3
  | .addi => 0 | .slti => 2 | .sltiu => 3 | .xori => 4 | .ori => 6 | .andi => 7

/-- funct3 of a shift. -/
def ShOp.f3 : ShOp → BitVec 3
  | .sll => 1 | .srl | .sra => 5

/-- funct7 and funct3 of an OP form. -/
def AluOp.code : AluOp → BitVec 7 × BitVec 3
  | .add => (0, 0) | .sll => (0, 1) | .slt => (0, 2) | .sltu => (0, 3) | .xor => (0, 4) | .srl => (0, 5) | .or => (0, 6)
  | .and => (0, 7) | .sub => (0x20, 0) | .sra => (0x20, 5) | .mul => (1, 0) | .mulh => (1, 1) | .mulhsu => (1, 2)
  | .mulhu => (1, 3) | .div => (1, 4) | .divu => (1, 5) | .rem => (1, 6) | .remu => (1, 7)

/-- funct7 and funct3 of an OP-32 form. -/
def AluWOp.code : AluWOp → BitVec 7 × BitVec 3
  | .addw => (0, 0) | .sllw => (0, 1) | .srlw => (0, 5) | .subw => (0x20, 0) | .sraw => (0x20, 5) | .mulw => (1, 0)
  | .divw => (1, 4) | .divuw => (1, 5) | .remw => (1, 6) | .remuw => (1, 7)

/-- funct7 of a two-operand F form. -/
def FArith.f7 : FArith → BitVec 7
  | .fadd => 0x00 | .fsub => 0x04 | .fmul => 0x08 | .fdiv => 0x0C

/-- Major opcode of a fused form. -/
def FFused.major : FFused → BitVec 7
  | .fmadd => 0x43 | .fmsub => 0x47 | .fnmsub => 0x4B | .fnmadd => 0x4F

/-- funct7 and funct3 of a sign injection, minimum or maximum. -/
def FPick.code : FPick → BitVec 7 × BitVec 3
  | .fsgnj => (0x10, 0) | .fsgnjn => (0x10, 1) | .fsgnjx => (0x10, 2) | .fmin => (0x14, 0) | .fmax => (0x14, 1)

/-- funct3 of a comparison. -/
def FCmp.f3 : FCmp → BitVec 3
  | .fle => 0 | .flt => 1 | .feq => 2

/-- The rs2 field of a conversion. -/
def FInt.code : FInt → Reg
  | .w => 0 | .wu => 1 | .l => 2 | .lu => 3

/-- The word of a computation instruction. -/
def encodeRv : RvInstr → Word32
  | .lui rd imm => mkU imm rd 0x37
  | .auipc rd imm => mkU imm rd 0x17
  | .jal rd imm =>
    mkR (pack (imm.extractLsb' 19 1 ++ imm.extractLsb' 4 6)) (pack (imm.extractLsb' 0 4 ++ imm.extractLsb' 10 1)) (imm.extractLsb' 14 5)
      (imm.extractLsb' 11 3) rd 0x6F
  | .jalr rd rs1 imm => mkI imm rs1 0 rd 0x67
  | .branch op rs1 rs2 imm =>
    mkR (pack (imm.extractLsb' 11 1 ++ imm.extractLsb' 4 6)) rs2 rs1 op.f3 (pack (imm.extractLsb' 0 4 ++ imm.extractLsb' 10 1)) 0x63
  | .opImm op rd rs1 imm => mkI imm rs1 op.f3 rd 0x13
  | .shiftImm op rd rs1 sh =>
    mkR (pack ((if op = .sra then 0x10#6 else 0#6) ++ sh.extractLsb' 5 1)) (sh.extractLsb' 0 5) rs1 op.f3 rd 0x13
  | .addiw rd rs1 imm => mkI imm rs1 0 rd 0x1B
  | .shiftImmW op rd rs1 sh => mkR (if op = .sra then 0x20 else 0) sh rs1 op.f3 rd 0x1B
  | .op op rd rs1 rs2 => mkR op.code.1 rs2 rs1 op.code.2 rd 0x33
  | .opW op rd rs1 rs2 => mkR op.code.1 rs2 rs1 op.code.2 rd 0x3B
  | .farith op rd rs1 rs2 rm => mkR op.f7 rs2 rs1 rm rd 0x53
  | .fsqrt rd rs1 rm => mkR 0x2C 0 rs1 rm rd 0x53
  | .fused op rd rs1 rs2 rs3 rm => mkR (pack (rs3 ++ 0#2)) rs2 rs1 rm rd op.major
  | .fpick op rd rs1 rs2 => mkR op.code.1 rs2 rs1 op.code.2 rd 0x53
  | .fcmp op rd rs1 rs2 => mkR 0x50 rs2 rs1 op.f3 rd 0x53
  | .fclass rd rs1 => mkR 0x70 0 rs1 1 rd 0x53
  | .fmvXW rd rs1 => mkR 0x70 0 rs1 0 rd 0x53
  | .fmvWX rd rs1 => mkR 0x78 0 rs1 0 rd 0x53
  | .fcvtToInt t rd rs1 rm => mkR 0x60 t.code rs1 rm rd 0x53
  | .fcvtToFloat t rd rs1 rm => mkR 0x68 t.code rs1 rm rd 0x53

/-- funct3 and major of a load. -/
def LoadOp.code : LoadOp → BitVec 3 × BitVec 7
  | .lb => (0, 0x03) | .lh => (1, 0x03) | .lw => (2, 0x03) | .ld => (3, 0x03) | .lbu => (4, 0x03) | .lhu => (5, 0x03)
  | .lwu => (6, 0x03) | .flw => (2, 0x07)

/-- funct3 and major of a store. -/
def StoreOp.code : StoreOp → BitVec 3 × BitVec 7
  | .sb => (0, 0x23) | .sh => (1, 0x23) | .sw => (2, 0x23) | .sd => (3, 0x23) | .fsw => (2, 0x27)

/-- funct3 of a Zicsr instruction. -/
def csrF3 : CsrOp → CsrSrc → BitVec 3
  | .rw, .reg _ => 1 | .rs, .reg _ => 2 | .rc, .reg _ => 3
  | .rw, .imm _ => 5 | .rs, .imm _ => 6 | .rc, .imm _ => 7

/-- The rs1 field of a Zicsr instruction. -/
def CsrSrc.field : CsrSrc → BitVec 5
  | .reg r => r
  | .imm u => u

/-- Word w0 of a command (R66). -/
def mkW0 (h : CmdHead) (echo : BitVec 2) (op : BitVec 12) : Word :=
  pack (h.count ++ (fmtCode h.fmt ++ (h.round.code ++ (regionCode h.region ++ (h.patch.code ++ (echo ++ op))))))

/-- The command of a vector instruction (R149). -/
def encV (op : BitVec 12) (o : VOps) : Code :=
  .command 1 ⟨mkW0 o.head 1 op,
    pack (0#20 ++ (o.vp1 ++ o.disp)),
    pack (o.imm ++ (0#16 ++ (fmtCode o.sfmt ++ (0#4 ++ o.vpb)))),
    pack (0#46 ++ (flagCode o.sat ++ (flagCode o.msg ++ (o.tag ++ (o.vpc ++ o.vpd)))))⟩

/-- The command of a gather or scatter copy (R98). -/
def encRows (op : BitVec 12) (o : CpRows) : Code :=
  .command 0 ⟨mkW0 o.head 0 op, pack (0#16 ++ (o.std ++ (o.dtd ++ o.disp))), pack (0#44 ++ o.list), pack (0#48 ++ (o.tag ++ (0#7 ++ flagCode o.rel)))⟩

/-- A port set in its 16 bits. -/
def PortSet.code (p : PortSet) : BitVec 16 := pack (0#3 ++ (p.outm ++ (0#3 ++ p.inm)))

/-- The command of `co.red` and `co.bcast`. -/
def encMove (op : BitVec 12) (o : CoMove) : Code :=
  .command 3 ⟨mkW0 o.head 3 op, pack (0#24 ++ (o.dst ++ o.src)), pack (0#56 ++ o.vsn), pack (0#48 ++ (o.tag ++ 0#8))⟩

/-- The command of `tt.rel` and `tt.stat`. -/
def encTile (op : BitVec 12) (o : TtTile) : Code := .command 5 ⟨mkW0 o.head 1 op, pack (0#56 ++ o.tile), 0, pack (0#59 ++ o.rd)⟩

/-- The command of `ib.deq` and `ib.peek`. -/
def encInbox (op : BitVec 12) (o : IbOps) : Code := .command 6 ⟨mkW0 o.head 2 op, pack (0#58 ++ o.i), 0, pack (0#59 ++ o.rd)⟩

/-- The command of `m.sv` and `m.rs`. -/
def encImage (op : BitVec 12) (o : MImg) : Code :=
  .command 2 ⟨mkW0 o.head 2 op, pack (0#24 ++ o.addr), 0, pack (0#48 ++ (o.tag ++ (0#5 ++ o.ac)))⟩

/-- A bridle word. -/
def mkB (op : BitVec 5) (d : BitVec 3) (r : BitVec 8) : Code := .half (pack (op ++ (d ++ r)))

/-- A bridle word with three registers. -/
def mkB3 (op : BitVec 5) (d a b : BitVec 3) : Code := mkB op d (pack (a ++ (b ++ 0#2)))

/-- The words of an instruction, from the encoding tables of R57 to R67, R229 and the command tables. -/
def encode : Instr → Code
  | .rgAnd d a b => .word (mkR 0x00 (r4 b) (r4 a) 0 (r4 d) 0x0B)
  | .rgOr d a b => .word (mkR 0x01 (r4 b) (r4 a) 0 (r4 d) 0x0B)
  | .rgSub d a b => .word (mkR 0x02 (r4 b) (r4 a) 0 (r4 d) 0x0B)
  | .rgIn d a b => .word (mkR 0x03 (r4 b) (r4 a) 0 d 0x0B)
  | .rgDil d a s => .word (mkR 0x04 s (r4 a) 0 (r4 d) 0x0B)
  | .rgShf d a s => .word (mkR 0x05 s (r4 a) 0 (r4 d) 0x0B)
  | .rgProj d a m => .word (mkR 0x06 m (r4 a) 0 (r4 d) 0x0B)
  | .rgSplitK d a k => .word (mkR 0x07 k (r4 a) 0 (r4 d) 0x0B)
  | .rgClip d a t => .word (mkR 0x08 (r4 t) (r4 a) 0 (r4 d) 0x0B)
  | .rgCnt d a => .word (mkR 0x09 0 (r4 a) 0 d 0x0B)
  | .rgNbox d a => .word (mkR 0x0A 0 (r4 a) 0 d 0x0B)
  | .rgGet d a i => .word (mkR 0x0B i (r4 a) 0 d 0x0B)
  | .rgSplit d a n => .word (mkR 0x0C n (r4 a) 0 (r4 d) 0x0B)
  | .rgBox d s k => .word (mkR 0x10 k s 0 (r4 d) 0x0B)
  | .rgBoxs d s k => .word (mkR 0x11 k s 0 (r4 d) 0x0B)
  | .rgBoxr d s k => .word (mkR 0x12 k s 0 (r4 d) 0x0B)
  | .rgLd d s imm => .word (mkI imm s 1 (r4 d) 0x0B)
  | .rgSt b s imm => .word (mkS imm (r4 b) s 2 0x0B)
  | .tdLd d s imm => .word (mkI imm s 3 (r4 d) 0x0B)
  | .tdSt t s imm => .word (mkS imm (r4 t) s 4 0x0B)
  | .vPtr d s => .word (mkR 0x00 0 s 5 (r4 d) 0x0B)
  | .qPush s => .word (mkR 0x08 0 s 5 0 0x0B)
  | .qPop d => .word (mkR 0x09 0 0 5 d 0x0B)
  | .qCnt d q => .word (mkR 0x0A q 0 5 d 0x0B)
  | .paPeer d a o => .word (mkR 0x10 o a 5 d 0x0B)
  | .gFuse n => .word (mkR 0x18 0 n 5 0 0x0B)
  | .gSplit => .word (mkR 0x19 0 0 5 0 0x0B)
  | .tkTake d n => .word (mkR 0x20 0 n 5 d 0x0B)
  | .tkClr n b => .word (mkR 0x21 b n 5 0 0x0B)
  | .tkQs d n => .word (mkR 0x22 0 n 5 d 0x0B)
  | .lpSet a b => .word (mkQ 0 0 b a 6 0 0x0B)
  | .lpStep i f c => .word (mkQ c 1 f i 6 0 0x0B)
  | .lpCnt d => .word (mkQ 0 2 0 0 6 d 0x0B)
  | .ovSet a b t c => .word (mkQ (r4 t) 0 b a 7 c 0x0B)
  | .ovDecl x => .word (mkQ 0 1 0 (r4 x) 7 0 0x0B)
  | .ovStat d => .word (mkQ 0 2 0 0 7 d 0x0B)
  | .ovCov d x => .word (mkQ 0 3 0 (r4 x) 7 d 0x0B)
  | .mxK8k8 c a b m f => .word (mkM f m b a 0 c)
  | .mxK4k4 c a b m f => .word (mkM f m b a 1 c)
  | .mxK8k4 c a b m f => .word (mkM f m b a 2 c)
  | .mxK4k8 c a b m f => .word (mkM f m b a 3 c)
  | .mxI8i8 c a b m f => .word (mkM f m b a 4 c)
  | .mxI4i4 c a b m f => .word (mkM f m b a 5 c)
  | .mxF16f16 c a b m f => .word (mkM f m b a 6 c)
  | .mxB16b16 c a b m f => .word (mkM f m b a 7 c)
  | .lAqB d a s => .word (mkC s 0 0 a 0 d)
  | .lAqH d a s => .word (mkC s 1 0 a 0 d)
  | .lAqW d a s => .word (mkC s 2 0 a 0 d)
  | .lAqD d a s => .word (mkC s 3 0 a 0 d)
  | .lAqBu d a s => .word (mkC s 4 0 a 0 d)
  | .lAqHu d a s => .word (mkC s 5 0 a 0 d)
  | .lAqWu d a s => .word (mkC s 6 0 a 0 d)
  | .tLd d t c => .word (mkC .stream 7 c (r4 t) 0 d)
  | .sRlB v a s => .word (mkC s 0 v a 1 0)
  | .sRlH v a s => .word (mkC s 1 v a 1 0)
  | .sRlW v a s => .word (mkC s 2 v a 1 0)
  | .sRlD v a s => .word (mkC s 3 v a 1 0)
  | .tSt v t c => .word (mkC .stream 4 c (r4 t) 1 v)
  | .feFull s => .word (mkC s 0 0 0 2 0)
  | .feAcq s => .word (mkC s 1 0 0 2 0)
  | .feRel s => .word (mkC s 2 0 0 2 0)
  | .amAdd d v a s => .word (mkC s 0 v a 3 d)
  | .amMin d v a s => .word (mkC s 1 v a 3 d)
  | .amMax d v a s => .word (mkC s 2 v a 3 d)
  | .amAnd d v a s => .word (mkC s 3 v a 3 d)
  | .amOr d v a s => .word (mkC s 4 v a 3 d)
  | .amXor d v a s => .word (mkC s 5 v a 3 d)
  | .amSwp d v a s => .word (mkC s 6 v a 3 d)
  | .amCas d e a s => .word (mkC s 7 e a 3 d)
  | .amAddn v a s => .word (mkC s 0 v a 4 0)
  | .amMinn v a s => .word (mkC s 1 v a 4 0)
  | .amMaxn v a s => .word (mkC s 2 v a 4 0)
  | .amAndn v a s => .word (mkC s 3 v a 4 0)
  | .amOrn v a s => .word (mkC s 4 v a 4 0)
  | .amXorn v a s => .word (mkC s 5 v a 4 0)
  | .amFadd d v a s => .word (mkC s 6 v a 4 d)
  | .amFaddn v a s => .word (mkC s 7 v a 4 0)
  | .wtCh d v a s => .word (mkC s 0 v a 5 d)
  | .mvBlk d s n => .word (mkC .stream 1 n s 5 d)
  | .rep c a => .word (mkC .stream 2 a c 5 0)
  | .icPf l s n => .word (mkC .stream 3 n s 5 l)
  | .icPin l s n => .word (mkC .stream 4 n s 5 l)
  | .icUnpin l s n => .word (mkC .stream 5 n s 5 l)
  | .evWait d s => .word (mkC .stream 0 0 s 6 d)
  | .evFire s => .word (mkC .stream 1 0 s 6 0)
  | .evBar d s => .word (mkC .stream 2 0 s 6 d)
  | .evLock s => .word (mkC .stream 3 0 s 6 0)
  | .evUnlock s => .word (mkC .stream 4 0 s 6 0)
  | .evCadd d c v => .word (mkC .stream 5 v c 6 d)
  | .evArm c t => .word (mkC .stream 6 t c 6 0)
  | .evMsg t w => .word (mkC .stream 7 w t 6 0)
  | .tsSpawn d a b c => .word (mkQ c 0 b a 7 d 0x5B)
  | .tsExit => .word (mkQ 0 1 0 0 7 0 0x5B)
  | .tsWeight d => .word (mkQ 1 1 0 0 7 d 0x5B)
  | .fuNew d => .word (mkQ 2 1 0 0 7 d 0x5B)
  | .fuSet h v => .word (mkQ 3 1 v h 7 0 0x5B)
  | .fuGet d h => .word (mkQ 4 1 0 h 7 d 0x5B)
  | .fuPoll d h => .word (mkQ 5 1 0 h 7 d 0x5B)
  | .fuDrop h => .word (mkQ 6 1 0 h 7 0 0x5B)
  | .engineIssue e index a b => .word (mkR (index.extractLsb' 5 7) b a e (index.extractLsb' 0 5) 0x7B)
  | .tret => .word (mkR 0x00 0 0 7 0 0x7B)
  | .sqRd d i => .word (mkR 0x01 0 i 7 d 0x7B)
  | .polSwap a => .word (mkR 0x08 0 a 7 0 0x7B)
  | .migBegin a l => .word (mkR 0x09 l a 7 0 0x7B)
  | .migEnd a l => .word (mkR 0x0A l a 7 0 0x7B)
  | .tlbInv a l => .word (mkR 0x0B l a 7 0 0x7B)
  | .svScrub c => .word (mkR 0x10 0 c 7 0 0x7B)
  | .svHalt c => .word (mkR 0x11 0 c 7 0 0x7B)
  | .scalarLoad op rd rs1 imm => .word (mkI imm rs1 op.code.1 rd op.code.2)
  | .scalarStore op rs2 rs1 imm => .word (mkS imm rs2 rs1 op.code.1 op.code.2)
  | .rv64Compute i => .word (encodeRv i)
  | .fence fm p s rd rs1 => .word (mkR (pack (fm ++ p.extractLsb' 1 3)) (pack (p.extractLsb' 0 1 ++ s)) rs1 0 rd 0x0F)
  | .fenceI imm rd rs1 => .word (mkI imm rs1 1 rd 0x0F)
  | .ecall => .word (mkR 0 0 0 0 0 0x73)
  | .ebreak => .word (mkR 0 1 0 0 0 0x73)
  | .csrAccess op rd src csr => .word (mkI csr src.field (csrF3 op src) rd 0x73)
  | .cpRg o => .command 0 ⟨mkW0 o.head 0 1, pack (0#16 ++ (o.std ++ (o.dtd ++ o.disp))), pack (0#24 ++ o.sdisp),
      pack (0#48 ++ (o.tag ++ (0#7 ++ flagCode o.rel)))⟩
  | .cpGx o => encRows 2 o
  | .cpSx o => encRows 3 o
  | .cpFill o => .command 0 ⟨mkW0 o.head 0 4, pack (0#20 ++ (o.dtd ++ o.disp)), pack (0#32 ++ o.value), pack (0#48 ++ (o.tag ++ 0#8))⟩
  | .cpReg o => .command 0 ⟨mkW0 o.head 0 5, pack (0#24 ++ o.src), pack (0#42 ++ (o.off ++ o.core)), pack (0#48 ++ (o.tag ++ 0#8))⟩
  | .cpPf o => .command 0 ⟨mkW0 o.head 0 6, pack (0#24 ++ o.src), pack (0#9 ++ o.dst), pack (0#48 ++ (o.tag ++ 0#8))⟩
  | .vAdd o => encV 0x001 o
  | .vSub o => encV 0x002 o
  | .vMul o => encV 0x003 o
  | .vFma o => encV 0x004 o
  | .vMin o => encV 0x005 o
  | .vMax o => encV 0x006 o
  | .vAnd o => encV 0x008 o
  | .vOr o => encV 0x009 o
  | .vXor o => encV 0x00A o
  | .vShl o => encV 0x00B o
  | .vShr o => encV 0x00C o
  | .vCmpEq o => encV 0x010 o
  | .vCmpLt o => encV 0x011 o
  | .vCmpLe o => encV 0x012 o
  | .vSel o => encV 0x013 o
  | .vCvt o => encV 0x018 o
  | .vExp2 o => encV 0x020 o
  | .vLog2 o => encV 0x021 o
  | .vRcp o => encV 0x022 o
  | .vRsq o => encV 0x023 o
  | .vSig o => encV 0x024 o
  | .vRedAdd o => encV 0x028 o
  | .vRedMax o => encV 0x029 o
  | .vScanAdd o => encV 0x02A o
  | .vNzs o => encV 0x02B o
  | .vScl o => encV 0x030 o
  | .vFmas o => encV 0x031 o
  | .vBcast o => encV 0x032 o
  | .vPerm o => encV 0x038 o
  | .vMov o => encV 0x039 o
  | .vFill o => encV 0x03A o
  | .vTrn o => encV 0x03B o
  | .mClr o => .command 2 ⟨mkW0 o.head 2 1, pack (0#61 ++ o.acd), 0, 0⟩
  | .mLd o => .command 2 ⟨mkW0 o.head 2 2, pack (0#20 ++ (o.td ++ o.disp)), pack (o.col0 ++ o.row0), pack (0#61 ++ o.acd)⟩
  | .mCvt o => .command 2 ⟨mkW0 o.head 2 3, pack (0#16 ++ (o.tds ++ (o.td ++ o.disp))), pack (o.col0 ++ o.row0),
      pack (0#48 ++ (o.tag ++ (0#5 ++ o.acs)))⟩
  | .mSv o => encImage 4 o
  | .mRs o => encImage 5 o
  | .ttBind o => .command 5 ⟨mkW0 o.head 1 0x801, pack (0#36 ++ (o.off ++ o.tile)), pack (0#28 ++ (o.rows ++ o.len)), pack (0#32 ++ o.lo0)⟩
  | .ttWait o => .command 5 ⟨mkW0 o.head 1 0x802, pack (0#47 ++ (o.n ++ o.tile)), 0, 0⟩
  | .ttRel o => encTile 0x803 o
  | .ttStat o => encTile 0x804 o
  | .ibDeq o => encInbox 0x801 o
  | .ibPeek o => encInbox 0x802 o
  | .coCfg o => .command 3 ⟨mkW0 o.head 3 1, pack (0#52 ++ (o.op.code ++ (o.last ++ o.vsn))),
      pack (o.s3.code ++ (o.s2.code ++ (o.s1.code ++ o.s0.code))), 0⟩
  | .coRed o => encMove 2 o
  | .coBcast o => encMove 3 o
  | .coAllr o => .command 3 ⟨mkW0 o.head 3 4, pack (0#44 ++ o.buf), pack (0#30 ++ (o.n ++ (o.lo ++ (flagCode o.xdev ++ o.vsn)))),
      pack (0#48 ++ (o.tag ++ 0#8))⟩
  | .coMark o => .command 3 ⟨mkW0 o.head 3 5, 0, pack (0#56 ++ o.vsn), 0⟩
  | .spOpen o => .command 3 ⟨mkW0 o.head 3 8, pack (0#24 ++ (o.len ++ o.ring)),
      pack (0#46 ++ (o.tport ++ (o.target ++ (flagCode o.role ++ (flagCode o.recv ++ o.port))))), pack (0#48 ++ (o.tag ++ 0#8))⟩
  | .spSend o => .command 3 ⟨mkW0 o.head 3 9, pack (0#44 ++ o.src), pack (0#62 ++ o.port), pack (0#47 ++ (flagCode o.msg ++ (o.tag ++ 0#8)))⟩
  | .spClose o => .command 3 ⟨mkW0 o.head 3 10, 0, pack (0#62 ++ o.port), 0⟩
  | .dCfg o => .command 4 ⟨mkW0 o.head 0 0x801, pack (0#24 ++ o.ws),
      pack (0#19 ++ (o.h ++ (0#3 ++ (o.w ++ (0#6 ++ (o.codec.code ++ (0#2 ++ o.slot))))))), pack (0#48 ++ (o.tag ++ 0#8))⟩
  | .dDec o => .command 4 ⟨mkW0 o.head 0 0x802, pack (0#16 ++ (o.tds ++ (o.td ++ o.au))), pack (0#58 ++ o.slot), pack (0#48 ++ (o.tag ++ 0#8))⟩
  | .bridleEnd => mkB 0 0 0
  | .bridleLi d i => mkB 1 d i
  | .bridleLdq d q f => mkB3 2 d q f
  | .bridleLdc d c => mkB 3 d (pack (0#5 ++ c))
  | .bridleAdd d a b => mkB3 4 d a b
  | .bridleSub d a b => mkB3 5 d a b
  | .bridleMin d a b => mkB3 6 d a b
  | .bridleMax d a b => mkB3 7 d a b
  | .bridleAnd d a b => mkB3 8 d a b
  | .bridleOr d a b => mkB3 9 d a b
  | .bridleShl d a b => mkB3 10 d a b
  | .bridleShr d a b => mkB3 11 d a b
  | .bridleClt d a b => mkB3 12 d a b
  | .bridleCeq d a b => mkB3 13 d a b
  | .bridleSel d a b => mkB3 14 d a b
  | .bridleJf a o => mkB 15 a o
  | .bridlePick a => mkB 16 a 0
  | .bridleVeto a => mkB 17 a 0
  | .bridleDefer => mkB 18 0 0
  | .bridleAct a k => mkB 19 a (pack (k ++ 0#6))
  -- Steps and events of the machine have no word.
  | .jointProductStart _ | .monitorWake _ | .eventLineWordLoad _ _ | .eventLineWordStore _ | .tileCellArrival _
  | .inboxMessagePost _ | .q1EntryPush _ | .routerCombine _ _ _ | .entrySetStep _ _ | .collectiveAbort _ _
  | .streamDataArrival _ | .streamCloseArrival _ | .linkFlitResend _ _ | .linkDown _ _ | .trapEntry _
  | .dispatchDecision _ _ | .deferredCoreReoffer _ _ | .preemptionDecision _ | .faultDecision _ | .queueDeadlock _
  | .futureOrphan _ _ | .launchRecordWrite _ _ | .launchAcceptance _ | .launchCompletion _ _ | .switchStop _
  | .switchQuiet _ | .switchDrain _ | .switchSave _ | .switchClearRestore _ | .switchResume _ | .ownerClaim _
  | .ownerHandover _ _ | .ownerRelease _ | .ownerSilenceTimeout | .masterLinkUp _ | .createPartition _
  | .destroyPartition _ | .setMode _ | .reStitch _ | .writeGrant _ | .releaseParkedDomain _ | .haltOrResume _
  | .gangSwitch _ | .assignCinch _ | .sliceConfiguration _ | .attest _ | .requestDone | .fwgo _ _ | .bootRetry _
  | .managementRegisterWrite _ _ _ | .deviceStart | .startTimeout | .powerStateEntry | .powerWake | .powerRemoval
  | .powerOn | .reset | .birlinLinkDown _ | .cxlLinkDown _ | .spanOrBirlinTraffic _ | .coreFaultInService _
  | .thermalLimit _ => .none

/-- The 32-bit word of a control-stream instruction; 0 for what has none. It is the value `tval` takes for an illegal
instruction (R313). -/
def encode32 (i : Instr) : Word32 :=
  match encode i with
  | .word w => w
  | .half _ | .command _ _ | .none => 0

end Sys2Proof
end

