-- ==== Sys2Proof/Machine/State.lean ====
section
/-!
DEFINITION. The state of a device: its cores, clusters, partitions and management side, memory, and the plain data that says
which agent moves next. State holds plain data only.
-/

namespace Sys2Proof.Machine

/-! ## Memory -/

/-- Bytes by address, in one canonical form: addresses rise, and no entry is 0, which is what an unlisted address reads as. -/
abbrev Memory := List Host.Cell

/-! ## Register contents -/

/-- The kind of a region (R71). -/
inductive RKind where
  | dense | strided | ragged
  deriving DecidableEq, Repr, Inhabited

/-- One dimension of a box: lower corner and extent in cells (R71). -/
structure Span1 where
  lo : Int
  ext : Nat
  deriving DecidableEq, Repr, Inhabited

/-- One box, dimension 0 first. -/
abbrev Box := List Span1

/-- A region register (R71): the image of R71 field by field. Rank 0 is the null region; EMPTY is a rank above 0 with no box. -/
structure Region where
  rank : Nat
  kind : RKind
  inexact : Bool
  lenptr : Nat
  strides : List Nat
  anchor : Int
  base : Int
  boxes : List Box
  deriving DecidableEq, Repr, Inhabited

/-- The null region (R42). -/
def Region.null : Region := ⟨0, .dense, false, 0, [], 0, 0, []⟩

/-- A tensor descriptor (R39): the fields of its image; a format code of 0x00 is `none`. -/
structure Td where
  base : Word
  fmt : Option Fmt
  rank : BitVec 3
  wrap : BitVec 7
  swizzle : BitVec 4
  grant : BitVec 16
  extents : List (BitVec 24)
  strides : List (BitVec 32)
  deriving DecidableEq, Repr, Inhabited

/-- The all-zero descriptor (R41). -/
def Td.zero : Td := ⟨0, none, 0, 0, 0, 0, List.replicate 7 0, List.replicate 7 0⟩

/-- A vector pointer (R40). -/
structure VPtr where
  tile : BitVec 8
  offset : BitVec 20
  stride : BitVec 16
  wrap : BitVec 20
  deriving DecidableEq, Repr, Inhabited

/-- The all-zero vector pointer (R41). -/
def VPtr.zero : VPtr := ⟨0, 0, 0, 0⟩

/-- The register classes of a core (R38). -/
structure Regs where
  x : Vector Word 32
  f : Vector Word32 32
  bx : Vector Region 16
  td : Vector Td 16
  vp : Vector VPtr 16
  /-- Issue values of the vector pointers (R152). -/
  vpIssue : Vector VPtr 16
  /-- For each pointer, how many `v.ptr` have written it: a command issued before the last one does not write it back (R152). -/
  vpGen : Vector Nat 16
  q0 : List Word
  q1 : List Word
  deriving DecidableEq, Repr

/-! ## CSRs (R44, R314) -/

/-- The task CSRs that are not computed from other state (R44). -/
structure Csrs where
  /-- Bits [54:5] of `cpb`. -/
  cpb : BitVec 50
  mxrow : BitVec 4
  vflags : BitVec 8
  clipc : BitVec 32
  rgovf : BitVec 32
  tile0 : Word
  tile1 : Word
  tile2 : Word
  rngctr : Word
  jobseed : Word
  taskno : Word
  launchid : BitVec 32
  fdom : BitVec 16
  fflags : BitVec 5
  frm : BitVec 3
  instret : Word
  deriving DecidableEq, Repr

/-- The trap CSRs (R314). -/
structure TrapCsrs where
  /-- Bits [54:2] of `tvec`. -/
  tvec : BitVec 53
  /-- Bits [63:2] of `tepc`. -/
  tepc : BitVec 62
  cause : BitVec 16
  detail : BitVec 4
  tval : Word
  ih : Bool
  pm : Bool
  rk : BitVec 2
  imp : Bool
  eng : BitVec 3
  more : Bool
  seq : BitVec 16
  tscratch : Word
  deriving DecidableEq, Repr

/-- The causes of R313, by their codes. -/
abbrev Cause := Nat

/-- An engine fault waiting for a boundary (R311, R312). -/
structure EngineFault where
  cause : Cause
  tval : Word
  eng : BitVec 3
  seq : BitVec 16
  deriving DecidableEq, Repr

/-! ## Issue ring, messages, tiles -/

/-- The state of an issue in the ring (R318). -/
inductive IssueState where
  | queued | running | complete | discarded
  deriving DecidableEq, Repr

/-- One entry of the issue ring (R318). -/
structure Issue where
  seq : BitVec 16
  eng : BitVec 3
  index : BitVec 12
  mx : Bool
  state : IssueState
  deriving DecidableEq, Repr

/-- An inbox message (R109). -/
structure Msg where
  eng : BitVec 3
  arrival : Bool
  status : BitVec 4
  seq : BitVec 16
  tag : BitVec 8
  cells : BitVec 32
  source : BitVec 12
  deriving DecidableEq, Repr

/-- The state of a tile (R105). -/
inductive TileState where
  | empty | filling | ready | draining
  deriving DecidableEq, Repr, Inhabited

/-- One entry of the tile table (R105). -/
structure Tile where
  state : TileState
  rel : Bool
  off : BitVec 20
  len : BitVec 20
  rows : BitVec 16
  lo0 : BitVec 32
  remaining : BitVec 32
  deriving DecidableEq, Repr, Inhabited

/-- An empty tile, zero in every field (R105). -/
def Tile.empty : Tile := ⟨.empty, false, 0, 0, 0, 0, 0⟩

/-- An entry of the data-error log (R322). -/
structure LogEntry where
  word0 : Word
  word1 : Word
  deriving DecidableEq, Repr

/-- An operation that posts a message: its kind (an engine code, 5 for an accumulator command), number and issuing core (R183). -/
structure OpKey where
  kind : Nat
  seq : BitVec 16
  source : BitVec 12
  deriving DecidableEq, Repr

/-- A write that agents of its core may not have seen: one cell or element that an engine has written (R9, R155, R172, R183), or a store
of the control stream that commands already issued may miss (R177). -/
structure Unseen where
  /-- Physical address, what the bytes were, what it made them, and the bits of each byte that it writes. -/
  pa : Nat
  old : List Byte
  new : List Byte
  mask : Byte
  /-- The operation that made it; a store has a kind of its own, above those of engines. -/
  key : OpKey
  /-- The tile it fills. -/
  tile : Option (BitVec 8)
  /-- The tiles that vector commands which made it, or come after it, have started on. -/
  used : List (BitVec 8)
  /-- Operations whose post comes after it, those whose reads do, and those that make writes after it. -/
  posts : List OpKey
  reads : List OpKey
  writes : List OpKey
  /-- The number the stream gave next when it had seen it: commands issued before may still miss it. -/
  since : Option (BitVec 16)
  /-- Later events of the stream come after it. A store meets its own stream's later writes only past a fence. -/
  met : Bool
  deriving DecidableEq, Repr

/-- Words that a `cp.reg` has landed in x, f or vp registers and whose message the target has not dequeued (R50). Entries for q0 are
ordered by their landing (R157). -/
structure Landing where
  seq : BitVec 16
  source : BitVec 12
  off : Nat
  words : List Word
  deriving DecidableEq, Repr

/-! ## Engine commands -/

/-- The pair of a matrix instruction (R11). -/
inductive Pair where
  | k8k8 | k4k4 | k8k4 | k4k8 | i8i8 | i4i4 | f16f16 | b16b16
  deriving DecidableEq, Repr

/-- A matrix instruction as issued: its operands are read at issue (R143). -/
structure MxCmd where
  pair : Pair
  mode : MxMode
  acd : AccReg
  a : Word
  b : Word
  fs : Word32
  mask : BitVec 4
  /-- The tile of A (bit 0) or B (bit 1) was empty at issue: it is not waited for (R24). -/
  unbound : BitVec 2
  deriving DecidableEq, Repr

/-- A command in a queue, with everything captured at issue (R22, R96, R152). -/
structure Cmd where
  words : CmdWords
  /-- `none` for a matrix instruction of custom-1. -/
  mx : Option MxCmd
  seq : BitVec 16
  /-- Address of the command word in the pool. -/
  pool : Word
  /-- The patch or the count did not fit: BAD_COMMAND at acceptance (R22, R66). -/
  bad : Bool
  /-- Issued in supervisor mode (R295). -/
  sup : Bool
  region : Region
  /-- Line lengths of a ragged region, read at issue (R99); `none` if its table leaves the scratchpad. -/
  lens : Option (List Nat)
  td1 : Td
  td2 : Td
  /-- Captured issue values of the pointers named as vp1, vpb, vpd and vpc, and their generation. -/
  ptrs : List (BitVec 4 × VPtr × Nat)
  /-- The offset of a pointer that named a tile that was empty at issue (R153). -/
  emptyTile : Option (BitVec 20)
  ctr0 : Word
  /-- Logical number of the issuing core (R109, R123). -/
  lcore : Nat
  /-- The fill tile with the cells expected, and the source tile, found at issue (R106, R107). -/
  fill : Option (BitVec 8 × Nat)
  from? : Option (BitVec 8)
  deriving DecidableEq, Repr

/-- An exact running sum: `num * 2^ex` with what IEEE special values it has met (R164). -/
structure ExactSum where
  num : Int
  ex : Int
  nan : Bool
  pinf : Bool
  ninf : Bool
  /-- Every term so far was a negative zero. -/
  negZero : Bool
  deriving DecidableEq, Repr, Inhabited

/-- A vector command that has started (R168). -/
structure VRun where
  cmd : Cmd
  step : Nat
  ptrs : List (BitVec 4 × VPtr × Nat)
  /-- The popped scalar, or the greatest element so far of `v.red.max`. -/
  scalar : Word
  sum : ExactSum
  outCount : Nat
  flags : BitVec 8
  /-- A q1 entry still to push and a message still to post (R156, R158). -/
  push : Option Word
  post : Option Msg
  /-- Every step is done. -/
  done : Bool
  deriving DecidableEq, Repr

/-- A copy in flight (R326): the resume point counts cells (or rows, words, bytes) in order. -/
structure CopyRun where
  cmd : Cmd
  pos : Nat
  /-- The index-list entry of the row in progress, read once (R100). -/
  entry : Option Nat
  written : Nat
  clipped : Bool
  dataErr : Bool
  status : Nat
  /-- A `cp.reg` has landed at its target (R101). -/
  landed : Bool
  /-- Every cell is done and the message waits to post (R110). -/
  post : Option Msg
  deriving DecidableEq, Repr

/-- A joint product of which this core is a participant, by its mask: the next K-block (R146). -/
structure MxRun where
  cmd : Cmd
  k : Nat
  block : Nat
  flags : BitVec 8
  deriving DecidableEq, Repr

/-- The matrix engine's head. -/
inductive MatrixRun where
  | product (r : MxRun)
  /-- An accumulator command whose message waits to post. -/
  | posting (c : Cmd) (m : Msg) (flags : BitVec 8)
  deriving DecidableEq, Repr

/-- A collective command that has started: chunks sent into the router and chunks taken back (R276, R278). -/
structure CollRun where
  cmd : Cmd
  sent : Nat
  received : Nat
  written : Nat
  flags : BitVec 8
  /-- The step of its entry that a `co.red` or `co.bcast` belongs to (R277). -/
  step : Nat
  /-- At a stop: the chunk number before which every member stops (R281). -/
  limit : Option Nat
  post : Option Msg
  deriving DecidableEq, Repr

/-- A media command whose message waits to post. -/
structure MediaRun where
  cmd : Cmd
  flags : BitVec 8
  post : Option Msg
  deriving DecidableEq, Repr

/-- The engines of a core: queues (R20, R23) and what runs. -/
structure Engines where
  vq : List Cmd
  cq : List Cmd
  mq : List Cmd
  kq : List Cmd
  dq : List Cmd
  vrun : Option VRun
  copies : List CopyRun
  /-- What the copy engine does next: 0 starts the head of its queue, k + 1 moves the copy in flight number k. -/
  pick : Nat
  mrun : Option MatrixRun
  krun : Option CollRun
  drun : Option MediaRun
  /-- A matrix head posted to the row barrier (R132). -/
  posted : Bool
  deriving DecidableEq, Repr

/-! ## Router and streams -/

/-- A chunk or marker of a virtual stream entry on its way into a router (R273, R275). -/
structure Chunk where
  vsn : BitVec 8
  /-- Port set the chunk travels along: for `co.allr` 0 up and 1 down. -/
  set : BitVec 2
  /-- Router port it came in by: 0 local, 1 W, 2 N, 3 E, 4 S. -/
  port : Nat
  marker : Bool
  allr : Bool
  /-- The wave in the count of the router that holds it, as a `WaveName` gives it, and the number of the chunk in the wave. -/
  step : Nat
  wave : Nat
  index : Nat
  count : Nat
  fmt : Option Fmt
  op : CombineOp
  /-- Element bits. -/
  data : List Nat
  flags : BitVec 8
  deriving DecidableEq, Repr

/-- A wave of an entry as a router counts it: an all-reduce by its number, another wave by the step of the entry and its number in the
step (R277, R278, R280). -/
structure WaveName where
  allr : Bool
  step : Nat
  idx : Nat
  deriving DecidableEq, Repr

/-- A configured virtual stream entry (R273). -/
structure VsEntry where
  op : CombineOp
  fmt : Fmt
  sets : List PortSet
  /-- Steps taken since it was configured; they give the current set index (R277). -/
  steps : Nat
  /-- Waves that have passed this router in the current step, all-reduces that have passed it upwards and downwards, and marks of its own
  core. -/
  wave : Nat
  up : Nat
  down : Nat
  marks : Nat
  deriving DecidableEq, Repr

/-- A stream port (R282). -/
inductive StreamPort where
  | closed
  /-- Receive: ring offset, length, sender (core and port), bytes received and not returned, held by a sender. -/
  | recv (ring len : Nat) (sender : Option (Nat × Nat)) (unreturned : Nat)
  /-- Send: target core and port, credit, ring offset to write next, ring length, and the ends of the route whose lanes it holds. -/
  | send (target tport credit pos len : Nat) (route : Nat × Nat)
  /-- Send, after the target's task has gone: every send completes with status 7 (R284). Its lanes are held until it is closed. -/
  | cut (route : Nat × Nat)
  deriving DecidableEq, Repr

/-- Stream data or a closing marker on its way to a receive port (R283, R284). -/
structure StreamFlit where
  /-- The `sp.send` that sent it. -/
  key : OpKey
  tport : Nat
  close : Bool
  pos : Nat
  bytes : List Byte
  msg : Option Msg
  deriving DecidableEq, Repr

/-- What a saddlebag holds (R328). -/
inductive Flit where
  | chunk (k : Chunk)
  | stream (f : StreamFlit)
  deriving DecidableEq, Repr

/-- An abort or a lost link that a router has learnt of: entry, wave, and the status its own core's command ends with (R280). -/
structure WaveEnd where
  vsn : Nat
  name : WaveName
  status : Nat
  deriving DecidableEq, Repr

/-- What a router holds. -/
structure Router where
  entries : List (Nat × VsEntry)
  chunks : List Chunk
  streams : Vector StreamPort 4
  flits : List StreamFlit
  /-- Failed resends in a row and links taken down, by port 1 to 4 (R280). -/
  fails : List (Nat × Nat)
  down : List Nat
  aborted : List WaveEnd
  saddlebag : List Flit
  deriving DecidableEq, Repr

/-! ## Loops, gangs, waiting -/

/-- A step-table entry (R254). -/
structure StepEntry where
  i : Nat
  f : Nat
  inc : Int
  deriving DecidableEq, Repr

/-- The mode of the loop state (R253). -/
inductive LoopMode where
  | none | loop | overwrite
  deriving DecidableEq, Repr

/-- The registers an overwrite iteration restarts from (R265). -/
structure Checkpoint where
  x : Vector Word 32
  f : Vector Word32 32
  bx : Vector Region 16
  fflags : BitVec 5
  frm : BitVec 3
  clipc : BitVec 32
  rgovf : BitVec 32
  skipped : BitVec 32
  suppressed : BitVec 32
  deriving DecidableEq, Repr

/-- The loop state of a core (R253). -/
structure LoopState where
  table : List StepEntry
  /-- The steps bound to the running body. -/
  steps : List StepEntry
  body : List Word32
  start : Word
  mode : LoopMode
  pass : Nat
  left : Nat
  suspended : Bool
  td : Td
  tdReg : Reg4
  cover : Nat
  elems : Nat
  everSet : Bool
  check : Option Checkpoint
  resume : Word
  declared : Bool
  footprint : Region
  lens : List Nat
  skipped : BitVec 32
  suppressed : BitVec 32
  deriving DecidableEq, Repr

/-- Gang membership of a core (R246, R247). -/
structure Gang where
  size : Nat
  /-- Physical id of the leader. -/
  leader : Nat
  /-- The address this member goes on at once every member has retired the instruction. -/
  retired : Option Word
  deriving DecidableEq, Repr

/-- What a core is blocked or asleep in (R28, R248). -/
inductive Wait where
  | none
  /-- A counted queue or pipe operation. -/
  | counted
  /-- A wait that does not count for the deadlock rule. -/
  | asleep
  /-- A pending `g.fuse n`. -/
  | fuse (n : Nat)
  /-- A line-word load that reached the unit at this phase (R243). -/
  | lineWord (line : Nat) (phase : BitVec 16)
  /-- `ts.exit` waiting for the task's commands (R218). -/
  | exit
  /-- A `mv.blk` or `rep` between two words, or a woken `wt.ch` before its final read. -/
  | partway
  /-- A `tk.take` whose token is in its network: it is not interruptible (R250). -/
  | token
  /-- `sv.scrub` waiting for the task of a core to end; the dispatcher binds nothing there meanwhile (R308). -/
  | scrub (id : Nat)
  deriving DecidableEq, Repr

/-- What is bound to a core. -/
inductive Bound where
  | idle
  /-- A task: its launch by key, node, number, weight and PIPE role. -/
  | task (launch node : Nat) (number weight : Nat) (role : Option Nat)
  /-- Supervisor code of the partition (R296). -/
  | supervisor
  deriving DecidableEq, Repr

/-- Where a fault left a task for its fault decision (R315, R372). -/
inductive Held where
  | no
  /-- Stopped on the core, its engines stopped, waiting for its fault decision (R372). -/
  | stopped
  /-- Halted by a nested trap (R316). -/
  | double
  /-- Handed on, once its wave stands at the agreed chunk and its copies of one step are done (R281, R326, R372). -/
  | leaving
  deriving DecidableEq, Repr

/-- A supervisor store that waits for a core's resume: window offset, bytes, and for a 4-bit element whether it is the high nibble
(R334). -/
structure LateStore where
  off : Nat
  bytes : List Byte
  half : Option Bool
  deriving DecidableEq, Repr

/-- One core (R20, R38). -/
structure Core where
  regs : Regs
  csr : Csrs
  trap : TrapCsrs
  /-- Issue sequence counter, `sqnext` (R26). -/
  seqctr : BitVec 16
  /-- The last 64 issues, newest first. -/
  ring : List Issue
  pc : Word
  sup : Bool
  /-- Accumulator window, offsets 0 to 0x1_FFFF from 0xC_0000 (R49). -/
  acc : Memory
  /-- Bit n set: ac n has type I32 (R137, R330). -/
  actype : BitVec 8
  /-- Scratchpad bytes (R47). -/
  spad : Memory
  /-- Tile table entries that are not empty (R105). -/
  tiles : List (Nat × Tile)
  inbox : List Msg
  /-- Messages waiting to enter the inbox (R110). -/
  posts : List Msg
  /-- Cells of fill copies written or suppressed and not yet counted: tile and cells (R107). -/
  arrivals : List (BitVec 8 × Nat)
  eng : Engines
  router : Router
  faults : List EngineFault
  recseq : Nat
  errlog : List LogEntry
  errlost : BitVec 16
  loop : LoopState
  gang : Option Gang
  wait : Wait
  bound : Bound
  /-- Partition of the bound task or supervisor code. -/
  part : Nat
  held : Held
  /-- Stopped by a gang switch (R324). -/
  stopped : Bool
  /-- Halted with its launch (R333). -/
  halted : Bool
  /-- `ts.exit` has begun (R218). -/
  exiting : Bool
  /-- Domain the scratchpad belongs to: partition, launch and number (R308, R309). -/
  dom : Option (Nat × Nat × Nat)
  /-- Lines pinned in the L1 instruction cache (R196). -/
  pins : List Nat
  /-- Lines this core stored to since its last `fence.i`, with the bytes they held before (R53). -/
  stale : List (Nat × List Byte)
  /-- Supervisor stores into this core's windows while its launch is halted, in order (R334). -/
  late : List LateStore
  /-- The core has developed a fault in service (R18). -/
  failed : Bool
  /-- Writes of this core that an agent of its own may not have seen, newest first (R9, R183). -/
  unseen : List Unseen
  /-- Landed copies into this core's x, f and vp registers, oldest first (R50). -/
  landings : List Landing
  /-- The commands that pushed the entries of q1 (R159). -/
  pushers : List OpKey
  /-- The x registers at the last boundary, while an instruction is partway (R50, R193). -/
  boundary : Vector Word 32
  /-- After a gang switch: the operations that had finished and still owe their message, in issue order (R327). -/
  owed : List OpKey
  deriving DecidableEq, Repr

/-! ## Clusters -/

/-- An event line (R233). -/
structure EvLine where
  phase : BitVec 16
  /-- The last firing came from an `ev.msg` (R235). -/
  byMsg : Bool
  deriving DecidableEq, Repr, Inhabited

/-- A barrier (R233). -/
structure EvBarrier where
  phase : BitVec 16
  count : Nat
  arrivals : BitVec 16
  deriving DecidableEq, Repr, Inhabited

/-- A mutex (R233): held by a core number, with the waiting core numbers in order. -/
structure EvMutex where
  holder : Option Nat
  waiters : List Nat
  deriving DecidableEq, Repr, Inhabited

/-- A counter (R233): armed thresholds in the order they were armed, each with its line. -/
structure EvCounter where
  value : BitVec 32
  armed : List (BitVec 32 × Nat)
  deriving DecidableEq, Repr, Inhabited

/-- The event unit and the second-level instruction cache's pins of a cluster. A claimed resource stands under the key
owner * 32 + index; an owner is a launch key plus 1, or 0 for the partition's supervisor code (R234, R296). A second owner of
one index is an entry the spill walker keeps (R245). -/
structure Cluster where
  lines : List (Nat × EvLine)
  barriers : List (Nat × EvBarrier)
  mutexes : List (Nat × EvMutex)
  counters : List (Nat × EvCounter)
  /-- Second-level pins: line and owner (R196). -/
  pins : List (Nat × Nat)
  deriving DecidableEq, Repr

/-- A cluster in its zero state. -/
def Cluster.zero : Cluster := ⟨[], [], [], [], []⟩

/-! ## Launches and tasks -/

/-- The kind of a node with its own fields (R33, R204). -/
inductive NodeKind where
  | group (seq : Bool)
  | cond (pred : Word)
  | pipe (roles : List Word)
  | leaf (entry : Word) (dims ext0 ext1 ext2 : Nat)
  deriving DecidableEq, Repr

/-- What a node is doing (R33, R37). -/
inductive NodeState where
  | pending | ready | complete
  deriving DecidableEq, Repr

/-- One node of the kept tree, with effective budgets (R204, R205). -/
structure Node where
  kind : NodeKind
  parent : Option Nat
  children : List Nat
  domain : Nat
  prio : Nat
  cores : Nat
  scratch : Nat
  inbox : Nat
  copy : Nat
  futures : Nat
  starve : Nat
  policy : BitVec 8
  cpb : BitVec 50
  state : NodeState
  weight : Nat
  /-- Live tasks of the node. -/
  live : Nat
  deriving DecidableEq, Repr

/-- A task that is not bound to a core (R216, R224). -/
structure Task where
  launch : Nat
  node : Nat
  number : Nat
  weight : Nat
  entry : Word
  args : List Word
  /-- Bits [54:5] of `cpb` at bind. -/
  cpb : BitVec 50
  tile0 : Word
  tile1 : Word
  tile2 : Word
  role : Option Nat
  /-- Future slots it still waits for (R217). -/
  waits : List Nat
  /-- Policy decisions since it became ready (R225). -/
  age : Nat
  /-- Its context, if it was handed on, and the hand-on image that holds it: context area and logical core (R372). -/
  ctx : Option Core
  image : Option (Nat × Nat)
  /-- Only this physical core may take it (R372). -/
  only : Option Nat
  /-- The entry of `cores`, past the last physical core, that keeps its stream ports while it is off its core. -/
  ghost : Nat
  deriving DecidableEq, Repr

/-- An active launch (R203, R208, R220). -/
structure Launch where
  key : Nat
  id : BitVec 32
  jobseed : Word
  args : List Word
  record : Word
  sigcore : Nat
  sigkind : Nat
  vector : Nat
  cores : Bool
  nomove : Bool
  nodes : List Node
  acc : Nat
  target : Nat
  loans : Nat
  counter : Nat
  poolSize : Nat
  /-- Numbers of the tasks that hold a slot of the task pool (R216). -/
  pool : List Nat
  faults : BitVec 32
  overruns : BitVec 32
  forced : Word
  tasks : Word
  faulted : Bool
  killed : Bool
  cause : Nat
  domain : Nat
  start : Word
  halted : Bool
  deriving DecidableEq, Repr

/-- State of a future (R213). -/
inductive FutState where
  | empty | pending | full | dropped
  deriving DecidableEq, Repr, Inhabited

/-- A slot of the future table (R213). -/
structure Future where
  value : Word
  state : FutState
  gen : BitVec 16
  launch : Nat
  node : Nat
  deriving DecidableEq, Repr, Inhabited

/-! ## Partitions -/

/-- Stitching of a partition (R268). -/
inductive Stitching where
  | mesh | ring | torus | tree
  deriving DecidableEq, Repr

/-- Mode of a partition (R298). -/
inductive PMode where
  | startup | service | test | recovery
  deriving DecidableEq, Repr

/-- An entry of the grant table (R300). -/
structure Grant where
  valid : Bool
  rd : Bool
  wr : Bool
  tag : BitVec 8
  fmt : BitVec 8
  rank : BitVec 3
  swizzle : BitVec 4
  launch : BitVec 32
  base : Word
  strides : List (BitVec 32)
  region : Region
  /-- The 320 bytes as they were written: what an entry written with valid clear keeps (R301). -/
  image : BitVec 2560
  deriving DecidableEq, Repr

/-- A policy program (R230). -/
structure Policy where
  budget : Nat
  code : List (BitVec 16)
  deriving DecidableEq, Repr

/-- The kind and subject of a decision (R222). -/
inductive DecisionKind where
  | dispatch (core : Nat)
  | preempt
  | fault (domain : Nat)
  deriving DecidableEq, Repr

/-- A fault waiting for its decision (R222, R227). -/
structure FaultReq where
  domain : Nat
  cause : Nat
  passes : Nat
  /-- The faulting task: launch key and task number, if it is a task's fault. -/
  task : Option (Nat × Nat)
  /-- The physical core it stays bound on, if it does. -/
  core : Option Nat
  /-- In test mode: the launch has been halted for it (R298). -/
  tested : Bool
  deriving DecidableEq, Repr

/-- A queue head that fits the offered core in a decision's snapshot, with the cores that it and the tasks bound with it take: tasks by
launch key and number, in the order in which the heads became ready (R224, R226). -/
structure Fit where
  queue : Nat
  prio : Nat
  age : Nat
  launch : Nat
  places : List ((Nat × Nat) × Nat)
  deriving DecidableEq, Repr

/-- A decision that runs the bridle (R226, R229). -/
structure Decision where
  kind : DecisionKind
  req : Option FaultReq
  index : Nat
  steps : Nat
  p : Vector Word32 8
  vetoes : List Nat
  /-- The snapshot: eight fields of each of the eight queues, and the eight values of `ldc` (R228). -/
  queues : List (List Word32)
  counts : List Word32
  fits : List Fit
  deriving DecidableEq, Repr

/-- A translation some TLB may still hold (R305, R306). -/
structure TlbEntry where
  /-- First virtual address and size of the block. -/
  va : Nat
  size : Nat
  /-- Physical base and rights R, W, X, S. -/
  pa : Nat
  rights : BitVec 4
  deriving DecidableEq, Repr

/-- The phases of a gang switch (R324). -/
inductive Phase where
  | none | granted | stop | quiet | drain | save | restored
  deriving DecidableEq, Repr

/-- A token in a network (R249): the core that takes, the wire it entered on, and the outputs it has left its balancers by. -/
structure Token where
  core : Nat
  wire : Nat
  bits : List Bool
  deriving DecidableEq, Repr

/-- A cinch (R249). Its entry is closed while some `tk.clr` waits there; takes wait at it in the order they reached it (R250). -/
structure Cinch where
  toggles : BitVec 240
  counts : List Word
  base : Word
  /-- Closed by a gang switch. -/
  shut : Bool
  closers : List Nat
  queue : List Nat
  tokens : List Token
  part : Option Nat
  deriving DecidableEq, Repr

/-- A network in its zero state, its entry open. -/
def Cinch.zero : Cinch := ⟨0, List.replicate 32 0, 0, false, [], [], [], none⟩

/-- An open migration (R307): the core, the range, and the physical pages its entries named at `mig.begin`. -/
structure Migration where
  core : Nat
  va : Nat
  len : Nat
  pages : List Nat
  deriving DecidableEq, Repr

/-- A context saved in a context area (R323, R331). -/
structure Context where
  area : Nat
  /-- The partition that saved it, its corner and its shape. -/
  part : Nat
  x0 : Nat
  y0 : Nat
  width : Nat
  height : Nat
  /-- By logical core number. -/
  cores : List (Nat × Core)
  /-- By place in the partition. -/
  clusters : List (Nat × Cluster)
  cinches : List (Nat × Cinch)
  migration : Option Migration
  /-- The launches that were active, by key. -/
  launches : List Nat
  /-- Domains killed while the context is out of its partition. -/
  kills : List Nat
  deriving DecidableEq, Repr

/-- One partition (R297). Clusters are counted on the 16 × 16 grid. -/
structure Partition where
  x0 : Nat
  y0 : Nat
  w : Nat
  h : Nat
  stitching : Stitching
  root : Nat
  area : Nat
  logBase : Nat
  logK : Nat
  handler : BitVec 53
  supEntry : Word
  supArg : Word
  mode : PMode
  grants : List (Nat × Grant)
  port : List (BitVec 512)
  notTaken : BitVec 16
  launches : List Launch
  nextKey : Nat
  decisions : Word
  program : Option Policy
  /-- Ready tasks in the order they became ready (R224); a task's queue is policy[2:0] of its node. -/
  ready : List Task
  /-- Tasks that wait on futures. -/
  waiting : List Task
  /-- Tasks of parked domains, and tasks stopped for a fault decision (R232, R227). -/
  parkedTasks : List Task
  stoppedTasks : List Task
  parked : List Nat
  killed : List Nat
  /-- Faults taken by a domain (R228). -/
  domFaults : List (Nat × Nat)
  faults : List FaultReq
  /-- Cores with an offer outstanding, in order; marked if a ready task caused it, so that a core nothing fits is passed over
  without a decision (R223). -/
  offers : List (Nat × Bool)
  /-- Deferred cores and how often in a row. -/
  deferred : List (Nat × Nat)
  /-- The request for a gang switch: its deferrals, and the decision it waits for (R227). -/
  preempt : Option (Nat × Nat)
  incoming : Nat
  decision : Option Decision
  domCounter : Nat
  futures : List (Nat × Future)
  /-- The open migration (R307). -/
  migration : Option Migration
  tlb : List TlbEntry
  phase : Phase
  contexts : List Context
  /-- Hand-on images in use: context area and logical core (R372). -/
  images : List (Nat × Nat)
  dispRecseq : Nat
  /-- Trap records written (R320). -/
  records : Nat
  deriving DecidableEq, Repr

/-! ## The device -/

/-- A media slot (R354, R356). -/
structure Slot where
  part : Nat
  /-- The launch it is bound to, by key plus 1; 0 for supervisor code. -/
  owner : Nat
  codec : Codec
  w : Nat
  h : Nat
  ws : Word
  scales : List Word32
  /-- Access units decoded since the references were dropped. -/
  history : List (List Byte)
  deriving DecidableEq, Repr

/-- How far start-up has come (R335, R347). -/
inductive Stage where
  | off | waiting | starting | ready | minimal
  deriving DecidableEq, Repr

/-- A signal the device has sent outside (R220, R343), or data it has returned (R52). -/
inductive Signal where
  | interrupt (vector : Nat)
  /-- An interrupt on one of the two Birlin Links. -/
  | linkInterrupt (link vector : Nat)
  | inBand
  | reply (addr : Nat) (bytes : List Byte)
  | accessFault (addr : Nat)
  deriving DecidableEq, Repr

/-- The slice configuration (R353). -/
structure Slice where
  rank : Nat
  n : Nat
  pod : Nat
  board : Nat
  /-- Routes that are not 0xFF. -/
  routes : List (Nat × Nat)
  deriving DecidableEq, Repr

/-- The management side (R341 to R353). -/
structure Mgmt where
  owner : BitVec 4
  epoch : BitVec 8
  up : List Nat
  /-- Master ids below 3 that sockets have been given, in the order in which their links trained (R341). -/
  given : Nat
  fails : BitVec 2
  minimal : Bool
  reason : BitVec 8
  unit : BitVec 4
  pid : BitVec 12
  lattol : BitVec 32
  pstate : BitVec 2
  reqState : BitVec 2
  reqStatus : BitVec 8
  /-- The status a busy request ends with. -/
  reqNext : BitVec 8
  /-- A gang switch keeps its request busy until it has resumed. -/
  reqHeld : Bool
  /-- Switches asked for before the resume of the one in progress: partition and base (R323). -/
  waiting : List (Nat × Nat)
  payload : Memory
  window : Memory
  attest : Memory
  /-- Payloads accepted since start, in order (R349). -/
  accepted : List (List Byte)
  /-- Firmware header and body (R349). -/
  firmware : List Byte
  stage : Stage
  /-- Fitted stacks, stacks that fail training, dies that fail to power up, and cores and routers that fail self-test. -/
  stackCount : Nat
  badStacks : List Nat
  badDies : List Nat
  badCores : List Nat
  badRouters : List Nat
  /-- Bytes fitted on each CXL port, and ports whose link is down (R352). -/
  cxl : List Nat
  cxlDown : List Nat
  slice : Slice
  signals : List Signal
  thermal : Bool
  deriving DecidableEq, Repr

/-- Who moves (log 2). -/
inductive Turn where
  /-- The control stream of a core, by physical id. -/
  | stream (core : Nat)
  /-- An engine of a core; `pick` chooses among the copies in flight. -/
  | engine (core : Nat) (e : BitVec 3) (pick : Nat)
  /-- A step or event of the machine, or an input from outside. -/
  | event (i : Instr)
  /-- One step of the policy program of a partition. -/
  | bridle (p : Nat)
  deriving DecidableEq, Repr

/-- A pending operand of `am.faddn` in a home's write queue (R191): the word's address, what it was, and the operand. -/
structure PendingAdd where
  pa : Nat
  base : Word32
  operand : Word32
  deriving DecidableEq, Repr

/-- The state of a device. -/
structure State where
  /-- Physical id of the core that acts (log 1). -/
  cur : Nat
  /-- Number of the step: the index of every free value (log 3). -/
  tick : Nat
  /-- The global time base: it never falls (log 3, R321). -/
  clock : Word
  /-- Turns still to come; when there is none a fixed order decides (log 2). -/
  agenda : List Turn
  /-- HBM, second tier, Span windows and host memory, by physical address (R52). -/
  mem : Memory
  /-- Addresses whose bytes are uncorrectable (R322). -/
  poison : List Nat
  /-- Home-port monitors: physical line, physical core, written since it was armed (R192). -/
  monitors : List (Nat × Nat × Bool)
  /-- Operands that a further `am.faddn` may merge into (R191). -/
  adds : List PendingAdd
  /-- Cores that have left their idle state, by physical id. An entry past 4,095 keeps the stream ports of a task that was handed
  on and is on no core. -/
  cores : List (Nat × Core)
  /-- Clusters that have left their zero state, by number 0 to 255. -/
  clusters : List (Nat × Cluster)
  /-- Partitions that exist, by number. -/
  parts : List (Nat × Partition)
  cinches : List (Nat × Cinch)
  slots : List (Nat × Slot)
  mgmt : Mgmt
  deriving DecidableEq, Repr

/-! ## Outcomes -/

/-- Why the model itself stops. -/
inductive Fault where
  /-- The agenda names a core that no device has; raised by the step alone. Safe: no agent of the machine acts. -/
  | noSuchAgent (core : Nat)
  deriving DecidableEq, Repr

/-- Why the model gives no meaning. -/
inductive Refusal where
  /-- The instruction has no meaning yet; raised by its arm. Safe: nothing is claimed of it. -/
  | notModelled (mnemonic : String)
  deriving DecidableEq, Repr

/-! ## Reset -/

/-- Column of a core in its row, from its physical id (R17). -/
def colOf (id : Nat) : Nat := id % 4

/-- Registers at bind: zero, null regions, empty queues (R41). -/
def Regs.zero : Regs :=
  ⟨Vector.replicate 32 0, Vector.replicate 32 0, Vector.replicate 16 Region.null, Vector.replicate 16 Td.zero,
    Vector.replicate 16 VPtr.zero, Vector.replicate 16 VPtr.zero, Vector.replicate 16 0, [], []⟩

/-- CSRs of an idle core (R44). -/
def Csrs.idle (id : Nat) : Csrs :=
  ⟨0, 1#4 <<< colOf id, 0, 0, 0, 0, 0, 0, 0, 0, 0, 0, 0, 0, 0, 0⟩

/-- Trap CSRs, all zero. -/
def TrapCsrs.zero : TrapCsrs := ⟨0, 0, 0, 0, 0, false, false, 0, false, 0, false, 0, 0⟩

/-- No command anywhere. -/
def Engines.empty : Engines := ⟨[], [], [], [], [], none, [], 0, none, none, none, false⟩

/-- A router with nothing configured or held. -/
def Router.empty : Router := ⟨[], [], Vector.replicate 4 .closed, [], [], [], [], []⟩

/-- Loop state, clear (R253). -/
def LoopState.clear : LoopState :=
  ⟨[], [], [], 0, .none, 0, 0, false, Td.zero, 0, 0, 0, false, none, 0, false, Region.null, [], 0, 0⟩

/-- A core that is idle and scrubbed (R297, log 5). -/
def Core.idle (id : Nat) : Core :=
  ⟨Regs.zero, Csrs.idle id, TrapCsrs.zero, 0, [], 0, false, [], 0, [], [], [], [], [], Engines.empty, Router.empty, [], 0,
    [], 0, LoopState.clear, none, .none, .idle, 0, .no, false, false, false, none, [], [], [], false, [], [], [],
    Vector.replicate 32 0, []⟩

/-- The management side after reset (R335, R342, R346, R350; log 4, log 6). -/
def Mgmt.reset : Mgmt :=
  ⟨0xF, 0, [], 0, 0, false, 0, 0, 0, 0, 0, 0, 0, 0, false, [], [], [], [], [], [], .waiting, 8, [], [], [], [],
    List.replicate 8 0x180_0000_0000, [], ⟨0, 1, 1, 1, []⟩, [], false⟩

/-- The device right after power-on: no firmware, no owner, no partition, every core idle and scrubbed. -/
def State.reset : State := ⟨0, 0, 0, [], [], [], [], [], [], [], [], [], [], Mgmt.reset⟩

end Sys2Proof.Machine
end

