-- ==== Sys2Proof/Machine/Flags.lean ====
section
/-!
DEFINITION. The sticky flags: the bits of `vflags` (R129) and of `fflags` (R43, R54), and how they accumulate.
-/

namespace Sys2Proof.Machine

/-- The eight bits of `vflags` (R129). -/
abbrev VFlags := BitVec 8

/-- A rounded result differed from its exact value. -/
def VFlags.nx : VFlags := 0x01
/-- A nonzero inexact result below the smallest normal. -/
def VFlags.uf : VFlags := 0x02
/-- A rounded magnitude above the largest finite value. -/
def VFlags.of : VFlags := 0x04
/-- An invalid operation, or a NaN or infinity converted to an integer. -/
def VFlags.nv : VFlags := 0x08
/-- An exact infinity from a finite operand. -/
def VFlags.dz : VFlags := 0x10
/-- A conversion or block rounding was clamped. -/
def VFlags.sat : VFlags := 0x20
/-- An E8 scale of 0xFF was read or written. -/
def VFlags.badsc : VFlags := 0x40
/-- An uncorrectable operand element was replaced by zero. -/
def VFlags.errz : VFlags := 0x80

/-- A flag under a condition. -/
def VFlags.when (c : Bool) (f : VFlags) : VFlags := if c then f else 0

/-- The `fflags` bits NV, DZ, OF, UF, NX (F extension) of the five IEEE conditions. -/
def VFlags.toFflags (f : VFlags) : BitVec 5 :=
  BitVec.ofBool (f.getLsbD 3) ++ BitVec.ofBool (f.getLsbD 4) ++ BitVec.ofBool (f.getLsbD 2) ++
    BitVec.ofBool (f.getLsbD 1) ++ BitVec.ofBool (f.getLsbD 0)

end Sys2Proof.Machine
end

