-- ==== Sys2Proof/Machine/Format.lean ====
section
/-!
DEFINITION. Numbers: exact values, one-step rounding in every mode, stochastic rounding, conversions, block scaling and the
transcendental functions (R114 to R130). Every value is exact; a real that is no dyadic number is held as a dyadic number
with a last bit of 1 below every bit a rounding looks at.
-/

namespace Sys2Proof.Machine

/-! ## Exact values -/

/-- Rounding modes (R122). -/
inductive RMode where
  | rne | rz | sr | rdn | rup | rmm
  deriving DecidableEq, Repr

/-- The mode of an engine command's round field. -/
def rmodeOf : Rnd → RMode
  | .rne => .rne
  | .rz => .rz
  | .sr => .sr

/-- An exact value: `fin neg m e` is m * 2^e with its sign; zeros keep theirs. -/
inductive Val where
  | nan
  | inf (neg : Bool)
  | fin (neg : Bool) (mant : Nat) (exp : Int)
  deriving DecidableEq, Repr, Inhabited

/-- Positive zero. -/
def Val.zero : Val := .fin false 0 0

/-- One. -/
def Val.one : Val := .fin false 1 0

/-- An integer. -/
def Val.ofInt (x : Int) : Val := .fin (x < 0) x.natAbs 0

/-- The value is a zero. -/
def Val.isZero : Val → Bool
  | .fin _ 0 _ => true
  | _ => false

/-- The value with the other sign. -/
def Val.neg : Val → Val
  | .nan => .nan
  | .inf n => .inf (!n)
  | .fin n m e => .fin (!n) m e

/-- Sign and magnitude as an integer. -/
def signed (neg : Bool) (m : Nat) : Int := if neg then -(m : Int) else m

/-- Two finite values over one exponent. -/
def aligned (na : Bool) (ma : Nat) (ea : Int) (nb : Bool) (mb : Nat) (eb : Int) : Int × Int × Int :=
  let e := min ea eb
  (signed na (ma <<< (ea - e).toNat), signed nb (mb <<< (eb - e).toNat), e)

/-- Exact sum; the flag is NV (R127). The mode matters to the sign of an exact zero alone. -/
def Val.add (mode : RMode) : Val → Val → Val × VFlags
  | .nan, _ => (.nan, 0)
  | _, .nan => (.nan, 0)
  | .inf a, .inf b => if a = b then (.inf a, 0) else (.nan, VFlags.nv)
  | .inf a, .fin .. => (.inf a, 0)
  | .fin .., .inf b => (.inf b, 0)
  | .fin na ma ea, .fin nb mb eb =>
    let (x, y, e) := aligned na ma ea nb mb eb
    let s := x + y
    if s = 0 then (.fin (if na = nb then na else mode = .rdn) 0 0, 0) else (.fin (s < 0) s.natAbs e, 0)

/-- Exact product (R127). -/
def Val.mul : Val → Val → Val × VFlags
  | .nan, _ => (.nan, 0)
  | _, .nan => (.nan, 0)
  | .inf a, .inf b => (.inf (a != b), 0)
  | .inf a, .fin b m _ => if m = 0 then (.nan, VFlags.nv) else (.inf (a != b), 0)
  | .fin a m _, .inf b => if m = 0 then (.nan, VFlags.nv) else (.inf (a != b), 0)
  | .fin na ma ea, .fin nb mb eb => (.fin (na != nb) (ma * mb) (if ma = 0 ∨ mb = 0 then 0 else ea + eb), 0)

/-- `a * b + c`, exact (R127): the product's NV stands whatever c is. -/
def Val.fma (mode : RMode) (a b c : Val) : Val × VFlags :=
  let (p, f) := a.mul b
  let (r, g) := p.add mode c
  (r, f ||| g)

/-- The order of two values, `none` with a NaN; zeros are equal (R127). -/
def Val.cmp : Val → Val → Option Ordering
  | .nan, _ => none
  | _, .nan => none
  | .inf a, .inf b => some (if a = b then .eq else if a then .lt else .gt)
  | .inf a, .fin .. => some (if a then .lt else .gt)
  | .fin .., .inf b => some (if b then .gt else .lt)
  | .fin na ma ea, .fin nb mb eb =>
    let (x, y, _) := aligned na ma ea nb mb eb
    some (compare x y)

/-- A dyadic number with a sticky last bit: m or, when the value is not exact, halfway to the next. -/
def sticky (neg : Bool) (m : Nat) (e : Int) (exact : Bool) : Val :=
  .fin neg (2 * m + (if exact then 0 else 1)) (e - 1)

/-- Exact quotient of finite nonzero magnitudes, to 80 bits and a sticky bit. -/
def quotient (neg : Bool) (ma : Nat) (ea : Int) (mb : Nat) (eb : Int) : Val :=
  let k := 80 + mb.log2
  let n := ma <<< k
  sticky neg (n / mb) (ea - eb - k) (n % mb == 0)

/-- Quotient (F extension, R128): NV for 0/0 and inf/inf, DZ for a finite value over zero. -/
def Val.div : Val → Val → Val × VFlags
  | .nan, _ => (.nan, 0)
  | _, .nan => (.nan, 0)
  | .inf _, .inf _ => (.nan, VFlags.nv)
  | .inf a, .fin b _ _ => (.inf (a != b), 0)
  | .fin a _ _, .inf b => (.fin (a != b) 0 0, 0)
  | .fin na ma ea, .fin nb mb eb =>
    if mb = 0 then if ma = 0 then (.nan, VFlags.nv) else (.inf (na != nb), VFlags.dz)
    else if ma = 0 then (.fin (na != nb) 0 0, 0)
    else (quotient (na != nb) ma ea mb eb, 0)

/-- Bits of an integer square root from bit b - 1 down. -/
def isqrtFrom (n : Nat) : Nat → Nat → Nat
  | 0, r => r
  | b + 1, r =>
    let t := r + 1 <<< b
    isqrtFrom n b (if t * t ≤ n then t else r)

/-- Integer square root. -/
def isqrt (n : Nat) : Nat := isqrtFrom n (n.log2 / 2 + 1) 0

/-- Square root (F extension). -/
def Val.sqrt : Val → Val × VFlags
  | .nan => (.nan, 0)
  | .inf true => (.nan, VFlags.nv)
  | .inf false => (.inf false, 0)
  | .fin n m e =>
    if m = 0 then (.fin n 0 0, 0)
    else if n then (.nan, VFlags.nv)
    else
      let m' := if e % 2 = 0 then m else 2 * m
      let e' := if e % 2 = 0 then e else e - 1
      let s := m' <<< 160
      let r := isqrt s
      (sticky false r (e' / 2 - 80) (r * r == s), 0)

/-! ## Format parameters (R116 to R121) -/

/-- Exponent bits, fraction bits and bias of a binary or block-scaled format. -/
def binParams : Fmt → Nat × Nat × Int
  | .f32 => (8, 23, 127)
  | .f16 => (5, 10, 15)
  | .b16 => (8, 7, 127)
  | .k8 => (4, 3, 7)
  | .k4 => (2, 1, 1)
  | .e8 => (8, 0, 127)
  | .i32 | .i16 | .i8 | .i4 | .n32 | .n16 | .n8 => (0, 0, 0)

/-- Two's complement integer formats. -/
def fmtSigned : Fmt → Bool
  | .i32 | .i16 | .i8 | .i4 => true
  | .f32 | .f16 | .b16 | .k8 | .k4 | .n32 | .n16 | .n8 | .e8 => false

/-- The range of an integer format (R121). -/
def intRange (f : Fmt) : Int × Int :=
  if fmtSigned f then (-(2 ^ (f.width - 1) : Int), (2 ^ (f.width - 1) : Int) - 1) else (0, (2 ^ f.width : Int) - 1)

/-- The integer of an encoding in an integer format. -/
def intOf (f : Fmt) (raw : Nat) : Int :=
  let v := raw % 2 ^ f.width
  if fmtSigned f ∧ 2 ^ (f.width - 1) ≤ v then (v : Int) - 2 ^ f.width else v

/-- The canonical NaN (R117). -/
def nanCode : Fmt → Nat
  | .f32 => 0x7FC00000
  | .f16 => 0x7E00
  | .b16 => 0x7FC0
  | .k8 | .k4 | .i32 | .i16 | .i8 | .i4 | .n32 | .n16 | .n8 | .e8 => 0

/-- The exact value of an encoding; K8 and K4 without their block's factor (R117 to R121). -/
def valOf (f : Fmt) (raw : Nat) : Val :=
  if f.isInt then .ofInt (intOf f raw)
  else if f = .e8 then if raw % 256 = 255 then .nan else .fin false 1 ((raw % 256 : Nat) - 127)
  else
    let (eb, fb, bias) := binParams f
    let neg := raw.testBit (eb + fb)
    let e := raw / 2 ^ fb % 2 ^ eb
    let fr := raw % 2 ^ fb
    if f.isFloat ∧ e = 2 ^ eb - 1 then if fr = 0 then .inf neg else .nan
    else if e = 0 then .fin (neg && (fr != 0 || f.isFloat)) fr (if fr = 0 then 0 else 1 - bias - fb)
    else .fin neg (2 ^ fb + fr) (e - bias - fb)

/-- An element of a scaled block: a bad block reads as zero (R120). -/
def scaledVal (f : Fmt) (raw scale : Nat) : Val :=
  if scale % 256 = 255 then .zero
  else match valOf f raw with
    | .fin n m e => .fin n m (if m = 0 then 0 else e + ((scale % 256 : Nat) - 127))
    | v => v

/-! ## Rounding (R122, R123) -/

/-- m * 2^e as a multiple of 2^q, and whether that was inexact. -/
def roundTo (neg : Bool) (m : Nat) (e q : Int) (mode : RMode) (z : Nat) : Nat × Bool :=
  if q ≤ e then (m <<< (e - q).toNat, false)
  else
    let s := (q - e).toNat
    let i := m >>> s
    let rem := m % 2 ^ s
    if rem = 0 then (i, false)
    else
      let half := 2 ^ (s - 1)
      let up : Bool := match mode with
        | .rne => half < rem || (rem == half && i % 2 == 1)
        | .rz => false
        | .rmm => half ≤ rem
        | .rdn => neg
        | .rup => !neg
        | .sr => 2 ^ 32 ≤ rem * 2 ^ 32 / 2 ^ s + z / 2 ^ 32
      (if up then i + 1 else i, true)

/-- An integer clamped to a range, with SAT (R121, R125). -/
def clampInt (f : Fmt) (x : Int) : Nat × VFlags :=
  let (lo, hi) := intRange f
  let y := max lo (min hi x)
  ((y % 2 ^ f.width).toNat, VFlags.when (x != y) VFlags.sat)

/-- Rounding to an integer format (R125): a NaN gives 0 and an infinity an end of the range, both with NV. -/
def roundInt (f : Fmt) (mode : RMode) (z : Nat) : Val → Nat × VFlags
  | .nan => (0, VFlags.nv)
  | .inf neg => (((if neg then (intRange f).1 else (intRange f).2) % 2 ^ f.width).toNat, VFlags.nv)
  | .fin neg m e =>
    let (i, inexact) := roundTo neg m e 0 mode z
    let (r, fl) := clampInt f (signed neg i)
    (r, fl ||| VFlags.when inexact VFlags.nx)

/-- One rounding of an exact value to a format (R122, R129, R130). `tinyFar` asks for the underflow test of the F extension,
which looks at the value rounded without a smallest exponent. -/
def roundWith (tinyFar : Bool) (f : Fmt) (mode : RMode) (z : Nat) (v : Val) : Nat × VFlags :=
  if f.isInt then roundInt f mode z v
  else
    let (eb, fb, bias) := binParams f
    let p := fb + 1
    let ieee := f.isFloat
    let top : Nat := if ieee then 2 ^ eb - 2 else 2 ^ eb - 1
    let maxRaw := top * 2 ^ fb + (2 ^ fb - 1)
    let sign (neg : Bool) (r : Nat) : Nat := if neg then 2 ^ (eb + fb) + r else r
    match v with
    | .nan => if ieee then (nanCode f, 0) else (0, VFlags.nv)
    | .inf neg => if ieee then (sign neg ((2 ^ eb - 1) * 2 ^ fb), 0) else (sign neg maxRaw, VFlags.sat ||| VFlags.nx)
    | .fin neg m e =>
      if m = 0 then (sign (neg && ieee) 0, 0)
      else
        let emin := 1 - bias
        let high := (m.log2 : Int) + e
        let q := max high emin - fb
        let (i, inexact) := roundTo neg m e q mode z
        let qmax := (top : Int) - bias - fb
        if qmax < q ∨ (q = qmax ∧ 2 ^ p ≤ i) then
          if ieee then
            let away : Bool := match mode with
              | .rne | .rmm | .sr => true
              | .rz => false
              | .rdn => neg
              | .rup => !neg
            (sign neg (if away then (2 ^ eb - 1) * 2 ^ fb else maxRaw), VFlags.of ||| VFlags.nx)
          else (sign neg maxRaw, VFlags.sat ||| VFlags.nx)
        else
          let tiny : Bool :=
            if tinyFar then high < emin && !(high == emin - 1 && (roundTo neg m e (high - fb) mode z).1 == 2 ^ p)
            else i < 2 ^ fb
          let fl := VFlags.when inexact (VFlags.nx ||| VFlags.when tiny VFlags.uf)
          let (i, q) := if i = 2 ^ p then (2 ^ fb, q + 1) else (i, q)
          let raw := if i < 2 ^ fb then i else (q + fb + bias).toNat * 2 ^ fb + (i - 2 ^ fb)
          (sign (neg && (ieee || i != 0)) raw, fl)

/-- One rounding of an engine, a memory reduction or a router combine. -/
def roundVal (f : Fmt) (mode : RMode) (z : Nat) (v : Val) : Nat × VFlags := roundWith false f mode z v

/-- The result of an integer operation: clamped with SAT, or wrapped (R160). -/
def finInt (f : Fmt) (sat : Bool) (x : Int) : Nat × VFlags :=
  if sat then clampInt f x else ((x % 2 ^ f.width).toNat, 0)

/-- The finaliser of R123. -/
def splitmix64 (x : Word) : Word :=
  let x := (x ^^^ (x >>> 30)) * 0xBF58476D1CE4E5B9
  let x := (x ^^^ (x >>> 27)) * 0x94D049BB133111EB
  x ^^^ (x >>> 31)

/-- The random word of element k (R123). -/
def randomWord (jobseed : Word) (lcore : Nat) (ctr0 : Word) (k : Nat) : Nat :=
  (splitmix64 (jobseed ^^^ (BitVec.ofNat 64 lcore <<< 40) ^^^ (ctr0 + BitVec.ofNat 64 k))).toNat

/-! ## Block scaling (R126) -/

/-- The largest magnitude of K8 or K4 as a dyadic number. -/
def kMax : Fmt → Nat
  | .k8 => 480
  | .k4 | .f32 | .f16 | .b16 | .i32 | .i16 | .i8 | .i4 | .n32 | .n16 | .n8 | .e8 => 6

/-- The value fits below 2^p times a bound. -/
def fitsScale (m : Nat) (e : Int) (bound : Nat) (p : Int) : Bool :=
  let b := min e p
  m <<< (e - b).toNat ≤ bound <<< (p - b).toNat

/-- The least p, at or above a start, such that m * 2^e is at most bound * 2^p. -/
def ceilScale (m : Nat) (e : Int) (bound : Nat) : Nat → Int → Int
  | 0, p => p
  | fuel + 1, p => if fitsScale m e bound p then p else ceilScale m e bound fuel (p + 1)

/-- The scale that the largest magnitude of a block needs (R126). -/
def blockScale (f : Fmt) (vs : List Val) : Nat :=
  let one (v : Val) : Int := match v with
    | .fin _ m e =>
      if m = 0 then -1000
      else ceilScale m e (kMax f) 4 ((m.log2 : Int) + e - (kMax f).log2 - 1)
    | .nan | .inf _ => -1000
  let p := (vs.map one).foldl max (-1000)
  if p = -1000 then 127 else (max 0 (min 254 (127 + p))).toNat

/-- `convert_block` (R126): the scale, the elements and the flags. -/
def convertBlock (f : Fmt) (mode : RMode) (vs : List (Val × Nat)) : Nat × List Nat × VFlags :=
  if vs.all (fun v => match v.1 with | .fin .. => true | _ => false) then
    let s := blockScale f (vs.map (·.1))
    let rs := vs.map fun (v, z) => match v with
      | .fin n m e => roundVal f mode z (.fin n m (e + (127 - (s : Int))))
      | v => roundVal f mode z v
    (s, rs.map (·.1), rs.foldl (fun fl r => fl ||| r.2) 0)
  else (255, vs.map fun _ => 0, VFlags.badsc)

/-! ## Exact sums (R127, R164, R165) -/

/-- The sum of no term. -/
def ExactSum.empty : ExactSum := ⟨0, 0, false, false, false, true⟩

/-- One more term. -/
def ExactSum.add (s : ExactSum) : Val → ExactSum
  | .nan => { s with nan := true, negZero := false }
  | .inf n => { s with pinf := s.pinf || !n, ninf := s.ninf || n, negZero := false }
  | .fin n m e =>
    let b := if s.num = 0 then e else if m = 0 then s.ex else min s.ex e
    let m' : Nat := if m = 0 then 0 else m <<< (e - b).toNat
    { s with
      num := s.num * 2 ^ (s.ex - b).toNat + signed n m'
      ex := b
      negZero := s.negZero && n && m == 0 }

/-- The value of a sum of at least one term, with NV for infinities of both signs (R127). -/
def ExactSum.val (s : ExactSum) : Val × VFlags :=
  if s.pinf && s.ninf then (.nan, VFlags.nv)
  else if s.nan then (.nan, 0)
  else if s.pinf then (.inf false, 0)
  else if s.ninf then (.inf true, 0)
  else if s.num = 0 then (.fin s.negZero 0 0, 0)
  else (.fin (s.num < 0) s.num.natAbs s.ex, 0)

/-- The exact sum of a list of terms. -/
def exactTotal (vs : List Val) : Val × VFlags := (vs.foldl ExactSum.add ExactSum.empty).val

/-! ## Minimum and maximum (R127) -/

/-- The lesser or greater of two values; a NaN gives a NaN. Of two equal zeros the first is taken; the caller's rule says which
sign a zero has. -/
def Val.pick (greater : Bool) (a b : Val) : Val :=
  match a.cmp b with
  | none => .nan
  | some .lt => if greater then b else a
  | some .eq => a
  | some .gt => if greater then a else b

/-! ## Functions of one real (R128) -/

/-- The sum of a Taylor series of e^r, r a fraction of 2^n: each term rounded down. The result is low by at most one unit a
term. -/
def expTaylor (n r : Nat) : Nat → Nat → Nat → Nat → Nat
  | 0, _, _, sum => sum
  | fuel + 1, k, term, sum =>
    if term = 0 then sum else expTaylor n r fuel (k + 1) (term * r / 2 ^ n / k) (sum + term)

/-- Twice the inverse hyperbolic tangent of z, a fraction of 2^n at most one third: each term rounded down. -/
def atanhSeries (n z2 : Nat) : Nat → Nat → Nat → Nat → Nat
  | 0, _, _, sum => sum
  | fuel + 1, k, pow, sum =>
    if pow = 0 then sum else atanhSeries n z2 fuel (k + 2) (pow * z2 / 2 ^ n) (sum + 2 * (pow / k))

/-- ln 2 in units of 2^-n, low by at most 4 n units. -/
def ln2Units (n : Nat) : Nat :=
  let z := 2 ^ n / 3
  atanhSeries n (2 ^ n / 9) n 1 z 0

/-- A dyadic number in units of 2^-n, rounded down. -/
def toUnits (n : Nat) (m : Nat) (e : Int) : Nat :=
  if 0 ≤ e + n then m <<< (e + n).toNat else m >>> (-(e + n)).toNat

/-- Bounds of a real: it lies strictly between lo * 2^ex and hi * 2^ex. -/
structure Bounds where
  lo : Nat
  hi : Nat
  ex : Int
  deriving DecidableEq, Repr

/-- The bounds agree in all but their last `guard` bits: the real as a dyadic number with a sticky bit. -/
def Bounds.settle (b : Bounds) (guard : Nat) : Option (Nat × Int) :=
  if b.lo >>> guard = b.hi >>> guard then some (b.lo >>> guard, b.ex + guard) else none

/-- Bounds at growing precision until they settle. After the last precision the lower bound stands. -/
def settleFrom (bounds : Nat → Bounds) : Nat → Nat → Nat × Int
  | 0, n => ((bounds n).lo, (bounds n).ex)
  | fuel + 1, n =>
    match (bounds n).settle 64 with
    | some r => r
    | none => settleFrom bounds fuel (2 * n)

/-- e^r for r in units of 2^-n known up to `err` units, r at most 1: bounds in units of 2^-n. -/
def expBounds (n r err : Nat) : Nat × Nat :=
  let s := expTaylor n r (2 * n) 1 (2 ^ n) 0
  (s - 4 * err, s + 4 * err + 8 * n)

/-- 2^x for x = i + fr, fr in units of 2^-n, i an integer. -/
def exp2Bounds (neg : Bool) (m : Nat) (e : Int) (n : Nat) : Bounds :=
  let x := signed neg (toUnits n m e)
  let i := x / 2 ^ n
  let fr := (x % 2 ^ n).toNat
  let r := fr * ln2Units n / 2 ^ n
  let (lo, hi) := expBounds n r (4 * n + 4)
  ⟨lo, hi, i - n⟩

/-- The value is an integer. -/
def isInteger (m : Nat) (e : Int) : Bool := 0 ≤ e || m % 2 ^ (-e).toNat == 0

/-- Magnitude at least 2^12. -/
def isFar (m : Nat) (e : Int) : Bool := 12 ≤ (m.log2 : Int) + e

/-- `v.exp2`: 2^x (R128). -/
def Val.exp2 : Val → Val × VFlags
  | .nan => (.nan, 0)
  | .inf true => (.zero, 0)
  | .inf false => (.inf false, 0)
  | .fin neg m e =>
    if m = 0 then (.one, 0)
    else if isFar m e then (.fin false 1 (if neg then -5000 else 5000), 0)
    else if isInteger m e then (.fin false 1 (signed neg (toUnits 0 m e)), 0)
    else
      let (s, x) := settleFrom (exp2Bounds neg m e) 5 192
      (sticky false s x false, 0)

/-- Magnitude and sign of log2 of y * 2^ex, where 2^n ≤ y < 2^(n+1) in units of 2^-n. -/
def log2Bounds (m : Nat) (e : Int) (n : Nat) : Bounds :=
  let i := (m.log2 : Int) + e
  let y := toUnits n m (-(m.log2 : Int))
  let z := (y - 2 ^ n) * 2 ^ n / (y + 2 ^ n)
  let ln := atanhSeries n (z * z / 2 ^ n) n 1 z 0
  let l2 := ln2Units n
  let lo : Int := i * 2 ^ n + (ln * 2 ^ n / (l2 + 4 * n) : Nat) - 4
  let hi : Int := i * 2 ^ n + ((ln + 8 * n + 8) * 2 ^ n / l2 : Nat) + 4
  if i < 0 then ⟨(-hi).toNat, (-lo).toNat, -n⟩ else ⟨lo.toNat, hi.toNat, -n⟩

/-- `v.log2` (R128). -/
def Val.log2 : Val → Val × VFlags
  | .nan => (.nan, 0)
  | .inf true => (.nan, VFlags.nv)
  | .inf false => (.inf false, 0)
  | .fin neg m e =>
    if m = 0 then (.inf true, VFlags.dz)
    else if neg then (.nan, VFlags.nv)
    else
      let i := (m.log2 : Int) + e
      if m = 2 ^ m.log2 then (if i = 0 then (.zero, 0) else (.ofInt i, 0))
      else
        let (s, x) := settleFrom (log2Bounds m e) 5 192
        (sticky (i < 0) s x false, 0)

/-- `v.rcp` (R128). -/
def Val.rcp : Val → Val × VFlags
  | .nan => (.nan, 0)
  | .inf n => (.fin n 0 0, 0)
  | .fin n m e => if m = 0 then (.inf n, VFlags.dz) else (quotient n 1 0 m e, 0)

/-- `v.rsq` (R128). -/
def Val.rsq : Val → Val × VFlags
  | .nan => (.nan, 0)
  | .inf true => (.nan, VFlags.nv)
  | .inf false => (.zero, 0)
  | .fin n m e =>
    if m = 0 then (.inf n, VFlags.dz)
    else if n then (.nan, VFlags.nv)
    else
      let m' := if e % 2 = 0 then m else 2 * m
      let e' := if e % 2 = 0 then e else e - 1
      let k := 80 + m'.log2
      let r := isqrt (2 ^ (2 * k) / m')
      (sticky false r (-(k : Int) - e' / 2) (r * r * m' == 2 ^ (2 * k)), 0)

/-- 1 / (1 + e^a), a positive and below 2^12. -/
def sigBounds (m : Nat) (e : Int) (n : Nat) : Bounds :=
  let n' := n + 16
  let a := toUnits n' m e
  let l2 := ln2Units n'
  let k := a / l2
  let r := a - k * l2
  let (lo, hi) := expBounds n' r ((k + 1) * (4 * n' + 4))
  let p := n' + k
  ⟨2 ^ (n' + p) / (2 ^ n' + hi <<< k + 1), 2 ^ (n' + p) / (2 ^ n' + lo <<< k - 1) + 1, -p⟩

/-- 1 minus a real between bounds below 1. -/
def Bounds.oneMinus (b : Bounds) : Bounds :=
  let one := 2 ^ (-b.ex).toNat
  ⟨one - b.hi, one - b.lo, b.ex⟩

/-- `v.sig` (R128). -/
def Val.sig : Val → Val × VFlags
  | .nan => (.nan, 0)
  | .inf true => (.zero, 0)
  | .inf false => (.one, 0)
  | .fin neg m e =>
    if m = 0 then (.fin false 1 (-1), 0)
    else if isFar m e then (if neg then .fin false 1 (-5000) else .fin false (2 ^ 5000 - 1) (-5000), 0)
    else
      let bounds (n : Nat) : Bounds := if neg then sigBounds m e n else (sigBounds m e n).oneMinus
      let (s, x) := settleFrom bounds 5 192
      (sticky false s x false, 0)

end Sys2Proof.Machine
end

