-- ==== Sys2Proof/Machine/Region.lean ====
section
/-!
DEFINITION. Regions as cell sets: the canonical slab form, set operations, exactness and the INEXACT hull (R71 to R94). Pure: no
state is read here but the line lengths of a ragged region, which the callers pass in.
-/

namespace Sys2Proof.Machine

/-! ## Cell sets as lists of boxes -/

/-- Insert into a rising list without repeats. -/
def insertInt (a : Int) : List Int → List Int
  | [] => [a]
  | b :: t => if a < b then a :: b :: t else if a = b then b :: t else b :: insertInt a t

/-- Every coordinate of the first dimension at which a box starts or has just ended, rising. -/
def cuts : List Box → List Int
  | [] => []
  | [] :: t => cuts t
  | (sp :: _) :: t => insertInt sp.lo (insertInt (sp.lo + sp.ext) (cuts t))

/-- The cross-sections at one coordinate of the first dimension. -/
def sliceAt (a : Int) : List Box → List Box
  | [] => []
  | [] :: t => sliceAt a t
  | (sp :: r) :: t => if sp.lo ≤ a ∧ a < sp.lo + sp.ext then r :: sliceAt a t else sliceAt a t

/-- A run of coordinates with one cross-section (R76). -/
structure Slab where
  lo : Int
  hi : Int
  section_ : List Box
  deriving DecidableEq, Repr

/-- Add a slab, joining it to the last one when they touch and have the same section; empty sections leave nothing. The list is
newest first. -/
def addSlab (slabs : List Slab) (lo hi : Int) (sec : List Box) : List Slab :=
  if sec = [] then slabs
  else match slabs with
    | [] => [⟨lo, hi, sec⟩]
    | s :: t => if s.hi = lo ∧ s.section_ = sec then ⟨s.lo, hi, sec⟩ :: t else ⟨lo, hi, sec⟩ :: s :: t

/-- The slabs between neighbouring cuts, newest first. -/
def slabsOf (sec : Int → List Box) : List Int → List Slab → List Slab
  | a :: b :: t, acc => slabsOf sec (b :: t) (addSlab acc a b (sec a))
  | [_], acc => acc
  | [], acc => acc

/-- The canonical boxes of a Boolean combination of two cell sets over the given number of dimensions (R76, R88). `op` holds of a
cell's membership in each; it is false of a cell in neither. -/
def combine (op : Bool → Bool → Bool) : Nat → List Box → List Box → List Box
  | 0, as, bs => if op (!as.isEmpty) (!bs.isEmpty) then [[]] else []
  | n + 1, as, bs =>
    let slabs := (slabsOf (fun a => combine op n (sliceAt a as) (sliceAt a bs)) (cuts (as ++ bs)) []).reverse
    slabs.flatMap fun s => s.section_.map fun b => ⟨s.lo, (s.hi - s.lo).toNat⟩ :: b

/-- The canonical boxes of a cell set (R76). -/
def canon (rank : Nat) (bs : List Box) : List Box := combine (fun a _ => a) rank bs []

/-- Cells of a box. -/
def boxCells (b : Box) : Nat := b.foldl (fun n sp => n * sp.ext) 1

/-- Cells of disjoint boxes. -/
def boxesCells (bs : List Box) : Nat := bs.foldl (fun n b => n + boxCells b) 0

/-! ## Lattices -/

/-- The phase of a coordinate on a stride (R74). -/
def phase (lo : Int) (stride : Nat) : Int := lo % stride

/-- Phases of a region in each dimension; every box has the same. -/
def Region.phases (r : Region) : List Int :=
  match r.boxes with
  | [] => r.strides.map fun _ => 0
  | b :: _ => List.zipWith (fun sp st => phase sp.lo st) b r.strides

/-- A box of dense coordinates on a lattice: the lattice coordinates of the cells of the lattice it holds. -/
def onLattice (strides : List Nat) (phases : List Int) (b : Box) : Option Box :=
  (List.zip b (List.zip strides phases)).mapM fun (sp, st, ph) =>
    let lo := -((ph - sp.lo) / st)
    let hi := (sp.lo + sp.ext - 1 - ph) / st
    if hi < lo then none else some ⟨lo, (hi - lo + 1).toNat⟩

/-- The box a strided box spans, ends included. -/
def denseBox (strides : List Nat) (b : Box) : Box :=
  List.zipWith (fun sp st => ⟨sp.lo, (sp.ext - 1) * st + 1⟩) b strides

/-- A box on a lattice back in cell coordinates (R76). -/
def offLattice (strides : List Nat) (phases : List Int) (b : Box) : Box :=
  List.zipWith (fun sp (st, ph) => ⟨ph + sp.lo * st, sp.ext⟩) b (List.zip strides phases)

/-- The boxes of a dense or strided region on a lattice. -/
def Region.latticeBoxes (r : Region) (strides : List Nat) (phases : List Int) : List Box :=
  r.boxes.filterMap fun b => onLattice strides phases (denseBox r.strides b)

/-! ## Forms of a region -/

/-- The region holds no cell by its boxes: null or EMPTY (R73). -/
def Region.isEmpty (r : Region) : Bool := r.boxes.isEmpty

/-- The empty region of a rank (R73). -/
def Region.empty (rank : Nat) : Region := ⟨rank, .dense, false, 0, List.replicate rank 1, 0, 0, []⟩

/-- A dense region of boxes, as they stand. -/
def Region.dense (rank : Nat) (bs : List Box) : Region := ⟨rank, .dense, false, 0, List.replicate rank 1, 0, 0, bs⟩

/-- The null region takes the rank of the other operand (R42). -/
def Region.withRank (r : Region) (rank : Nat) : Region := if r.rank = 0 then Region.empty rank else r

/-- Union of two ranges. -/
def joinSpan (a b : Span1) : Span1 :=
  let lo := min a.lo b.lo
  let hi := max (a.lo + a.ext) (b.lo + b.ext)
  ⟨lo, (hi - lo).toNat⟩

/-- The smallest box that holds all of these. -/
def hullBox : List Box → Option Box
  | [] => none
  | b :: t => some (t.foldl (fun h x => List.zipWith joinSpan h x) b)

/-- The hull of a region with its strides and its ragged box taken as dense (R78, R79). -/
def Region.hull (r : Region) : Option Box := hullBox (r.boxes.map (denseBox r.strides))

/-- The INEXACT register with a hull; no hull gives the empty region, which is exact (R73, R78). -/
def inexactOf (rank : Nat) : Option Box → Region
  | none => Region.empty rank
  | some b => { Region.dense rank [b] with inexact := true }

/-- Boxes a register of this rank holds (R72). -/
def capacity (rank : Nat) : Nat := min 8 (28 / rank)

/-- What a region instruction makes. -/
inductive RgRes where
  /-- A region, and whether `rgovf` counts it (R79). -/
  | ok (r : Region) (counts : Bool)
  | range
  | illegal
  deriving DecidableEq, Repr

/-- A box within the limits of R74 and R83: lower corner, extent and last coordinate. -/
def boxInRange (strides : List Nat) (b : Box) : Bool :=
  (List.zip b strides).all fun (sp, st) =>
    decide (-(2 ^ 31 : Int) ≤ sp.lo) && decide (sp.lo < 2 ^ 31) && sp.ext ≤ 16777215 && sp.lo + ((sp.ext : Int) - 1) * (st : Int) < 2 ^ 31

/-- The result range of R83. -/
def rangeChecked (r : Region) (counts : Bool) : RgRes :=
  if r.boxes.all (boxInRange r.strides) then .ok r counts else .range

/-- A result on a lattice in canonical form, or its hull when it does not fit (R76, R79 case 1). The boxes are lattice
coordinates. A result keeps its lattice also where one cell is left of it (R80; log 100). -/
def finishOn (rank : Nat) (strides : List Nat) (phases : List Int) (lattice : List Box) : RgRes :=
  let bs := lattice.map (offLattice strides phases)
  let r : Region :=
    if bs = [] then Region.empty rank
    else ⟨rank, if strides.all (· == 1) then .dense else .strided, false, 0, strides, 0, 0, bs⟩
  if bs.length ≤ capacity rank then rangeChecked r false else rangeChecked (inexactOf rank r.hull) true

/-- The canonical form of a region's own boxes (R76). -/
def normalised (r : Region) : RgRes :=
  let ph := r.phases
  finishOn r.rank r.strides ph (canon r.rank (r.latticeBoxes r.strides ph))

/-! ## Ragged regions (R74, R81) -/

/-- The boxes of cells a ragged region holds, one for each dimension-0 coordinate, with the line lengths of those coordinates in
order; lines with no cell leave nothing. -/
def Region.raggedBoxes (r : Region) (lens : List Nat) : List Box :=
  match r.boxes with
  | (d0 :: rest) :: _ =>
    match rest.getLast? with
    | none => []
    | some (l : Span1) =>
      (List.zip (List.range d0.ext) lens).filterMap fun (kn : Nat × Nat) =>
        let hi : Int := min (l.lo + (l.ext : Int)) (r.anchor + (kn.2 : Int))
        if hi ≤ l.lo then none
        else some (⟨d0.lo + (kn.1 : Int), 1⟩ :: (rest.dropLast ++ [⟨l.lo, (hi - l.lo).toNat⟩]))
  | _ => []

/-- The cells of any region as a dense or strided region: a ragged one line by line (R87), an INEXACT one as its hull. -/
def Region.exact (r : Region) (lens : List Nat) : Region :=
  match r.kind with
  | .ragged => Region.dense r.rank (r.raggedBoxes lens)
  | .dense | .strided => { r with inexact := false }

/-- An operand as the third and fourth cases of R79 take it: a ragged box as dense, an INEXACT region as its hull. -/
def Region.asDense (r : Region) : Region :=
  match r.kind with
  | .ragged => if r.isEmpty then r else Region.dense r.rank r.boxes
  | .dense | .strided => { r with inexact := false }

/-- The INEXACT hull of a region. -/
def Region.blurred (r : Region) : Region := inexactOf r.rank r.hull

/-- The hull of a region's cells: the smallest dense box that holds them, a ragged one's lines ending at their lengths (R78). -/
def Region.cellHull (r : Region) (lens : List Nat) : Option Box := (r.exact lens).hull

/-- A ragged region cut by a box: the surviving box keeps lenptr, anchor and base (R81). A box that survives stays ragged also where
its lines hold no cell of it (log 97). -/
def raggedCut (r : Region) (b : Box) : RgRes :=
  match r.boxes with
  | x :: _ =>
    let cut : Box := List.zipWith (fun (a c : Span1) =>
      let lo := max a.lo c.lo
      ⟨lo, (min (a.lo + a.ext) (c.lo + c.ext) - lo).toNat⟩) x b
    if cut.any (fun sp => sp.ext == 0) then .ok (Region.empty r.rank) false else .ok { r with boxes := [cut] } false
  | [] => .ok (Region.empty r.rank) false

/-! ## Set operations (R79 to R81, R88) -/

/-- The three set operations. -/
inductive SetOp where
  | and | or | sub
  deriving DecidableEq, Repr

/-- Membership under an operation. -/
def SetOp.fn : SetOp → Bool → Bool → Bool
  | .and, a, b => a && b
  | .or, a, b => a || b
  | .sub, a, b => a && !b

/-- Every coordinate of a strided box lies on another lattice. -/
def boxOnLattice (strides : List Nat) (b : Box) (strides' : List Nat) (phases' : List Int) : Bool :=
  (List.zip (List.zip b strides) (List.zip strides' phases')).all fun ((sp, st), st', ph') =>
    (sp.lo - ph') % st' == 0 && (sp.ext == 1 || st % st' == 0)

/-- Every cell of one dense or strided region is a cell of another (R89): the cells must lie on its lattice, and within its
boxes. -/
def covers (a b : Region) : Bool :=
  if a.isEmpty then true
  else if b.isEmpty then false
  else
    a.boxes.all (fun x => boxOnLattice a.strides x b.strides b.phases) &&
    let ph := a.phases
    (combine SetOp.sub.fn a.rank (a.latticeBoxes a.strides ph) (b.latticeBoxes a.strides ph)).isEmpty

/-- Smallest common cell at or above both starts of two progressions, if they meet: stepping the one with the larger step at most
as often as the other's step. -/
def meetFrom (fuel : Nat) (x : Int) (sx : Nat) (lo : Int) (s : Nat) : Option Int :=
  match fuel with
  | 0 => none
  | f + 1 => if (x - lo) % s = 0 then some x else meetFrom f (x + sx) sx lo s

/-- Common coordinates of two progressions as a range, ends included (R79 case 2). -/
def meetSpan (a : Span1) (sa : Nat) (b : Span1) (sb : Nat) : Option Span1 :=
  let la := a.lo + ((a.ext : Int) - 1) * sa
  let lb := b.lo + ((b.ext : Int) - 1) * sb
  let start := if a.lo < b.lo then a.lo + (b.lo - a.lo + sa - 1) / sa * sa else a.lo
  match meetFrom sb start sa b.lo sb with
  | none => none
  | some x =>
    let last := min la lb
    if last < x then none
    else
      let l := Nat.lcm sa sb
      some ⟨x, ((last - x) / l * l + 1).toNat⟩

/-- Common cells of two strided boxes as a hull. -/
def meetBox (a : Box) (sa : List Nat) (b : Box) (sb : List Nat) : Option Box :=
  (List.zip (List.zip a sa) (List.zip b sb)).mapM fun ((x, s), y, t) => meetSpan x s y t

/-- The hull of the exact result over two lattices (R79 case 2): for `rg.sub`, of the first operand. -/
def mixedHull (op : SetOp) (a b : Region) : Option Box :=
  match op with
  | .and => hullBox (a.boxes.flatMap fun x => b.boxes.filterMap fun y => meetBox x a.strides y b.strides)
  | .or => hullBox (a.boxes.map (denseBox a.strides) ++ b.boxes.map (denseBox b.strides))
  | .sub => if covers a b then none else a.hull

/-- Two operands' lattices agree in every dimension (R80). -/
def sameLattice (a b : Region) : Bool := a.strides == b.strides && a.phases == b.phases

/-- An operation on exact dense or strided operands of one rank (R79 cases 1 and 2, R80). -/
def setExact (op : SetOp) (a b : Region) : RgRes :=
  let on (l : Region) :=
    let ph := l.phases
    finishOn a.rank l.strides ph (combine op.fn a.rank (a.latticeBoxes l.strides ph) (b.latticeBoxes l.strides ph))
  if b.isEmpty || sameLattice a b then on a
  else if a.isEmpty then on b
  else if op = .and ∧ a.kind = .dense then on b
  else if op ≠ .or ∧ b.kind = .dense then on a
  else
    match mixedHull op a b with
    | none => .ok (Region.empty a.rank) false
    | some h => rangeChecked (inexactOf a.rank (some h)) true

/-- The result as an INEXACT hull, counted or not. -/
def blurResult (counts : Bool) : RgRes → RgRes
  | .ok r _ => if r.isEmpty then .ok r false else rangeChecked r.blurred counts
  | .range => .range
  | .illegal => .illegal

/-- R81 lists `rg.and` of a ragged operand with a dense region of one box as exact; an empty operand leaves nothing. -/
def listedCut (op : SetOp) (ot : Region) : Bool := op == .and && ot.kind == .dense && ot.boxes.length ≤ 1

/-- `rg.and`, `rg.or` and `rg.sub` (R88) on operands whose line lengths are given. Under the fourth case of R79 a result counts, also
where an operand is INEXACT; under the third and the first or second together it does not (log 98). In the third case alone a ragged
operand counts with its cells, an INEXACT one as its hull (log 119). -/
def setOp (op : SetOp) (a b : Region) (la lb : List Nat) : RgRes :=
  if a.rank = 0 ∧ b.rank = 0 then .ok Region.null false
  else if a.rank ≠ 0 ∧ b.rank ≠ 0 ∧ a.rank ≠ b.rank then .illegal
  else
    let a := a.withRank b.rank
    let b := b.withRank a.rank
    let rags := (a.kind == .ragged && !listedCut op b) || (b.kind == .ragged && !listedCut op a)
    let ends := (a.kind == .ragged && listedCut op b) || (b.kind == .ragged && listedCut op a)
    if op = .sub ∧ (b.inexact ∨ b.kind = .ragged) then
      if (a.exact la).isEmpty then .ok (Region.empty a.rank) false else rangeChecked a.blurred rags
    else if ends ∧ !a.inexact ∧ !b.inexact then
      let (rg, ot) := if a.kind = .ragged then (a, b) else (b, a)
      match ot.boxes with
      | [] => .ok (Region.empty a.rank) false
      | x :: _ => raggedCut rg x
    else if rags then
      match setExact op (a.exact la) (b.exact lb) with
      | .ok r _ => if r.isEmpty then .ok r false else blurResult true (setExact op a.asDense b.asDense)
      | _ => blurResult true (setExact op a.asDense b.asDense)
    else if a.inexact ∨ b.inexact then blurResult false (setExact op (a.exact la) (b.exact lb))
    else setExact op a b

/-- `rg.in`: `none` when an operand is INEXACT (R89). -/
def subset (a b : Region) (la lb : List Nat) : Option Bool :=
  if a.inexact || b.inexact then none else some (covers (a.exact la) (b.exact lb))

/-! ## Building (R86) -/

/-- One box built from corners and extents; any extent of zero gives the empty region. -/
def buildBox (rank : Nat) (los : List Int) (exts : List Nat) (strides : List Nat) : RgRes :=
  if exts.any (· == 0) then .ok (Region.empty rank) false
  else
    let b : Box := List.zipWith Span1.mk los exts
    rangeChecked ⟨rank, if strides.all (· == 1) then .dense else .strided, false, 0, strides, 0, 0, [b]⟩ false

/-- `rg.boxr` (R86): anchor is the last lower corner and base the first. -/
def buildRagged (rank : Nat) (los : List Int) (exts : List Nat) (off : Nat) : RgRes :=
  if exts.any (· == 0) then .ok (Region.empty rank) false
  else
    let b : Box := List.zipWith Span1.mk los exts
    rangeChecked ⟨rank, .ragged, false, off, List.replicate rank 1, los.getLastD 0, los.headD 0, [b]⟩ false

/-! ## Reshaping (R90) -/

/-- `rg.dil`: each box grows by h lattice steps on both sides. -/
def dilate (r : Region) (h : List Nat) (lens : List Nat) : RgRes :=
  let grow (q : Region) : Region :=
    { q with boxes := q.boxes.map fun b => List.zipWith (fun (sp : Span1) (x : Nat × Nat) =>
        ⟨sp.lo - x.1 * x.2, sp.ext + 2 * x.1⟩) b (List.zip h q.strides) }
  if r.rank = 0 then .ok Region.null false
  else if (r.exact lens).isEmpty then .ok (Region.empty r.rank) false
  else if r.inexact || r.kind = .ragged then blurResult (r.kind == .ragged) (normalised (grow r.asDense))
  else normalised (grow r)

/-- `rg.shf`: every corner moves; a ragged region moves anchor and base. -/
def shift (r : Region) (d : List Int) : RgRes :=
  if r.rank = 0 then .ok Region.null false
  else
    let boxes := r.boxes.map fun b => List.zipWith (fun (sp : Span1) (x : Int) => ⟨sp.lo + x, sp.ext⟩) b d
    match r.kind with
    | .ragged =>
      let an := r.anchor + d.getLastD 0
      let ba := r.base + d.headD 0
      if -(2 ^ 31 : Int) ≤ an ∧ an < 2 ^ 31 ∧ -(2 ^ 31 : Int) ≤ ba ∧ ba < 2 ^ 31 then
        rangeChecked { r with boxes := boxes, anchor := an, base := ba } false
      else .range
    | .dense | .strided => rangeChecked { r with boxes := boxes } false

/-- The elements of a list whose positions a mask names, in order. -/
def keep {α : Type} (mask : Nat) (l : List α) : List α :=
  (List.zip (List.range l.length) l).filterMap fun (i, a) => if mask.testBit i then some a else none

/-- `rg.proj`: the kept dimensions; a ragged operand gives the hull. The mask is checked by the caller. -/
def project (r : Region) (mask : Nat) (lens : List Nat) : RgRes :=
  let cut (q : Region) : Region :=
    let st := keep mask q.strides
    ⟨st.length, if st.all (· == 1) then .dense else .strided, false, 0, st, 0, 0, q.boxes.map (keep mask)⟩
  if r.rank = 0 then .ok Region.null false
  else if (r.exact lens).isEmpty then .ok (Region.empty (keep mask r.strides).length) false
  else if r.inexact || r.kind = .ragged then blurResult (r.kind == .ragged) (normalised (cut r.asDense))
  else normalised (cut r)

/-- A range that holds every coordinate. -/
def wideSpan : Span1 := ⟨-(2 ^ 40), 2 ^ 41⟩

/-- `rg.clip`: intersect with 0 to extent - 1 in every dimension that does not wrap. A null region takes the descriptor's rank, as it
takes another operand's (R42; log 99). -/
def clip (r : Region) (td : Td) (lens : List Nat) : RgRes :=
  let rank := td.rank.toNat
  if rank = 0 ∨ (r.rank ≠ 0 ∧ r.rank ≠ rank) then .illegal
  else if r.rank = 0 then .ok (Region.empty rank) false
  else
    let b : Box := (List.range rank).map fun i =>
      if td.wrap.getLsbD i then wideSpan else ⟨0, (td.extents.getD i 0).toNat⟩
    if b.any (fun sp => sp.ext == 0) then .ok (Region.empty rank) false
    else setOp .and r (Region.dense rank [b]) lens []

/-! ## Splitting (R91, R92) -/

/-- The first m cells of one box in canonical order, and the rest. -/
def takeCells : Box → List Nat → Nat → List Box × List Box
  | [], _, m => if m = 0 then ([], [[]]) else ([[]], [])
  | sp :: t, strides, m =>
    let st := strides.headD 1
    let inner := boxCells t
    let q := m / inner
    let rem := m % inner
    if sp.ext ≤ q then ([sp :: t], [])
    else
      let first := if q = 0 then [] else [⟨sp.lo, q⟩ :: t]
      let (f2, r2) := if rem = 0 then ([], []) else takeCells t strides.tail rem
      let row : Span1 := ⟨sp.lo + q * st, 1⟩
      let k := if rem = 0 then q else q + 1
      let rest := if k < sp.ext then [⟨sp.lo + k * st, sp.ext - k⟩ :: t] else []
      (first ++ f2.map (row :: ·), r2.map (row :: ·) ++ rest)

/-- The first n cells of boxes in order, and the rest. -/
def takeBoxes (strides : List Nat) : List Box → Nat → List Box × List Box
  | [], _ => ([], [])
  | b :: t, n =>
    let c := boxCells b
    if c ≤ n then
      let (f, r) := takeBoxes strides t (n - c)
      (b :: f, r)
    else if n = 0 then ([], b :: t)
    else
      let (f, r) := takeCells b strides n
      (f, r ++ t)

/-- How many whole lines at the start hold at most n cells. -/
def linesFit : List Nat → Nat → Nat
  | [], _ => 0
  | c :: t, n => if c ≤ n then linesFit t (n - c) + 1 else 0

/-- Cells of each dimension-0 line of a ragged region. -/
def Region.lineCells (r : Region) (lens : List Nat) : List Nat :=
  match r.boxes with
  | (_ :: rest) :: _ =>
    match rest.getLast? with
    | some l => lens.map fun (n : Nat) => (min (l.lo + l.ext) (r.anchor + (n : Int)) - l.lo).toNat * boxCells rest.dropLast
    | none => []
  | _ => []

/-- A ragged region's lines from a to b - 1. -/
def Region.lines (r : Region) (a b : Nat) : Region :=
  match r.boxes with
  | (d0 :: rest) :: _ => if a < b then { r with boxes := [⟨d0.lo + a, b - a⟩ :: rest] } else Region.empty r.rank
  | _ => Region.empty r.rank

/-- `rg.split`: the first n cells and the rest (R91). -/
def splitCells (r : Region) (n : Nat) (lens : List Nat) : RgRes × RgRes :=
  if r.rank = 0 then (.ok Region.null false, .ok Region.null false)
  else if r.isEmpty then (.ok (Region.empty r.rank) false, .ok (Region.empty r.rank) false)
  else
    match r.kind with
    | .ragged =>
      let cells := r.lineCells lens
      let k := linesFit cells n
      let part (cs : List Nat) (q : Region) : RgRes := .ok (if cs.all (· == 0) then Region.empty r.rank else q) false
      (part (cells.take k) (r.lines 0 k), part (cells.drop k) (r.lines k lens.length))
    | .dense | .strided =>
      let (f, t) := takeBoxes r.strides r.boxes n
      let a := normalised { r with boxes := f, inexact := false }
      let b := normalised { r with boxes := t, inexact := false }
      if r.inexact then (blurResult false a, blurResult false b) else (a, b)

/-- `rg.split.k`: slab j of k along one dimension of the hull of its cells, and the slabs after it (R78, R92). The fields are checked
by the caller. -/
def splitSlabs (r : Region) (dim k j : Nat) (lens : List Nat) : RgRes × RgRes :=
  if r.rank = 0 then (.ok Region.null false, .ok Region.null false)
  else
    match r.cellHull lens with
    | none => (.ok (Region.empty r.rank) false, .ok (Region.empty r.rank) false)
    | some h =>
      let sp := h.getD dim ⟨0, 0⟩
      let edge (p : Nat) : Nat := p * sp.ext / k
      let part (p q : Nat) : RgRes :=
        if edge p < edge q then
          let b : Box := (List.replicate r.rank wideSpan).set dim ⟨sp.lo + edge p, edge q - edge p⟩
          setOp .and r (Region.dense r.rank [b]) lens []
        else .ok (Region.empty r.rank) false
      (part j (j + 1), part (j + 1) k)

/-! ## Reading out (R93) -/

/-- `rg.cnt`, saturating. -/
def countCells (r : Region) (lens : List Nat) : Nat := min (boxesCells (r.exact lens).boxes) (2 ^ 64 - 1)

/-! ## Cells in canonical order (R75) -/

/-- Boxes with their strides, in the order copies move their cells: an INEXACT region's hull, a ragged one line by line. -/
def Region.moveBoxes (r : Region) (lens : List Nat) : List (Box × List Nat) :=
  let e := r.exact lens
  e.boxes.map fun b => (b, e.strides)

/-- The coordinates of cell n of a box, innermost fastest. -/
def cellAt : Box → List Nat → Nat → List Int
  | [], _, _ => []
  | sp :: t, strides, n =>
    let inner := boxCells t
    (sp.lo + (n / inner) * strides.headD 1) :: cellAt t strides.tail (n % inner)

/-- The coordinates of cell n over boxes in order. -/
def cellOf : List (Box × List Nat) → Nat → Option (List Int)
  | [], _ => none
  | (b, st) :: t, n => if n < boxCells b then some (cellAt b st n) else cellOf t (n - boxCells b)

/-- Cells from cell n to the end of the box row it lies in (R27: one row of one box). -/
def rowRest : List (Box × List Nat) → Nat → Nat
  | [], _ => 0
  | (b, _) :: t, n =>
    if n < boxCells b then
      let row := (b.getLast?.map (·.ext)).getD 1
      row - n % row
    else rowRest t (n - boxCells b)

/-! ## The image (R71, R94) -/

/-- A field placed at a bit. -/
def putBits (v : Int) (width lo : Nat) : Nat := (BitVec.ofInt width v).toNat <<< lo

/-- The 2,048-bit image of a region. -/
def Region.image (r : Region) : Nat :=
  let kind := match r.kind with | .dense => 0 | .strided => 1 | .ragged => 2
  let head := r.rank ||| kind <<< 3 ||| (if r.rank ≠ 0 ∧ r.boxes = [] then 1 <<< 5 else 0) |||
    (if r.inexact then 1 <<< 6 else 0) ||| r.boxes.length <<< 8 ||| r.lenptr <<< 16 ||| putBits r.anchor 32 192 |||
    putBits r.base 32 224
  let strides := (List.zip (List.range 7) r.strides).foldl (fun n (i, s) => n ||| s <<< (64 + 16 * i)) 0
  let entries := (List.zip (List.range 28) r.boxes.flatten).foldl
    (fun n (e, sp) => n ||| putBits sp.lo 32 (256 + 64 * e) ||| sp.ext <<< (288 + 64 * e)) 0
  head ||| strides ||| entries

/-- Bits lo to lo + n - 1 of a number. -/
def bitsOf (v lo n : Nat) : Nat := (v >>> lo) % 2 ^ n

/-- A signed 32-bit field. -/
def sint32 (v lo : Nat) : Int := (BitVec.ofNat 32 (v >>> lo)).toInt

/-- Split a list into boxes of the given rank. -/
def chunk {α : Type} (n : Nat) : Nat → List α → List (List α)
  | 0, _ => []
  | k + 1, l => l.take n :: chunk n k (l.drop n)

/-- The fields of an image, if it passes the checks of R94, before canonical form. -/
def Region.parse (v : Nat) : Option Region :=
  if v = 0 then some Region.null
  else
    let rank := bitsOf v 0 3
    let kind := bitsOf v 3 2
    let empty := v.testBit 5
    let inexact := v.testBit 6
    let nbox := bitsOf v 8 4
    let lenptr := bitsOf v 16 20
    let strides := (List.range rank).map fun i => bitsOf v (64 + 16 * i) 16
    let used := nbox * rank
    let entry (e : Nat) : Span1 := ⟨sint32 v (256 + 64 * e), bitsOf v (288 + 64 * e) 24⟩
    let es := (List.range used).map entry
    let boxes := chunk rank nbox es
    let kd : RKind := if kind = 0 then .dense else if kind = 1 then .strided else .ragged
    let anchor := sint32 v 192
    let base := sint32 v 224
    let phaseOk := match boxes with
      | [] => true
      | b :: t => t.all fun b' => (List.zip (List.zip b b') strides).all fun ((x, y), s) => phase x.lo s == phase y.lo s
    let ok :=
      rank != 0 && kind != 3 &&
      bitsOf v 7 1 == 0 && bitsOf v 12 4 == 0 && bitsOf v 36 28 == 0 && bitsOf v 176 16 == 0 &&
      (kind == 2 || (lenptr == 0 && anchor == 0 && base == 0)) &&
      (!inexact || (!empty && kind == 0 && nbox == 1)) &&
      nbox ≤ capacity rank &&
      (empty == (nbox == 0)) &&
      strides.all (fun s => 1 ≤ s) &&
      ((List.range 7).drop rank).all (fun i => bitsOf v (64 + 16 * i) 16 == 0) &&
      (kind != 0 || strides.all (· == 1)) &&
      (kind != 1 || phaseOk) &&
      (kind != 2 || (nbox == 1 && 2 ≤ rank && lenptr % 2 == 0)) &&
      (List.range used).all (fun e => bitsOf v (288 + 64 * e) 24 != 0 && bitsOf v (312 + 64 * e) 8 == 0) &&
      v >>> (256 + 64 * used) == 0
    if ok then some ⟨rank, kd, inexact, lenptr, strides, anchor, base, boxes⟩ else none

/-- `rg.ld`: the canonical form of a good image; an INEXACT or ragged one loads as written (R94), a ragged one with the strides that
stand in it (log 101). -/
def Region.load (v : Nat) : RgRes :=
  match Region.parse v with
  | none => .illegal
  | some r =>
    if r.rank = 0 then .ok Region.null false
    else if r.isEmpty then .ok (Region.empty r.rank) false
    else if r.inexact || r.kind = .ragged then rangeChecked r false
    else
      match rangeChecked r false with
      | .ok r _ => normalised r
      | e => e

end Sys2Proof.Machine
end

