-- ==== Sys2Proof/Machine/Base.lean ====
section
/-!
DEFINITION. The plain accessors: association lists, bytes of memory, the mesh and its numbers (R15 to R19, R29, R30), and the
registers and parts of State every instruction reads and writes.
-/

namespace Sys2Proof.Machine

/-! ## Lists by key -/

/-- The first entry of a key. -/
def alGet {α : Type} (k : Nat) : List (Nat × α) → Option α
  | [] => none
  | (a, v) :: t => if a = k then some v else alGet k t

/-- Set the entry of a key in a list with rising keys. -/
def alSet {α : Type} (k : Nat) (v : α) : List (Nat × α) → List (Nat × α)
  | [] => [(k, v)]
  | (a, w) :: t => if k < a then (k, v) :: (a, w) :: t else if a = k then (k, v) :: t else (a, w) :: alSet k v t

/-- Remove every entry of a key. -/
def alErase {α : Type} (k : Nat) : List (Nat × α) → List (Nat × α)
  | [] => []
  | (a, w) :: t => if a = k then alErase k t else (a, w) :: alErase k t

/-- Change the entry of a key, if there is one. -/
def alUpdate {α : Type} (k : Nat) (f : α → α) (l : List (Nat × α)) : List (Nat × α) :=
  match alGet k l with
  | some v => alSet k (f v) l
  | none => l

/-- Change the element at a position. -/
def listUpdate {α : Type} (l : List α) (i : Nat) (f : α → α) : List α :=
  match l[i]? with
  | some v => l.set i (f v)
  | none => l

/-! ## Memory -/

/-- The byte at an address (log 4: 0 where nothing is listed). -/
def readByte (m : Memory) (a : Nat) : Byte := (alGet a m).getD 0

/-- Write one byte, keeping the canonical form. -/
def writeByte (m : Memory) (a : Nat) (v : Byte) : Memory := if v = 0 then alErase a m else alSet a v m

/-- A little-endian number of n bytes (R3). -/
def readLE (m : Memory) (a : Nat) : Nat → Nat
  | 0 => 0
  | n + 1 => (readByte m a).toNat + 256 * readLE m (a + 1) n

/-- Store the low n bytes of a number, little-endian (R3). -/
def writeLE (m : Memory) (a : Nat) : Nat → Nat → Memory
  | 0, _ => m
  | n + 1, v => writeLE (writeByte m a (BitVec.ofNat 8 v)) (a + 1) n (v / 256)

/-- n bytes from an address. -/
def readBytes (m : Memory) (a n : Nat) : List Byte := (List.range n).map fun i => readByte m (a + i)

/-- Bytes stored from an address on. -/
def writeBytes (m : Memory) (a : Nat) : List Byte → Memory
  | [] => m
  | b :: t => writeBytes (writeByte m a b) (a + 1) t

/-- Write zero over a range. -/
def clearBytes (m : Memory) (a n : Nat) : Memory := m.filter fun c => !(a ≤ c.1 && c.1 < a + n)

/-- The number of little-endian bytes. -/
def leNat : List Byte → Nat
  | [] => 0
  | b :: t => b.toNat + 256 * leNat t

/-- n little-endian bytes of a number. -/
def leBytes (v : Nat) : Nat → List Byte
  | 0 => []
  | n + 1 => BitVec.ofNat 8 v :: leBytes (v / 256) n

/-- Keys rise strictly from a lower bound, and no byte is zero. -/
def memFrom (lo : Nat) : Memory → Bool
  | [] => true
  | (a, v) :: t => decide (lo ≤ a) && v != 0 && memFrom (a + 1) t

/-- The canonical form of a memory. -/
def Memory.wf (m : Memory) : Bool := memFrom 0 m

/-! ## Numbers -/

/-- A number as a register value. -/
def w64 (n : Nat) : Word := BitVec.ofNat 64 n

/-- A number with bits [hi:lo] of another put in. -/
def putField (v lo n x : Nat) : Nat := v - (v >>> lo) % 2 ^ n * 2 ^ lo + x % 2 ^ n * 2 ^ lo

/-- A signed number of n bits. -/
def signExt (n v : Nat) : Int := (BitVec.ofNat n v).toInt

/-- Add one to a count that stops at its top. -/
def satInc {w : Nat} (c : BitVec w) : BitVec w := if c = BitVec.allOnes w then c else c + 1

/-- Add to a count that stops at its top. -/
def satAdd {w : Nat} (c : BitVec w) (n : Nat) : BitVec w :=
  if c.toNat + n < 2 ^ w then BitVec.ofNat w (c.toNat + n) else BitVec.allOnes w

/-! ## The mesh (R15 to R19) -/

/-- X of a core by physical id (R16). -/
def coreX (id : Nat) : Nat := 32 * (id / 1024 % 2) + 4 * (id / 16 % 8) + id % 4

/-- Y of a core by physical id (R16). -/
def coreY (id : Nat) : Nat := 32 * (id / 2048 % 2) + 4 * (id / 128 % 8) + id / 4 % 4

/-- Physical id of the core at global coordinates (R16, R17). -/
def idAt (x y : Nat) : Nat :=
  (x / 32 + 2 * (y / 32)) * 1024 + (8 * (y % 32 / 4) + x % 32 / 4) * 16 + (4 * (y % 4) + x % 4)

/-- Cluster number 0 to 255 of a core: die and cluster of R17. -/
def clusterOf (id : Nat) : Nat := id / 16

/-- Core number in its cluster (R17). -/
def coreNo (id : Nat) : Nat := id % 16

/-- Die of a core. -/
def dieOf (id : Nat) : Nat := id / 1024

/-- The four cores of a core's row, by column (R19). -/
def rowCores (id : Nat) : List Nat := (List.range 4).map fun c => id / 4 * 4 + c

/-- The sixteen cores of a cluster. -/
def clusterCores (cl : Nat) : List Nat := (List.range 16).map fun c => cl * 16 + c

/-! ## Partitions (R29, R30) -/

/-- Width in cores. -/
def Partition.cw (p : Partition) : Nat := 4 * p.w

/-- Height in cores. -/
def Partition.ch (p : Partition) : Nat := 4 * p.h

/-- Number of cores. -/
def Partition.size (p : Partition) : Nat := p.cw * p.ch

/-- The core lies in the rectangle. -/
def Partition.holds (p : Partition) (id : Nat) : Bool :=
  4 * p.x0 ≤ coreX id && coreX id < 4 * (p.x0 + p.w) && 4 * p.y0 ≤ coreY id && coreY id < 4 * (p.y0 + p.h)

/-- Logical number of a core of the partition (R29). -/
def Partition.logical (p : Partition) (id : Nat) : Nat := (coreY id - 4 * p.y0) * p.cw + (coreX id - 4 * p.x0)

/-- Physical id of a logical number below the partition's size (R29). -/
def Partition.phys (p : Partition) (l : Nat) : Nat := idAt (4 * p.x0 + l % p.cw) (4 * p.y0 + l / p.cw)

/-- Every core of the partition, in logical order. -/
def Partition.coreIds (p : Partition) : List Nat := (List.range p.size).map p.phys

/-- The clusters of the partition by number. -/
def Partition.clusterIds (p : Partition) : List Nat :=
  (List.range (p.w * p.h)).map fun k => clusterOf (idAt (4 * (p.x0 + k % p.w)) (4 * (p.y0 + k / p.w)))

/-- The partition's supervisor core on a die it touches (R30). -/
def Partition.super? (p : Partition) (die : Nat) : Option Nat :=
  let hiX := min (4 * (p.x0 + p.w)) (32 * (die % 2) + 32)
  let hiY := min (4 * (p.y0 + p.h)) (32 * (die / 2) + 32)
  if max (4 * p.x0) (32 * (die % 2)) < hiX ∧ max (4 * p.y0) (32 * (die / 2)) < hiY then some (idAt (hiX - 1) (hiY - 1)) else none

/-- The core is a supervisor core of the partition (R30). -/
def Partition.isSuper (p : Partition) (id : Nat) : Bool := p.super? (dieOf id) == some id

/-! ## Links (R268, R269). Ports: 1 W, 2 N, 3 E, 4 S. -/

/-- The stitching joins the ends of a row. -/
def Stitching.wrapX : Stitching → Bool
  | .ring | .torus => true
  | .mesh | .tree => false

/-- The stitching joins the ends of a column. -/
def Stitching.wrapY : Stitching → Bool
  | .torus => true
  | .mesh | .ring | .tree => false

/-- The port at the other end of a link. -/
def oppositePort : Nat → Nat
  | 1 => 3 | 2 => 4 | 3 => 1 | 4 => 2 | n => n

/-- One step back or forth among n places, with or without a wrap link. -/
def stepAlong (n x : Nat) (forth wrap : Bool) : Option Nat :=
  if forth then if x + 1 < n then some (x + 1) else if wrap then some 0 else none
  else if 0 < x then some (x - 1) else if wrap then some (n - 1) else none

/-- The core at the other end of the link of a port; `none` where the router has no port. -/
def Partition.neighbour (p : Partition) (id port : Nat) : Option Nat :=
  let x := coreX id - 4 * p.x0
  let y := coreY id - 4 * p.y0
  let at' (x y : Nat) : Nat := idAt (4 * p.x0 + x) (4 * p.y0 + y)
  match port with
  | 1 => (stepAlong p.cw x false p.stitching.wrapX).map (at' · y)
  | 2 => (stepAlong p.ch y false p.stitching.wrapY).map (at' x)
  | 3 => (stepAlong p.cw x true p.stitching.wrapX).map (at' · y)
  | 4 => (stepAlong p.ch y true p.stitching.wrapY).map (at' x)
  | _ => none

/-- Hops from a to b among n places: how many, and whether forth. With a wrap link the shorter way, forth when both are equal. -/
def hopsAlong (n a b : Nat) (wrap : Bool) : Nat × Bool :=
  if wrap then
    let f := (b + n - a) % n
    if f ≤ n - f then (f, true) else (n - f, false)
  else if a ≤ b then (b - a, true) else (a - b, false)

/-- The hops of n steps through a port: core and port of each, and where they end. -/
def Partition.walkHops (p : Partition) (port : Nat) : Nat → Nat → List (Nat × Nat) × Nat
  | 0, id => ([], id)
  | n + 1, id =>
    match p.neighbour id port with
    | none => ([], id)
    | some k => let r := p.walkHops port n k; ((id, port) :: r.1, r.2)

/-- Hops along X from a core to the column of another. -/
def Partition.hopsX (p : Partition) (wrap : Bool) (a b : Nat) : List (Nat × Nat) × Nat :=
  let h := hopsAlong p.cw (coreX a - 4 * p.x0) (coreX b - 4 * p.x0) wrap
  p.walkHops (if h.2 then 3 else 1) h.1 a

/-- Hops along Y from a core to the row of another. -/
def Partition.hopsY (p : Partition) (wrap : Bool) (a b : Nat) : List (Nat × Nat) × Nat :=
  let h := hopsAlong p.ch (coreY a - 4 * p.y0) (coreY b - 4 * p.y0) wrap
  p.walkHops (if h.2 then 4 else 2) h.1 a

/-- The path of a request: first along X, then along Y (R269). -/
def Partition.requestPath (p : Partition) (a b : Nat) : List (Nat × Nat) :=
  let x := p.hopsX p.stitching.wrapX a b
  x.1 ++ (p.hopsY p.stitching.wrapY x.2 b).1

/-- The path of a reply: first along Y, then along X (R269). -/
def Partition.replyPath (p : Partition) (a b : Nat) : List (Nat × Nat) :=
  let y := p.hopsY p.stitching.wrapY a b
  y.1 ++ (p.hopsX p.stitching.wrapX y.2 b).1

/-- The mesh path of a stream between two physical cores: a request's, without a wrap link (R282). -/
def Partition.streamPath (p : Partition) (a b : Nat) : List (Nat × Nat) :=
  let x := p.hopsX false (a % 4096) (b % 4096)
  x.1 ++ (p.hopsY false x.2 (b % 4096)).1

/-- A partition with nothing in it, as read for a core of none. -/
def Partition.blank : Partition :=
  { x0 := 0, y0 := 0, w := 0, h := 0, stitching := .mesh, root := 0, area := 0, logBase := 0, logK := 6, handler := 0,
    supEntry := 0, supArg := 0, mode := .startup, grants := [], port := [], notTaken := 0, launches := [], nextKey := 0,
    decisions := 0, program := none, ready := [], waiting := [], parkedTasks := [], stoppedTasks := [], parked := [],
    killed := [], domFaults := [], faults := [], offers := [], deferred := [], preempt := none, incoming := 0,
    decision := none, domCounter := 0, futures := [], migration := none, tlb := [], phase := .none, contexts := [],
    images := [], dispRecseq := 0, records := 0 }

/-! ## Parts of the state -/

/-- A core by physical id. -/
def State.coreAt (s : State) (id : Nat) : Core := (alGet id s.cores).getD (Core.idle id)

/-- Replace a core. -/
def State.setCoreAt (s : State) (id : Nat) (c : Core) : State := { s with cores := alSet id c s.cores }

/-- Change a core. -/
def State.updCoreAt (s : State) (id : Nat) (f : Core → Core) : State := s.setCoreAt id (f (s.coreAt id))

/-- The acting core. -/
def State.core (s : State) : Core := s.coreAt s.cur

/-- Change the acting core. -/
def State.updCore (s : State) (f : Core → Core) : State := s.updCoreAt s.cur f

/-- A cluster by number. -/
def State.clusterAt (s : State) (n : Nat) : Cluster := (alGet n s.clusters).getD Cluster.zero

/-- Change a cluster. -/
def State.updCluster (s : State) (n : Nat) (f : Cluster → Cluster) : State :=
  { s with clusters := alSet n (f (s.clusterAt n)) s.clusters }

/-- A partition by number. -/
def State.partAt (s : State) (p : Nat) : Partition := (alGet p s.parts).getD Partition.blank

/-- Change a partition, if it exists. -/
def State.updPartAt (s : State) (p : Nat) (f : Partition → Partition) : State := { s with parts := alUpdate p f s.parts }

/-- The partition of the acting core. -/
def State.part (s : State) : Partition := s.partAt s.core.part

/-- Change the partition of the acting core. -/
def State.updPart (s : State) (f : Partition → Partition) : State := s.updPartAt s.core.part f

/-- The number of the partition whose rectangle holds a core. -/
def State.partOf? (s : State) (id : Nat) : Option Nat := (s.parts.find? fun p => p.2.holds id).map (·.1)

/-- A link of a path has been taken down (R280). -/
def State.pathDown (s : State) (l : List (Nat × Nat)) : Bool := l.any fun h => (s.coreAt h.1).router.down.contains h.2

/-- A request to a core, or its reply, would cross a link that is down. -/
def State.cutOff (s : State) (p : Partition) (a b : Nat) : Bool := s.pathDown (p.requestPath a b) || s.pathDown (p.replyPath b a)

/-- A cinch by number. -/
def State.cinchAt (s : State) (n : Nat) : Cinch := (alGet n s.cinches).getD Cinch.zero

/-- The state with another acting core. -/
def State.act (s : State) (id : Nat) : State := { s with cur := id }

/-- Apply a change to each of a list, in order. -/
def State.forEach {α : Type} (s : State) (l : List α) (f : State → α → State) : State := l.foldl f s

/-! ## Registers (R38) -/

/-- An x register; x0 reads zero (R38). -/
def Core.x (c : Core) (r : Reg) : Word := if r = 0 then 0 else c.regs.x[r.toNat]'r.isLt

/-- Write an x register; x0 ignores it (R38). -/
def Core.setX (c : Core) (r : Reg) (v : Word) : Core :=
  if r = 0 then c else { c with regs := { c.regs with x := c.regs.x.set r.toNat v r.isLt } }

/-- An f register. -/
def Core.f (c : Core) (r : Reg) : Word32 := c.regs.f[r.toNat]'r.isLt

/-- Write an f register. -/
def Core.setF (c : Core) (r : Reg) (v : Word32) : Core := { c with regs := { c.regs with f := c.regs.f.set r.toNat v r.isLt } }

/-- A region register. -/
def Core.bx (c : Core) (r : Reg4) : Region := c.regs.bx[r.toNat]'r.isLt

/-- Write a region register. -/
def Core.setBx (c : Core) (r : Reg4) (v : Region) : Core :=
  { c with regs := { c.regs with bx := c.regs.bx.set r.toNat v r.isLt } }

/-- A tensor descriptor. -/
def Core.td (c : Core) (r : Reg4) : Td := c.regs.td[r.toNat]'r.isLt

/-- Write a tensor descriptor. -/
def Core.setTd (c : Core) (r : Reg4) (v : Td) : Core := { c with regs := { c.regs with td := c.regs.td.set r.toNat v r.isLt } }

/-- A vector pointer. -/
def Core.vp (c : Core) (r : Reg4) : VPtr := c.regs.vp[r.toNat]'r.isLt

/-- Write a vector pointer and its issue value: commands issued before do not write it back any more (R152). -/
def Core.setVp (c : Core) (r : Reg4) (v : VPtr) : Core :=
  { c with regs := { c.regs with
      vp := c.regs.vp.set r.toNat v r.isLt
      vpIssue := c.regs.vpIssue.set r.toNat v r.isLt
      vpGen := c.regs.vpGen.set r.toNat (c.regs.vpGen[r.toNat]'r.isLt + 1) r.isLt } }

/-- An x register of the acting core. -/
def State.x (s : State) (r : Reg) : Word := s.core.x r

/-- Write an x register of the acting core. -/
def State.setX (s : State) (r : Reg) (v : Word) : State := s.updCore fun c => c.setX r v

/-- An f register of the acting core. -/
def State.f (s : State) (r : Reg) : Word32 := s.core.f r

/-- Write an f register of the acting core. -/
def State.setF (s : State) (r : Reg) (v : Word32) : State := s.updCore fun c => c.setF r v

/-- A region register of the acting core. -/
def State.bx (s : State) (r : Reg4) : Region := s.core.bx r

/-- Write a region register of the acting core. -/
def State.setBx (s : State) (r : Reg4) (v : Region) : State := s.updCore fun c => c.setBx r v

/-- A register of a run of registers, `none` beyond the last (R68). -/
def runReg (r : Reg) (k : Nat) : Option Reg := if r.toNat + k < 32 then some (BitVec.ofNat 5 (r.toNat + k)) else none

/-- The values of n registers from r on, `none` if the run passes x31 (R68). -/
def State.xRun (s : State) (r : Reg) (n : Nat) : Option (List Word) :=
  if r.toNat + n ≤ 32 then some ((List.range n).map fun k => s.x (BitVec.ofNat 5 (r.toNat + k))) else none

/-- The acting core's logical number (R29). -/
def State.lcore (s : State) : Nat := s.part.logical s.cur

/-- Set bits of `vflags` (R129). -/
def Core.orVflags (c : Core) (f : VFlags) : Core := { c with csr := { c.csr with vflags := c.csr.vflags ||| f } }

/-- Accrue `fflags` (R54). -/
def Core.orFflags (c : Core) (f : BitVec 5) : Core := { c with csr := { c.csr with fflags := c.csr.fflags ||| f } }

/-- The core's launch, if a task is bound. -/
def State.launchOf? (s : State) (id : Nat) : Option Nat :=
  match (s.coreAt id).bound with
  | .task l .. => some l
  | .idle | .supervisor => none

/-- A launch of a partition by key. -/
def Partition.launch? (p : Partition) (key : Nat) : Option Launch := p.launches.find? fun l => l.key == key

/-- Change a launch. -/
def Partition.updLaunch (p : Partition) (key : Nat) (f : Launch → Launch) : Partition :=
  { p with launches := p.launches.map fun l => if l.key = key then f l else l }

end Sys2Proof.Machine
end

