-- ==== Sys2Proof/Machine/Operands.lean ====
section
/-!
DEFINITION. Operand forms: images of descriptors, pointers, tiles and messages, element addresses (R39, R40, R47, R97, R105,
R109, R188), ragged line lengths (R74, R87), and the target span and cover map of an overwriting loop (R260, R262).
-/

namespace Sys2Proof.Machine

/-! ## Descriptors (R39, R42, R95) -/

/-- The 512-bit image of a descriptor (R39). -/
def Td.image (t : Td) : Nat :=
  let exts := (List.zip (List.range 7) t.extents).foldl (fun n (i, e) => n ||| e.toNat <<< (102 + 24 * i)) 0
  let strs := (List.zip (List.range 7) t.strides).foldl (fun n (i, e) => n ||| e.toNat <<< (270 + 32 * i)) 0
  t.base.toNat ||| (fmtCode t.fmt).toNat <<< 64 ||| t.rank.toNat <<< 72 ||| t.wrap.toNat <<< 75 |||
    t.swizzle.toNat <<< 82 ||| t.grant.toNat <<< 86 ||| exts ||| strs

/-- The descriptor of an image that `td.ld` accepts (R95). -/
def Td.parse (v : Nat) : Option Td :=
  match fmt? (BitVec.ofNat 8 (v >>> 64)) with
  | none => none
  | some f =>
    if bitsOf v 82 4 ≤ 4 ∧ bitsOf v 494 18 = 0 then
      some ⟨BitVec.ofNat 64 v, f, BitVec.ofNat 3 (v >>> 72), BitVec.ofNat 7 (v >>> 75), BitVec.ofNat 4 (v >>> 82),
        BitVec.ofNat 16 (v >>> 86), (List.range 7).map (fun i => BitVec.ofNat 24 (v >>> (102 + 24 * i))),
        (List.range 7).map (fun i => BitVec.ofNat 32 (v >>> (270 + 32 * i)))⟩
    else none

/-- Extent of a dimension. -/
def Td.ext (t : Td) (i : Nat) : Nat := (t.extents.getD i 0).toNat

/-- Signed stride of a dimension. -/
def Td.stride (t : Td) (i : Nat) : Int := (t.strides.getD i 0).toInt

/-- Valid for use: rank 1 to 7 and an element size (R42, R95). -/
def Td.valid (t : Td) : Bool := t.rank != 0 && t.fmt.isSome

/-- The format of a valid descriptor. -/
def Td.format (t : Td) : Fmt := t.fmt.getD .i8

/-- The alignment of the base: the element size, one byte for 4-bit elements. -/
def elemBytes (f : Fmt) : Nat := max 1 (f.width / 8)

/-- Coordinates with wrapped dimensions taken modulo the extent (R99, R188). -/
def Td.wrapped (t : Td) (c : List Int) : List Int :=
  (List.zip (List.range c.length) c).map fun (i, x) =>
    if t.wrap.getLsbD i && t.ext i != 0 then x % (t.ext i : Int) else x

/-- Every coordinate lies in 0 to extent - 1. -/
def Td.inBounds (t : Td) (c : List Int) : Bool :=
  (List.zip (List.range c.length) c).all fun (i, x) => decide (0 ≤ x) && decide (x < t.ext i)

/-- Linear element offset (R97). -/
def Td.linear (t : Td) (c : List Int) : Int :=
  (List.zip (List.range c.length) c).foldl (fun n (i, x) => n + x * t.stride i) 0

/-- A place of an element: its first byte, and its nibble for a 4-bit element. -/
structure ElemAt where
  addr : Word
  odd : Bool
  deriving DecidableEq, Repr

/-- Swizzled byte offset of an element from the base, and the nibble (R47, R97). -/
def Td.offset (t : Td) (c : List Int) : Word × Bool :=
  let e := t.linear c
  let w := t.format.width
  let b : Int := if w = 4 then e / 2 else e * (w / 8 : Nat)
  let row : Int := if t.rank = 1 ∨ t.swizzle = 0 then 0 else (c.getD (t.rank.toNat - 2) 0) % (2 ^ t.swizzle.toNat : Int)
  (BitVec.ofInt 64 b ^^^ (BitVec.ofInt 64 row <<< 5), w = 4 ∧ e % 2 = 1)

/-- The address of an element with a displacement (R97). -/
def Td.elem (t : Td) (disp : Word) (c : List Int) : ElemAt :=
  let (b, odd) := t.offset c
  ⟨t.base + disp + b, odd⟩

/-- An element of a number of whole bytes that holds it. -/
def pickElem (f : Fmt) (odd : Bool) (bytes : Nat) : Nat :=
  if f.width = 4 then if odd then bytes / 16 % 16 else bytes % 16 else bytes % 2 ^ f.width

/-- The bytes that hold an element after it is written. -/
def placeElem (f : Fmt) (odd : Bool) (bytes v : Nat) : Nat :=
  if f.width = 4 then if odd then bytes % 16 + v % 16 * 16 else bytes / 16 % 16 * 16 + v % 16 else v % 2 ^ f.width

/-! ## Pointers, tiles and messages -/

/-- The image of a vector pointer (R40). -/
def VPtr.image (p : VPtr) : Word := p.wrap ++ p.stride ++ p.offset ++ p.tile

/-- The pointer of an image (R40). -/
def VPtr.parse (w : Word) : VPtr := ⟨w.extractLsb' 0 8, w.extractLsb' 8 20, w.extractLsb' 28 16, w.extractLsb' 44 20⟩

/-- The state code of a tile (R105). -/
def TileState.code : TileState → Nat
  | .empty => 0 | .filling => 1 | .ready => 2 | .draining => 3

/-- The 128-bit entry of a tile (R105). -/
def Tile.image (t : Tile) : Nat :=
  t.state.code ||| (if t.rel then 4 else 0) ||| t.off.toNat <<< 4 ||| t.len.toNat <<< 24 ||| t.rows.toNat <<< 44 |||
    t.lo0.toNat <<< 64 ||| t.remaining.toNat <<< 96

/-- A tile of the table. -/
def Core.tile (c : Core) (n : Nat) : Tile := (alGet n c.tiles).getD Tile.empty

/-- Write a tile; an entry that is empty again is not kept. -/
def Core.setTile (c : Core) (n : Nat) (t : Tile) : Core :=
  { c with tiles := if t = Tile.empty then alErase n c.tiles else alSet n t c.tiles }

/-- The 128-bit entry of a message (R109). -/
def Msg.image (m : Msg) : Nat :=
  m.eng.toNat ||| (if m.arrival then 8 else 0) ||| m.status.toNat <<< 4 ||| m.seq.toNat <<< 8 ||| m.tag.toNat <<< 24 |||
    m.cells.toNat <<< 32 ||| m.source.toNat <<< 64

/-! ## Ragged lengths (R74, R87) -/

/-- Offset of the length-table entry of line k of a ragged region (R74). -/
def Region.entryOff (r : Region) (k : Nat) : Int :=
  match r.boxes with
  | (d0 :: _) :: _ => (r.lenptr : Int) + 2 * (d0.lo + (k : Int) - r.base)
  | _ => 0

/-- Lines of a ragged region's box; no other region has any. -/
def Region.lineCount (r : Region) : Nat :=
  match r.kind, r.boxes with
  | .ragged, (d0 :: _) :: _ => d0.ext
  | _, _ => 0

/-- A length-table entry lies in the scratchpad. -/
def entryInside (off : Int) : Bool := decide (0 ≤ off) && decide (off + 2 ≤ Config.spadBytes)

/-- The offset of the first entry of a ragged region's table that lies outside the scratchpad. -/
def Region.entryOutside? (r : Region) : Option Int := ((List.range r.lineCount).map r.entryOff).find? fun o => !entryInside o

/-- The line lengths of a ragged region (R74); `none` if its table leaves the scratchpad. -/
def Region.lengths (r : Region) (spad : Memory) : Option (List Nat) :=
  (List.range r.lineCount).mapM fun k => if entryInside (r.entryOff k) then some (readLE spad (r.entryOff k).toNat 2) else none

/-! ## The skiver's target and cover map (R259 to R263) -/

/-- Number of elements of a target (R259). -/
def Td.elements (t : Td) : Nat := (List.range t.rank.toNat).foldl (fun n i => n * t.ext i) 1

/-- Row-major element index over the extents (R260). -/
def Td.index (t : Td) (c : List Int) : Int :=
  (List.zip (List.range c.length) c).foldl (fun n (i, x) => n * (t.ext i : Int) + x) 0

/-- The byte range of a target from its base, ends included, widened to whole swizzle blocks (R262). -/
def Td.span (t : Td) : Int × Int :=
  let ends := (List.range t.rank.toNat).map fun i => t.stride i * ((t.ext i : Int) - 1)
  let lo := ends.foldl (fun n e => n + min 0 e) 0
  let hi := ends.foldl (fun n e => n + max 0 e) 0
  let w := t.format.width
  let b : Int × Int := if w = 4 then (lo / 2, hi / 2) else (lo * (w / 8 : Nat), hi * (w / 8 : Nat) + (w / 8 : Nat) - 1)
  let k : Int := if t.swizzle = 0 then 1 else 32 * 2 ^ t.swizzle.toNat
  (b.1 / k * k, b.2 / k * k + (k - 1))

/-- The names of an address: one in a core's own window has two (R52). -/
def ownNames (id : Nat) (a : Nat) : List Nat :=
  let own := 0xF000000000 + id * 0x100000
  if own ≤ a ∧ a < own + 0x100000 then [a, a - own + 0xF100000000]
  else if 0xF100000000 ≤ a ∧ a < 0xF100000000 + 0x100000 then [a, a - 0xF100000000 + own]
  else [a]

/-- A range of addresses meets the target span of a descriptor, under any of its names (R262). -/
def Td.meets (t : Td) (id : Nat) (a n : Nat) : Bool :=
  let (lo, hi) := t.span
  (ownNames id a).any fun (a : Nat) => decide ((a : Int) ≤ t.base.toNat + hi) && decide ((t.base.toNat : Int) + lo < a + n)

/-- The cover bit of an element (R260). -/
def coverBit (spad : Memory) (cover k : Nat) : Bool := (readByte spad (cover + k / 8)).getLsbD (k % 8)

/-- Set the cover bit of an element. -/
def setCoverBit (cover : Nat) (spad : Memory) (k : Nat) : Memory :=
  writeByte spad (cover + k / 8) (readByte spad (cover + k / 8) ||| (1#8 <<< (k % 8)))

/-- Coordinates of every cell of a region in canonical order (R75). -/
def Region.cells (r : Region) (lens : List Nat) : List (List Int) :=
  (r.moveBoxes lens).flatMap fun (b, st) => (List.range (boxCells b)).map (cellAt b st)

/-- Element indices of the cells of a footprint (R260, R261). -/
def footprintOf (t : Td) (r : Region) (lens : List Nat) : List Nat := (r.cells lens).map fun c => (t.index c).toNat

end Sys2Proof.Machine
end

