-- ==== Sys2Proof/Machine/Access.lean ====
section
/-!
DEFINITION. Reaching memory: the address map (R48 to R52), translation (R303 to R307), what each mode may reach (R51, R370),
scalar loads and stores with their check order (R185), instruction fetch (R53), and the data-error log (R322).
-/

namespace Sys2Proof.Machine

/-! ## Causes and stops -/

/-- The cause codes of R313. -/
def Cause.illegal : Cause := 1
/-- MISALIGNED. -/
def Cause.misaligned : Cause := 2
/-- ACCESS_FAULT. -/
def Cause.access : Cause := 3
/-- PAGE_FAULT. -/
def Cause.pageFault : Cause := 4
/-- PAGE_PERM. -/
def Cause.pagePerm : Cause := 5
/-- FETCH_FAULT. -/
def Cause.fetch : Cause := 6
/-- ENV_CALL. -/
def Cause.envCall : Cause := 7
/-- BREAKPOINT. -/
def Cause.breakpoint : Cause := 8
/-- DATA_FAULT. -/
def Cause.data : Cause := 9
/-- PEER_GONE. -/
def Cause.peerGone : Cause := 10
/-- BAD_COMMAND. -/
def Cause.badCommand : Cause := 16
/-- MATRIX_MISMATCH. -/
def Cause.matrixMismatch : Cause := 17
/-- MATRIX_OPERAND. -/
def Cause.matrixOperand : Cause := 18
/-- VECTOR_OPERAND. -/
def Cause.vectorOperand : Cause := 19
/-- GRANT_DENIED. -/
def Cause.grantDenied : Cause := 20
/-- REGION_INEXACT. -/
def Cause.regionInexact : Cause := 21
/-- REGION_RANGE. -/
def Cause.regionRange : Cause := 22
/-- OV_READ. -/
def Cause.ovRead : Cause := 23
/-- OV_ESCAPE. -/
def Cause.ovEscape : Cause := 24
/-- SYNC_EXHAUSTED. -/
def Cause.syncExhausted : Cause := 32
/-- SYNC_TOKEN. -/
def Cause.syncToken : Cause := 33
/-- SYNC_MISMATCH. -/
def Cause.syncMismatch : Cause := 34
/-- GANG_MISMATCH. -/
def Cause.gangMismatch : Cause := 35
/-- QUEUE_DEADLOCK. -/
def Cause.queueDeadlock : Cause := 36
/-- FUTURE_HANDLE. -/
def Cause.futureHandle : Cause := 40
/-- FUTURE_STATE. -/
def Cause.futureState : Cause := 41
/-- FUTURE_BUDGET. -/
def Cause.futureBudget : Cause := 42
/-- FUTURE_ORPHAN. -/
def Cause.futureOrphan : Cause := 43
/-- SPAWN_FULL. -/
def Cause.spawnFull : Cause := 44
/-- WEIGHT_EXHAUSTED. -/
def Cause.weightExhausted : Cause := 45
/-- POLICY_INVALID. -/
def Cause.policyInvalid : Cause := 48
/-- CORE_DOUBLE. -/
def Cause.coreDouble : Cause := 49

/-- An entry for the data-error log (R322): source, scale mark and place. -/
structure DataError where
  source : Nat
  scale : Bool
  place : Word
  deriving DecidableEq, Repr

/-- Why an access or an instruction raises a fault (R313, R314). -/
structure Fail where
  cause : Cause
  tval : Word
  detail : BitVec 4
  /-- Engine code reported by a tile-table or inbox command. -/
  eng : BitVec 3
  /-- `tstat.seq` reports `sqnext` (R26). -/
  numbered : Bool
  log : Option DataError
  deriving DecidableEq, Repr

/-- A fault with a cause and a value. -/
def Fail.of (cause : Cause) (tval : Word) : Fail := ⟨cause, tval, 0, 0, false, none⟩

/-- Why an instruction does not complete. -/
inductive Stop where
  | fault (f : Fail)
  /-- It has not executed and waits (R28). -/
  | wait (w : Wait)
  deriving DecidableEq, Repr

/-- Raise a fault. -/
def raise {α : Type} (cause : Cause) (tval : Word) : Except Stop α := .error (.fault (.of cause tval))

/-- Raise a fault under a condition. -/
def raiseIf (c : Bool) (cause : Cause) (tval : Word) : Except Stop Unit := if c then raise cause tval else .ok ()

/-- ILLEGAL_INSTRUCTION; the instruction word is put in where the trap is taken (R313). -/
def illegal {α : Type} : Except Stop α := raise Cause.illegal 0

/-- ILLEGAL_INSTRUCTION unless a condition holds. -/
def need (c : Bool) : Except Stop Unit := if c then .ok () else illegal

/-- Wait under a condition. -/
def waitIf (c : Bool) (w : Wait) : Except Stop Unit := if c then .error (.wait w) else .ok ()

/-! ## The data-error log (R322) -/

/-- Add an entry to a core's data-error log, or count it as lost. -/
def Core.logError (c : Core) (seq : BitVec 16) (time : Word) (e : DataError) : Core :=
  if c.errlog.length < 32 then
    let w0 : Nat := e.source ||| (if e.scale then 8 else 0) ||| seq.toNat <<< 16 ||| (time.toNat % 2 ^ 32) <<< 32
    { c with errlog := c.errlog ++ [⟨w64 w0, e.place⟩] }
  else { c with errlost := satInc c.errlost }

/-! ## The address map (R48, R52, R352, R353) -/

/-- Start of the on-chip physical map. -/
def chipBase : Nat := 0xF000000000
/-- Start of the own-core alias. -/
def aliasBase : Nat := 0xF100000000
/-- Start of the second tier. -/
def tierBase : Nat := 0x100000000000
/-- Start of the Span windows. -/
def spanBase : Nat := 0x10000000000000
/-- Start of host memory. -/
def hostBase : Nat := 0x20000000000000
/-- Bytes of one HBM stack (R2). -/
def stackBytes : Nat := 0x1800000000

/-- The two on-chip ranges, which are never translated (R52, R303). -/
def onChip (a : Nat) : Bool := chipBase ≤ a && a < aliasBase + 0x100000

/-- Bytes of fitted HBM (R2). -/
def State.hbmLimit (s : State) : Nat := s.mgmt.stackCount * stackBytes

/-- The physical address at which n bytes off the chip are kept; `none` where nothing answers (R52, R352, R353). An own Span
window is local HBM. -/
def State.offChip? (s : State) (pa n : Nat) : Option Nat :=
  if pa + n ≤ s.hbmLimit then some pa
  else if tierBase ≤ pa ∧ pa < tierBase + 8 * Config.cxlPortBytes then
    let p := (pa - tierBase) / Config.cxlPortBytes
    if (pa - tierBase) % Config.cxlPortBytes + n ≤ s.mgmt.cxl.getD p 0 ∧ p ∉ s.mgmt.cxlDown then some pa else none
  else if spanBase ≤ pa ∧ pa < hostBase then
    let rank := (pa - spanBase) / 2 ^ 40
    let off := (pa - spanBase) % 2 ^ 40
    if Config.spanBytes < off + n then none
    else if rank = s.mgmt.slice.rank then if off + n ≤ s.hbmLimit then some off else none
    else if (alGet rank s.mgmt.slice.routes).getD 0xFF = 0xFF then none
    else some pa
  else if hostBase ≤ pa ∧ pa + n ≤ hostBase + 0x1000000000000 then some pa
  else none

/-- An address of host memory. -/
def isHost (pa : Nat) : Bool := hostBase ≤ pa

/-- An address of the second tier. -/
def isTier (pa : Nat) : Bool := tierBase ≤ pa && pa < spanBase

/-- Where an access lands: off the chip by physical address, or in the window of a core. -/
inductive Place where
  | mem (pa : Nat)
  | spad (core off : Nat)
  /-- Offset from the start of the accumulators. -/
  | acc (core off : Nat)
  | regwin (core off : Nat)
  | tiles (core off : Nat)
  | inbox (core off : Nat)
  deriving DecidableEq, Repr

/-- The physical address of a place in a window. -/
def windowAddr (core off : Nat) : Nat := chipBase + core * 0x100000 + off

/-- The physical address of a place. -/
def Place.phys : Place → Nat
  | .mem pa => pa
  | .spad c o => windowAddr c o
  | .acc c o => windowAddr c (0xC0000 + o)
  | .regwin c o => windowAddr c (0xE0000 + o)
  | .tiles c o => windowAddr c (0xE1000 + o)
  | .inbox c o => windowAddr c (0xE2000 + o)

/-- The core and offset of an on-chip address; the alias is the issuing core's window (R52). -/
def windowOf (cur a : Nat) : Nat × Nat :=
  if a < aliasBase then ((a - chipBase) / 0x100000, (a - chipBase) % 0x100000) else (cur, a - aliasBase)

/-- The part of a window that holds n bytes at an offset; `none` where the window is reserved (R48, R50). -/
def windowPart (core off n : Nat) : Option Place :=
  if off + n ≤ 0xC0000 then some (.spad core off)
  else if off + n ≤ 0xE0000 then some (.acc core (off - 0xC0000))
  else if 0xE0000 ≤ off ∧ off + n ≤ 0xE0280 then some (.regwin core (off - 0xE0000))
  else if 0xE0300 ≤ off ∧ off + n ≤ 0xE0400 then some (.regwin core (off - 0xE0000))
  else if 0xE1000 ≤ off ∧ off + n ≤ 0xE2000 then some (.tiles core (off - 0xE1000))
  else if 0xE2000 ≤ off ∧ off + n ≤ 0xE2400 then some (.inbox core (off - 0xE2000))
  else none

/-! ## Translation (R303 to R305) -/

/-- The right an access needs. -/
inductive Right where
  | read | write | exec
  deriving DecidableEq, Repr

/-- The bit of a right among R, W, X, S. -/
def Right.bit : Right → Nat
  | .read => 0 | .write => 1 | .exec => 2

/-- Some byte of a range is uncorrectable. -/
def State.poisoned (s : State) (pa n : Nat) : Bool := s.poison.any fun a => pa ≤ a && a < pa + n

/-- The direct address of a byte: an own Span window is local HBM (R52). -/
def State.direct (s : State) (pa : Nat) : Nat :=
  let w := spanBase + s.mgmt.slice.rank * 2 ^ 40
  if w ≤ pa ∧ pa < w + Config.spanBytes then pa - w else pa

/-- A table entry is valid: its reserved bits are zero, and it does not grant writing without reading (R304). -/
def entryValid (e : Nat) : Bool := e.testBit 0 && bitsOf e 6 10 == 0 && bitsOf e 54 10 == 0 && (e.testBit 2 || !e.testBit 3)

/-- A walk from a table through the levels whose index starts at the given bits (R303, R304). -/
def State.walkFrom (s : State) (va src table : Nat) : List Nat → Except Stop TlbEntry
  | [] => raise Cause.pageFault (w64 va)
  | sh :: rest =>
    let a := table + 8 * ((va >>> sh) % 8192)
    if s.hbmLimit < a + 8 then raise Cause.pageFault (w64 va)
    else if s.poisoned a 8 then
      .error (.fault { Fail.of Cause.pageFault (w64 va) with log := some ⟨src, false, w64 a⟩ })
    else
      let e := readLE s.mem a 8
      let pa := bitsOf e 16 38 * 65536
      if !entryValid e then
        raise Cause.pageFault (w64 va)
      else if !e.testBit 1 then
        if rest = [] then raise Cause.pageFault (w64 va) else s.walkFrom va src pa rest
      else if pa % 2 ^ sh ≠ 0 then raise Cause.pageFault (w64 va)
      else .ok ⟨va / 2 ^ sh * 2 ^ sh, 2 ^ sh, pa, BitVec.ofNat 4 (bitsOf e 2 4)⟩

/-- A walk from the root of a partition; an address of more than 55 bits has no translation (R303). -/
def State.walk (s : State) (root va src : Nat) : Except Stop TlbEntry :=
  if 2 ^ 55 ≤ va then raise Cause.pageFault (w64 va) else s.walkFrom va src root [42, 29, 16]

/-- An entry maps an address. -/
def TlbEntry.maps (e : TlbEntry) (va : Nat) : Bool := e.va ≤ va && va < e.va + e.size

/-- One of several versions, by a free choice; where there is one, that one. -/
def pickOf {α : Type} (n : Nat) (v : α) : List α → α
  | [] => v
  | w :: l => (v :: w :: l).getD (n % (l.length + 2)) v

/-- The translation used: a walk, or one a TLB still holds (R306). Which of them is a free choice. -/
def State.leaf (s : State) (p : Partition) (va src : Nat) : Except Stop TlbEntry :=
  let held := p.tlb.filter fun e => e.maps va
  match s.walk p.root va src with
  | .ok e => .ok (pickOf (Config.tlbVersion s.tick) e (held.filter (· != e)))
  | .error f => pickOf (Config.tlbVersion s.tick) (.error f) (held.map .ok)

/-- The physical address of a leaf, if the access has its right (R304). -/
def TlbEntry.permit (e : TlbEntry) (sup : Bool) (r : Right) (va : Nat) : Except Stop Nat :=
  let pa := e.pa + (va - e.va)
  if !e.rights.getLsbD r.bit || (e.rights.getLsbD 3 && !sup) || onChip pa then raise Cause.pagePerm (w64 va) else .ok pa

/-- A TLB of the partition holds a translation. -/
def State.noteTlb (s : State) (p : Nat) (e : TlbEntry) : State :=
  s.updPartAt p fun q => if e ∈ q.tlb then q else { q with tlb := q.tlb ++ [e] }

/-- A migration of another core holds accesses to its virtual range, and, from any partition, to its old pages (R307). -/
def State.migrating (s : State) (p : Partition) (va pa : Nat) : Bool :=
  let bars (m : Migration) : Bool := m.core != s.cur
  p.migration.any (fun m => bars m && m.va ≤ va && va < m.va + m.len) ||
    s.parts.any fun e => e.2.migration.any fun m => bars m && (s.direct pa / 65536 * 65536) ∈ m.pages

/-- Virtual to physical for the acting core, and the state whose TLBs hold the translation. -/
def State.translate (s : State) (sup : Bool) (r : Right) (va src : Nat) : Except Stop (Nat × State) :=
  if onChip va then .ok (va, s)
  else if 2 ^ 55 ≤ va then raise Cause.pageFault (w64 va)
  else if (match s.part.migration with | some m => m.core != s.cur && m.va ≤ va && va < m.va + m.len | none => false) then
    .error (.wait .asleep)
  else
    match s.leaf s.part va src with
    | .error e => .error e
    | .ok e =>
      match e.permit sup r va with
      | .error e => .error e
      | .ok pa => if s.migrating s.part va pa then .error (.wait .asleep) else .ok (pa, s.noteTlb s.core.part e)

/-! ## Who may reach what (R51, R113, R370) -/

/-- The acting core's task shares its launch with the task on another core (R113). -/
def State.sameLaunch (s : State) (id : Nat) : Bool :=
  match s.launchOf? s.cur, s.launchOf? id with
  | some a, some b => a == b && s.core.part == (s.coreAt id).part
  | _, _ => false

/-- Check an access to a place in a window (R51), and that the links to it are up (R280). A task reaches its own window under both of
its names (log 103); a supervisor reaches register windows, accumulators, tile tables and inboxes of its own partition only
(log 104). -/
def State.allow (s : State) (sup : Bool) (r : Right) (va : Nat) (pl : Place) : Except Stop Unit :=
  let deny : Except Stop Unit := raise Cause.access (w64 va)
  let others (id : Nat) : Except Stop Unit := if sup && s.part.holds id && !s.cutOff s.part s.cur id then .ok () else deny
  match pl with
  | .mem _ => .ok ()
  | .spad id _ =>
    if id = s.cur then .ok ()
    else if sup then others id
    else if clusterOf id ≠ clusterOf s.cur then deny
    else if !s.sameLaunch id then raise Cause.peerGone (w64 va)
    else if s.cutOff s.part s.cur id then deny
    else .ok ()
  | .acc id _ => if r = .exec then deny else if id = s.cur then .ok () else others id
  | .regwin id _ => if r = .exec then deny else others id
  | .tiles id _ | .inbox id _ => if r ≠ .read then deny else if id = s.cur then .ok () else others id

/-- Where n bytes at a physical address lie (R52). -/
def State.placeOf? (s : State) (pa n : Nat) : Option Place :=
  if onChip pa then
    let w := windowOf s.cur pa
    windowPart w.1 w.2 n
  else (s.offChip? pa n).map .mem

/-- Where n bytes at a virtual address lie, after translation and checks (R185 step 3 and 4). -/
def State.resolve (s : State) (sup : Bool) (r : Right) (va n src : Nat) : Except Stop (Place × State) :=
  match s.translate sup r va src with
  | .error e => .error e
  | .ok (pa, s') =>
    match s.placeOf? pa n with
    | none => raise Cause.access (w64 va)
    | some pl => match s.allow sup r va pl with
      | .error e => .error e
      | .ok _ => .ok (pl, s')

/-! ## Reading and writing a place -/

/-- n bytes at byte k of a number. -/
def slice (v k n : Nat) : Nat := bitsOf v (8 * k) (8 * n)

/-- An 8-byte word of the register window (R50). -/
def Core.regWord (c : Core) (k : Nat) : Nat :=
  if k < 32 then (c.x (BitVec.ofNat 5 k)).toNat
  else if k < 64 then (c.f (BitVec.ofNat 5 (k - 32))).toNat
  else if k < 80 then (c.vp (BitVec.ofNat 4 (k - 64))).image.toNat
  else 0

/-- Write an 8-byte word of the register window; the push port is apart (R50). -/
def Core.setRegWord (c : Core) (k v : Nat) : Core :=
  if k < 32 then c.setX (BitVec.ofNat 5 k) (w64 v)
  else if k < 64 then c.setF (BitVec.ofNat 5 (k - 32)) (BitVec.ofNat 32 v)
  else if k < 80 then c.setVp (BitVec.ofNat 4 (k - 64)) (VPtr.parse (w64 v))
  else c

/-- Words put into the register window (R50). -/
def Core.landWords (c : Core) (off : Nat) (l : List Word) : Core :=
  ((List.range l.length).zip l).foldl (fun c (k, v) => c.setRegWord (off / 8 + k) v.toNat) c

/-- The register window as another core sees it (R50): at the core's last boundary, with the copies that have landed over it (log 123). -/
def Core.windowWord (c : Core) (k : Nat) : Nat :=
  let d : Core := if c.wait = .partway then { c with regs := { c.regs with x := c.boundary } } else c
  (c.landings.foldl (fun (d : Core) l => d.landWords l.off l.words) d).regWord k

/-- n bytes of a number put in at byte k of an 8-byte word. -/
def mergeWord (old k n v : Nat) : Nat := putField old (8 * k) (8 * n) v

/-- Words of the residue planes keep 17 bits (R49). -/
def fixResidue (acc : Memory) (off : Nat) : Memory :=
  let a := off / 4 * 4
  if a % 0x4000 < 0x1000 then acc else writeLE acc a 4 (readLE acc a 4 % 2 ^ 17)

/-- A scalar store to accumulators (R49). -/
def Core.storeAcc (c : Core) (off n v : Nat) : Core :=
  let m := writeLE c.acc off n v
  { c with acc := fixResidue (fixResidue m off) (off + n - 1) }

/-- The value of n bytes at a place. A core sees its own registers as they are: a landed copy shows there when it dequeues the arrival
(R50). -/
def State.readPlace (s : State) (pl : Place) (n : Nat) : Nat :=
  match pl with
  | .mem pa => readLE s.mem pa n
  | .spad id off => readLE (s.coreAt id).spad off n
  | .acc id off => readLE (s.coreAt id).acc off n
  | .regwin id off => slice (if id = s.cur then s.core.regWord (off / 8) else (s.coreAt id).windowWord (off / 8)) (off % 8) n
  | .tiles id off => slice ((s.coreAt id).tile (off / 16)).image (off % 16) n
  | .inbox id off => slice (((s.coreAt id).inbox[off / 16]?).elim 0 Msg.image) (off % 16) n

/-- Mark the monitors of the lines a write meets (R192). -/
def State.markMonitors (s : State) (pa n : Nat) : State :=
  { s with monitors := s.monitors.map fun m => if m.1 * 64 < pa + n ∧ pa < m.1 * 64 + 64 then (m.1, m.2.1, true) else m }

/-- An access to a line applies what its home holds pending there (R191). -/
def State.endAdds (s : State) (pa n : Nat) : State :=
  { s with adds := s.adds.filter fun e => !(decide (e.pa / 64 * 64 < pa + n) && decide (pa < e.pa / 64 * 64 + 64)) }

/-- Bytes off the chip. -/
def State.putMem (s : State) (pa : Nat) (bs : List Byte) : State :=
  ({ s with mem := writeBytes s.mem pa bs }.endAdds pa bs.length).markMonitors pa bs.length

/-- Store n bytes into a core's window, at once. A store to the push port that is not 8 bytes wide, or finds q0 full, has no effect:
R50 gives neither case (log 102). -/
def Core.storeWindow (c : Core) (pl : Place) (n v : Nat) : Core :=
  match pl with
  | .spad _ off => { c with spad := writeLE c.spad off n v }
  | .acc _ off => c.storeAcc off n v
  | .regwin _ off =>
    if off < 0x280 then c.setRegWord (off / 8) (mergeWord (c.regWord (off / 8)) (off % 8) n v)
    else if n = 8 ∧ c.regs.q0.length < 32 then { c with regs := { c.regs with q0 := c.regs.q0 ++ [w64 v] } }
    else c
  | .mem _ | .tiles _ _ | .inbox _ _ => c

/-- Window offset of a place. -/
def Place.windowOff (pl : Place) : Nat := (pl.phys - chipBase) % 0x100000

/-- The core whose window a place lies in. -/
def Place.core? : Place → Option Nat
  | .mem _ => none
  | .spad c _ | .acc c _ | .regwin c _ | .tiles c _ | .inbox c _ => some c


/-! ## What the agents of a core see of its writes (R9, R155, R171 to R183)

Memory holds every write as soon as it is made, in the order `co`. A core keeps a list of the writes that one of its own agents, its
stream or an engine, may still miss, newest first. What agents outside the core have met, none of its own may miss (log 7). -/

/-- A store of the control stream. -/
def Unseen.isStore (u : Unseen) : Bool := decide (8 ≤ u.key.kind)

/-- A write meets n bytes at an address. -/
def Unseen.meets (u : Unseen) (a n : Nat) : Bool := decide (u.pa < a + n) && decide (a < u.pa + u.old.length)

/-- Two writes have a bit in common. -/
def Unseen.clashes (u v : Unseen) : Bool := u.meets v.pa v.old.length && u.mask &&& v.mask != 0

/-- The bits of the byte at an address that it writes. -/
def Unseen.bits (u : Unseen) (a : Nat) : Byte := if u.pa ≤ a ∧ a < u.pa + u.old.length then u.mask else 0

/-- The byte at an address with those of the given bits as they were before a write, where what it made them stands there. -/
def Unseen.undo (u : Unseen) (a : Nat) (free b : Byte) : Byte :=
  let m := u.bits a &&& free
  if u.new.getD (a - u.pa) 0 &&& m = b &&& m then (b &&& ~~~m) ||| (u.old.getD (a - u.pa) 0 &&& m) else b

/-- The byte at an address as an agent sees it that misses some of the writes, newest first: the bits of one it sees stay. -/
def lookBack (missed : Unseen → Bool) (a : Nat) : List Unseen → Byte → Byte → Byte
  | [], _, b => b
  | u :: t, free, b => if missed u then lookBack missed a t free (u.undo a free b) else lookBack missed a t (free &&& ~~~u.bits a) b

/-- A read that sees the later write `v` cannot miss `u`: they share a location (R178), or `v` comes after `u` and one read can reach both
(R181). -/
def Unseen.leads (u v : Unseen) : Bool :=
  u.clashes v || (u.writes.contains v.key && u.meets (v.pa - 8) (v.old.length + 16))

/-- The writes that a read misses, from a list with the newest first: those it may miss, by their place, unless it sees a later write
that forbids it. `outer` tells which writes are another agent's. -/
def missedOf (may : Nat → Unseen → Bool) (outer : Unseen → Bool) : Nat → List Unseen → List Unseen → List Unseen
  | _, [], _ => []
  | i, u :: t, seen =>
    if may i u && !seen.any u.leads then u :: missedOf may outer (i + 1) t seen
    else missedOf may outer (i + 1) t (if outer u then u :: seen else seen)

/-- The writes of a list, newest first, that an agent has met with those it starts from: these, and what comes before them in `co` or by
`cpl` and `ppo`. -/
def metWith (start : Unseen → Bool) : List Unseen → List Unseen → List Unseen
  | [], hits => hits
  | u :: t, hits =>
    if start u || hits.any (fun v => u.clashes v || u.writes.contains v.key) then metWith start t (u :: hits) else metWith start t hits

/-- How long ago a number was taken, counted back from `sqnext`. -/
def Core.ageOf (c : Core) (seq : BitVec 16) : Nat := (c.seqctr - seq).toNat

/-- The numbers of the commands in the engines. -/
def Engines.seqs (g : Engines) : List (BitVec 16) :=
  (g.vq ++ g.cq ++ g.mq ++ g.kq ++ g.dq).map (·.seq) ++ (g.vrun.map (·.cmd.seq)).toList ++ g.copies.map (·.cmd.seq) ++
    (g.mrun.map fun r => match r with | .product p => p.cmd.seq | .posting c _ _ => c.seq).toList ++
    (g.krun.map (·.cmd.seq)).toList ++ (g.drun.map (·.cmd.seq)).toList

/-- Some command in the engines may still miss a write. -/
def Core.commandMisses (c : Core) (u : Unseen) : Bool :=
  u.since.all fun n => c.eng.seqs.any fun q => decide (c.ageOf n < c.ageOf q)

/-- Drop the writes that no agent of the core can miss any more; a store stands while the stream may miss an earlier write under it. -/
def Core.pruned (c : Core) : Core :=
  { c with unseen := c.unseen.filter fun u => c.commandMisses u ||
      if u.isStore then c.unseen.any fun v => !v.isStore && !v.met && v.clashes u else !u.met }

/-- The stream has met writes, and what comes before them. `wide`: its later events come after all of them, as they do at core scope and
wider; at stream scope only those of its reads there do, and commands it issues later see them all (R177, rows 1 and 10, R182). -/
def Core.settle (c : Core) (start : Unseen → Bool) (wide : Bool) : Core :=
  let hits := metWith start c.unseen []
  if hits = [] then c
  else ({ c with unseen := c.unseen.map fun u =>
    if hits.contains u && !u.isStore then
      { u with met := u.met || wide || start u, since := match u.since with | some n => some n | none => some c.seqctr }
    else u }).pruned

/-- The stream has read n bytes as they stand (R178, R179). -/
def Core.sees (c : Core) (a n : Nat) (wide : Bool) : Core := c.settle (fun u => !u.isStore && u.meets a n) wide

/-- A dequeue acquires every write that comes before the post of an operation (R111, R177). -/
def Core.acquires (c : Core) (k : OpKey) : Core := c.settle (fun u => !u.isStore && u.posts.contains k) true

/-- A fence of core scope or wider: what the stream has read comes before its later events, and its stores come before its later writes
(R177, rows 7 to 9). -/
def Core.fenced (c : Core) (stores : Bool) : Core :=
  let later (u : Unseen) : Unseen := if u.since.isSome && (stores || !u.isStore) then { u with met := true } else u
  ({ c with unseen := c.unseen.map later } : Core).pruned

/-- What agents outside a core have met of its writes, no agent of the core misses (log 7). -/
def Core.exposed (c : Core) (start : Unseen → Bool) : Core :=
  let hits := metWith start c.unseen []
  { c with unseen := c.unseen.filter fun u => !hits.contains u }

/-- An access to n bytes by an agent of a core, or of none, is one from outside every other core. -/
def State.expose (s : State) (who : Option Nat) (pa n : Nat) : State :=
  if s.cores.any fun e => who != some e.1 && e.2.unseen.any fun u => u.meets pa n then
    { s with cores := s.cores.map fun e => if who = some e.1 then e else (e.1, e.2.exposed fun u => u.meets pa n) }
  else s

/-- An access of an agent of a core, or of none, to n bytes: pending operands of its line are applied, and other cores' writes there are
met (R191). -/
def State.touchBy (s : State) (who : Option Nat) (pa n : Nat) : State := (s.endAdds pa n).expose who pa n

/-- An access of an agent of the acting core. -/
def State.touch (s : State) (pa n : Nat) : State := s.touchBy (some s.cur) pa n

/-- Write n bytes at a place, now: what an atomic does at its home, on a halted core too (R179, R334). -/
def State.writeNow (s : State) (pl : Place) (n v : Nat) : State :=
  match pl.core? with
  | none => (s.putMem pl.phys (leBytes v n)).expose (some s.cur) pl.phys n
  | some id => (s.updCoreAt id fun c => c.storeWindow pl n v).touch pl.phys n

/-- Store n bytes at a place; `half` tells the nibble of a 4-bit element. A supervisor store into a halted core's windows waits for the
resume (R334). -/
def State.writePlace (s : State) (pl : Place) (n v : Nat) (half : Option Bool := none) : State :=
  match pl.core? with
  | none => s.writeNow pl n v
  | some id =>
    if (s.coreAt id).halted ∧ id ≠ s.cur then s.updCoreAt id fun c => { c with late := c.late ++ [⟨pl.windowOff, leBytes v n, half⟩] }
    else s.writeNow pl n v

/-- A dequeue of an operation's message or entry: the acting core's stream acquires its writes, and so has every core whose memory the
operation wrote (R111, R183). -/
def State.dequeued (s : State) (k : OpKey) : State :=
  let s := if s.cores.any fun e => e.1 != s.cur && e.2.unseen.any fun u => u.posts.contains k then
      { s with cores := s.cores.map fun e => if e.1 = s.cur then e else (e.1, e.2.exposed fun u => u.posts.contains k) }
    else s
  s.updCore fun c => c.acquires k

/-- The writes that a read of the acting core's stream misses (R9, R183). -/
def State.streamMisses (s : State) : List Unseen :=
  missedOf (fun i u => !u.isStore && !u.met && Config.readsOld s.tick u.pa i) (fun u => !u.isStore) 0 s.core.unseen []

/-- A read of the acting core's stream: each of its engines' writes that no dequeue has acquired may be missed, cell by cell (R9, R183). -/
def State.streamRead (s : State) (pl : Place) (n : Nat) (wide : Bool := true) : Nat × State :=
  let s := s.touch pl.phys n
  let now := s.readPlace pl n
  let l := s.core.unseen
  if !l.any (fun u => u.meets pl.phys n) then (now, s)
  else
    let missed := s.streamMisses
    (leNat (((List.range n).zip (leBytes now n)).map fun (k, b) => lookBack missed.contains (pl.phys + k) l 0xFF b),
      s.updCore fun c => c.settle (fun u => !u.isStore && !missed.contains u && u.meets pl.phys n) wide)

/-- A key for a store that no write of the core's list has. -/
def Core.storeKey (c : Core) : OpKey :=
  ⟨c.unseen.foldl (fun n u => (u.key :: u.writes).foldl (fun n k => max n (k.kind + 1)) n) 8, 0, 0⟩

/-- The acting stream's write of bytes. Commands already issued may miss it; the stream's reads there return it or newer (R178). `rel`: it
comes after every access of the stream before it (R177, row 6). -/
def Core.storesOver (c : Core) (rel : Bool) (a : Nat) (old new : List Byte) : Core :=
  let k := c.storeKey
  let u : Unseen := ⟨a, old, new, 0xFF, k, none, [], [], [], [], some c.seqctr, false⟩
  let under (v : Unseen) : Unseen := if v.met || (rel && v.since.isSome) then { v with writes := k :: v.writes } else v
  ({ c with unseen := u :: c.unseen.map under } : Core).pruned

/-- The acting core's stream is about to write n bytes at a place. -/
def State.hideStore (s : State) (rel : Bool) (pl : Place) (n v : Nat) : State :=
  match pl with
  | .mem _ | .spad _ _ => s.updCore fun c => c.storesOver rel pl.phys (leBytes (s.readPlace pl n) n) (leBytes v n)
  | .acc _ _ | .regwin _ _ | .tiles _ _ | .inbox _ _ => s

/-- The write of one cell or element by an engine, which its core's stream and other engines need not see yet (R172). -/
def Unseen.ofEngine (k : OpKey) (tile : Option (BitVec 8)) (used : List (BitVec 8)) (mask : Byte) (pa : Nat) (old new : List Byte) : Unseen :=
  ⟨pa, old, new, mask, k, tile, used, [k], [], [], none, false⟩

/-- An engine's write of n bytes at a place, in cells of `unit` bytes; `mask` tells the bits of a 4-bit cell. -/
def State.engineWrite (s : State) (k : OpKey) (tile : Option (BitVec 8)) (used : List (BitVec 8)) (pl : Place) (n v unit : Nat)
    (mask : Byte) : State :=
  let old := leBytes (s.readPlace pl n) n
  let new := leBytes v n
  let l := (List.range (n / unit)).map fun i =>
    Unseen.ofEngine k tile used mask (pl.phys + i * unit) ((old.drop (i * unit)).take unit) ((new.drop (i * unit)).take unit)
  (s.updCore fun c => { c with unseen := l ++ c.unseen }).writePlace pl n v

/-- An engine's write of a byte or of an element of its own core's scratchpad, with the bits it writes. -/
def Core.hideWrite (c : Core) (id : Nat) (k : OpKey) (tile : Option (BitVec 8)) (used : List (BitVec 8)) (off : Nat) (mask : Byte)
    (new : List Byte) : Core :=
  { c with
    spad := writeBytes c.spad off new
    unseen := Unseen.ofEngine k tile used mask (windowAddr id off) (readBytes c.spad off new.length) new :: c.unseen }

/-- An operation that starts on tiles reads the cells whose arrival made them ready (R107, R183). -/
def Core.startsOn (c : Core) (k : OpKey) (tiles : List (BitVec 8)) : Core :=
  { c with unseen := c.unseen.map fun u =>
      if u.tile.any tiles.contains && !u.reads.contains k then { u with posts := k :: u.posts, reads := k :: u.reads } else u }

/-- Every event of an operation comes after those of operations of a kind. -/
def Unseen.before (u : Unseen) (k : OpKey) : Unseen := { u with posts := k :: u.posts, reads := k :: u.reads, writes := k :: u.writes }

/-- A vector command that starts on tiles comes after every vector command before it (R155, R183). -/
def Core.startsVector (c : Core) (k : OpKey) (tiles : List (BitVec 8)) : Core :=
  { c with unseen := (c.startsOn k tiles).unseen.map fun u =>
      let u := if u.posts.any fun p => p.kind == 1 && p != k then u.before k else u
      if u.posts.contains k then { u with used := tiles ++ u.used } else u }

/-- A matrix command comes after the joint product before it (R183). -/
def Core.startsMatrix (c : Core) (k : OpKey) (tiles : List (BitVec 8)) : Core :=
  { c with unseen := (c.startsOn k tiles).unseen.map fun u =>
      if u.posts.any fun p => p.kind == 2 && p != k then
        let u := u.before k
        { u with posts := u.posts.filter fun p => p.kind != 2 || p == k }
      else u }

/-- The writes of a copy into a tile come after every event of the vector commands that have started on it (R155, R183). -/
def Core.fillsAfter (c : Core) (k : OpKey) (tile : BitVec 8) : Core :=
  { c with unseen := c.unseen.map fun u =>
      if u.used.contains tile && !u.writes.contains k then { u with posts := k :: u.posts, writes := k :: u.writes } else u }

/-- A command of an engine must see a write: its own, one ordered before its reads, or one that the stream had made or seen at its
issue. -/
def Core.mustSee (c : Core) (k : OpKey) (u : Unseen) : Bool :=
  u.key == k || u.reads.contains k || u.since.any fun n => decide (c.ageOf k.seq ≤ c.ageOf n)

/-- The writes that the reads of a command of the acting core's engines miss in a step (R155, R183). -/
def State.commandMissed (s : State) (k : OpKey) : List Unseen :=
  missedOf (fun i u => !s.core.mustSee k u && Config.readsOld s.tick u.pa i) (fun u => u.key != k) 0 s.core.unseen []

/-- A byte of memory at a physical address, off the chip or in a scratchpad. -/
def State.byteAt (s : State) (a : Nat) : Byte :=
  if onChip a then
    let w := windowOf s.cur a
    readByte (s.coreAt w.1).spad w.2
  else readByte s.mem a

/-- Put such a byte. -/
def State.putByte (s : State) (a : Nat) (v : Byte) : State :=
  if onChip a then
    let w := windowOf s.cur a
    s.updCoreAt w.1 fun c => { c with spad := writeByte c.spad w.2 v }
  else { s with mem := writeByte s.mem a v }

/-- The state as the reads of a command of the acting core's engines see it. Only bytes of memory differ. -/
def State.seenAs (s : State) (k : OpKey) : State :=
  let l := s.core.unseen
  let missed := s.commandMissed k
  (missed.flatMap fun u => (List.range u.old.length).map (u.pa + ·)).foldl
    (fun t a => t.putByte a (lookBack missed.contains a l 0xFF (s.byteAt a))) s

/-- A command of the acting core's engines has read n bytes: what it saw there comes before its post (R183). -/
def State.notes (s : State) (k : OpKey) (pa n : Nat) : State :=
  let s := s.touch pa n
  if !s.core.unseen.any (fun u => u.key != k && u.meets pa n) then s
  else
    let missed := s.commandMissed k
    s.updCore fun c =>
      let hits := metWith (fun u => u.key != k && !missed.contains u && u.meets pa n) c.unseen []
      { c with unseen := c.unseen.map fun u => if hits.contains u && !u.posts.contains k then { u with posts := k :: u.posts } else u }

/-- A command of the acting core's engines has read ranges of bytes. -/
def State.notesAll (s : State) (k : OpKey) (l : List (Nat × Nat)) : State := s.forEach l fun s r => s.notes k r.1 r.2

/-- The operation of a command of a kind. -/
def Cmd.key (c : Cmd) (kind : Nat) : OpKey := ⟨kind, c.seq, BitVec.ofNat 12 c.lcore⟩

/-- A dequeued arrival makes its copy's words visible (R50), over what was written there since they landed (log 123). -/
def Core.takeLanding (c : Core) (m : Msg) : Core :=
  match c.landings.find? fun l => l.seq == m.seq && l.source == m.source with
  | some l => { c with landings := c.landings.erase l }.landWords l.off l.words
  | none => c

/-- Note the bytes a line held before the acting core stores to it (R53). -/
def State.noteStale (s : State) (pl : Place) : State :=
  let line := pl.phys / 64
  let old := (List.range 64).map fun k =>
    match pl with
    | .mem _ => readByte s.mem (line * 64 + k)
    | .spad id _ | .acc id _ | .regwin id _ | .tiles id _ | .inbox id _ =>
      readByte (s.coreAt id).spad ((line * 64 + k - chipBase) % 0x100000)
  s.updCore fun c => { c with stale := c.stale ++ [(line, old)] }

/-! ## The event-unit alias (R243) -/

/-- The address lies in the event-unit alias of the own window. In another core's window the alias offsets belong to no part of it, and an
access there raises ACCESS_FAULT (log 122). -/
def isEvent (cur a : Nat) : Bool := onChip a && decide ((windowOf cur a).1 = cur) && decide (0xF0000 ≤ (windowOf cur a).2)

/-- Offset within the event-unit alias. -/
def eventOff (cur a : Nat) : Nat := (windowOf cur a).2 - 0xF0000

/-- The owner tag of the acting core: its launch, or the partition's supervisor code (R234, R296). -/
def State.owner (s : State) : Nat :=
  match s.launchOf? s.cur with
  | some k => k + 1
  | none => 0

/-- The key of a resource of an owner. -/
def resKey (owner n : Nat) : Nat := owner * 32 + n

/-- Resources of one index that other owners hold. -/
def heldByOther {α : Type} (l : List (Nat × α)) (owner n : Nat) : Bool := l.any fun e => e.1 % 32 == n && e.1 / 32 != owner

/-- Entries of a class that stand in the spill table: all but the first of each index. -/
def spilledOf {α : Type} (l : List (Nat × α)) : Nat := l.length - (l.map fun e => e.1 % 32).eraseDups.length

/-- Thresholds beyond the fourth of a counter. -/
def spilledArms (l : List (Nat × EvCounter)) : Nat := (l.map fun e => e.2.armed.length - 4).foldl (· + ·) 0

/-- Monitors armed at a home port. -/
def State.portMonitors (s : State) (port : Nat) : List (Nat × Nat × Bool) := s.monitors.filter fun m => Config.homePort m.1 == port

/-- Monitors of a partition's cores that stand in its spill table: the oldest of a home port, beyond its 64 (R192, R245). -/
def State.spilledMonitors (s : State) (p : Partition) : Nat :=
  ((s.monitors.map fun m => Config.homePort m.1).eraseDups.map fun port =>
    let l := s.portMonitors port
    ((l.take (l.length - 64)).filter fun m => p.holds m.2.1).length).foldl (· + ·) 0

/-- Entries in a partition's spill table (R245): event resources of its clusters, monitors, and futures beyond 4,096. -/
def State.spilled (s : State) (p : Partition) : Nat :=
  (p.clusterIds.map fun n =>
    let c := s.clusterAt n
    spilledOf c.lines + spilledOf c.barriers + spilledOf c.mutexes + spilledOf c.counters + spilledArms c.counters).foldl (· + ·) 0 +
  ((p.futures.filter fun f => f.2.state != .empty).length - 4096) + s.spilledMonitors p

/-- An exhaustion raises SYNC_EXHAUSTED in service mode, and elsewhere only when the spill table is full (R245). -/
def State.exhausts (s : State) (p : Partition) : Bool := p.mode == .service || Config.spillEntries ≤ s.spilled p

/-- Refuse an owner a resource that another holds, as the mode asks (R244, R245); an entry of the owner's own is there already. -/
def State.claimAs {α : Type} (s : State) (owner : Nat) (l : List (Nat × α)) (cls n : Nat) : Except Stop Unit :=
  raiseIf ((alGet (resKey owner n) l).isNone && heldByOther l owner n && s.exhausts s.part) Cause.syncExhausted (w64 (cls + n * 256))

/-- The acting core's owner claims a resource. -/
def State.claim {α : Type} (s : State) (l : List (Nat × α)) (cls n : Nat) : Except Stop Unit := s.claimAs s.owner l cls n

/-- A resource of the acting core's owner, in its zero state before the first use. -/
def resOf {α : Type} [Inhabited α] (l : List (Nat × α)) (owner n : Nat) : α := (alGet (resKey owner n) l).getD default

/-- A resource as a state word shows it: the reader's own, or whichever stands there. -/
def resSeen {α : Type} [Inhabited α] (l : List (Nat × α)) (owner n : Nat) : α :=
  match alGet (resKey owner n) l with
  | some r => r
  | none => ((l.find? fun e => e.1 % 32 == n).map (·.2)).getD default

/-- Fire a line of an owner (R238). -/
def Cluster.fire (c : Cluster) (owner n : Nat) (byMsg : Bool) : Cluster :=
  { c with lines := alSet (resKey owner n) ⟨(resOf c.lines owner n).phase + 1, byMsg⟩ c.lines }

/-- A word of the event unit that is read without claiming anything (R243). -/
def State.eventWord (s : State) (off : Nat) : Option Nat :=
  let c := s.clusterAt (clusterOf s.cur)
  if 0x100 ≤ off ∧ off < 0x140 then
    let b := resSeen c.barriers s.owner ((off - 0x100) / 8)
    some (b.phase.toNat ||| b.arrivals.toNat <<< 16 ||| b.count <<< 32)
  else if 0x140 ≤ off ∧ off < 0x180 then
    let m := resSeen c.mutexes s.owner ((off - 0x140) / 8)
    some (match m.holder with | none => 0 | some k => 1 ||| (k % 16) <<< 1)
  else if 0x180 ≤ off ∧ off < 0x1C0 then
    let k := resSeen c.counters s.owner ((off - 0x180) / 8)
    some (k.value.toNat ||| (k.armed.length % 8) <<< 32)
  else none

/-- Load the word of a line: sleep until its next firing, then the new phase (R243). -/
def State.loadLine (s : State) (n : Nat) : Except Stop (Nat × State) :=
  let cl := clusterOf s.cur
  let c := s.clusterAt cl
  match s.claim c.lines 1 n with
  | .error e => .error e
  | .ok _ =>
    let ph := (resOf c.lines s.owner n).phase
    match s.core.wait with
    | .lineWord l p => if l = n ∧ p ≠ ph then .ok ((p + 1).toNat, s) else .error (.wait (.lineWord n (if l = n then p else ph)))
    | _ => .error (.wait (.lineWord n ph))

/-- A load from the event-unit alias. -/
def State.loadEvent (s : State) (a n : Nat) : Except Stop (Nat × State) :=
  let off := eventOff s.cur a
  if n ≠ 8 ∨ a % 8 ≠ 0 then raise Cause.access (w64 a)
  else if off < 0x100 then s.loadLine (off / 8)
  else match s.eventWord off with
    | some v => .ok (v, s)
    | none => raise Cause.access (w64 a)

/-- A store to the event-unit alias: a line word fires its line, the state words ignore it (R4, R243). -/
def State.storeEvent (s : State) (a n : Nat) : Except Stop State :=
  let off := eventOff s.cur a
  if n ≠ 8 ∨ a % 8 ≠ 0 ∨ 0x1C0 ≤ off then raise Cause.access (w64 a)
  else if 0x100 ≤ off then .ok s
  else
    let cl := clusterOf s.cur
    match s.claim (s.clusterAt cl).lines 1 (off / 8) with
    | .error e => .error e
    | .ok _ => .ok (s.updCluster cl fun c => c.fire s.owner (off / 8) false)

/-! ## Scalar loads and stores (R185) -/

/-- The core runs an overwrite iteration (R262). -/
def Core.overwriting (c : Core) : Bool := c.loop.mode == .overwrite && !c.loop.suspended

/-- Some matrix command of the core has not completed (R49). -/
def Core.matrixBusy (c : Core) : Bool := !c.eng.mq.isEmpty || c.eng.mrun.isSome

/-- An own-accumulator access waits for the core's matrix commands (R49). -/
def State.accHold (s : State) (pl : Place) : Bool :=
  match pl with
  | .acc id _ => id == s.cur && s.core.matrixBusy
  | .mem _ | .spad _ _ | .regwin _ _ | .tiles _ _ | .inbox _ _ => false

/-- n bytes at a place, or DATA_FAULT (R313, R322). -/
def State.readChecked (s : State) (pl : Place) (va n src : Nat) : Except Stop Nat :=
  if s.poisoned pl.phys n then
    .error (.fault { Fail.of Cause.data (w64 va) with log := some ⟨src, false, w64 va⟩ })
  else .ok (s.readPlace pl n)

/-- A scalar load of n bytes, checked in the order of R185. `wide`: it has core scope or wider (R175). -/
def State.load (s : State) (va : Word) (n : Nat) (wide : Bool := true) : Except Stop (Nat × State) :=
  let a := va.toNat
  if a % n ≠ 0 ∧ !isEvent s.cur a then raise Cause.misaligned va
  else if s.core.overwriting && s.core.loop.td.meets s.cur a n then raise Cause.ovRead va
  else if isEvent s.cur a then s.loadEvent a n
  else
    match s.resolve s.core.sup .read a n 5 with
    | .error e => .error e
    | .ok (pl, s') =>
      if s.accHold pl then .error (.wait .asleep)
      else match s.readChecked pl a n 5 with
        | .error e => .error e
        | .ok _ => .ok (s'.streamRead pl n wide)

/-- A scalar store once its checks have passed. `rel`: every access of the stream before it comes before it (R177, row 6). -/
def State.storePlace (s : State) (pl : Place) (n v : Nat) (rel : Bool := false) : State :=
  ((s.noteStale pl).hideStore rel pl n v).writePlace pl n v

/-- A store of n bytes without the test of R262. -/
def State.storeRaw (s : State) (va : Word) (n v : Nat) (rel : Bool := false) : Except Stop State :=
  match s.resolve s.core.sup .write va.toNat n 5 with
  | .error e => .error e
  | .ok (pl, s') => if s.accHold pl then .error (.wait .asleep) else .ok (s'.storePlace pl n v rel)

/-- A scalar store of n bytes, checked in the order of R185; in an overwrite body it escapes (R262). -/
def State.store (s : State) (va : Word) (n v : Nat) (rel : Bool := false) : Except Stop State :=
  let a := va.toNat
  if a % n ≠ 0 ∧ !isEvent s.cur a then raise Cause.misaligned va
  else if s.core.overwriting then raise Cause.ovEscape va
  else if isEvent s.cur a then s.storeEvent a n
  else s.storeRaw va n v rel

/-- Load k 8-byte words from an aligned address as one number (R94, R95). -/
def State.loadWords (s : State) (va : Word) : Nat → Except Stop (Nat × State)
  | 0 => .ok (0, s)
  | k + 1 =>
    match s.load va 8 with
    | .error e => .error e
    | .ok (v, s') =>
      match s'.loadWords (va + 8) k with
      | .error e => .error e
      | .ok (r, s'') => .ok (v + 2 ^ 64 * r, s'')

/-- Store k 8-byte words of a number, once every word is known to be storable. -/
def State.storeWords (s : State) (va : Word) (v : Nat) : Nat → Except Stop State
  | 0 => .ok s
  | k + 1 =>
    match s.store va 8 (v % 2 ^ 64) with
    | .error e => .error e
    | .ok s' => s'.storeWords (va + 8) (v / 2 ^ 64) k

/-! ## Instruction fetch (R53, R54) -/

/-- Bytes of a line as a fetch sees them: as they stand, or as they stood before a store of the core that no `fence.i` has
followed. Which of them is a free choice (R53). -/
def State.fetchLine (s : State) (pl : Place) (n : Nat) : Nat :=
  let line := pl.phys / 64
  let olds := (s.core.stale.filter fun e => e.1 == line).map fun e => leNat ((e.2.drop (pl.phys % 64)).take n)
  pickOf (Config.codeVersion s.tick) (s.readPlace pl n) olds

/-- A fault of a fetch (R53, R313): a translation or access fault becomes FETCH_FAULT. -/
def fetchFail (va : Nat) (f : Fail) : Fail :=
  if f.cause = Cause.access ∨ f.cause = Cause.pageFault ∨ f.cause = Cause.pagePerm then
    { f with cause := Cause.fetch, tval := w64 va, detail := BitVec.ofNat 4 f.cause }
  else if f.cause = Cause.peerGone then { f with cause := Cause.fetch, tval := w64 va, detail := 3 }
  else f

/-- Fetch n bytes through the instruction path. -/
def State.fetch (s : State) (va n : Nat) : Except Stop (Nat × State) :=
  let fix (e : Stop) : Stop := match e with
    | .fault f => .fault (fetchFail va f)
    | .wait w => .wait w
  match s.resolve s.core.sup .exec va n 6 with
  | .error e => .error (fix e)
  | .ok (pl, s') =>
    match s.readChecked pl va n 6 with
    | .error e => .error (fix e)
    | .ok _ => .ok (s.fetchLine pl n, s')

end Sys2Proof.Machine
end

