-- ==== Sys2Proof/Machine/Csr.lean ====
section
/-!
DEFINITION. Control and status registers (R23, R31, R43 to R46, R314), the issue ring (R318), and the image a context area keeps of
a core (R329, R330).
-/

namespace Sys2Proof.Machine

/-! ## Queues (R23) -/

/-- Depth of an engine's queue (R23). -/
def queueDepth (e : BitVec 3) : Nat :=
  match e.toNat with
  | 0 => 16 | 1 => 16 | 2 => 8 | 3 => 8 | _ => 4

/-- The queue of an engine, head first. -/
def Engines.queue (g : Engines) (e : BitVec 3) : List Cmd :=
  match e.toNat with
  | 0 => g.cq | 1 => g.vq | 2 => g.mq | 3 => g.kq | _ => g.dq

/-- Replace the queue of an engine. -/
def Engines.setQueue (g : Engines) (e : BitVec 3) (q : List Cmd) : Engines :=
  match e.toNat with
  | 0 => { g with cq := q } | 1 => { g with vq := q } | 2 => { g with mq := q } | 3 => { g with kq := q }
  | _ => { g with dq := q }

/-- Slots of a queue in use: a command that runs keeps its slot, but for copies (R23). -/
def Engines.used (g : Engines) (e : BitVec 3) : Nat :=
  (g.queue e).length +
  match e.toNat with
  | 0 => 0
  | 1 => if g.vrun.isSome then 1 else 0
  | 2 => if g.mrun.isSome then 1 else 0
  | 3 => if g.krun.isSome then 1 else 0
  | _ => if g.drun.isSome then 1 else 0

/-- Free slots of a queue. -/
def Engines.free (g : Engines) (e : BitVec 3) : Nat := queueDepth e - g.used e

/-- No command is queued, in flight or running on any engine. -/
def Engines.idle (g : Engines) : Bool :=
  g.vq.isEmpty && g.cq.isEmpty && g.mq.isEmpty && g.kq.isEmpty && g.dq.isEmpty && g.vrun.isNone && g.copies.isEmpty &&
    g.mrun.isNone && g.krun.isNone && g.drun.isNone

/-- `qfree` (R23). -/
def Core.qfree (c : Core) : Nat :=
  c.eng.free 1 ||| c.eng.free 0 <<< 8 ||| c.eng.free 2 <<< 16 ||| c.eng.free 3 <<< 20 ||| c.eng.free 4 <<< 24 |||
    (32 - c.regs.q0.length) <<< 32 ||| c.regs.q1.length <<< 40

/-! ## The issue ring (R318) -/

/-- The code of an issue's state. -/
def IssueState.code : IssueState → Nat
  | .queued => 0 | .running => 1 | .complete => 2 | .discarded => 3

/-- A ring entry (R318). -/
def Issue.image (i : Issue) : Nat :=
  i.seq.toNat ||| i.eng.toNat <<< 16 ||| i.index.toNat <<< 19 ||| (if i.mx then 2 ^ 31 else 0) ||| i.state.code <<< 32

/-- Set the state of an issue, if it is still among the last 64. -/
def Core.markIssue (c : Core) (seq : BitVec 16) (st : IssueState) : Core :=
  { c with ring := c.ring.map fun i => if i.seq = seq then { i with state := st } else i }

/-! ## CSRs (R43, R44) -/

/-- `tcause` (R314). -/
def TrapCsrs.tcause (t : TrapCsrs) : Nat := t.cause.toNat ||| t.detail.toNat <<< 16

/-- `tstat` (R314). -/
def TrapCsrs.tstat (t : TrapCsrs) : Nat :=
  (if t.ih then 1 else 0) ||| (if t.pm then 2 else 0) ||| t.rk.toNat <<< 2 ||| (if t.imp then 16 else 0) ||| t.eng.toNat <<< 5 |||
    (if t.more then 256 else 0) ||| t.seq.toNat <<< 16

/-- The value of a CSR of a core; `none` for an address R44 does not list. -/
def State.csrValue (s : State) (id : Nat) (addr : Nat) : Option Word :=
  let c := s.coreAt id
  let p := s.partAt c.part
  let k := c.csr
  let t := c.trap
  match addr with
  | 0x001 => some (k.fflags.zeroExtend 64)
  | 0x002 => some (k.frm.zeroExtend 64)
  | 0x003 => some ((k.frm ++ k.fflags).zeroExtend 64)
  | 0xC00 => some (Config.cycleCount id s.tick)
  | 0xC01 => some s.clock
  | 0xC02 => some k.instret
  | 0x800 => some (w64 (k.cpb.toNat * 32))
  | 0x801 => some (k.mxrow.zeroExtend 64)
  | 0x802 => some (k.vflags.zeroExtend 64)
  | 0x803 => some (k.clipc.zeroExtend 64)
  | 0x804 => some (k.rgovf.zeroExtend 64)
  | 0xCC0 => some k.tile0
  | 0xCC1 => some k.tile1
  | 0xCC2 => some k.tile2
  | 0xCC3 => some (w64 (coreNo id))
  | 0xCC4 => some (w64 (p.logical id))
  | 0xCC5 => some (w64 (p.cw ||| p.ch <<< 8))
  | 0xCC6 => some (w64 c.qfree)
  | 0xCC7 => some k.rngctr
  | 0xCC8 => some k.jobseed
  | 0xCC9 => some k.taskno
  | 0xCCA => some (k.launchid.zeroExtend 64)
  | 0xCCB => some (c.seqctr.zeroExtend 64)
  | 0x5C0 => some (w64 (t.tvec.toNat * 4))
  | 0x5C1 => some (w64 (t.tepc.toNat * 4))
  | 0x5C2 => some (w64 t.tcause)
  | 0x5C3 => some t.tval
  | 0x5C4 => some (w64 t.tstat)
  | 0x5C5 => some t.tscratch
  | 0xDC0 => some (w64 id)
  | 0xDC1 => some (k.fdom.zeroExtend 64)
  | 0xDC2 => some (w64 c.part)
  | _ => none

/-- The seven legal masks of `mxrow` (R45). -/
def mxrowLegal (m : BitVec 4) : Bool := m == 1 || m == 2 || m == 4 || m == 8 || m == 3 || m == 12 || m == 15

/-- Write a CSR of a core; fields marked RO keep their values (R4, R43). `none` for a mask `mxrow` does not take. -/
def Core.csrWrite (c : Core) (addr : Nat) (v : Word) : Option Core :=
  let k := c.csr
  let t := c.trap
  match addr with
  | 0x001 => some { c with csr := { k with fflags := v.extractLsb' 0 5 } }
  | 0x002 => some { c with csr := { k with frm := v.extractLsb' 0 3 } }
  | 0x003 => some { c with csr := { k with fflags := v.extractLsb' 0 5, frm := v.extractLsb' 5 3 } }
  | 0x800 => some { c with csr := { k with cpb := v.extractLsb' 5 50 } }
  | 0x801 => if mxrowLegal (v.extractLsb' 0 4) then some { c with csr := { k with mxrow := v.extractLsb' 0 4 } } else none
  | 0x802 => some { c with csr := { k with vflags := v.extractLsb' 0 8 } }
  | 0x803 => some { c with csr := { k with clipc := v.extractLsb' 0 32 } }
  | 0x804 => some { c with csr := { k with rgovf := v.extractLsb' 0 32 } }
  | 0x5C0 => some { c with trap := { t with tvec := v.extractLsb' 2 53 } }
  | 0x5C1 => some { c with trap := { t with tepc := v.extractLsb' 2 62 } }
  | 0x5C4 => some { c with trap := { t with pm := v.getLsbD 1, rk := v.extractLsb' 2 2 } }
  | 0x5C5 => some { c with trap := { t with tscratch := v } }
  | _ => some c

/-- A read-only address range (R43). -/
def csrReadOnly (addr : Nat) : Bool := 0xC00 ≤ addr && addr ≤ 0xDFF

/-- A range only supervisor mode reaches (R43). -/
def csrSupervisor (addr : Nat) : Bool := (0x5C0 ≤ addr && addr ≤ 0x5FF) || (0xDC0 ≤ addr && addr ≤ 0xDFF)

/-- CSR addresses that the image lists, rising: fcsr and those of R44. -/
def imageCsrs : List Nat :=
  [0x003, 0x5C0, 0x5C1, 0x5C2, 0x5C3, 0x5C4, 0x5C5, 0x800, 0x801, 0x802, 0x803, 0x804, 0xCC0, 0xCC1, 0xCC2, 0xCC3, 0xCC4,
    0xCC5, 0xCC6, 0xCC7, 0xCC8, 0xCC9, 0xCCA, 0xCCB, 0xDC0, 0xDC1, 0xDC2]

/-! ## The context image (R329, R330) -/

/-- The state word (R330). -/
def Core.stateWord (c : Core) : Nat :=
  (if c.sup then 1 else 0) |||
  (match c.gang with | none => 0 | some g => 2 ||| (if g.size = 2 then 4 else 8)) |||
  (if c.halted then 16 else 0) ||| (if c.bound = .idle then 0 else 32) ||| c.actype.toNat <<< 8 ||| c.seqctr.toNat <<< 16

/-- Words stored 8 bytes apart. -/
def writeWords (m : Memory) (a : Nat) : List Nat → Memory
  | [] => m
  | w :: t => writeWords (writeLE m a 8 w) (a + 8) t

/-- Items of n bytes stored one after another. -/
def writeItems (n : Nat) (m : Memory) (a : Nat) : List Nat → Memory
  | [] => m
  | w :: t => writeItems n (writeLE m a n w) (a + n) t

/-- The cells of a memory moved up by an offset. -/
def pasteMemory (m : Memory) (a : Nat) (src : Memory) : Memory := src.foldl (fun m c => writeByte m (a + c.1) c.2) m

/-- The sections of an image to which R329 gives no layout: queues with what goes with them, loop state, stream entries, saddlebag. -/
def unlaidSections : List (Nat × Nat) := [(0xE5000, 0x3600), (0xE9000, 0x1200), (0xEC000, 0x2000), (0xEE000, 0x1040)]

/-- Write the image of a core at a physical base: every section whose layout R329 gives, and zero between the sections. What a section
without a layout holds is free (log 20). -/
def State.writeImage (s : State) (base id : Nat) : State :=
  let c := s.coreAt id
  let m := [(0, 0xE5000), (0xE8600, 0xA00), (0xEA200, 0x1E00), (0xEF040, 0x10FC0)].foldl
    (fun (m : Memory) (r : Nat × Nat) => clearBytes m (base + r.1) r.2) s.mem
  let m := pasteMemory m base c.spad
  let m := pasteMemory m (base + 0xC0000) c.acc
  let m := writeWords m (base + 0xE0000) ((List.range 64).map c.regWord)
  let m := writeWords m (base + 0xE0200) (c.regs.vpIssue.toList.map fun p => p.image.toNat)
  let m := writeWords m (base + 0xE0300) (c.regs.q0.map BitVec.toNat)
  let m := c.tiles.foldl (fun m t => writeLE m (base + 0xE1000 + 16 * t.1) 16 t.2.image) m
  let m := writeItems 16 m (base + 0xE2000) (c.inbox.map Msg.image)
  let m := writeItems 256 m (base + 0xE3000) (c.regs.bx.toList.map Region.image)
  let m := writeItems 64 m (base + 0xE4000) (c.regs.td.toList.map Td.image)
  let m := writeWords m (base + 0xE4400) (c.regs.q1.map BitVec.toNat)
  let m := writeWords m (base + 0xE4500)
    (c.pc.toNat :: c.stateWord :: imageCsrs.map fun a => ((s.csrValue id a).getD 0).toNat)
  let m := writeWords m (base + 0xE4600) (c.ring.reverse.map Issue.image)
  let m := writeItems 16 m (base + 0xE4800) (c.errlog.map fun e => e.word0.toNat + 2 ^ 64 * e.word1.toNat)
  let m := writeLE m (base + 0xE4A00) 8 (c.errlog.length ||| c.errlost.toNat <<< 16)
  { s with mem := m }

end Sys2Proof.Machine
end

