-- ==== Sys2Proof/Machine/Cinch.lean ====
section
/-!
DEFINITION. The counting network of a cinch: the path of a token, and its passage from balancer to balancer (R249, R250).
-/

namespace Sys2Proof.Machine

/-- What a token finds at balancer k: the next output it is known to have left by, or the balancer it stands at. -/
def nextOutput (known : List Bool × Option Nat) (k : Nat) : (List Bool × Option Nat) × Nat :=
  match known with
  | (l, some h) => ((l, some h), 0)
  | (b :: l, none) => ((l, none), if b then 1 else 0)
  | ([], none) => (([], some k), 0)

/-- A token through the merger of width 2^l, number q of its layer, entering on wire j; `at'` numbers a layer's balancers. The
even wires of the first half and the odd wires of the second go to the first of two half-width mergers (log 13). -/
def mergePath (at' : Nat → Nat → Nat) (known : List Bool × Option Nat) : Nat → Nat → Nat → (List Bool × Option Nat) × Nat
  | 0, _, j => (known, j)
  | l + 1, q, j =>
    let half := 2 ^ l
    let (known, o) :=
      if l = 0 then (known, 0)
      else
        let second := half ≤ j
        let i := j % half
        let toB := (i % 2 == 1) != second
        mergePath at' known l (2 * q + if toB then 1 else 0) (i / 2 + if second then half / 2 else 0)
    let (known, b) := nextOutput known (at' l (q * half + o))
    (known, 2 * o + b)

/-- The path of a token through the counting network, five mergers of widths 2 to 32 (log 13), by the outputs it has left its
balancers by: the balancer it stands at, or the wire it leaves on. -/
def tokenPath (wire : Nat) (bits : List Bool) : Option Nat × Nat :=
  let r := (List.range 5).foldl (fun (r : (List Bool × Option Nat) × Nat) k =>
    let w := 2 ^ (k + 1)
    let block := r.2 / w
    let at' (level i : Nat) : Nat := (k * (k + 1) / 2 + level) * 16 + block * (w / 2) + i
    let m := mergePath at' r.1 (k + 1) 0 (r.2 % w)
    (m.1, block * w + m.2)) ((bits, none), wire)
  (r.1.2, r.2)

/-- The entry of a cinch is open (R249). -/
def Cinch.isOpen (c : Cinch) : Bool := !c.shut && c.closers.isEmpty

/-- The token of a core in a network. -/
def Cinch.tokenOf? (c : Cinch) (core : Nat) : Option Token := c.tokens.find? fun t => t.core == core

/-- A core's token enters a network (R249). -/
def Cinch.enter (c : Cinch) (core wire : Nat) : Cinch :=
  { c with tokens := c.tokens ++ [⟨core, wire, []⟩], queue := c.queue.filter (· != core) }

/-- A token passes one balancer, which toggles, or leaves the network with its value (R249). -/
def Cinch.pass (c : Cinch) (t : Token) : Cinch × Option Word :=
  match tokenPath t.wire t.bits with
  | (some k, _) =>
    ({ c with toggles := c.toggles ^^^ (1#240 <<< k)
              tokens := c.tokens.map fun u => if u = t then { t with bits := t.bits ++ [c.toggles.getLsbD k] } else u }, none)
  | (none, i) =>
    let n := c.counts.getD i 0
    ({ c with counts := c.counts.set i (n + 1), tokens := c.tokens.filter (· != t) }, some (c.base + 32 * n + w64 i))

/-- The token of a core that leaves its instruction for good goes on to the end of its network: 15 balancers and the output. -/
def Cinch.flush (c : Cinch) (core : Nat) : Cinch :=
  (List.range 16).foldl (fun c _ => match c.tokenOf? core with
    | some t => (c.pass t).1
    | none => c) c

/-- A core leaves the entry of every cinch: a take at a closed entry, or a `tk.clr` that waits, has not executed (R250). -/
def State.leaveCinches (s : State) (id : Nat) : State :=
  { s with cinches := s.cinches.map fun e =>
      (e.1, { e.2 with closers := e.2.closers.filter (· != id), queue := e.2.queue.filter (· != id) }) }

/-- A task that is killed leaves every cinch; a token it has sent leaves its network, and nothing takes the value (R250, R251). -/
def State.quitCinches (s : State) (id : Nat) : State :=
  ({ s with cinches := s.cinches.map fun (e : Nat × Cinch) => (e.1, e.2.flush id) } : State).leaveCinches id

end Sys2Proof.Machine
end

