-- ==== Sys2Proof/Machine/Waves.lean ====
section
/-!
DEFINITION. Collective waves as commands ask for them and routers count them: entries and port sets (R273), what a router holds (R328),
the routers that a wave touches (R280), and the chunk its members agree on at a stop (R281).
-/

namespace Sys2Proof.Machine

/-! ## Waves (R272, R276, R278) -/

/-- What a core asks of its router by `co.red`, `co.bcast` or `co.allr`. -/
structure Wave where
  vsn : Nat
  fmt : Fmt
  count : Nat
  src : Nat
  dst : Nat
  allr : Bool
  tag : BitVec 8
  /-- First rank and number of the devices that combine, with xdev (R279). -/
  devices : Option (Nat × Nat)
  deriving DecidableEq, Repr

/-- The wave of a `co.red` or `co.bcast`. -/
def moveWave (o : CoMove) : Wave :=
  ⟨o.vsn.toNat, o.head.fmt.getD .f32, o.head.count.toNat, o.src.toNat, o.dst.toNat, false, o.tag, none⟩

/-- The wave of a `co.allr`. -/
def allrWave (o : CoAllr) : Wave :=
  ⟨o.vsn.toNat, o.head.fmt.getD .f32, o.head.count.toNat, o.buf.toNat, o.buf.toNat, true, o.tag,
    if o.xdev then some (o.lo.toNat, o.n.toNat) else none⟩

/-- The wave of a queued command, if it is one. -/
def Cmd.wave? (c : Cmd) : Option Wave :=
  match decodeCommand 3 c.words with
  | .ok (.coRed o) | .ok (.coBcast o) => some (moveWave o)
  | .ok (.coAllr o) => some (allrWave o)
  | _ => none

/-- The entry that the words of a wave command name, malformed ones too, and whether it is an all-reduce (R272, R280). -/
def Cmd.waveEntry? (c : Cmd) : Option (Nat × Bool) :=
  let op := c.words.w0.extractLsb' 0 16
  if op = 0x3002 ∨ op = 0x3003 ∨ op = 0x3004 then some ((c.words.w2.extractLsb' 0 8).toNat, op == 0x3004) else none

/-- Elements of a chunk of 512 bytes. -/
def perChunk (f : Fmt) : Nat := 4096 / f.width

/-- Number of chunks. -/
def Wave.chunks (w : Wave) : Nat := (w.count + perChunk w.fmt - 1) / perChunk w.fmt

/-- Elements of a chunk of a wave. -/
def Wave.chunkLen (w : Wave) (i : Nat) : Nat := min (perChunk w.fmt) (w.count - i * perChunk w.fmt)

/-- The wave that the core's engine runs, with its progress. -/
def Core.wave? (c : Core) : Option (CollRun × Wave) := c.eng.krun.bind fun r => r.cmd.wave?.map (r, ·)

/-! ## Entries of a router (R273) -/

/-- An entry of a router. -/
def Core.entry? (c : Core) (vsn : Nat) : Option VsEntry := alGet vsn c.router.entries

/-- Change an entry. -/
def Core.updEntry (c : Core) (vsn : Nat) (f : VsEntry → VsEntry) : Core :=
  { c with router := { c.router with entries := alUpdate vsn f c.router.entries } }

/-- Change what waits in a router. -/
def Core.updChunks (c : Core) (f : List Chunk → List Chunk) : Core := { c with router := { c.router with chunks := f c.router.chunks } }

/-- A port set of an entry; none names no port. -/
def VsEntry.set (e : VsEntry) (k : Nat) : PortSet := e.sets.getD k ⟨0, 0⟩

/-- The set of a step: an entry goes through its sets in turn (R277). -/
def VsEntry.setAt (e : VsEntry) (step : Nat) : PortSet := e.set (step % e.sets.length)

/-- The current set index (R273). -/
def VsEntry.current (e : VsEntry) : Nat := e.steps % e.sets.length

/-- Is a port in a mask? -/
def inMask (m : BitVec 5) (port : Nat) : Bool := m.getLsbD port

/-- The ports of a mask, in the fixed order local, W, N, E, S (R275). -/
def portsOf (m : BitVec 5) : List Nat := (List.range 5).filter (inMask m)

/-- The core sends into a wave of a step, or into an all-reduce. -/
def VsEntry.sends (e : VsEntry) (allr : Bool) (step : Nat) : Bool := inMask (if allr then e.set 0 else e.setAt step).inm 0

/-- The core takes the results of such a wave. -/
def VsEntry.takes (e : VsEntry) (allr : Bool) (step : Nat) : Bool := inMask (if allr then e.set 1 else e.setAt step).outm 0

/-- The port sets that such a wave uses. -/
def VsEntry.setsOf (e : VsEntry) (allr : Bool) (step : Nat) : List PortSet := if allr then e.sets.take 2 else [e.setAt step]

/-- The root of an all-reduce (R278). -/
def VsEntry.isRoot (e : VsEntry) : Bool := (e.set 0).outm == 1

/-- The wave that a router is in. -/
def VsEntry.next (e : VsEntry) (allr : Bool) : WaveName := if allr then ⟨true, 0, e.down⟩ else ⟨false, e.steps, e.wave⟩

/-- A wave has passed a router. -/
def VsEntry.isPast (e : VsEntry) (n : WaveName) : Bool :=
  if n.allr then decide (n.idx < e.down) else decide (n.step < e.steps) || (n.step == e.steps && decide (n.idx < e.wave))

/-- Steps before one whose set has a port in a mask. -/
def VsEntry.occurrences (e : VsEntry) (f : PortSet → BitVec 5) (port step : Nat) : Nat :=
  ((List.range step).filter fun j => inMask (f (e.setAt j)) port).length

/-- The step whose set has a port in a mask after that many others. -/
def VsEntry.occurrence? (e : VsEntry) (f : PortSet → BitVec 5) (port m : Nat) : Option Nat :=
  (List.range ((m + 1) * e.sets.length)).find? fun j => inMask (f (e.setAt j)) port && e.occurrences f port j == m

/-- The router at the other end of a port, within a core's partition. -/
def State.neighbour? (s : State) (id port : Nat) : Option Nat := (s.partOf? id).bind fun p => (s.partAt p).neighbour id port

/-- The wave of a chunk. -/
def Chunk.name (c : Chunk) : WaveName := ⟨c.allr, c.step, c.wave⟩

/-- A chunk belongs to a wave. -/
def Chunk.ofWave (c : Chunk) (vsn : Nat) (n : WaveName) : Bool := c.vsn.toNat == vsn && c.name == n && !c.marker

/-! ## Room in routers (R328) -/

/-- Flits of 64 bytes that a chunk or a marker takes. -/
def Chunk.flits (k : Chunk) : Nat :=
  match k.fmt with
  | some f => max 1 ((k.data.length * f.width / 8 + 63) / 64)
  | none => 1

/-- Flits that stream data or a closing marker takes. -/
def StreamFlit.flits (f : StreamFlit) : Nat := max 1 ((f.bytes.length + 63) / 64)

/-- Flits of 64 bytes that an entry of a saddlebag takes. -/
def Flit.flits : Flit → Nat
  | .chunk k => k.flits
  | .stream f => f.flits

/-- A collective channel into a router (R270): the link of a port, its own core, or a root's own turn (R278). -/
inductive Channel where
  | link (port : Nat)
  | own
  | turned
  deriving DecidableEq, Repr

/-- The channel that a chunk or a marker waits on. -/
def Chunk.channel (k : Chunk) : Channel :=
  if k.port ≠ 0 then .link k.port else if k.allr && k.set == 1 && !k.marker then .turned else .own

/-- The chunks and markers of a router, those in its saddlebag among them. -/
def Router.allChunks (r : Router) : List Chunk :=
  r.chunks ++ r.saddlebag.filterMap fun f => match f with | .chunk k => some k | .stream _ => none

/-- The stream data and closing markers of a router, those in its saddlebag among them. -/
def Router.allFlits (r : Router) : List StreamFlit :=
  r.flits ++ r.saddlebag.filterMap fun f => match f with | .stream f => some f | .chunk _ => none

/-- A collective channel takes flits: 8 wait on a link or after a turn, and 12 of the own core, so that a router never holds more than 64
with those of its streams (R270, R328, log 108). -/
def Router.takes (r : Router) (ch : Channel) (n : Nat) : Bool :=
  decide (((r.allChunks.filter (·.channel == ch)).map Chunk.flits).foldl (· + ·) n ≤ match ch with | .own => 12 | .link _ | .turned => 8)

/-- A router takes stream data: 8 flits of it, and closing markers beyond them (R270, R328, log 108). -/
def Router.takesStream (r : Router) (n : Nat) : Bool := decide ((r.allFlits.map StreamFlit.flits).foldl (· + ·) n ≤ 8)

/-! ## Counting waves (R273, R280) -/

/-- The last chunk of its wave. -/
def Chunk.isLast (k : Chunk) : Bool := !k.marker && k.fmt.any fun f => decide (k.count ≤ (k.index + 1) * perChunk f)

/-- A chunk goes towards the root of an all-reduce. -/
def Chunk.upward (k : Chunk) : Bool := k.allr && k.set == 0

/-- Chunks and markers of an entry that wait behind a port: of an all-reduce upwards or downwards, or of the other waves. -/
def Core.waitingAt (c : Core) (vsn : Nat) (allr up : Bool) (port : Nat) : List Chunk :=
  c.router.chunks.filter fun k => k.vsn.toNat == vsn && k.port == port && k.allr == allr && (!allr || k.upward == up)

/-- Markers that wait behind a port. -/
def Core.marksWaiting (c : Core) (vsn port : Nat) : Nat := ((c.waitingAt vsn false false port).filter (·.marker)).length

/-- Whole waves behind a port since the last marker there, and before the first. -/
def lastsAfter (l : List Chunk) : Nat := (l.foldl (fun n k => if k.marker then 0 else if k.isLast then n + 1 else n) 0)

/-- Whole waves behind a port before the first marker there. -/
def lastsBefore (l : List Chunk) : Nat := lastsAfter (l.takeWhile fun k => !k.marker)

/-- The wave, in a router's count, whose next chunk comes by a port, `later` occurrences of it as an in port further on. -/
def Core.nextWave (c : Core) (vsn : Nat) (allr up : Bool) (port : Nat) (later : Nat := 0) : WaveName :=
  match c.entry? vsn with
  | none => ⟨allr, 0, 0⟩
  | some e =>
    let l := c.waitingAt vsn allr up port
    if allr then ⟨true, 0, (if up then e.up else e.down) + lastsAfter l⟩
    else
      let step := (e.occurrence? PortSet.inm port (e.occurrences PortSet.inm port e.steps + c.marksWaiting vsn port + later)).getD e.steps
      ⟨false, step, if later = 0 then (if step = e.steps then e.wave else 0) + lastsAfter l else 0⟩

/-! ## The routers of a wave (R280) -/

/-- A wave name, if its number is one. -/
def WaveName.of? (allr : Bool) (step : Nat) (idx : Int) : Option WaveName := if idx < 0 then none else some ⟨allr, step, idx.toNat⟩

/-- An all-reduce at the neighbour behind a port: downstream it takes the wave next by its own port, and upstream it is in the wave that
follows those that wait between the two. -/
def Core.allrAcross (c d : Core) (e f : VsEntry) (vsn port idx : Nat) : Option WaveName :=
  let uses (k : Nat) (g : PortSet → BitVec 5) : Bool := inMask (g (e.set k)) port
  let passed (x : VsEntry) (up : Bool) : Int := if up then x.up else x.down
  let along (up out : Bool) : Option WaveName :=
    let far : Int := if out then (d.nextWave vsn true up (oppositePort port)).idx
      else passed f up - lastsAfter (c.waitingAt vsn true up port)
    WaveName.of? true 0 (far + idx - passed e up)
  if uses 1 PortSet.outm then along false true
  else if uses 1 PortSet.inm then along false false
  else if uses 0 PortSet.outm then along true true
  else if uses 0 PortSet.inm then along true false
  else none

/-- A wave of a step at the neighbour behind a port (R277): each step whose set has the port out answers a step there whose set has the
opposite port in, and the other way round, counted from where the two stand and from the markers between them. -/
def Core.stepAcross (c d : Core) (e f : VsEntry) (vsn port : Nat) (n : WaveName) : Option WaveName :=
  let opp := oppositePort port
  let idx : Int := (n.idx : Int) - e.wave
  if inMask (e.setAt n.step).outm port then
    let k := e.occurrences PortSet.outm port n.step - e.occurrences PortSet.outm port e.steps
    let m := d.nextWave vsn false false opp k
    if k = 0 then WaveName.of? false m.step (m.idx + idx) else some { m with idx := n.idx }
  else if inMask (e.setAt n.step).inm port then
    let k := e.occurrences PortSet.inm port n.step - e.occurrences PortSet.inm port e.steps
    let marks := c.marksWaiting vsn port
    let m := f.occurrences PortSet.outm opp f.steps + k
    if m < marks then none
    else (f.occurrence? PortSet.outm opp (m - marks)).bind fun step =>
      if k = 0 ∧ marks = 0 then
        WaveName.of? false step ((if step = f.steps then (f.wave : Int) else 0) + idx - lastsBefore (c.waitingAt vsn false false port))
      else some ⟨false, step, n.idx⟩
  else none

/-- The neighbour at a port that shares a wave with a router, with the wave's name there. -/
def State.waveLink (s : State) (vsn id : Nat) (n : WaveName) (port : Nat) : Option (Nat × WaveName) :=
  match (s.coreAt id).entry? vsn, s.neighbour? id port with
  | some e, some k =>
    let c := s.coreAt id
    let d := s.coreAt k
    match d.entry? vsn with
    | some f => (if n.allr then c.allrAcross d e f vsn port n.idx else c.stepAcross d e f vsn port n).map (k, ·)
    | none => none
  | _, _ => none

/-- Every router a wave touches with its name there, from those on the frontier on. -/
def State.waveReach (s : State) (vsn : Nat) : Nat → List (Nat × WaveName) → List (Nat × WaveName) → List (Nat × WaveName)
  | 0, _, seen => seen
  | _, [], seen => seen
  | n + 1, (id, w) :: rest, seen =>
    if seen.any fun e => e.1 == id then s.waveReach vsn n rest seen
    else s.waveReach vsn n (rest ++ [1, 2, 3, 4].filterMap (s.waveLink vsn id w)) ((id, w) :: seen)

/-- The routers of a wave of a core. Each router has at most four links, which bounds the search. -/
def State.waveRouters (s : State) (id vsn : Nat) (n : WaveName) : List (Nat × WaveName) :=
  s.waveReach vsn (5 * ((s.partOf? id).map fun p => (s.partAt p).size).getD 1 + 5) [(id, n)] []

/-- The name of the wave that the core's command runs or begins in a step; none where the entry has stepped past it. -/
def Core.waveName? (c : Core) (vsn : Nat) (allr : Bool) (step : Nat) : Option WaveName :=
  (c.entry? vsn).bind fun e =>
    if allr || step = e.steps then some (e.next allr) else if e.steps < step then some ⟨false, step, 0⟩ else none

/-- The command of the core that runs a wave of its router. -/
def Core.runOf (c : Core) (vsn : Nat) (n : WaveName) : Option (CollRun × Wave) :=
  c.wave?.filter fun (r, w) => w.vsn == vsn && w.allr == n.allr && c.waveName? vsn w.allr r.step == some n

/-! ## The agreed chunk (R281) -/

/-- Chunks of a wave that the core of a router, or a core upstream of it, has started. -/
def Core.chunksStarted (c : Core) (w : Wave) (n : WaveName) : Nat :=
  match c.entry? w.vsn with
  | none => 0
  | some e =>
    if e.isPast n || (n.allr && decide (n.idx < e.up)) then w.chunks
    else ((c.runOf w.vsn n).map fun r => max r.1.sent r.1.received).getD 0

/-- A running wave command has dealt with every chunk below a number. -/
def VsEntry.reached (e : VsEntry) (r : CollRun) (allr : Bool) (chunk : Nat) : Bool :=
  r.post.isSome || ((!e.sends allr r.step || decide (chunk ≤ r.sent)) && (!e.takes allr r.step || decide (chunk ≤ r.received)))

/-- The core of a router reaches an agreed chunk: it has no part in the wave or has had it, or runs it and can move. -/
def Core.reaches (c : Core) (w : Wave) (n : WaveName) (chunk : Nat) : Bool :=
  match c.entry? w.vsn with
  | none => false
  | some e =>
    !(e.sends n.allr n.step || e.takes n.allr n.step) || e.isPast n ||
      match c.runOf w.vsn n with
      | some (r, _) => e.reached r n.allr chunk || ((c.held == .no || c.held == .leaving) && !c.failed)
      | none => false

/-- The routers of the wave that a core's command runs. -/
def State.runRouters (s : State) (id : Nat) (r : CollRun) (w : Wave) : List (Nat × WaveName) :=
  match (s.coreAt id).waveName? w.vsn w.allr r.step with
  | some n => s.waveRouters id w.vsn n
  | none => []

/-- One more than the highest chunk that a member of a core's wave has started. -/
def State.agreedChunk (s : State) (id : Nat) (r : CollRun) (w : Wave) : Nat :=
  ((s.runRouters id r w).map fun m => (s.coreAt m.1).chunksStarted w m.2).foldl max 0

/-- Every member of a core's wave reaches a chunk; otherwise the wave stops where it is (log 109). -/
def State.canReach (s : State) (id : Nat) (r : CollRun) (w : Wave) (chunk : Nat) : Bool :=
  (s.runRouters id r w).all fun m => (s.coreAt m.1).reaches w m.2 chunk

/-- The chunk before which a running wave stops. -/
def Core.limitWave (c : Core) (w : Wave) (chunk : Nat) : Core :=
  match c.eng.krun, c.wave? with
  | some r, some (_, v) =>
    if v.vsn = w.vsn ∧ v.allr = w.allr ∧ r.post.isNone then
      { c with eng := { c.eng with krun := some { r with limit := some chunk } } } else c
  | _, _ => c

/-- The wave of a core has finished every chunk below the agreed one. -/
def Core.waveQuiet (c : Core) : Bool :=
  match c.wave? with
  | some (r, w) =>
    match r.limit, c.entry? w.vsn with
    | some m, some e => e.reached r w.allr m
    | _, _ => true
  | none => true

/-- A `cp.reg` or `cp.pf`, which is one step once it has started (R326). -/
def Cmd.oneStep (c : Cmd) : Bool :=
  match decodeCommand 0 c.words with
  | .ok (.cpReg _) | .ok (.cpPf _) => true
  | _ => false

/-- Copies of one step that a core has started and not finished. -/
def Core.openSteps (c : Core) : List CopyRun := c.eng.copies.filter fun r => r.cmd.oneStep && r.post.isNone

end Sys2Proof.Machine
end

