-- ==== Sys2Proof/Machine/Ops.lean ====
section
/-!
DEFINITION. The named operations every meaning is written with: retiring an instruction (R247, R255, R263), taking an exception and
coming back (R311 to R317, R372), trap records (R320), and ending a core's work (R41, R234).
-/

namespace Sys2Proof.Machine

/-! ## Loops: the end of a pass or an iteration (R255, R263, R265) -/

/-- The address just past the body. -/
def LoopState.bodyEnd (l : LoopState) : Word := l.start + w64 (4 * l.body.length)

/-- The loop replays its body (R253, R266). -/
def LoopState.running (l : LoopState) : Bool := l.mode != .none && !l.suspended

/-- The registers and counts an overwrite iteration restarts from (R265). -/
def Core.checkpoint (c : Core) : Checkpoint :=
  ⟨c.regs.x, c.regs.f, c.regs.bx, c.csr.fflags, c.csr.frm, c.csr.clipc, c.csr.rgovf, c.loop.skipped, c.loop.suppressed⟩

/-- Put the checkpointed registers and counts back (R265). -/
def Core.restoreCheckpoint (c : Core) (k : Checkpoint) : Core :=
  { c with
    regs := { c.regs with x := k.x, f := k.f, bx := k.bx }
    csr := { c.csr with fflags := k.fflags, frm := k.frm, clipc := k.clipc, rgovf := k.rgovf }
    loop := { c.loop with skipped := k.skipped, suppressed := k.suppressed } }

/-- An overwrite iteration starts: checkpoint, and the first body word as resume point (R265). -/
def Core.beginIteration (c : Core) : Core :=
  { c with loop := { c.loop with
      check := some c.checkpoint, resume := c.loop.start, declared := false, footprint := Region.null, lens := [] } }

/-- The cover map with the footprint of the iteration added (R263). -/
def Core.coverFootprint (c : Core) : Core :=
  if c.loop.declared then
    { c with spad := (footprintOf c.loop.td c.loop.footprint c.loop.lens).foldl (setCoverBit c.loop.cover) c.spad }
  else c

/-- The cover bytes that a core sets as it goes on at an address, if an iteration ends there, are writes of its stream: commands issued
before need not see them, and the stream does (R177, R260). -/
def State.noteCover (s : State) (id : Nat) (npc : Word) : State :=
  let c := s.coreAt id
  let l := c.loop
  if l.running && npc == l.bodyEnd && l.mode == .overwrite && l.declared then
    let new := c.coverFootprint.spad
    s.forEach ((footprintOf l.td l.footprint l.lens).map fun i => l.cover + i / 8).eraseDups fun s off =>
      let pa := windowAddr id off
      (s.touchBy (some id) pa 1).updCoreAt id fun c => c.storesOver false pa [readByte c.spad off] [readByte new off]
  else s

/-- An overwrite iteration ends (R263): the next one begins, or control goes on after the body. -/
def Core.endIteration (c : Core) : Core :=
  let c := c.coverFootprint
  if c.loop.left = 0 then
    { c with
      pc := c.loop.bodyEnd
      loop := { c.loop with mode := .none, declared := false, footprint := Region.null, lens := [], check := none } }
  else
    let c := { c with pc := c.loop.start, loop := { c.loop with pass := c.loop.pass - 1, left := c.loop.left - 1 } }
    c.beginIteration

/-- Go on at an address; one just past the body ends the pass there and then (R255). -/
def Core.goTo (c : Core) (npc : Word) : Core :=
  if !c.loop.running || npc != c.loop.bodyEnd then { c with pc := npc }
  else match c.loop.mode with
    | .overwrite => c.endIteration
    | .loop | .none =>
      if c.loop.left = 0 then { c with pc := npc, loop := { c.loop with mode := .none } }
      else { c with
        pc := c.loop.start, loop := { c.loop with pass := c.loop.pass + 1, left := c.loop.left - 1 } }

/-! ## Gangs (R246, R247) -/

/-- The members of a core's gang: the core alone when it is in none (R19). -/
def State.gangOf (s : State) (id : Nat) : List Nat :=
  match (s.coreAt id).gang with
  | none => [id]
  | some g => (List.range g.size).map (g.leader + ·)

/-- The core whose loop state the acting core runs (R258). -/
def State.loopOwner (s : State) : Nat :=
  match s.core.gang with
  | none => s.cur
  | some g => g.leader

/-- The loop state the acting core runs (R258). -/
def State.loop (s : State) : LoopState := (s.coreAt s.loopOwner).loop

/-- Every member has retired: all go on at the leader's next address (R247). -/
def State.advanceGang (s : State) (g : Gang) : State :=
  let members := (List.range g.size).map (g.leader + ·)
  if members.all (fun m => ((s.coreAt m).gang.bind (·.retired)).isSome) then
    let npc := (((s.coreAt g.leader).gang).bind (·.retired)).getD 0
    let s := (s.noteCover g.leader npc).updCoreAt g.leader fun c => c.goTo npc
    let pc := (s.coreAt g.leader).pc
    s.forEach members fun s m =>
      s.updCoreAt m fun c => { c with pc := pc, gang := c.gang.map fun h => { h with retired := none } }
  else s

/-- The acting core's instruction is complete; it goes on at an address (R43, R247, R255). -/
def State.retire (s : State) (npc : Word) : State :=
  let s := s.updCore fun c => { c with wait := .none, csr := { c.csr with instret := c.csr.instret + 1 } }
  match s.core.gang with
  | none => (s.noteCover s.cur npc).updCore fun c => c.goTo npc
  | some g => (s.updCore fun c => { c with gang := some { g with retired := some npc } }).advanceGang g

/-- The gang of the acting core dissolves: a member that has executed the instruction goes on after it, the others at it. Each
keeps the loop state the gang ran (R247, R258); what `ov.set` left is each core's own. -/
def State.dissolveGang (s : State) : State :=
  match s.core.gang with
  | none => s
  | some g =>
    let lp := (s.coreAt g.leader).loop
    s.forEach ((List.range g.size).map (g.leader + ·)) fun s m =>
      let s := s.updCoreAt m fun c => { c with loop := { c.loop with
          table := lp.table, steps := lp.steps, body := lp.body, start := lp.start, mode := lp.mode, pass := lp.pass,
          left := lp.left, suspended := lp.suspended } }
      match (s.coreAt m).gang with
      | some ⟨_, _, some npc⟩ => (s.noteCover m npc).updCoreAt m fun c => { c with gang := none }.goTo npc
      | some ⟨_, _, none⟩ | none => s.updCoreAt m fun c => { c with gang := none }

/-! ## Trap records (R320) -/

/-- The fields of a trap record that its source decides. -/
structure TrapRecord where
  source : Nat
  cause : Nat
  domain : Nat
  seq : Nat
  eng : Nat
  imp : Bool
  launchid : Nat
  value : Word
  pc : Word
  deriving DecidableEq, Repr

/-- The 64 bytes of a record (R320). -/
def TrapRecord.image (r : TrapRecord) (time : Word) (recseq : Nat) : Nat :=
  time.toNat ||| (recseq % 2 ^ 64) <<< 64 ||| r.source <<< 128 ||| r.cause <<< 144 ||| r.domain <<< 160 ||| r.seq <<< 176 |||
    r.eng <<< 192 ||| (if r.imp then 2 ^ 195 else 0) ||| r.launchid <<< 224 ||| r.value.toNat <<< 256 ||| r.pc.toNat <<< 320

/-- Append 64 bytes to a partition's trap log: the bytes first, then the header (R320). -/
def State.appendImage (s : State) (pn v : Nat) : State :=
  let p := s.partAt pn
  let n := p.records
  let s := s.putMem (p.logBase + 64 + 64 * (n % 2 ^ p.logK)) (leBytes v 64)
  let s := s.putMem p.logBase (leBytes ((n + 1) % 2 ^ 64 + 2 ^ 64 * (n + 1 - 2 ^ p.logK)) 64)
  s.updPartAt pn fun p => { p with records := n + 1 }

/-- Append a record. -/
def State.appendRecord (s : State) (pn : Nat) (r : TrapRecord) (recseq : Nat) : State := s.appendImage pn (r.image s.clock recseq)

/-- A record whose source is a core. -/
def State.recordCore (s : State) (r : TrapRecord) : State :=
  let n := s.core.recseq
  (s.appendRecord s.core.part r n).updCore fun c => { c with recseq := n + 1 }

/-- A record whose source is the dispatcher of a partition: source 4,096 (R320). -/
def State.recordDispatcher (s : State) (pn cause domain launchid : Nat) (value : Word) : State :=
  let n := (s.partAt pn).dispRecseq
  let s := s.appendRecord pn ⟨4096, cause, domain, 0, 0, false, launchid, value, 0⟩ n
  s.updPartAt pn fun p => { p with dispRecseq := n + 1 }

/-! ## Counting faults (R220, R228) -/

/-- A fault taken by a task of a launch. -/
def Launch.countFault (l : Launch) (cause domain : Nat) : Launch :=
  { l with
    faults := satInc l.faults
    faulted := true
    cause := if l.cause = 0 then cause else l.cause
    domain := if l.cause = 0 then domain else l.domain }

/-- Count a fault of a launch and a domain of a partition. -/
def Partition.countFault (p : Partition) (launch cause domain : Nat) : Partition :=
  { p.updLaunch launch (fun l => l.countFault cause domain) with
    domFaults := alSet domain ((alGet domain p.domFaults).getD 0 + 1) p.domFaults }

/-- Count a fault that the acting core takes, if a task is bound. -/
def State.countFault (s : State) (cause : Nat) : State :=
  match s.core.bound with
  | .task l .. => s.updPart fun p => p.countFault l cause s.core.csr.fdom.toNat
  | .idle | .supervisor => s

/-! ## Leaving a core (R41, R234, R240) -/

/-- A stream port of a core. -/
def Core.port (c : Core) (n : BitVec 2) : StreamPort := c.router.streams[n.toNat]'n.isLt

/-- Replace a stream port. -/
def Core.setPort (c : Core) (n : BitVec 2) (p : StreamPort) : Core :=
  { c with router := { c.router with streams := c.router.streams.set n.toNat p n.isLt } }

/-- A send port whose target has gone; it keeps its lanes. One that is still taking its lanes holds none (R282, R284). -/
def StreamPort.cutOff : StreamPort → StreamPort
  | .send _ _ _ _ _ route | .cut route => .cut route
  | .closed | .recv .. => .cut (0, 0)

/-- A stream port of a core closes: a sender sends its closing marker, and the sender to a receive port finds it gone (R284). -/
def State.closePort (s : State) (id : Nat) (port : BitVec 2) (seq : BitVec 16) : State :=
  let c := s.coreAt id
  let s' := s.updCoreAt id fun c => c.setPort port .closed
  match c.port port with
  | .closed | .cut _ | .recv _ _ none _ => s'
  | .recv _ _ (some (k, q)) _ => s'.updCoreAt k fun (d : Core) => d.setPort (BitVec.ofNat 2 q) (d.port (BitVec.ofNat 2 q)).cutOff
  | .send target tport _ _ _ _ =>
    let m : Msg := ⟨3, false, 7, seq, 0, 0, BitVec.ofNat 12 ((s.partAt c.part).logical id)⟩
    s'.updCoreAt target fun (d : Core) =>
      { d with router := { d.router with flits := d.router.flits ++ [⟨⟨3, seq, m.source⟩, tport, true, 0, [], some m⟩] } }

/-- Every port of a core closes at the end of its task (R284). The marker's sequence number is not stated (log 26). -/
def State.closeStreams (s : State) (id : Nat) : State :=
  s.forEach [0#2, 1#2, 2#2, 3#2] fun s n => s.closePort id n (BitVec.ofNat 16 (Config.unstated s.tick 5).toNat)

/-- A core after its task has left it: idle. Its registers and CSRs stand until the next bind (R41, R309). -/
def Core.freed (c : Core) (id : Nat) : Core :=
  { Core.idle id with
    regs := c.regs
    csr := c.csr
    trap := { c.trap with ih := false }
    seqctr := c.seqctr
    ring := c.ring
    pc := c.pc
    acc := c.acc
    actype := c.actype
    spad := c.spad
    tiles := c.tiles
    errlog := c.errlog
    errlost := c.errlost
    loop := c.loop
    router := { c.router with streams := Vector.replicate 4 .closed, flits := [], saddlebag := [] }
    recseq := c.recseq
    part := c.part
    dom := c.dom
    pins := c.pins
    stale := c.stale
    failed := c.failed
    landings := c.landings }

/-- A mutex passes to the head of its list, or becomes free (R240). -/
def EvMutex.pass (m : EvMutex) : EvMutex :=
  match m.waiters with
  | [] => ⟨none, []⟩
  | h :: t => ⟨some h, t⟩

/-- The name under which a task holds a mutex of a cluster: its core's number on a core of the cluster; else its physical core, or the
entry past the last core that stands for a task off its core. -/
def holderName (cluster id : Nat) : Nat := if 4096 ≤ id then id else if clusterOf id = cluster then coreNo id else 2 ^ 24 + id

/-- Mutexes of a cluster as if a holder had unlocked those it holds, and left every list (R240). -/
def Cluster.releaseMutexes (c : Cluster) (core : Nat) : Cluster :=
  { c with mutexes := c.mutexes.map fun (k, m) =>
      let m := { m with waiters := m.waiters.filter (· != core) }
      (k, if m.holder = some core then m.pass else m) }

/-- The mutexes that the task of a core, or of an entry past the last core, holds pass on at its end (R240). -/
def State.releaseHeld (s : State) (id : Nat) : State :=
  { s with clusters := s.clusters.map fun (n, c) => (n, c.releaseMutexes (holderName n id)) }

/-- A task holds its mutexes under the name of another entry of `cores`. -/
def State.renameHolder (s : State) (old new : Nat) : State :=
  { s with clusters := s.clusters.map fun (n, c) => (n, { c with mutexes := c.mutexes.map fun (k, m) =>
      (k, if m.holder = some (holderName n old) then { m with holder := some (holderName n new) } else m) }) }

/-- Resources of an owner return to their zero state, and its pins go (R196, R234). -/
def Cluster.releaseOwner (c : Cluster) (owner : Nat) : Cluster :=
  { lines := c.lines.filter fun e => e.1 / 32 != owner
    barriers := c.barriers.filter fun e => e.1 / 32 != owner
    mutexes := c.mutexes.filter fun e => e.1 / 32 != owner
    counters := c.counters.filter fun e => e.1 / 32 != owner
    pins := c.pins.filter fun e => e.2 != owner }

/-- The launch of a core has left its cluster: its resources there are released (R234). -/
def State.leaveCluster (s : State) (id launch part : Nat) : State :=
  let still := (clusterCores (clusterOf id)).any fun k => s.launchOf? k == some launch && (s.coreAt k).part == part
  if still then s else s.updCluster (clusterOf id) fun c => c.releaseOwner (launch + 1)

/-- Monitors of a core are freed (R192). -/
def State.freeMonitor (s : State) (id : Nat) : State := { s with monitors := s.monitors.filter fun m => m.2.1 != id }

/-- A mutex that a core waits for, or that was passed to it while its `ev.lock` slept, as an interrupted `ev.lock` leaves it
(R240). -/
def EvMutex.forsake (m : EvMutex) (core : Nat) : EvMutex :=
  let m := { m with waiters := m.waiters.filter (· != core) }
  if m.holder = some core then m.pass else m

/-- The wait of a core is interrupted: its monitor is freed (R192), a sleeping `ev.lock` leaves its list (R240), and a core at the entry
of a cinch leaves it (R250). -/
def State.interruptWait (s : State) (id : Nat) : State :=
  let s := (s.freeMonitor id).leaveCinches id
  match (s.coreAt id).wait with
  | .lineWord n _ =>
    if 64 ≤ n then
      s.updCluster (clusterOf id) fun c => { c with mutexes := c.mutexes.map fun (k, m) =>
        if k % 32 = n - 64 ∧ (k / 32 = 0 ∨ s.launchOf? id = some (k / 32 - 1)) then (k, m.forsake (coreNo id)) else (k, m) }
    else s
  | .none | .counted | .asleep | .fuse _ | .exit | .partway | .token | .scrub _ => s

/-- A core is offered for a dispatch decision, once (R223). -/
def Partition.offer (p : Partition) (id : Nat) : Partition :=
  if p.isSuper id || p.offers.any (·.1 == id) then p else { p with offers := p.offers ++ [(id, false)] }

/-- The engine faults that the task on a core has not taken when it ends leave their records all the same (R310, log 129). -/
def State.recordPending (s : State) (id : Nat) : State :=
  (s.forEach (s.coreAt id).faults fun s f =>
    let t := s.act id
    let k := t.core.csr
    t.recordCore ⟨t.lcore, f.cause, k.fdom.toNat, f.seq.toNat, f.eng.toNat, true, k.launchid.toNat, f.tval, t.core.pc⟩).act s.cur

/-- The task on a core leaves it: the core is idle and offered (R223, R234). `ends`: the task ends and its mutexes pass on. -/
def State.vacate (s : State) (id : Nat) (ends : Bool) : State :=
  let s := if ends then (s.recordPending id).closeStreams id else s
  let c := s.coreAt id
  let s := s.setCoreAt id (c.freed id)
  let s := (s.freeMonitor id).quitCinches id
  let s := if ends then s.releaseHeld id else s
  match c.bound with
  | .task l .. => (s.leaveCluster id l c.part).updPartAt c.part fun p => p.offer id
  | .idle | .supervisor => s

/-! ## Handing on (R315, R372) -/

/-- A fault asks the dispatcher for a decision (R222). -/
def State.requestDecision (s : State) (pn : Nat) (r : FaultReq) : State :=
  s.updPartAt pn fun p => { p with faults := p.faults ++ [r] }

/-- The context a hand-on keeps: the trap's resume point and mode, with no handler running (R315). -/
def Core.keptContext (c : Core) : Core :=
  { c with
    pc := w64 (c.trap.tepc.toNat * 4)
    sup := c.trap.pm
    trap := { c.trap with ih := false }
    wait := .none
    gang := none
    eng := { c.eng with posted := false } }

/-- Physical base of the hand-on image of a logical core (R331, R372). -/
def Partition.handOnBase (p : Partition) (l : Nat) : Nat := p.area + (p.size + 1 + l) * 0x100000

/-- An entry past the last physical core that is free to keep the stream ports of a task of a core. -/
def State.freeGhost (s : State) (id : Nat) : Nat :=
  id + 4096 * (1 + s.cores.foldl (fun m e => if e.1 % 4096 = id then max m (e.1 / 4096) else m) 0)

/-- The other end of a stream is named differently. -/
def StreamPort.rename (old new : Nat) : StreamPort → StreamPort
  | .closed => .closed
  | .recv ring len sender u => .recv ring len (sender.map fun (k, q) => (if k = old then new else k, q)) u
  | .send target tport credit pos len route => .send (if target = old then new else target) tport credit pos len route
  | .cut route => .cut route

/-- The stream ports of an entry of `cores`, what is on its way to them, and the mutexes its task holds stand under another one. -/
def State.keepStreams (s : State) (old new : Nat) : State :=
  let s := s.renameHolder old new
  let c := s.coreAt old
  let d := s.coreAt new
  let s := s.setCoreAt new { d with part := c.part, router := { d.router with streams := c.router.streams, flits := c.router.flits } }
  let s := s.updCoreAt old fun c => { c with router := { c.router with streams := Vector.replicate 4 .closed, flits := [] } }
  { s with cores := s.cores.map fun (k, e) =>
      (k, { e with router := { e.router with streams := e.router.streams.map (StreamPort.rename old new) } }) }

/-- The task on a core as one that is off it, with its context. -/
def Core.asTask (c : Core) (id key node number weight : Nat) (role : Option Nat) : Task :=
  ⟨key, node, number, weight, c.pc, [], c.csr.cpb, c.csr.tile0, c.csr.tile1, c.csr.tile2, role, [], 0, some c, none, some id, 0⟩

/-- What a core has sent into its router and nothing has combined goes with its task, in its saddlebag (R329, R372). -/
def Core.bagOwn (c : Core) : Core :=
  { c with router := { c.router with
      chunks := c.router.chunks.filter (·.port != 0)
      saddlebag := c.router.saddlebag ++ (c.router.chunks.filter (·.port == 0)).map .chunk } }

/-- The hand-on of the acting core's task is complete: its context goes to the hand-on image, or stands on the core until the fault
decision. A deadlocked domain has the one decision its dispatcher asked for (R248). -/
def State.completeHandOn (s : State) : State :=
  let id := s.cur
  let c : Core := { s.core with held := .no }
  let p := s.part
  let l := p.logical id
  match c.bound with
  | .task key node number weight role =>
    let dom := c.csr.fdom.toNat
    let asked := c.trap.cause.toNat = Cause.queueDeadlock ∧
      p.faults.any fun r => r.cause == Cause.queueDeadlock && r.domain == dom && r.task.isNone
    let ask (s : State) (core : Option Nat) : State :=
      if asked then s else s.requestDecision c.part ⟨dom, c.trap.cause.toNat, 0, some (key, number), core, false⟩
    if (p.area, l) ∈ p.images then ask (s.setCoreAt id { c with held := .stopped }) (some id)
    else
      let c := c.bagOwn
      let s := (s.setCoreAt id c).writeImage (p.handOnBase l) id
      let t := { c.asTask id key node number weight role with only := none }
      let s := s.updPartAt c.part fun p => { p with
        images := (p.area, l) :: p.images
        stoppedTasks := p.stoppedTasks ++ [{ t with image := some (p.area, l), ghost := s.freeGhost id }] }
      ask ((s.keepStreams id (s.freeGhost id)).vacate id false) none
  | .supervisor | .idle => s.setCoreAt id { c with held := .stopped }

/-- Engines of a task still have something to finish before it can leave: a wave, or a copy of one step (R281, R326). -/
def Core.unfinished (c : Core) : Bool := !c.openSteps.isEmpty || c.wave?.any fun r => r.1.post.isNone && r.1.limit.isSome

/-- A core's wave stops before the chunk agreed for it, if every member reaches that. -/
def State.limitOwn (s : State) : State :=
  match s.core.wave? with
  | some (r, w) =>
    let n := s.agreedChunk s.cur r w
    if s.canReach s.cur r w n then s.updCore fun c => c.limitWave w n else s
  | none => s

/-- The acting core's task is handed on (R315, R372): its engines stop as at a gang switch. -/
def State.handOn (s : State) : State :=
  let s := (s.updCore Core.keptContext).limitOwn
  match s.core.bound with
  | .task .. => if s.core.unfinished then s.updCore fun c => { c with held := .leaving } else s.completeHandOn
  | .supervisor | .idle => s.completeHandOn

/-! ## Taking a trap (R311 to R316) -/

/-- What a trap reports. -/
structure Trap where
  cause : Cause
  tval : Word
  detail : BitVec 4
  imp : Bool
  eng : BitVec 3
  seq : BitVec 16
  deriving DecidableEq, Repr

/-- A nested trap (R316): the core halts at once, and its trap CSRs keep the outer trap, whose `tstat` fields the record shows
(R320, log 105). -/
def State.doubleTrap (s : State) (t : Trap) (pc : Word) : State :=
  let c := s.core
  let k := c.trap
  let r : TrapRecord := ⟨s.lcore, Cause.coreDouble, c.csr.fdom.toNat, k.seq.toNat, k.eng.toNat, k.imp, c.csr.launchid.toNat,
    w64 t.cause, pc⟩
  let s := (s.recordCore r).updCore fun c => { c with held := .double, wait := .none }
  match c.bound with
  | .task key _ number _ _ =>
    s.requestDecision c.part ⟨c.csr.fdom.toNat, Cause.coreDouble, 0, some (key, number), some s.cur, false⟩
  | .supervisor => s.updPart fun p => { p with mode := .recovery }
  | .idle => s

/-- Trap CSRs as a trap sets them (R315). `more`: another engine fault is pending. -/
def TrapCsrs.enter (k : TrapCsrs) (t : Trap) (pc : Word) (sup more : Bool) : TrapCsrs :=
  { k with
    tepc := pc.extractLsb' 2 62
    cause := BitVec.ofNat 16 t.cause
    detail := t.detail
    tval := t.tval
    ih := true
    pm := sup
    rk := 0
    imp := t.imp
    eng := t.eng
    more := more
    seq := t.seq }

/-- The record of a trap that is not nested. -/
def State.trapRecord (s : State) (t : Trap) (pc : Word) : TrapRecord :=
  let k := s.core.csr
  ⟨s.lcore, t.cause, k.fdom.toNat, t.seq.toNat, t.eng.toNat, t.imp, k.launchid.toNat, t.tval, pc⟩

/-- The acting core takes a trap at a boundary (R315): it saves pc, cause, value and mode, writes its record, and goes to the
handler in supervisor mode; without a handler the task is handed on. A member of a gang that has executed the instruction takes it at the
next one that it has not executed, past the end of a pass too (R255, R311). -/
def State.takeTrap (s : State) (t : Trap) (pc : Word) : State :=
  let executed := (s.core.gang.bind (·.retired)).isSome
  let s := s.dissolveGang
  let pc := if executed then s.core.pc else pc
  let s := s.interruptWait s.cur
  if s.core.trap.ih then (s.countFault Cause.coreDouble).doubleTrap t pc
  else
    let s := s.countFault t.cause
    let s := s.updCore fun c =>
      { c with
        trap := c.trap.enter t pc c.sup !c.faults.isEmpty
        exiting := false
        wait := .none
        loop := if c.loop.mode = .none then c.loop else { c.loop with suspended := true } }
    let s := s.recordCore (s.trapRecord t pc)
    let s := s.updCore fun c => { c with sup := true }
    if s.core.trap.tvec = 0 then s.handOn else s.updCore fun c => { c with pc := w64 (c.trap.tvec.toNat * 4) }

/-! ## Instructions (R28, R70, R185) -/

/-- How an instruction that raises nothing ends. -/
inductive Out where
  /-- It is complete; control goes on at an address. -/
  | done (s : State) (npc : Word)
  /-- A step of a restartable instruction is complete (R193, R194). -/
  | partway (s : State)
  /-- It sleeps, and what it has done so far stands (R239, R240). -/
  | sleep (s : State) (w : Wait)
  /-- The core no longer runs this stream. -/
  | gone (s : State)
  deriving DecidableEq, Repr

/-- The word of an instruction as a trap value (R313). -/
def insnWord (i : Instr) : Word :=
  match encode i with
  | .word w => w.zeroExtend 64
  | .half w => w.zeroExtend 64
  | .command _ _ | .none => 0

/-- The trap of a precise fault of an instruction (R313, R314). -/
def Fail.trap (f : Fail) (i : Instr) (sqnext : BitVec 16) : Trap :=
  ⟨f.cause, if f.cause = Cause.illegal then insnWord i else f.tval, f.detail, false, f.eng, if f.numbered then sqnext else 0⟩

/-- A precise fault of the acting core at its pc, logged if data was uncorrectable (R311, R322). -/
def State.raiseTrap (s : State) (i : Instr) (f : Fail) : State :=
  let pc := s.core.pc
  let s := match f.log with
    | some e => s.updCore fun c => c.logError 0 (s.clock) e
    | none => s
  s.takeTrap (f.trap i s.core.seqctr) pc

/-- Words a body of an overwriting loop may not hold (R256, second row). The issue of a tile-table or inbox command is judged by
the command itself. -/
def overForbids : Instr → Bool
  | .engineIssue e .. => e.toNat ≤ 4
  | .qPush .. | .qPop .. | .vPtr .. | .tdLd .. | .tdSt .. | .rgSt .. | .wtCh .. | .mvBlk .. => true
  | .csrAccess op _ src csr =>
    (csr != 0x001 && csr != 0x002 && csr != 0x003) &&
      (op == .rw || (match src with | .reg r => r != 0 | .imm u => u != 0))
  | .amAdd .. | .amMin .. | .amMax .. | .amAnd .. | .amOr .. | .amXor .. | .amSwp .. | .amCas .. | .amAddn .. | .amMinn ..
  | .amMaxn .. | .amAndn .. | .amOrn .. | .amXorn .. | .amFadd .. | .amFaddn .. => true
  | .evWait .. | .evFire .. | .evBar .. | .evLock .. | .evUnlock .. | .evCadd .. | .evArm .. | .evMsg .. => true
  | .tkTake .. | .tkClr .. | .tkQs .. => true
  | .fuNew .. | .fuSet .. | .fuGet .. | .fuPoll .. | .fuDrop .. | .tsSpawn .. => true
  | .svScrub .. | .svHalt .. | .polSwap .. => true
  | .mxK8k8 .. | .mxK4k4 .. | .mxK8k4 .. | .mxK4k8 .. | .mxI8i8 .. | .mxI4i4 .. | .mxF16f16 .. | .mxB16b16 .. => false
  | _ => false

/-- Go on after an instruction of one word. -/
def State.next4 (s : State) : Word := s.core.pc + 4

/-- An instruction without more to do. -/
def State.okay (s s' : State) : Except Stop Out := .ok (.done s' s.next4)

/-- A restartable instruction stops between two of its steps; other cores see the registers of the boundary before it (R50). -/
def Core.midway (c : Core) (before : Core) : Core :=
  { c with wait := .partway, boundary := if before.wait = .partway then before.boundary else before.regs.x }

/-- The acting core waits. A load of a line word claims its line at its first use (R234). -/
def State.waitIn (s : State) (w : Wait) : State :=
  let s := match w with
    | .lineWord n _ => if n < 32 then s.updCluster (clusterOf s.cur) fun c =>
        { c with lines := alSet (resKey s.owner n) (resOf c.lines s.owner n) c.lines } else s
    | .none | .counted | .asleep | .fuse _ | .exit | .partway | .token | .scrub _ => s
  s.updCore fun c => if w = .partway then c.midway c else { c with wait := w }

/-- The state an instruction of the acting core leaves. -/
def State.settle (s : State) (i : Instr) : Except Stop Out → State
  | .ok (.done s' npc) => s'.retire npc
  | .ok (.partway s') => s'.updCore fun c => c.midway s.core
  | .ok (.sleep s' w) => s'.updCore fun c => { c with wait := w }
  | .ok (.gone s') => s'
  | .error (.wait w) => s.waitIn w
  | .error (.fault f) => s.raiseTrap i f

/-- An issue instruction or a matrix instruction, which takes a number and reports it when it is refused (R26). -/
def takesNumber : Instr → Bool
  | .engineIssue .. | .mxK8k8 .. | .mxK4k4 .. | .mxK8k4 .. | .mxK4k8 .. | .mxI8i8 .. | .mxI4i4 .. | .mxF16f16 .. | .mxB16b16 .. => true
  | _ => false

/-- ILLEGAL_INSTRUCTION at a word that an overwrite body may not hold (R26, R256). -/
def forbidden (i : Instr) : Except Stop Out := .error (.fault { Fail.of Cause.illegal 0 with numbered := takesNumber i })

/-- Run an instruction of the control stream: the checks of an overwrite body (R256), then its own effect. -/
def State.perform (s : State) (i : Instr) (effect : State → Except Stop Out) : Host.Outcome State Fault Refusal :=
  .next (s.settle i (if s.core.overwriting && overForbids i then forbidden i else effect s))

end Sys2Proof.Machine
end

