-- ==== Sys2Proof/Machine/PointerOps.lean ====
section
/-!
DEFINITION. custom-0 group 101: vector pointers (R152), queue registers (R157), peer addresses (R195), gangs (R246) and cinches
(R249 to R251).
-/

namespace Sys2Proof.Machine

/-! ## Pointers, queues, peers -/

/-- The pointer that four values describe, if each lies in its range (R10). -/
def pointerOf : List Word → Option VPtr
  | [tile, offset, stride, wrap] =>
    let st := stride.toInt
    if tile.toNat ≤ 255 ∧ offset.toNat < Config.spadBytes ∧ -32768 ≤ st ∧ st ≤ 32767 ∧ wrap.toNat ≤ Config.spadBytes then
      some ⟨BitVec.ofNat 8 tile.toNat, BitVec.ofNat 20 offset.toNat, BitVec.ofInt 16 st, BitVec.ofNat 20 wrap.toNat⟩
    else none
  | _ => none

/-- `v.ptr`: four x registers from xs (R10, R68). -/
def effVPtr (d : Reg4) (x : Reg) (s : State) : Except Stop Out :=
  match (s.xRun x 4).bind pointerOf with
  | none => illegal
  | some p => s.okay (s.updCore fun c => c.setVp d p)

/-- `v.ptr` (R10, R152). -/
def execVPtr (d : Reg4) (x : Reg) (s : State) := s.perform (.vPtr d x) (effVPtr d x)

/-- `q.push`. -/
def effQPush (x : Reg) (s : State) : Except Stop Out := do
  waitIf (32 ≤ s.core.regs.q0.length) .counted
  s.okay (s.updCore fun c => { c with regs := { c.regs with q0 := c.regs.q0 ++ [s.x x] } })

/-- `q.push` (R157). -/
def execQPush (x : Reg) (s : State) := s.perform (.qPush x) (effQPush x)

/-- `q.pop`: it acquires the writes of the command that pushed the entry (R155, R159). -/
def effQPop (d : Reg) (s : State) : Except Stop Out :=
  match s.core.regs.q1 with
  | [] => .error (.wait .counted)
  | v :: t => s.okay (((s.updCore fun c => { c with regs := { c.regs with q1 := t }, pushers := c.pushers.tail }).dequeued
      (s.core.pushers.headD ⟨1, 0, 0⟩)).setX d v)

/-- `q.pop` (R157). -/
def execQPop (d : Reg) (s : State) := s.perform (.qPop d) (effQPop d)

/-- `q.cnt`. -/
def effQCnt (d q : Reg) (s : State) : Except Stop Out := do
  need (q.toNat ≤ 1)
  s.okay (s.setX d (w64 (if q = 0 then s.core.regs.q0.length else s.core.regs.q1.length)))

/-- `q.cnt` (R157). -/
def execQCnt (d q : Reg) (s : State) := s.perform (.qCnt d q) (effQCnt d q)

/-- The address of an offset in a peer's scratchpad; the core itself is named by its alias (R195). -/
def peerAddress (id off : Nat) (dcol drow : Int) : Option Nat :=
  let n := coreNo id
  let col := (n % 4 : Nat) + dcol
  let row := (n / 4 : Nat) + drow
  if Config.spadBytes ≤ off ∨ col < 0 ∨ 3 < col ∨ row < 0 ∨ 3 < row then none
  else if dcol = 0 ∧ drow = 0 then some (aliasBase + off)
  else some (windowAddr (clusterOf id * 16 + (4 * row + col).toNat) off)

/-- `pa.peer`. -/
def effPaPeer (d a o : Reg) (s : State) : Except Stop Out := do
  let v := (s.x o).toNat
  need (v < 256)
  match peerAddress s.cur (s.x a).toNat (signExt 4 v) (signExt 4 (v / 16)) with
  | none => illegal
  | some p => s.okay (s.setX d (w64 p))

/-- `pa.peer` (R195). -/
def execPaPeer (d a o : Reg) (s : State) := s.perform (.paPeer d a o) (effPaPeer d a o)

/-! ## Gangs (R19, R246, R247) -/

/-- The cores of the gang of size n that a core would join (R19). -/
def gangMembers (id n : Nat) : List Nat := (List.range n).map (id / n * n + ·)

/-- A core cannot be in a gang with the acting core. -/
def State.unfit (s : State) (id : Nat) : Bool := s.part.isSuper id || !s.sameLaunch id

/-- The size of a core's pending `g.fuse`. -/
def Core.fusing? (c : Core) : Option Nat :=
  match c.wait with
  | .fuse k => some k
  | .none | .counted | .asleep | .lineWord .. | .exit | .partway | .token | .scrub _ => none

/-- A core has a pending `g.fuse` of another size. -/
def State.fusesOther (s : State) (n id : Nat) : Bool := (s.coreAt id).fusing?.any (· != n)

/-- The other cores of the row whose pending `g.fuse` is involved in a mismatch with the acting core's `g.fuse n`: members of its gang
with a pending one, and those of whose gang the acting core is a member under another size (R246). -/
def State.fusesInvolved (s : State) (n : Nat) : List (Nat × Nat) :=
  (rowCores s.cur).filterMap fun m =>
    match (s.coreAt m).fusing? with
    | some k =>
      if m ≠ s.cur ∧ (m ∈ gangMembers s.cur n ∨ (k ≠ n ∧ s.cur ∈ gangMembers m k)) then some (m, k) else none
    | none => none

/-- GANG_MISMATCH on a core, at its `g.fuse` (R246). -/
def State.gangMismatch (s : State) (n id : Nat) : State :=
  ((s.act id).raiseTrap (.gFuse (BitVec.ofNat 5 n)) (.of Cause.gangMismatch 0)).act s.cur

/-- The gang forms: every member has executed its `g.fuse` and goes on at the leader's next address. -/
def State.formGang (s : State) (n : Nat) : State :=
  let members := gangMembers s.cur n
  let leader := members.headD s.cur
  let npc := (s.coreAt leader).pc + 4
  s.forEach members fun s m => s.updCoreAt m fun c =>
    { c with gang := some ⟨n, leader, none⟩, wait := .none, pc := npc, csr := { c.csr with instret := c.csr.instret + 1 } }

/-- `g.fuse`: the checks are made once, as the core reaches it; then it sleeps until every member has a pending one. -/
def effGFuse (r : Reg) (s : State) : Except Stop Out := do
  let n := r.toNat
  need (n = 2 ∨ n = 4)
  need s.core.gang.isNone
  let members := gangMembers s.cur n
  if s.core.fusing?.isNone && members.any fun m => s.unfit m || s.fusesOther n m then
    let s := s.forEach (s.fusesInvolved n) fun s e => s.gangMismatch e.2 e.1
    .ok (.gone (s.gangMismatch n s.cur))
  else if members.all fun m => m == s.cur || (s.coreAt m).wait == .fuse n then .ok (.gone (s.formGang n))
  else .error (.wait (.fuse n))

/-- `g.fuse` (R246). -/
def execGFuse (n : Reg) (s : State) := s.perform (.gFuse n) (effGFuse n)

/-- `g.split`: the last member to execute it dissolves the gang. -/
def effGSplit (s : State) : Except Stop Out :=
  match s.core.gang with
  | none => illegal
  | some g =>
    let others := (s.gangOf s.cur).filter (· != s.cur)
    if others.all fun m => ((s.coreAt m).gang.bind (·.retired)).isSome then
      let s' := s.updCore fun c =>
        { c with gang := some { g with retired := some s.next4 }, wait := .none, csr := { c.csr with instret := c.csr.instret + 1 } }
      .ok (.gone s'.dissolveGang)
    else s.okay s

/-- `g.split` (R246). -/
def execGSplit (s : State) := s.perform .gSplit effGSplit

/-! ## Cinches (R249 to R251) -/

/-- The network an operand names, if it is the acting core's partition's (R249, R250). -/
def State.network (s : State) (n : Reg) : Except Stop Nat :=
  let v := (s.x n).toNat
  if 64 ≤ v then illegal
  else if (s.cinchAt v).part = some s.core.part then .ok v
  else raise Cause.access (Config.unstated s.tick 0)

/-- Change a cinch. -/
def State.setCinch (s : State) (k : Nat) (c : Cinch) : State := { s with cinches := alSet k c s.cinches }

/-- `tk.take`: it waits at a closed entry, in order; then its token goes from balancer to balancer, one in a step. -/
def effTkTake (d n : Reg) (s : State) : Except Stop Out := do
  let k ← s.network n
  let c := s.cinchAt k
  match c.tokenOf? s.cur with
  | some t =>
    match c.pass t with
    | (c, some v) => s.okay ((s.setCinch k c).setX d v)
    | (c, none) => .ok (.sleep (s.setCinch k c) .token)
  | none =>
    if c.isOpen && (c.queue.isEmpty || c.queue.head? == some s.cur) then
      .ok (.sleep (s.setCinch k (c.enter s.cur (s.lcore % 32))) .token)
    else
      .ok (.sleep (s.setCinch k (if c.queue.contains s.cur then c else { c with queue := c.queue ++ [s.cur] })) .asleep)

/-- `tk.take` (R250). -/
def execTkTake (d n : Reg) (s : State) := s.perform (.tkTake d n) (effTkTake d n)

/-- `tk.clr`: it closes the entry, waits until no token is in flight, and clears and opens the network. -/
def effTkClr (n b : Reg) (s : State) : Except Stop Out := do
  let k ← s.network n
  let c := s.cinchAt k
  if c.tokens.isEmpty then
    s.okay (s.setCinch k { c with toggles := 0, counts := List.replicate 32 0, base := s.x b, closers := c.closers.filter (· != s.cur) })
  else .ok (.sleep (s.setCinch k { c with closers := if c.closers.contains s.cur then c.closers else c.closers ++ [s.cur] }) .asleep)

/-- `tk.clr` (R250). -/
def execTkClr (n b : Reg) (s : State) := s.perform (.tkClr n b) (effTkClr n b)

/-- `tk.qs`. -/
def effTkQs (d n : Reg) (s : State) : Except Stop Out := do
  let k ← s.network n
  s.okay (s.setX d (if (s.cinchAt k).isOpen && (s.cinchAt k).tokens.isEmpty then 1 else 0))

/-- `tk.qs` (R250). -/
def execTkQs (d n : Reg) (s : State) := s.perform (.tkQs d n) (effTkQs d n)

end Sys2Proof.Machine
end

