-- ==== Sys2Proof/Machine/RegionOps.lean ====
section
/-!
DEFINITION. The region instructions (R83 to R94) and the loads and stores of region registers and descriptors (R94, R95). Each
checks in the order of R83: runs, rank agreement, operand values, result range.
-/

namespace Sys2Proof.Machine

/-! ## Shared steps -/

/-- One entry of a ragged region's length table, read as a scalar load of the own scratchpad (R87), which may miss an engine's write that no
dequeue has acquired (R9). Outside the scratchpad it raises ACCESS_FAULT (log 12), and an uncorrectable one DATA_FAULT, each with the
entry's own address. -/
def State.lengthEntry (s : State) (off : Int) : Except Stop (Nat × State) :=
  let va := BitVec.ofInt 64 (aliasBase + off)
  if !entryInside off then raise Cause.access va
  else if s.poisoned (windowAddr s.cur off.toNat) 2 then .error (.fault { Fail.of Cause.data va with log := some ⟨5, false, va⟩ })
  else .ok (s.streamRead (.spad s.cur off.toNat) 2)

/-- The entries of a region's lines, one after another; a line that is not wanted counts as 0. -/
def State.lineEntries (s : State) (r : Region) : List (Nat × Bool) → Except Stop (List Nat × State)
  | [] => .ok ([], s)
  | (k, wanted) :: rest =>
    match if wanted then s.lengthEntry (r.entryOff k) else .ok (0, s) with
    | .error e => .error e
    | .ok (n, s) => match s.lineEntries r rest with
      | .error e => .error e
      | .ok (l, s) => .ok (n :: l, s)

/-- Lengths of the lines a box reaches in dimension 0, each read once, in order; a line that is not wanted counts as 0 (R87). -/
def State.linesOf (s : State) (r : Region) (want : Int → Bool) : Except Stop (List Nat × State) :=
  let lo : Int := match r.boxes with | (d0 :: _) :: _ => d0.lo | _ => 0
  s.lineEntries r ((List.range r.lineCount).map fun (k : Nat) => (k, want (lo + (k : Int))))

/-- Every line length of an operand. -/
def State.lengthsOf (s : State) (r : Region) : Except Stop (List Nat × State) := s.linesOf r fun _ => true

/-- Count a result that took the INEXACT hull (R79). -/
def Core.countInexact (c : Core) : Core := { c with csr := { c.csr with rgovf := satInc c.csr.rgovf } }

/-- Count under a condition. -/
def Core.countInexactIf (c : Core) (b : Bool) : Core := if b then c.countInexact else c

/-- Write a result to its register, or raise its fault (R83). -/
def State.writeRegion (s : State) (d : Reg4) : RgRes → Except Stop State
  | .ok r counts => .ok (s.updCore fun c => (c.setBx d r).countInexactIf counts)
  | .range => raise Cause.regionRange (d.zeroExtend 64)
  | .illegal => illegal

/-- Write the two results of a split; the instruction counts once (R79, R91, R92). -/
def State.writeSplit (s : State) (d : Reg4) : RgRes × RgRes → Except Stop State
  | (.ok a ca, .ok b cb) => .ok (s.updCore fun c => ((c.setBx d a).setBx (d + 1) b).countInexactIf (ca || cb))
  | (.illegal, _) | (_, .illegal) => illegal
  | (.range, _) => raise Cause.regionRange (d.zeroExtend 64)
  | (_, .range) => raise Cause.regionRange ((d + 1).zeroExtend 64)

/-- Complete a region instruction. -/
def State.regionDone (s : State) (d : Reg4) (r : RgRes) : Except Stop Out := do
  s.okay (← s.writeRegion d r)

/-- Signed values of registers. -/
def signedRegs (l : List Word) : List Int := l.map BitVec.toInt

/-- A signed value lies in the signed 32-bit range. -/
def fits32 (v : Int) : Bool := decide (-(2 ^ 31) ≤ v) && decide (v < 2 ^ 31)

/-- The dimension-0 coordinates of a box; none of no box. -/
def inRows (h : Option Box) (c : Int) : Bool :=
  match h with
  | some (d0 :: _) => decide (d0.lo ≤ c) && decide (c < d0.lo + d0.ext)
  | _ => false

/-- The lines of operand a that an operation with b depends on (R79, R81, R87), `first` telling which operand a is. A difference
depends on the lengths of its first operand alone, and a union on none where b surely holds a cell. An intersection depends on the
lines that b reaches, unless one of the two is cut by one box. -/
def setLines (op : SetOp) (first : Bool) (a b : Region) : Int → Bool :=
  match op with
  | .sub => fun _ => first
  | .or => fun _ => b.kind == .ragged || b.isEmpty
  | .and =>
    if !a.inexact && !b.inexact && ((a.kind == .ragged && listedCut .and b) || (b.kind == .ragged && listedCut .and a)) then fun _ => false
    else inRows b.hull

/-! ## Set operations (R88, R89) -/

/-- `rg.and`, `rg.or` and `rg.sub`. -/
def effSet (op : SetOp) (d a b : Reg4) (s : State) : Except Stop Out := do
  let ra := s.bx a
  let rb := s.bx b
  need (ra.rank = 0 ∨ rb.rank = 0 ∨ ra.rank = rb.rank)
  let (la, s) ← s.linesOf ra (setLines op true ra rb)
  let (lb, s) ← s.linesOf rb (setLines op false rb ra)
  s.regionDone d (setOp op ra rb la lb)

/-- `rg.and` (R88). -/
def execRgAnd (d a b : Reg4) (s : State) := s.perform (.rgAnd d a b) (effSet .and d a b)

/-- `rg.or` (R88). -/
def execRgOr (d a b : Reg4) (s : State) := s.perform (.rgOr d a b) (effSet .or d a b)

/-- `rg.sub` (R88). -/
def execRgSub (d a b : Reg4) (s : State) := s.perform (.rgSub d a b) (effSet .sub d a b)

/-- `rg.in` (R89); `tval` names an INEXACT operand's register (R313), bxa's where both are (log 118). -/
def effIn (d : Reg) (a b : Reg4) (s : State) : Except Stop Out := do
  let ra := s.bx a
  let rb := s.bx b
  need (ra.rank = 0 ∨ rb.rank = 0 ∨ ra.rank = rb.rank)
  raiseIf ra.inexact Cause.regionInexact (a.zeroExtend 64)
  raiseIf rb.inexact Cause.regionInexact (b.zeroExtend 64)
  let (la, s) ← s.lengthsOf ra
  let (lb, s) ← s.linesOf rb (inRows ra.hull)
  let r := subset (ra.withRank rb.rank) (rb.withRank ra.rank) la lb
  s.okay (s.setX d (if r = some true then 1 else 0))

/-- `rg.in` (R89). -/
def execRgIn (d : Reg) (a b : Reg4) (s : State) := s.perform (.rgIn d a b) (effIn d a b)

/-! ## Reshaping (R90) -/

/-- `rg.dil`: the rank registers hold 0 to 65,535. -/
def effDil (d a : Reg4) (x : Reg) (s : State) : Except Stop Out := do
  let r := s.bx a
  match s.xRun x r.rank with
  | none => illegal
  | some hs =>
    need (hs.all fun h => h.toNat ≤ 65535)
    let (l, s) ← s.lengthsOf r
    s.regionDone d (dilate r (hs.map BitVec.toNat) l)

/-- `rg.dil` (R90). -/
def execRgDil (d a : Reg4) (x : Reg) (s : State) := s.perform (.rgDil d a x) (effDil d a x)

/-- `rg.shf`. -/
def effShf (d a : Reg4) (x : Reg) (s : State) : Except Stop Out := do
  let r := s.bx a
  match s.xRun x r.rank with
  | none => illegal
  | some ds => s.regionDone d (shift r (signedRegs ds))

/-- `rg.shf` (R90). -/
def execRgShf (d a : Reg4) (x : Reg) (s : State) := s.perform (.rgShf d a x) (effShf d a x)

/-- `rg.proj`: a mask with at least one bit, none at or above the rank. -/
def effProj (d a : Reg4) (m : Reg) (s : State) : Except Stop Out := do
  let r := s.bx a
  let mask := (s.x m).toNat
  need (mask < 128 ∧ mask ≠ 0)
  need (r.rank = 0 ∨ mask < 2 ^ r.rank)
  let (l, s) ← s.lengthsOf r
  s.regionDone d (project r mask l)

/-- `rg.proj` (R90). -/
def execRgProj (d a : Reg4) (m : Reg) (s : State) := s.perform (.rgProj d a m) (effProj d a m)

/-- `rg.clip`: the descriptor's rank is the region's, and not 0. -/
def effClip (d a t : Reg4) (s : State) : Except Stop Out := do
  let r := s.bx a
  let td := s.core.td t
  need (td.rank ≠ 0 ∧ (r.rank = 0 ∨ r.rank = td.rank.toNat))
  s.regionDone d (clip r td [])

/-- `rg.clip` (R90). -/
def execRgClip (d a t : Reg4) (s : State) := s.perform (.rgClip d a t) (effClip d a t)

/-! ## Splitting (R91, R92) -/

/-- The written run of a split lies in the file and holds no register it reads (R68). -/
def splitRun (d a : Reg4) : Bool := d != 15 && a != d && a != d + 1

/-- `rg.split.k`: dim in [2:0], k in [23:8], j in [47:32]. -/
def effSplitK (d a : Reg4) (k : Reg) (s : State) : Except Stop Out := do
  need (splitRun d a)
  let r := s.bx a
  let v := (s.x k).toNat
  let dim := bitsOf v 0 3
  let n := bitsOf v 8 16
  let j := bitsOf v 32 16
  need (bitsOf v 3 5 = 0 ∧ bitsOf v 24 8 = 0 ∧ bitsOf v 48 16 = 0 ∧ 1 ≤ n ∧ j < n)
  need (r.rank = 0 ∨ dim < r.rank)
  let (l, s) ← s.lengthsOf r
  s.okay (← s.writeSplit d (splitSlabs r dim n j l))

/-- `rg.split.k` (R92). -/
def execRgSplitK (d a : Reg4) (k : Reg) (s : State) := s.perform (.rgSplitK d a k) (effSplitK d a k)

/-- `rg.split`. -/
def effSplit (d a : Reg4) (n : Reg) (s : State) : Except Stop Out := do
  need (splitRun d a)
  let r := s.bx a
  let (l, s) ← s.lengthsOf r
  s.okay (← s.writeSplit d (splitCells r (s.x n).toNat l))

/-- `rg.split` (R91). -/
def execRgSplit (d a : Reg4) (n : Reg) (s : State) := s.perform (.rgSplit d a n) (effSplit d a n)

/-! ## Reading out (R93) -/

/-- `rg.cnt`. -/
def effCnt (d : Reg) (a : Reg4) (s : State) : Except Stop Out := do
  let (l, s) ← s.lengthsOf (s.bx a)
  s.okay (s.setX d (w64 (countCells (s.bx a) l)))

/-- `rg.cnt` (R93). -/
def execRgCnt (d : Reg) (a : Reg4) (s : State) := s.perform (.rgCnt d a) (effCnt d a)

/-- `rg.nbox`. -/
def effNbox (d : Reg) (a : Reg4) (s : State) : Except Stop Out := s.okay (s.setX d (w64 (s.bx a).boxes.length))

/-- `rg.nbox` (R93). -/
def execRgNbox (d : Reg) (a : Reg4) (s : State) := s.perform (.rgNbox d a) (effNbox d a)

/-- The values `rg.get` writes: lower corners, then extents; zero beyond the last box. -/
def boxValues (r : Region) (i : Nat) : List Word :=
  match r.boxes[i]? with
  | some b => b.map (fun sp => BitVec.ofInt 64 sp.lo) ++ b.map (fun sp => w64 sp.ext)
  | none => List.replicate (2 * r.rank) 0

/-- Write values to consecutive x registers. -/
def Core.setRun (c : Core) (d : Nat) : List Word → Core
  | [] => c
  | v :: t => (c.setX (BitVec.ofNat 5 d) v).setRun (d + 1) t

/-- `rg.get`. -/
def effGet (d : Reg) (a : Reg4) (i : Reg) (s : State) : Except Stop Out := do
  let r := s.bx a
  need (d.toNat + 2 * r.rank ≤ 32)
  need (!(d.toNat ≤ i.toNat && i.toNat < d.toNat + 2 * r.rank))
  s.okay (s.updCore fun c => c.setRun d.toNat (boxValues r (s.x i).toNat))

/-- `rg.get` (R93). -/
def execRgGet (d : Reg) (a : Reg4) (i : Reg) (s : State) := s.perform (.rgGet d a i) (effGet d a i)

/-! ## Building (R86) -/

/-- Ranks 1 to 7 of a building form. -/
def rankOk (k : Reg) : Bool := k != 0 && k.toNat ≤ 7

/-- `rg.box` and `rg.boxs`: lowers, extents and, with strides, strides. -/
def effBox (strided : Bool) (d : Reg4) (x k : Reg) (s : State) : Except Stop Out := do
  need (rankOk k)
  let n := k.toNat
  match s.xRun x (if strided then 3 * n else 2 * n) with
  | none => illegal
  | some v =>
    let los := signedRegs (v.take n)
    let exts := ((v.drop n).take n).map BitVec.toNat
    let sts := if strided then (v.drop (2 * n)).map BitVec.toNat else List.replicate n 1
    need (los.all fits32 && exts.all (· ≤ 16777215) && sts.all fun t => 1 ≤ t && t ≤ 65535)
    s.regionDone d (buildBox n los exts sts)

/-- `rg.box` (R86). -/
def execRgBox (d : Reg4) (x k : Reg) (s : State) := s.perform (.rgBox d x k) (effBox false d x k)

/-- `rg.boxs` (R86). -/
def execRgBoxs (d : Reg4) (x k : Reg) (s : State) := s.perform (.rgBoxs d x k) (effBox true d x k)

/-- `rg.boxr`: lowers, extents and an even table offset that keeps the table in the scratchpad. -/
def effBoxr (d : Reg4) (x k : Reg) (s : State) : Except Stop Out := do
  need (rankOk k && 2 ≤ k.toNat)
  let n := k.toNat
  match s.xRun x (2 * n + 1) with
  | none => illegal
  | some v =>
    let los := signedRegs (v.take n)
    let exts := ((v.drop n).take n).map BitVec.toNat
    let off := (v.getD (2 * n) 0).toNat
    need (los.all fits32 && exts.all (· ≤ 16777215))
    need (off % 2 = 0 ∧ off + 2 * exts.headD 0 ≤ Config.spadBytes)
    s.regionDone d (buildRagged n los exts off)

/-- `rg.boxr` (R86). -/
def execRgBoxr (d : Reg4) (x k : Reg) (s : State) := s.perform (.rgBoxr d x k) (effBoxr d x k)

/-! ## Regions and descriptors in memory (R94, R95) -/

/-- The address of an I or S layout. -/
def State.address (s : State) (x : Reg) (imm : BitVec 12) : Word := s.x x + imm.signExtend 64

/-- `rg.ld`. -/
def effRgLd (d : Reg4) (x : Reg) (imm : BitVec 12) (s : State) : Except Stop Out := do
  let a := s.address x imm
  raiseIf (a.toNat % 32 != 0) Cause.misaligned a
  let (v, s') ← s.loadWords a 32
  s'.regionDone d (Region.load v)

/-- `rg.ld` (R94). -/
def execRgLd (d : Reg4) (x : Reg) (imm : BitVec 12) (s : State) := s.perform (.rgLd d x imm) (effRgLd d x imm)

/-- `rg.st`. -/
def effRgSt (b : Reg4) (x : Reg) (imm : BitVec 12) (s : State) : Except Stop Out := do
  let a := s.address x imm
  raiseIf (a.toNat % 32 != 0) Cause.misaligned a
  s.okay (← s.storeWords a (s.bx b).image 32)

/-- `rg.st` (R94). -/
def execRgSt (b : Reg4) (x : Reg) (imm : BitVec 12) (s : State) := s.perform (.rgSt b x imm) (effRgSt b x imm)

/-- `td.ld`. -/
def effTdLd (d : Reg4) (x : Reg) (imm : BitVec 12) (s : State) : Except Stop Out := do
  let a := s.address x imm
  raiseIf (a.toNat % 64 != 0) Cause.misaligned a
  let (v, s') ← s.loadWords a 8
  match Td.parse v with
  | none => illegal
  | some t => s.okay (s'.updCore fun c => c.setTd d t)

/-- `td.ld` (R95). -/
def execTdLd (d : Reg4) (x : Reg) (imm : BitVec 12) (s : State) := s.perform (.tdLd d x imm) (effTdLd d x imm)

/-- `td.st`. -/
def effTdSt (t : Reg4) (x : Reg) (imm : BitVec 12) (s : State) : Except Stop Out := do
  let a := s.address x imm
  raiseIf (a.toNat % 64 != 0) Cause.misaligned a
  s.okay (← s.storeWords a (s.core.td t).image 8)

/-- `td.st` (R95). -/
def execTdSt (t : Reg4) (x : Reg) (imm : BitVec 12) (s : State) := s.perform (.tdSt t x imm) (effTdSt t x imm)

end Sys2Proof.Machine
end

