-- ==== Sys2Proof/Machine/Fetch.lean ====
section
/-!
DEFINITION. The word a core executes next: from memory, or from the loop buffer with its fields stepped (R53, R254, R255).
-/

namespace Sys2Proof.Machine

/-! ## Stepping (R254) -/

/-- The field of n bits at lo with an addend, wrapped to its width. -/
def stepBits (w : Word32) (lo n : Nat) (add : Int) : Word32 :=
  BitVec.ofNat 32 (putField w.toNat lo n (((bitsOf w.toNat lo n : Int) + add) % 2 ^ n).toNat)

/-- A value stepped within its width. -/
def stepValue {n : Nat} (v : BitVec n) (add : Int) : BitVec n := BitVec.ofInt n (v.toNat + add)

/-- A word of the S layout: STORE, STORE-FP, `rg.st`, `td.st` (R57, R59). -/
def isSForm (w : Word32) : Bool :=
  let maj := w.extractLsb' 0 7
  let f3 := w.extractLsb' 12 3
  maj == 0x23 || maj == 0x27 || (maj == 0x0B && (f3 == 2 || f3 == 4))

/-- A word of the I layout that steps may change: LOAD, LOAD-FP, OP-IMM, OP-IMM-32, `rg.ld`, `td.ld` (R254). -/
def isIForm (w : Word32) : Bool :=
  let maj := w.extractLsb' 0 7
  let f3 := w.extractLsb' 12 3
  maj == 0x03 || maj == 0x07 || maj == 0x13 || maj == 0x1B || (maj == 0x0B && (f3 == 1 || f3 == 3))

/-- A word with its split 12-bit field put in: [31:25] and [11:7]. -/
def withSplit (w : Word32) (v : BitVec 12) : Word32 :=
  v.extractLsb' 5 7 ++ w.extractLsb' 12 13 ++ v.extractLsb' 0 5 ++ w.extractLsb' 0 7

/-- The split 12-bit field [31:25] and [11:7]. -/
def splitField (w : Word32) : BitVec 12 := w.extractLsb' 25 7 ++ w.extractLsb' 7 5

/-- The field f of a word with an addend (R254). The addends of fields 5 and 6 go to the command word at issue. -/
def stepField (w : Word32) (f : Nat) (add : Int) : Word32 :=
  match f with
  | 0 => stepBits w 7 5 add
  | 1 => stepBits w 15 5 add
  | 2 => stepBits w 20 5 add
  | 3 => stepBits w 27 5 add
  | 4 => if isSForm w then withSplit w (stepValue (splitField w) add) else stepBits w 20 12 add
  | 7 => withSplit w (stepValue (splitField w) add)
  | _ => w

/-- Word i of a body on pass p. -/
def LoopState.word (l : LoopState) (i : Nat) : Option Word32 :=
  (l.body[i]?).map fun w =>
    (l.steps.filter fun e => e.i == i).foldl (fun w e => stepField w e.f (l.pass * e.inc)) w

/-- The addend of a field of the word that a body executes at an address (R254). -/
def LoopState.addend (l : LoopState) (pc : Word) (f : Nat) : Int :=
  if l.running && decide (l.start ≤ pc) && decide (pc < l.bodyEnd) then
    match l.steps.find? fun e => e.i == (pc - l.start).toNat / 4 && e.f == f with
    | some e => l.pass * e.inc
    | none => 0
  else 0

/-! ## The next word (R53, R255) -/

/-- The index of the body word at the pc, while a loop runs. -/
def State.bodyIndex? (s : State) : Option Nat :=
  let l := s.loop
  let pc := s.core.pc
  if l.running && decide (l.start ≤ pc) && decide (pc < l.bodyEnd) then some ((pc - l.start).toNat / 4) else none

/-- The instruction word the acting core executes: a body word, or a word fetched by its gang's leader (R247). A pc that is not a
multiple of 4, at which a task may start and a member of a dissolved gang go on, raises MISALIGNED there (log 17). -/
def State.fetchWord (s : State) : Except Stop (Word32 × State) :=
  match (s.bodyIndex?).bind s.loop.word with
  | some w => .ok (w, s)
  | none =>
    if s.core.pc.toNat % 4 ≠ 0 then raise Cause.misaligned s.core.pc
    else match (s.act s.loopOwner).fetch s.core.pc.toNat 4 with
    | .error e => .error e
    | .ok (v, s') => .ok (BitVec.ofNat 32 v, s'.act s.cur)

/-- The word is an issue or a matrix instruction, whose refusal reports `sqnext` (R26). -/
def issuesNumber (w : Word32) : Bool :=
  w.extractLsb' 0 7 == 0x2B || (w.extractLsb' 0 7 == 0x7B && w.extractLsb' 12 3 != 7)

/-- ILLEGAL_INSTRUCTION at a word that decodes to nothing (R69). -/
def State.illegalWord (s : State) (w : Word32) : State :=
  s.takeTrap ⟨Cause.illegal, w.zeroExtend 64, 0, false, 0, if issuesNumber w then s.core.seqctr else 0⟩ s.core.pc

/-- A fault of the fetch itself. -/
def State.fetchTrap (s : State) (f : Fail) : State :=
  let s := match f.log with
    | some e => s.updCore fun c => c.logError 0 (s.clock) e
    | none => s
  s.takeTrap ⟨f.cause, f.tval, f.detail, false, 0, 0⟩ s.core.pc

/-- What a turn comes to: an instruction to execute, or a state in which nothing is left to execute. -/
inductive Plan where
  | run (i : Instr) (s : State)
  | rest (s : State)
  | stray (core : Nat)
  deriving DecidableEq, Repr

/-- The core moves: bound, not held, stopped or halted (R324, R333). A take with its token in the network runs on to its return (R250). -/
def Core.moves (c : Core) : Bool :=
  c.bound != .idle && c.held == .no && ((!c.stopped && !c.halted) || c.wait == .token) && !c.failed

/-- The core executes its stream: it moves, and is not ahead of its gang (R247). -/
def Core.runnable (c : Core) : Bool := c.moves && c.gang.all (·.retired.isNone)

/-- A wait of which the machine keeps more than that the core waits: the state it sleeps in, or a token in the network. -/
def Wait.marked : Wait → Bool
  | .lineWord .. | .token | .partway | .scrub _ => true
  | .none | .counted | .asleep | .fuse _ | .exit => false

/-- The turn of a control stream: a pending engine fault at the boundary, ahead of its gang or not (R311), or the next instruction (R70). A
core whose fetch is held keeps what it waits in. -/
def State.planStream (s : State) : Plan :=
  let c := s.core
  if !c.moves then .rest s
  else if !c.faults.isEmpty && !c.trap.ih && c.wait != .token then .run (.trapEntry s.cur) s
  else if !c.runnable then .rest s
  else match s.fetchWord with
    | .error (.wait w) => .rest (if c.wait.marked then s else s.updCore fun c => { c with wait := w })
    | .error (.fault f) => .rest (s.fetchTrap f)
    | .ok (w, s') => match decode32 w with
      | .ok i => .run i s'
      | .error _ => .rest (s'.illegalWord w)

end Sys2Proof.Machine
end

