-- ==== Sys2Proof/Machine/LoopOps.lean ====
section
/-!
DEFINITION. The loop buffer and the skiver (R252 to R266).
-/

namespace Sys2Proof.Machine

/-! ## The step table (R254) -/

/-- The increments a field takes; `none` for a field code above 7. -/
def stepRange (f : Nat) : Option (Int × Int) :=
  match f with
  | 0 | 1 | 2 | 3 => some (-31, 31)
  | 4 => some (-2048, 2047)
  | 5 => some (-(2 ^ 39), 2 ^ 39 - 1)
  | 6 => some (-255, 255)
  | 7 => some (-4095, 4095)
  | _ => none

/-- Field f applies to a word. -/
def stepApplies (f : Nat) (w : Word32) : Bool :=
  let issue := w.extractLsb' 0 7 == 0x7B && w.extractLsb' 12 3 != 7
  match f with
  | 0 | 1 | 2 | 3 => true
  | 4 => isIForm w || isSForm w
  | 5 | 7 => issue
  | 6 => issue && w.extractLsb' 12 3 == 5
  | _ => false

/-- An entry put into a table: it replaces one for the same word and field; `none` for a ninth. -/
def addStep (t : List StepEntry) (e : StepEntry) : Option (List StepEntry) :=
  if t.any fun o => o.i == e.i && o.f == e.f then some (t.map fun o => if o.i = e.i ∧ o.f = e.f then e else o)
  else if t.length < 8 then some (t ++ [e])
  else none

/-- In a gang the leader acts on the shared loop state for every member, which waits for it (R258): the others retire with it. -/
def State.gangRetires (s : State) (npc : Word) : State :=
  match s.core.gang with
  | none => s
  | some g => s.forEach ((s.gangOf s.cur).filter (· != s.cur)) fun s m => s.updCoreAt m fun c =>
      { c with gang := some { g with retired := some npc }, wait := .none, csr := { c.csr with instret := c.csr.instret + 1 } }

/-- The acting core is a gang's follower. -/
def State.follows (s : State) : Bool := s.loopOwner != s.cur

/-- `lp.step`. -/
def effLpStep (i f c : Reg) (s : State) : Except Stop Out := do
  waitIf s.follows .asleep
  let inc := (s.x c).toInt
  match stepRange f.toNat with
  | none => illegal
  | some (lo, hi) =>
    need (lo ≤ inc ∧ inc ≤ hi)
    match addStep s.core.loop.table ⟨i.toNat, f.toNat, inc⟩ with
    | none => illegal
    | some t =>
      let s' := s.updCore fun c => { c with loop := { c.loop with table := t } }
      s.okay (s'.gangRetires s.next4)

/-- `lp.step` (R254). -/
def execLpStep (i f c : Reg) (s : State) := s.perform (.lpStep i f c) (effLpStep i f c)

/-! ## Capturing a body (R255, R256) -/

/-- The target of a branch or `jal` at an address. -/
def jumpTarget (i : Instr) (pc : Word) : Option Word :=
  match i with
  | .rv64Compute (.branch _ _ _ imm) => some (pc + (imm ++ 0#1).signExtend 64)
  | .rv64Compute (.jal _ imm) => some (pc + (imm ++ 0#1).signExtend 64)
  | _ => none

/-- A target in the range of a body, its end included (R256). -/
def inBody (start : Word) (len : Nat) (target : Word) : Bool := (target - start).toNat ≤ 4 * len

/-- Words no body may hold (R256, first row). -/
def neverInBody : Instr → Bool
  | .rv64Compute (.jalr ..) | .lpSet .. | .lpStep .. | .ovSet .. | .tsExit | .tret | .rep .. | .gFuse .. | .gSplit
  | .fenceI .. | .ecall | .ebreak => true
  | _ => false

/-- A word is `ov.decl`, which only an overwrite body may hold (R256). -/
def declares : Instr → Bool
  | .ovDecl _ => true
  | _ => false

/-- Word k of a body, an overwrite body or a loop body, may stand in it (R256). -/
def bodyWordOk (start : Word) (len : Nat) (skiver : Bool) (k : Nat) (w : Word32) : Bool :=
  match decode32 w with
  | .error _ => true
  | .ok i => !neverInBody i && (skiver || !declares i) &&
      match jumpTarget i (start + w64 (4 * k)) with
      | some t => inBody start len t
      | none => true

/-- Fetch the words of a body. -/
def State.fetchBody (s : State) (a : Word) : Nat → Except Stop (List Word32 × State)
  | 0 => .ok ([], s)
  | n + 1 =>
    match s.fetch a.toNat 4 with
    | .error e => .error e
    | .ok (v, s) =>
      match s.fetchBody (a + 4) n with
      | .error e => .error e
      | .ok (l, s) => .ok (BitVec.ofNat 32 v :: l, s)

/-- A captured body with its steps. -/
structure Body where
  words : List Word32
  start : Word
  steps : List StepEntry
  count : Nat
  deriving DecidableEq, Repr

/-- The checks of count, length and state that precede the fetch of a body (R255). -/
def State.loopCounts (s : State) (a b : Reg) : Except Stop (Nat × Nat) := do
  let n := (s.x a).toNat
  let len := (s.x b).toNat
  need (n < 2 ^ 32 ∧ 1 ≤ len ∧ len ≤ 32)
  need (s.core.loop.mode = .none)
  need (s.core.loop.table.all fun e => e.i < len)
  .ok (n, len)

/-- Capture the body after the instruction (R255). -/
def State.capture (s : State) (n len : Nat) (skiver : Bool) : Except Stop (Body × State) := do
  let start := s.next4
  let (ws, s') ← s.fetchBody start len
  need (s.core.loop.table.all fun e => stepApplies e.f (ws.getD e.i 0))
  need ((List.zip (List.range len) ws).all fun (k, w) => bodyWordOk start len skiver k w)
  .ok (⟨ws, start, s.core.loop.table, n⟩, s')

/-- Loop state with a body bound to it and its first pass begun. -/
def LoopState.bind (l : LoopState) (b : Body) (mode : LoopMode) (first : Nat) : LoopState :=
  { l with
    table := []
    steps := b.steps
    body := b.words
    start := b.start
    mode := if b.count = 0 then .none else mode
    pass := first
    left := b.count - 1
    suspended := false }

/-- `lp.set`. -/
def effLpSet (a b : Reg) (s : State) : Except Stop Out := do
  waitIf s.follows .asleep
  let (n, len) ← s.loopCounts a b
  let (body, s') ← s.capture n len false
  let npc := if n = 0 then s.next4 + w64 (4 * len) else s.next4
  let s' := s'.updCore fun c => { c with loop := c.loop.bind body .loop 0 }
  .ok (.done (s'.gangRetires npc) npc)

/-- `lp.set` (R255). -/
def execLpSet (a b : Reg) (s : State) := s.perform (.lpSet a b) (effLpSet a b)

/-- `lp.cnt`. -/
def effLpCnt (d : Reg) (s : State) : Except Stop Out :=
  s.okay (s.setX d (if s.loop.mode = .none then BitVec.allOnes 64 else w64 s.loop.pass))

/-- `lp.cnt` (R257). -/
def execLpCnt (d : Reg) (s : State) := s.perform (.lpCnt d) (effLpCnt d)

/-! ## The skiver (R259 to R264) -/

/-- The cover map's bytes meet the target span (R259). -/
def coverMeets (id : Nat) (t : Td) (cover bytes : Nat) : Bool := t.meets id (aliasBase + cover) bytes

/-- `ov.set`. -/
def effOvSet (a b : Reg) (t : Reg4) (c : Reg) (s : State) : Except Stop Out := do
  waitIf (!s.core.eng.idle) .asleep
  need s.core.gang.isNone
  let (n, len) ← s.loopCounts a b
  let td := s.core.td t
  let e := td.elements
  let cover := (s.x c).toNat
  let bytes := (e + 7) / 8
  need (td.rank ≠ 0 ∧ 1 ≤ e ∧ e ≤ 2 ^ 20 ∧ cover + bytes ≤ Config.spadBytes)
  need (!coverMeets s.cur td cover bytes)
  let (body, s') ← s.capture n len true
  let s' := (s'.touch (windowAddr s.cur cover) bytes).hideStore false (.spad s.cur cover) bytes 0
  let s' := s'.updCore fun c =>
    let c := { c with
      spad := clearBytes c.spad cover bytes
      loop := { c.loop.bind body .overwrite (n - 1) with
        td := td, tdReg := t, cover := cover, elems := e, everSet := true, skipped := 0, suppressed := 0, declared := false,
        footprint := Region.null, lens := [], check := none } }
    if n = 0 then c else c.beginIteration
  .ok (.done s' (if n = 0 then s.next4 + w64 (4 * len) else s.next4))

/-- `ov.set` (R259). -/
def execOvSet (a b : Reg) (t : Reg4) (c : Reg) (s : State) := s.perform (.ovSet a b t c) (effOvSet a b t c)

/-- A box with strides lies inside the extents of a descriptor. -/
def Td.holdsBox (t : Td) (b : Box) (st : List Nat) : Bool :=
  boxCells b == 0 || (List.zip (List.range b.length) (List.zip b st)).all fun (i, sp, k) =>
    decide (0 ≤ sp.lo) && decide (sp.lo + ((sp.ext : Int) - 1) * k < t.ext i)

/-- Every cell of a region lies inside the extents of a descriptor. -/
def Td.holdsRegion (t : Td) (r : Region) (lens : List Nat) : Bool := (r.moveBoxes lens).all fun (b, st) => t.holdsBox b st

/-- `ov.decl`. -/
def effOvDecl (b : Reg4) (s : State) : Except Stop Out := do
  let l := s.core.loop
  need (s.core.overwriting && !l.declared)
  let r := (s.bx b).withRank l.td.rank.toNat
  raiseIf r.inexact Cause.regionInexact (b.zeroExtend 64)
  raiseIf (r.rank != l.td.rank.toNat) Cause.ovEscape (b.zeroExtend 64)
  let (lens, s) ← s.lengthsOf r
  raiseIf (!l.td.holdsRegion r lens) Cause.ovEscape (b.zeroExtend 64)
  let s' := s.updCore fun c => { c with loop := { c.loop with check := some c.checkpoint, resume := c.pc } }
  if (footprintOf l.td r lens).all (coverBit s.core.spad l.cover) then
    .ok (.done (s'.updCore fun c => { c with loop := { c.loop with skipped := satInc c.loop.skipped } }) l.bodyEnd)
  else s.okay (s'.updCore fun c => { c with loop := { c.loop with declared := true, footprint := r, lens := lens } })

/-- `ov.decl` (R261). -/
def execOvDecl (b : Reg4) (s : State) := s.perform (.ovDecl b) (effOvDecl b)

/-- `ov.stat`. -/
def effOvStat (d : Reg) (s : State) : Except Stop Out := do
  let l := s.core.loop
  need l.everSet
  s.okay (s.setX d (l.suppressed ++ l.skipped))

/-- `ov.stat` (R264). -/
def execOvStat (d : Reg) (s : State) := s.perform (.ovStat d) (effOvStat d)

/-- A coordinate is a cell of a box with strides. -/
def boxHas : Box → List Nat → List Int → Bool
  | sp :: b, k :: st, x :: c =>
    decide (sp.lo ≤ x) && decide ((x - sp.lo) % k = 0) && decide ((x - sp.lo) / k < sp.ext) && boxHas b st c
  | [], _, [] => true
  | _, _, _ => false

/-- The coordinates of the element with an index (R260). -/
def Td.coordOf (t : Td) (k : Nat) : List Int :=
  ((List.range t.rank.toNat).reverse.foldl (fun (acc : List Int × Nat) i =>
    ((acc.2 % t.ext i : Nat) :: acc.1, acc.2 / t.ext i)) ([], k)).1

/-- Cells of a region that the cover map holds. -/
def coveredCells (l : LoopState) (spad : Memory) (boxes : List (Box × List Nat)) : Nat :=
  ((List.range l.elems).filter fun k =>
    coverBit spad l.cover k && boxes.any fun (b, st) => boxHas b st (l.td.coordOf k)).length

/-- `ov.cov`. -/
def effOvCov (d : Reg) (b : Reg4) (s : State) : Except Stop Out := do
  let l := s.core.loop
  need l.everSet
  let r := (s.bx b).withRank l.td.rank.toNat
  need (r.rank = l.td.rank.toNat)
  raiseIf r.inexact Cause.regionInexact (b.zeroExtend 64)
  let (lens, s) ← s.lengthsOf r
  s.okay (s.setX d (w64 (min (boxesCells (r.exact lens).boxes - coveredCells l s.core.spad (r.moveBoxes lens)) (2 ^ 64 - 1))))

/-- `ov.cov` (R264). -/
def execOvCov (d : Reg) (b : Reg4) (s : State) := s.perform (.ovCov d b) (effOvCov d b)

end Sys2Proof.Machine
end

