-- ==== Sys2Proof/Machine/Scalar.lean ====
section
/-!
DEFINITION. The standard part: RV64I, M, F, Zicsr and Zifencei within the limits of R54, and the CSR views of R43.
-/

namespace Sys2Proof.Machine

/-! ## Integer arithmetic (RV64I and M) -/

/-- The value of a 32-bit result, sign-extended. -/
def sext32 (v : Word32) : Word := v.signExtend 64

/-- OP-IMM forms. -/
def immValue (op : ImmOp) (a b : Word) : Word :=
  match op with
  | .addi => a + b
  | .slti => if a.toInt < b.toInt then 1 else 0
  | .sltiu => if a < b then 1 else 0
  | .xori => a ^^^ b
  | .ori => a ||| b
  | .andi => a &&& b

/-- Shifts by an amount below the width. -/
def shiftValue {n : Nat} (op : ShOp) (a : BitVec n) (sh : Nat) : BitVec n :=
  match op with
  | .sll => a <<< sh
  | .srl => a >>> sh
  | .sra => a.sshiftRight sh

/-- Signed quotient and remainder of the M extension: by zero -1 and the dividend; overflow wraps. -/
def divSigned {n : Nat} (a b : BitVec n) : BitVec n :=
  if b = 0 then BitVec.allOnes n else BitVec.ofInt n (a.toInt.tdiv b.toInt)

/-- Signed remainder. -/
def remSigned {n : Nat} (a b : BitVec n) : BitVec n :=
  if b = 0 then a else BitVec.ofInt n (a.toInt.tmod b.toInt)

/-- Unsigned quotient. -/
def divUnsigned {n : Nat} (a b : BitVec n) : BitVec n :=
  if b = 0 then BitVec.allOnes n else BitVec.ofNat n (a.toNat / b.toNat)

/-- Unsigned remainder. -/
def remUnsigned {n : Nat} (a b : BitVec n) : BitVec n :=
  if b = 0 then a else BitVec.ofNat n (a.toNat % b.toNat)

/-- The high half of a product. -/
def highHalf (p : Int) : Word := BitVec.ofInt 64 (p / 2 ^ 64)

/-- OP forms. -/
def aluValue (op : AluOp) (a b : Word) : Word :=
  match op with
  | .add => a + b
  | .sub => a - b
  | .sll => a <<< (b.toNat % 64)
  | .slt => if a.toInt < b.toInt then 1 else 0
  | .sltu => if a < b then 1 else 0
  | .xor => a ^^^ b
  | .srl => a >>> (b.toNat % 64)
  | .sra => a.sshiftRight (b.toNat % 64)
  | .or => a ||| b
  | .and => a &&& b
  | .mul => a * b
  | .mulh => highHalf (a.toInt * b.toInt)
  | .mulhsu => highHalf (a.toInt * b.toNat)
  | .mulhu => highHalf (a.toNat * b.toNat)
  | .div => divSigned a b
  | .divu => divUnsigned a b
  | .rem => remSigned a b
  | .remu => remUnsigned a b

/-- OP-32 forms on the low halves. -/
def aluWValue (op : AluWOp) (a b : Word32) : Word32 :=
  match op with
  | .addw => a + b
  | .subw => a - b
  | .sllw => a <<< (b.toNat % 32)
  | .srlw => a >>> (b.toNat % 32)
  | .sraw => a.sshiftRight (b.toNat % 32)
  | .mulw => a * b
  | .divw => divSigned a b
  | .divuw => divUnsigned a b
  | .remw => remSigned a b
  | .remuw => remUnsigned a b

/-- Branch conditions. -/
def branchTaken (op : BrOp) (a b : Word) : Bool :=
  match op with
  | .beq => a == b
  | .bne => a != b
  | .blt => decide (a.toInt < b.toInt)
  | .bge => decide (b.toInt ≤ a.toInt)
  | .bltu => decide (a < b)
  | .bgeu => decide (b ≤ a)

/-! ## Floating point (F) -/

/-- The canonical NaN of F32. -/
def nan32 : Word32 := 0x7FC00000

/-- A NaN. -/
def isNan32 (v : Word32) : Bool := v.extractLsb' 23 8 == 0xFF && v.extractLsb' 0 23 != 0

/-- A signalling NaN. -/
def isSnan32 (v : Word32) : Bool := isNan32 v && !v.getLsbD 22

/-- NV if some operand is a signalling NaN. -/
def snanFlag (l : List Word32) : VFlags := VFlags.when (l.any isSnan32) VFlags.nv

/-- The value of a register. -/
def fval (v : Word32) : Val := valOf .f32 v.toNat

/-- A rounding mode code 000 to 100. -/
def rmCode (m : BitVec 3) : Option RMode :=
  match m.toNat with
  | 0 => some .rne | 1 => some .rz | 2 => some .rdn | 3 => some .rup | 4 => some .rmm | _ => none

/-- The mode of an F instruction: its own, or `frm` for code 111 (R54). -/
def Core.frmOf (c : Core) (rm : BitVec 3) : Option RMode := if rm = 7 then rmCode c.csr.frm else rmCode rm

/-- Round a result and collect the flags of the operation. -/
def finish32 (mode : RMode) (r : Val × VFlags) (snan : VFlags) : Word32 × BitVec 5 :=
  let (v, fl) := roundWith true .f32 mode 0 r.1
  (BitVec.ofNat 32 v, (fl ||| r.2 ||| snan).toFflags)

/-- Two-operand arithmetic. -/
def farithValue (op : FArith) (mode : RMode) (a b : Word32) : Word32 × BitVec 5 :=
  let r := match op with
    | .fadd => (fval a).add mode (fval b)
    | .fsub => (fval a).add mode (fval b).neg
    | .fmul => (fval a).mul (fval b)
    | .fdiv => (fval a).div (fval b)
  finish32 mode r (snanFlag [a, b])

/-- Fused forms: `fnmadd` is -(a*b) - c. -/
def fusedValue (op : FFused) (mode : RMode) (a b c : Word32) : Word32 × BitVec 5 :=
  let r := match op with
    | .fmadd => Val.fma mode (fval a) (fval b) (fval c)
    | .fmsub => Val.fma mode (fval a) (fval b) (fval c).neg
    | .fnmsub => Val.fma mode (fval a).neg (fval b) (fval c)
    | .fnmadd => Val.fma mode (fval a).neg (fval b) (fval c).neg
  finish32 mode r (snanFlag [a, b, c])

/-- The lesser or greater operand; -0 is below +0, and a NaN gives way to a number. -/
def fminmax (greater : Bool) (a b : Word32) : Word32 :=
  if isNan32 a then if isNan32 b then nan32 else b
  else if isNan32 b then a
  else match (fval a).cmp (fval b) with
    | some .lt => if greater then b else a
    | some .gt => if greater then a else b
    | some .eq | none => if a.getLsbD 31 == greater then b else a

/-- Sign injection, minimum and maximum. A NaN that one of them writes is the canonical one (R117). -/
def fpickValue (op : FPick) (a b : Word32) : Word32 × BitVec 5 :=
  let withSign (s : Bool) : Word32 := if isNan32 a then nan32 else BitVec.ofBool s ++ a.extractLsb' 0 31
  match op with
  | .fsgnj => (withSign (b.getLsbD 31), 0)
  | .fsgnjn => (withSign (!b.getLsbD 31), 0)
  | .fsgnjx => (withSign (a.getLsbD 31 != b.getLsbD 31), 0)
  | .fmin => (fminmax false a b, (snanFlag [a, b]).toFflags)
  | .fmax => (fminmax true a b, (snanFlag [a, b]).toFflags)

/-- Comparisons: false with a NaN; a signalling NaN raises NV and a quiet one does not (R127). -/
def fcmpValue (op : FCmp) (a b : Word32) : Bool × BitVec 5 :=
  let o := (fval a).cmp (fval b)
  (match op with
    | .feq => o == some .eq
    | .flt => o == some .lt
    | .fle => o == some .lt || o == some .eq, (snanFlag [a, b]).toFflags)

/-- The ten classes of `fclass.s`, as a bit number. -/
def fclassBit (v : Word32) : Nat :=
  let neg := v.getLsbD 31
  let e := v.extractLsb' 23 8
  let f := v.extractLsb' 0 23
  if isNan32 v then if isSnan32 v then 8 else 9
  else if e = 0xFF then if neg then 0 else 7
  else if e = 0 then if f = 0 then if neg then 3 else 4 else if neg then 2 else 5
  else if neg then 1 else 6

/-- The integer range of a conversion. -/
def fIntRange : FInt → Int × Int
  | .w => (-(2 ^ 31), 2 ^ 31 - 1)
  | .wu => (0, 2 ^ 32 - 1)
  | .l => (-(2 ^ 63), 2 ^ 63 - 1)
  | .lu => (0, 2 ^ 64 - 1)

/-- A register value of a converted integer: 32-bit results are sign-extended. -/
def fIntReg (t : FInt) (i : Int) : Word :=
  match t with
  | .w | .wu => sext32 (BitVec.ofInt 32 i)
  | .l | .lu => BitVec.ofInt 64 i

/-- The integer a conversion reads from a register. -/
def fIntOf (t : FInt) (v : Word) : Int :=
  match t with
  | .w => (v.extractLsb' 0 32).toInt
  | .wu => (v.extractLsb' 0 32).toNat
  | .l => v.toInt
  | .lu => v.toNat

/-- Conversion to an integer by the F extension (R54, log 124): out of range is NV and an end of the range, a NaN the upper end. -/
def fcvtInt (t : FInt) (mode : RMode) (a : Word32) : Word × BitVec 5 :=
  let (lo, hi) := fIntRange t
  let nv := VFlags.nv.toFflags
  match fval a with
  | .nan => (fIntReg t hi, nv)
  | .inf n => (fIntReg t (if n then lo else hi), nv)
  | .fin n m e =>
    let (i, inexact) := roundTo n m e 0 mode 0
    let x := signed n i
    if x < lo then (fIntReg t lo, nv)
    else if hi < x then (fIntReg t hi, nv)
    else (fIntReg t x, (VFlags.when inexact VFlags.nx).toFflags)

/-! ## Computation and control flow -/

/-- Write an f result and accrue its flags. -/
def State.setFlagged (s : State) (d : Reg) (r : Word32 × BitVec 5) : State :=
  s.updCore fun c => (c.setF d r.1).orFflags r.2

/-- Write an x result and accrue its flags. -/
def State.setXFlagged (s : State) (d : Reg) (v : Word) (fl : BitVec 5) : State :=
  s.updCore fun c => (c.setX d v).orFflags fl

/-- The leader of the acting core's gang has executed the instruction. -/
def State.led (s : State) : Bool := s.core.gang.all fun g => ((s.coreAt g.leader).gang.bind (·.retired)).isSome

/-- Jump from the acting core's pc; a target not aligned to 4 raises MISALIGNED at the jump (R54). A gang goes where its leader does: a
follower whose own target is such a one goes with it once the leader has jumped, and faults by itself if the leader traps (R247). -/
def State.jump (s s' : State) (taken : Bool) (target : Word) : Except Stop Out :=
  if !taken || target.toNat % 4 = 0 then (if taken then .ok (.done s' target) else s.okay s')
  else if !s.follows then raise Cause.misaligned target
  else if s.led then .ok (.done s' target)
  else .error (.wait .asleep)

/-- A branch or `jal` of a running body stays in it (R254). -/
def State.bodyTarget (s : State) (target : Word) : Except Stop Unit :=
  need (s.bodyIndex?.isNone || inBody s.loop.start s.loop.body.length target)

/-- The effect of a computation or control-flow instruction. -/
def effRv (i : RvInstr) (s : State) : Except Stop Out :=
  let mode (rm : BitVec 3) (f : RMode → State) : Except Stop Out :=
    match s.core.frmOf rm with
    | none => illegal
    | some m => s.okay (f m)
  match i with
  | .lui d imm => s.okay (s.setX d ((imm ++ 0#12).signExtend 64))
  | .auipc d imm => s.okay (s.setX d (s.core.pc + (imm ++ 0#12).signExtend 64))
  | .jal d imm => do
    let t := s.core.pc + (imm ++ 0#1).signExtend 64
    s.bodyTarget t
    s.jump (s.setX d s.next4) true t
  | .jalr d a imm => s.jump (s.setX d s.next4) true ((s.x a + imm.signExtend 64) &&& ~~~1)
  | .branch op a b imm => do
    let t := s.core.pc + (imm ++ 0#1).signExtend 64
    s.bodyTarget t
    s.jump s (branchTaken op (s.x a) (s.x b)) t
  | .opImm op d a imm => s.okay (s.setX d (immValue op (s.x a) (imm.signExtend 64)))
  | .shiftImm op d a sh => s.okay (s.setX d (shiftValue op (s.x a) sh.toNat))
  | .addiw d a imm => s.okay (s.setX d (sext32 ((s.x a + imm.signExtend 64).extractLsb' 0 32)))
  | .shiftImmW op d a sh => s.okay (s.setX d (sext32 (shiftValue op ((s.x a).extractLsb' 0 32) sh.toNat)))
  | .op op d a b => s.okay (s.setX d (aluValue op (s.x a) (s.x b)))
  | .opW op d a b => s.okay (s.setX d (sext32 (aluWValue op ((s.x a).extractLsb' 0 32) ((s.x b).extractLsb' 0 32))))
  | .farith op d a b rm => mode rm fun m => s.setFlagged d (farithValue op m (s.f a) (s.f b))
  | .fsqrt d a rm => mode rm fun m => s.setFlagged d (finish32 m (fval (s.f a)).sqrt (snanFlag [s.f a]))
  | .fused op d a b c rm => mode rm fun m => s.setFlagged d (fusedValue op m (s.f a) (s.f b) (s.f c))
  | .fpick op d a b => s.okay (s.setFlagged d (fpickValue op (s.f a) (s.f b)))
  | .fcmp op d a b =>
    let r := fcmpValue op (s.f a) (s.f b)
    s.okay (s.setXFlagged d (if r.1 then 1 else 0) r.2)
  | .fclass d a => s.okay (s.setX d (1 <<< fclassBit (s.f a)))
  | .fmvXW d a => s.okay (s.setX d (sext32 (s.f a)))
  | .fmvWX d a => s.okay (s.setF d ((s.x a).extractLsb' 0 32))
  | .fcvtToInt t d a rm => mode rm fun m =>
    let r := fcvtInt t m (s.f a)
    s.setXFlagged d r.1 r.2
  | .fcvtToFloat t d a rm => mode rm fun m => s.setFlagged d (finish32 m (.ofInt (fIntOf t (s.x a)), 0) 0)

/-- RV64I, M and F computation and control flow (R54). -/
def execRv64Compute (i : RvInstr) (s : State) := s.perform (.rv64Compute i) (effRv i)

/-! ## Loads and stores (R54, R185) -/

/-- Bytes of a load. -/
def loadSize : LoadOp → Nat
  | .lb | .lbu => 1 | .lh | .lhu => 2 | .lw | .lwu | .flw => 4 | .ld => 8

/-- The register value of a load. -/
def loadExtend (op : LoadOp) (v : Nat) : Word :=
  match op with
  | .lb => (BitVec.ofNat 8 v).signExtend 64
  | .lh => (BitVec.ofNat 16 v).signExtend 64
  | .lw => (BitVec.ofNat 32 v).signExtend 64
  | .ld | .lbu | .lhu | .lwu | .flw => w64 v

/-- A load. -/
def effLoad (op : LoadOp) (d a : Reg) (imm : BitVec 12) (s : State) : Except Stop Out := do
  let (v, s') ← s.load (s.address a imm) (loadSize op)
  s.okay (if op = .flw then s'.setF d (BitVec.ofNat 32 v) else s'.setX d (loadExtend op v))

/-- RV64I loads and `flw` (R54). -/
def execScalarLoad (op : LoadOp) (d a : Reg) (imm : BitVec 12) (s : State) :=
  s.perform (.scalarLoad op d a imm) (effLoad op d a imm)

/-- Bytes of a store. -/
def storeSize : StoreOp → Nat
  | .sb => 1 | .sh => 2 | .sw | .fsw => 4 | .sd => 8

/-- The value a store writes. -/
def storeData (op : StoreOp) (s : State) (r : Reg) : Nat :=
  match op with
  | .fsw => (s.f r).toNat
  | .sb | .sh | .sw | .sd => (s.x r).toNat % 2 ^ (8 * storeSize op)

/-- A store. -/
def effStore (op : StoreOp) (r a : Reg) (imm : BitVec 12) (s : State) : Except Stop Out := do
  s.okay (← s.store (s.address a imm) (storeSize op) (storeData op s r))

/-- RV64I stores and `fsw` (R54). -/
def execScalarStore (op : StoreOp) (r a : Reg) (imm : BitVec 12) (s : State) :=
  s.perform (.scalarStore op r a imm) (effStore op r a imm)

/-! ## Fences, CSRs, calls -/

/-- `fence` and `fence.tso`: a full fence at device scope (R54, R175). -/
def execFence (fm pred succ : BitVec 4) (rd rs1 : Reg) (s : State) :=
  s.perform (.fence fm pred succ rd rs1) fun s => s.okay (s.updCore fun c => c.fenced true)

/-- `fence.i`: later fetches see every store before it (R53). -/
def execFenceI (imm : BitVec 12) (rd rs1 : Reg) (s : State) :=
  s.perform (.fenceI imm rd rs1) fun s => s.okay (s.updCore fun c => { c with stale := [] })

/-- The source value of a Zicsr form. -/
def csrSource (src : CsrSrc) (s : State) : Word :=
  match src with
  | .reg r => s.x r
  | .imm u => u.zeroExtend 64

/-- The form writes: `csrrw` always, the others unless the source is x0 or zero (R43). -/
def csrWrites (op : CsrOp) (src : CsrSrc) : Bool :=
  op == .rw || (match src with | .reg r => r != 0 | .imm u => u != 0)

/-- The value a Zicsr form writes. -/
def csrNew (op : CsrOp) (old v : Word) : Word :=
  match op with
  | .rw => v
  | .rs => old ||| v
  | .rc => old &&& ~~~v

/-- A Zicsr instruction. -/
def effCsr (op : CsrOp) (d : Reg) (src : CsrSrc) (a : BitVec 12) (s : State) : Except Stop Out := do
  let addr := a.toNat
  need (!csrSupervisor addr || s.core.sup)
  match s.csrValue s.cur addr with
  | none => illegal
  | some old =>
    if csrWrites op src then
      need (!csrReadOnly addr)
      match s.core.csrWrite addr (csrNew op old (csrSource src s)) with
      | none => illegal
      | some c => s.okay ((s.setCoreAt s.cur c).setX d old)
    else s.okay (s.setX d old)

/-- Zicsr (R43, R44). -/
def execCsrAccess (op : CsrOp) (d : Reg) (src : CsrSrc) (a : BitVec 12) (s : State) :=
  s.perform (.csrAccess op d src a) (effCsr op d src a)

/-- `ecall`: ENV_CALL with a value of 0 (R54, R313). -/
def execEcall (s : State) := s.perform .ecall fun _ => raise Cause.envCall 0

/-- `ebreak`: BREAKPOINT with the pc (R54, R313). -/
def execEbreak (s : State) := s.perform .ebreak fun s => raise Cause.breakpoint s.core.pc

end Sys2Proof.Machine
end

