-- ==== Sys2Proof/Machine/MemoryOps.lean ====
section
/-!
DEFINITION. custom-2: scoped accesses and fences (R186, R187), tensor-addressed accesses (R188), atomics (R189 to R191), wait on
change (R192), block move and repeat (R193, R194), and instruction prefetch and pinning (R196). Memory is one order: one core sees of a
scope whether it takes in its own engines, as every scope but the stream's does (R174, log 7).
-/

namespace Sys2Proof.Machine

/-! ## Scoped loads and stores (R186) -/

/-- The scope takes in the engines of the core (R174). -/
def wideScope (sc : Scope) : Bool := sc != .stream

/-- An `l.aq` load of n bytes. -/
def effAcquire (n : Nat) (signedLoad : Bool) (d a : Reg) (sc : Scope) (s : State) : Except Stop Out := do
  let (v, s') ← s.load (s.x a) n (wideScope sc)
  s.okay (s'.setX d (if signedLoad then BitVec.ofInt 64 (signExt (8 * n) v) else w64 v))

/-- `l.aq.b` (R186). -/
def execLAqB (d a : Reg) (sc : Scope) (s : State) := s.perform (.lAqB d a sc) (effAcquire 1 true d a sc)

/-- `l.aq.h` (R186). -/
def execLAqH (d a : Reg) (sc : Scope) (s : State) := s.perform (.lAqH d a sc) (effAcquire 2 true d a sc)

/-- `l.aq.w` (R186). -/
def execLAqW (d a : Reg) (sc : Scope) (s : State) := s.perform (.lAqW d a sc) (effAcquire 4 true d a sc)

/-- `l.aq.d` (R186). -/
def execLAqD (d a : Reg) (sc : Scope) (s : State) := s.perform (.lAqD d a sc) (effAcquire 8 true d a sc)

/-- `l.aq.bu` (R186). -/
def execLAqBu (d a : Reg) (sc : Scope) (s : State) := s.perform (.lAqBu d a sc) (effAcquire 1 false d a sc)

/-- `l.aq.hu` (R186). -/
def execLAqHu (d a : Reg) (sc : Scope) (s : State) := s.perform (.lAqHu d a sc) (effAcquire 2 false d a sc)

/-- `l.aq.wu` (R186). -/
def execLAqWu (d a : Reg) (sc : Scope) (s : State) := s.perform (.lAqWu d a sc) (effAcquire 4 false d a sc)

/-- An `s.rl` store of the low n bytes. -/
def effRelease (n : Nat) (v a : Reg) (sc : Scope) (s : State) : Except Stop Out := do
  s.okay (← s.store (s.x a) n ((s.x v).toNat % 2 ^ (8 * n)) (wideScope sc))

/-- `s.rl.b` (R186). -/
def execSRlB (v a : Reg) (sc : Scope) (s : State) := s.perform (.sRlB v a sc) (effRelease 1 v a sc)

/-- `s.rl.h` (R186). -/
def execSRlH (v a : Reg) (sc : Scope) (s : State) := s.perform (.sRlH v a sc) (effRelease 2 v a sc)

/-- `s.rl.w` (R186). -/
def execSRlW (v a : Reg) (sc : Scope) (s : State) := s.perform (.sRlW v a sc) (effRelease 4 v a sc)

/-- `s.rl.d` (R186). -/
def execSRlD (v a : Reg) (sc : Scope) (s : State) := s.perform (.sRlD v a sc) (effRelease 8 v a sc)

/-- A fence: at core scope or wider it orders the stream's accesses towards the core's engines (R177, rows 7 to 9). -/
def effFence (wide stores : Bool) (s : State) : Except Stop Out := s.okay (if wide then s.updCore fun c => c.fenced stores else s)

/-- `fe.full` (R187). -/
def execFeFull (sc : Scope) (s : State) := s.perform (.feFull sc) (effFence (wideScope sc) true)

/-- `fe.acq` (R187). -/
def execFeAcq (sc : Scope) (s : State) := s.perform (.feAcq sc) (effFence (wideScope sc) false)

/-- `fe.rel` (R187). -/
def execFeRel (sc : Scope) (s : State) := s.perform (.feRel sc) (effFence (wideScope sc) true)

/-! ## Tensor-addressed accesses (R188, R262) -/

/-- The coordinates an access reads from its run of registers, wrapped; the descriptor must be valid for use (R42, R95). -/
def State.coordinates (s : State) (td : Td) (c : Reg) : Except Stop (List Int) :=
  if !td.valid then illegal
  else match s.xRun c td.rank.toNat with
    | none => illegal
    | some l => .ok (td.wrapped (signedRegs l))

/-- Count a clipped access (R44). -/
def Core.countClip (c : Core) : Core := { c with csr := { c.csr with clipc := satInc c.csr.clipc } }

/-- The base of an access that is made is aligned to the element size. -/
def Td.aligned (td : Td) : Bool := td.base.toNat % elemBytes td.format == 0

/-- A loaded element as a register value: the I formats are sign-extended. -/
def extendElem (f : Fmt) (v : Nat) : Word := if fmtSigned f then BitVec.ofInt 64 (signExt f.width v) else w64 v

/-- The descriptor register an overwriting loop runs over (R262). -/
def State.ovTarget (s : State) (t : Reg4) : Bool := s.core.overwriting && s.core.loop.tdReg == t

/-- `t.ld`. -/
def effTLd (d : Reg) (t : Reg4) (c : Reg) (s : State) : Except Stop Out := do
  let td := if s.ovTarget t then s.core.loop.td else s.core.td t
  let cs ← s.coordinates td c
  let e := td.elem 0 cs
  raiseIf (s.ovTarget t) Cause.ovRead e.addr
  if !td.inBounds cs then s.okay (s.updCore fun k => k.countClip.setX d 0)
  else
    raiseIf (!td.aligned) Cause.misaligned e.addr
    let (v, s') ← s.load e.addr (elemBytes td.format)
    s.okay (s'.setX d (extendElem td.format (pickElem td.format e.odd v)))

/-- `t.ld` (R188). -/
def execTLd (d : Reg) (t : Reg4) (c : Reg) (s : State) := s.perform (.tLd d t c) (effTLd d t c)

/-- Write one element by a scalar store; a 4-bit element keeps the other nibble of its byte (R188). -/
def State.storeElem (s : State) (f : Fmt) (e : ElemAt) (v : Nat) : Except Stop State :=
  if f.width = 4 ∧ !isEvent s.cur e.addr.toNat then
    match s.resolve s.core.sup .write e.addr.toNat 1 5 with
    | .error x => .error x
    | .ok (pl, s') =>
      if s.accHold pl then .error (.wait .asleep)
      else
        let b := placeElem f e.odd (s.readPlace pl 1) v
        .ok (((s'.noteStale pl).hideStore false pl 1 b).writePlace pl 1 b (some e.odd))
  else if isEvent s.cur e.addr.toNat then s.storeEvent e.addr.toNat (elemBytes f)
  else s.storeRaw e.addr (elemBytes f) (v % 2 ^ f.width)

/-- The footprint of the running iteration holds a coordinate (R262). -/
def LoopState.inFootprint (l : LoopState) (c : List Int) : Bool :=
  l.declared && (l.footprint.moveBoxes l.lens).any fun (b, st) => boxHas b st c

/-- `t.st` in an overwrite body through the loop's descriptor register (R262). -/
def State.overwriteStore (s : State) (td : Td) (cs : List Int) (v : Nat) : Except Stop Out := do
  let l := s.core.loop
  let e := td.elem 0 cs
  raiseIf (!td.inBounds cs) Cause.ovEscape (BitVec.ofInt 64 (td.index cs))
  raiseIf (!l.declared) Cause.ovEscape e.addr
  raiseIf (!l.inFootprint cs) Cause.ovEscape (BitVec.ofInt 64 (td.index cs))
  if coverBit s.core.spad l.cover (td.index cs).toNat then
    s.okay (s.updCore fun c => { c with loop := { c.loop with suppressed := satInc c.loop.suppressed } })
  else
    raiseIf (!td.aligned) Cause.misaligned e.addr
    s.okay (← s.storeElem td.format e v)

/-- `t.st`. -/
def effTSt (v : Reg) (t : Reg4) (c : Reg) (s : State) : Except Stop Out := do
  let td := if s.ovTarget t then s.core.loop.td else s.core.td t
  let cs ← s.coordinates td c
  let data := (s.x v).toNat
  if s.ovTarget t then s.overwriteStore td cs data
  else if !td.inBounds cs then s.okay (s.updCore fun k => k.countClip)
  else
    let e := td.elem 0 cs
    raiseIf (!td.aligned) Cause.misaligned e.addr
    raiseIf s.core.overwriting Cause.ovEscape e.addr
    s.okay (← s.storeElem td.format e data)

/-- `t.st` (R188). -/
def execTSt (v : Reg) (t : Reg4) (c : Reg) (s : State) := s.perform (.tSt v t c) (effTSt v t c)

/-! ## Atomics (R189 to R191) -/

/-- The new word of an atomic; `none` for a compare that fails (R190). -/
def amoNew (op : AmoOp) (old v : Word) : Word :=
  match op with
  | .add => old + v
  | .min => if v.toInt < old.toInt then v else old
  | .max => if old.toInt < v.toInt then v else old
  | .and => old &&& v
  | .or => old ||| v
  | .xor => old ^^^ v
  | .swp => v

/-- The rounded sum of the F32 forms; they set no flag (R190). -/
def amoFadd (old v : Word32) : Word32 :=
  BitVec.ofNat 32 (roundVal .f32 .rne 0 ((valOf .f32 old.toNat).add .rne (valOf .f32 v.toNat)).1).1

/-- A place that is a home of atomics (R190). -/
def atomicHome : Place → Bool
  | .mem pa => !isHost pa
  | .spad .. => true
  | .acc .. | .regwin .. | .tiles .. | .inbox .. => false

/-- Resolve the address of an atomic in the order of R185; the homes R190 excludes raise ACCESS_FAULT. -/
def State.atomicPlace (s : State) (va : Word) (n : Nat) : Except Stop (Place × State) := do
  raiseIf (va.toNat % n != 0) Cause.misaligned va
  raiseIf (isEvent s.cur va.toNat) Cause.access va
  let (pl, s') ← s.resolve s.core.sup .write va.toNat n 5
  raiseIf (!atomicHome pl) Cause.access va
  .ok (pl, s')

/-- The acting core's stream has read n bytes at their home as they stand: it misses none of its engines' writes there (R179). -/
def State.homeRead (s : State) (pl : Place) (n : Nat) (wide : Bool) : State := s.updCore fun c => c.sees pl.phys n wide

/-- The write of an atomic, at its home and now (R179): on a halted core too, whose stores alone wait (R334). -/
def State.atomicWrite (s : State) (pl : Place) (n v : Nat) : State := ((s.noteStale pl).hideStore false pl n v).writeNow pl n v

/-- A returning atomic at its home: the old word, and the new one written if there is one. -/
def State.atomic (s : State) (va : Word) (n : Nat) (wide : Bool) (f : Nat → Option Nat) : Except Stop (Nat × State) := do
  let (pl, s') ← s.atomicPlace va n
  let old ← s.readChecked pl va.toNat n 5
  let s' := (s'.touch pl.phys n).homeRead pl n wide
  match f old with
  | none => .ok (old, s')
  | some new => .ok (old, s'.atomicWrite pl n new)

/-- A non-returning atomic: a write only, combined with what stands at the home (R172, R179). -/
def State.combine (s : State) (va : Word) (n : Nat) (f : Nat → Nat) : Except Stop State := do
  let (pl, s') ← s.atomicPlace va n
  let old ← s.readChecked pl va.toNat n 5
  .ok (s'.atomicWrite pl n (f old))

/-- The operands that the write queue of a home still holds for a line, into whose entry a contribution of `am.faddn` merges; none once the
entry has begun to apply, which is a free choice (R191). -/
def State.pendingLine (s : State) (pa : Nat) : List PendingAdd :=
  if Config.mergesAdd s.tick then s.adds.filter fun e => e.pa / 64 == pa / 64 else []

/-- The operand of a word in its line's pending entry, for the word as it stands. -/
def State.pendingAdd? (s : State) (pa : Nat) (now : Word32) : Option PendingAdd :=
  (s.pendingLine pa).find? fun e => e.pa == pa && amoFadd e.base e.operand == now

/-- A contribution of `am.faddn`: it takes a new entry of its home's write queue, or merges into the pending one of its line, where the
operand of its word becomes the rounded sum of both (R191). The word is what the entries give once applied. -/
def State.contribute (s : State) (va : Word) (v : Word32) : Except Stop State := do
  let (pl, s') ← s.atomicPlace va 4
  let now := BitVec.ofNat 32 (← s.readChecked pl va.toNat 4 5)
  let e : PendingAdd := match s.pendingAdd? pl.phys now with
    | some e => { e with operand := amoFadd e.operand v }
    | none => ⟨pl.phys, now, v⟩
  let line := (s.pendingLine pl.phys).filter fun o => o.pa != e.pa
  let s' := s'.atomicWrite pl 4 (amoFadd e.base e.operand).toNat
  .ok { s' with adds := e :: line ++ s'.adds }

/-- An integer atomic that returns the old word. -/
def effAtomic (op : AmoOp) (d v a : Reg) (sc : Scope) (s : State) : Except Stop Out := do
  let (old, s') ← s.atomic (s.x a) 8 (wideScope sc) fun o => some (amoNew op (w64 o) (s.x v)).toNat
  s.okay (s'.setX d (w64 old))

/-- An integer atomic that returns nothing. -/
def effCombine (op : AmoOp) (v a : Reg) (s : State) : Except Stop Out := do
  s.okay (← s.combine (s.x a) 8 fun o => (amoNew op (w64 o) (s.x v)).toNat)

/-- `am.add` (R189). -/
def execAmAdd (d v a : Reg) (sc : Scope) (s : State) := s.perform (.amAdd d v a sc) (effAtomic .add d v a sc)

/-- `am.min` (R189). -/
def execAmMin (d v a : Reg) (sc : Scope) (s : State) := s.perform (.amMin d v a sc) (effAtomic .min d v a sc)

/-- `am.max` (R189). -/
def execAmMax (d v a : Reg) (sc : Scope) (s : State) := s.perform (.amMax d v a sc) (effAtomic .max d v a sc)

/-- `am.and` (R189). -/
def execAmAnd (d v a : Reg) (sc : Scope) (s : State) := s.perform (.amAnd d v a sc) (effAtomic .and d v a sc)

/-- `am.or` (R189). -/
def execAmOr (d v a : Reg) (sc : Scope) (s : State) := s.perform (.amOr d v a sc) (effAtomic .or d v a sc)

/-- `am.xor` (R189). -/
def execAmXor (d v a : Reg) (sc : Scope) (s : State) := s.perform (.amXor d v a sc) (effAtomic .xor d v a sc)

/-- `am.swp` (R189). -/
def execAmSwp (d v a : Reg) (sc : Scope) (s : State) := s.perform (.amSwp d v a sc) (effAtomic .swp d v a sc)

/-- `am.cas`: expected in xe and the new value in xe+1; x31 has no successor (R68). -/
def effCas (d e a : Reg) (sc : Scope) (s : State) : Except Stop Out :=
  match runReg e 1 with
  | none => illegal
  | some e1 => do
    let (old, s') ← s.atomic (s.x a) 8 (wideScope sc) fun o => if w64 o = s.x e then some (s.x e1).toNat else none
    s.okay (s'.setX d (w64 old))

/-- `am.cas` (R189). -/
def execAmCas (d e a : Reg) (sc : Scope) (s : State) := s.perform (.amCas d e a sc) (effCas d e a sc)

/-- `am.addn` (R189). -/
def execAmAddn (v a : Reg) (sc : Scope) (s : State) := s.perform (.amAddn v a sc) (effCombine .add v a)

/-- `am.minn` (R189). -/
def execAmMinn (v a : Reg) (sc : Scope) (s : State) := s.perform (.amMinn v a sc) (effCombine .min v a)

/-- `am.maxn` (R189). -/
def execAmMaxn (v a : Reg) (sc : Scope) (s : State) := s.perform (.amMaxn v a sc) (effCombine .max v a)

/-- `am.andn` (R189). -/
def execAmAndn (v a : Reg) (sc : Scope) (s : State) := s.perform (.amAndn v a sc) (effCombine .and v a)

/-- `am.orn` (R189). -/
def execAmOrn (v a : Reg) (sc : Scope) (s : State) := s.perform (.amOrn v a sc) (effCombine .or v a)

/-- `am.xorn` (R189). -/
def execAmXorn (v a : Reg) (sc : Scope) (s : State) := s.perform (.amXorn v a sc) (effCombine .xor v a)

/-- The returning F32 atomic on a 4-byte word. -/
def effAmoFadd (d v a : Reg) (sc : Scope) (s : State) : Except Stop Out := do
  let (old, s') ← s.atomic (s.x a) 4 (wideScope sc) fun o => some (amoFadd (BitVec.ofNat 32 o) ((s.x v).extractLsb' 0 32)).toNat
  s.okay (s'.setX d (w64 old))

/-- `am.fadd` (R189). -/
def execAmFadd (d v a : Reg) (sc : Scope) (s : State) := s.perform (.amFadd d v a sc) (effAmoFadd d v a sc)

/-- `am.faddn` (R189, R191). -/
def execAmFaddn (v a : Reg) (sc : Scope) (s : State) := s.perform (.amFaddn v a sc) fun s => do
  s.okay (← s.contribute (s.x a) ((s.x v).extractLsb' 0 32))

/-! ## Wait on change (R192) -/

/-- A place whose lines a monitor can watch: HBM, the second tier or a Span window. -/
def monitorHome : Place → Bool
  | .mem pa => !isHost pa
  | .spad .. | .acc .. | .regwin .. | .tiles .. | .inbox .. => false

/-- The monitor of a core: its line and whether it has been written. -/
def State.monitorOf (s : State) (id : Nat) : Option (Nat × Bool) := (s.monitors.find? fun m => m.2.1 == id).map fun m => (m.1, m.2.2)

/-- A core that a write to its line has woken makes its final read; whatever holds that read holds it awake (R192). -/
def wokenHold {α : Type} (woken : Bool) : Except Stop α → Except Stop α
  | .error (.wait w) => .error (.wait (if woken then .partway else w))
  | r => r

/-- `wt.ch`: read at the home, and sleep on the line's monitor while the word has the value given; a woken core reads once more. -/
def effWtCh (d v a : Reg) (sc : Scope) (s : State) : Except Stop Out := do
  let va := s.x a
  let woken := s.core.wait == .partway || (s.monitorOf s.cur).any (·.2)
  raiseIf (va.toNat % 8 != 0) Cause.misaligned va
  raiseIf (onChip va.toNat) Cause.access va
  let (pl, s') ← wokenHold woken (s.resolve s.core.sup .read va.toNat 8 5)
  raiseIf (!monitorHome pl) Cause.access va
  let w ← s.readChecked pl va.toNat 8 5
  let s' := s'.touch pl.phys 8
  if woken || ((s.monitorOf s.cur).isNone && w64 w != s.x v) then
    s.okay (((s'.freeMonitor s.cur).homeRead pl 8 (wideScope sc)).setX d (w64 w))
  else if (s.monitorOf s.cur).isSome then .error (.wait .asleep)
  else
    let line := pl.phys / 64
    let port := Config.homePort line
    raiseIf (decide (64 ≤ (s.portMonitors port).length) && s.exhausts s.part) Cause.syncExhausted (w64 (port % 256 * 256))
    .ok (.sleep { s' with monitors := s'.monitors ++ [(line, s.cur, false)] } .asleep)

/-- `wt.ch` (R192). -/
def execWtCh (d v a : Reg) (sc : Scope) (s : State) := s.perform (.wtCh d v a sc) (effWtCh d v a sc)

/-- The waking of a core by a write to its line (R192): the monitor is freed, and the core's `wt.ch` makes its final read. -/
def execMonitorWake (core : Nat) (s : State) : Host.Outcome State Fault Refusal :=
  match s.monitorOf core with
  | some (_, true) => .next ((s.freeMonitor core).updCoreAt core fun c => c.midway c)
  | some (_, false) | none => .next s

/-! ## Block move and repeat (R193, R194) -/

/-- `mv.blk`: one word of the loop. -/
def effMvBlk (d x n : Reg) (s : State) : Except Stop Out := do
  need (d != x && d != n && x != n && d != 0 && x != 0 && n != 0)
  raiseIf ((s.x d).toNat % 8 != 0) Cause.misaligned (s.x d)
  raiseIf ((s.x x).toNat % 8 != 0) Cause.misaligned (s.x x)
  raiseIf ((s.x n).toNat % 8 != 0) Cause.misaligned (s.x n)
  if s.x n = 0 then s.okay s
  else
    let (w, s') ← s.load (s.x x) 8
    let s' ← s'.store (s.x d) 8 w
    .ok (.partway (s'.updCore fun c => ((c.setX x (c.x x + 8)).setX d (c.x d + 8)).setX n (c.x n - 8)))

/-- `mv.blk` (R193). -/
def execMvBlk (d x n : Reg) (s : State) := s.perform (.mvBlk d x n) (effMvBlk d x n)

/-- One pass of a `rep` target: the store it makes and its size; `none` for a target `rep` does not take (R194). -/
def repTarget (i : Instr) (c a : Reg) : Option (Nat × (State → Except Stop State)) :=
  let amo (op : AmoOp) (v b : Reg) : Option (Nat × (State → Except Stop State)) :=
    if b = a ∧ v ≠ c ∧ v ≠ a then
      some (8, fun s => s.combine (s.x b) 8 fun o => (amoNew op (w64 o) (s.x v)).toNat)
    else none
  match i with
  | .scalarStore op v b imm =>
    if b = a ∧ (op = .fsw ∨ (v ≠ c ∧ v ≠ a)) then
      some (storeSize op, fun s => s.store (s.address b imm) (storeSize op) (storeData op s v))
    else none
  | .amAddn v b _ => amo .add v b
  | .amMinn v b _ => amo .min v b
  | .amMaxn v b _ => amo .max v b
  | .amAndn v b _ => amo .and v b
  | .amOrn v b _ => amo .or v b
  | .amXorn v b _ => amo .xor v b
  | .amFaddn v b _ =>
    if b = a ∧ v ≠ c ∧ v ≠ a then
      some (4, fun s => s.contribute (s.x b) ((s.x v).extractLsb' 0 32))
    else none
  | _ => none

/-- `rep`: one pass of the target. -/
def effRep (c a : Reg) (s : State) : Except Stop Out := do
  need (c != a && c != 0 && a != 0)
  let (w, s') ← s.fetch s.next4.toNat 4
  match decode32 (BitVec.ofNat 32 w) with
  | .error _ => illegal
  | .ok i => match repTarget i c a with
    | none => illegal
    | some (n, run) =>
      if s.x c = 0 then .ok (.done s' (s.core.pc + 8))
      else
        let s' ← run s'
        .ok (.partway (s'.updCore fun k => (k.setX a (k.x a + w64 n)).setX c (k.x c - 1)))

/-- `rep` (R194). -/
def execRep (c a : Reg) (s : State) := s.perform (.rep c a) (effRep c a)

/-! ## Instruction prefetch and pinning (R196) -/

/-- The lines that a range meets. -/
def linesOf (a n : Nat) : List Nat := if n = 0 then [] else (List.range ((a + n - 1) / 64 - a / 64 + 1)).map (a / 64 + ·)

/-- The physical line of a virtual line that translates with execute permission and exists. -/
def State.execLine (s : State) (line : Nat) : Option Nat :=
  match s.resolve s.core.sup .exec (line * 64) 64 6 with
  | .ok (pl, _) => some (pl.phys / 64)
  | .error _ => none

/-- Pin a line in a first-level cache of 128 sets: at most two ways of a set (R20, R196). -/
def Core.pin (c : Core) (line : Nat) : Core :=
  if line ∈ c.pins ∨ 2 ≤ (c.pins.filter fun p => p % 128 == line % 128).length then c else { c with pins := c.pins ++ [line] }

/-- Lines that are pinned in the second-level cache. -/
def Cluster.pinned (c : Cluster) : List Nat := (c.pins.map (·.1)).eraseDups

/-- Pin a line in the second-level cache: at most 256 KiB. A line that several launches pin stays until the last of them leaves (R196). -/
def Cluster.pin (c : Cluster) (line owner : Nat) : Cluster :=
  if (line, owner) ∈ c.pins ∨ line ∉ c.pinned ∧ 4096 ≤ c.pinned.length then c else { c with pins := c.pins ++ [(line, owner)] }

/-- The physical line of a virtual line that translates, with whatever rights. -/
def State.pinLine (s : State) (line : Nat) : Option Nat :=
  let at' (pa : Nat) : Option Nat := (s.placeOf? pa 64).map (·.phys / 64)
  if onChip (line * 64) then at' (line * 64)
  else match s.leaf s.part (line * 64) 6 with
    | .ok e => at' (e.pa + (line * 64 - e.va))
    | .error _ => none

/-- A level field names L1, L2 or both. -/
def icLevel (l : Reg) : Bool := 1 ≤ l.toNat && l.toNat ≤ 3

/-- `ic.pf` only moves code nearer (R196). -/
def execIcPf (l x n : Reg) (s : State) := s.perform (.icPf l x n) fun s => do
  need (icLevel l)
  s.okay s

/-- `ic.pin`. -/
def effIcPin (l x n : Reg) (s : State) : Except Stop Out := do
  need (icLevel l)
  let lines := (linesOf (s.x x).toNat (s.x n).toNat).filterMap s.execLine
  let s' := if l.getLsbD 0 then s.updCore fun c => lines.foldl Core.pin c else s
  let s' := if l.getLsbD 1 then s'.updCluster (clusterOf s.cur) fun c => lines.foldl (fun c k => c.pin k s.owner) c else s'
  s.okay s'

/-- `ic.pin` (R196). -/
def execIcPin (l x n : Reg) (s : State) := s.perform (.icPin l x n) (effIcPin l x n)

/-- `ic.unpin`: it skips no line of the range that a cache may hold (R196). -/
def effIcUnpin (l x n : Reg) (s : State) : Except Stop Out := do
  need (icLevel l)
  let lines := (linesOf (s.x x).toNat (s.x n).toNat).filterMap s.pinLine
  let s' := if l.getLsbD 0 then s.updCore fun c => { c with pins := c.pins.filter fun p => p ∉ lines } else s
  let s' := if l.getLsbD 1 then s'.updCluster (clusterOf s.cur) fun c => { c with pins := c.pins.filter fun p => p.1 ∉ lines } else s'
  s.okay s'

/-- `ic.unpin` (R196). -/
def execIcUnpin (l x n : Reg) (s : State) := s.perform (.icUnpin l x n) (effIcUnpin l x n)

/-! ## The line words of the event unit (R243) -/

/-- The address of the word of a line through the own-core alias. -/
def lineWordAddress (line : Reg) : Word := w64 (aliasBase + 0xF0000 + 8 * line.toNat)

/-- A load of a line's word: it sleeps until the next firing (R243). -/
def effLineLoad (d line : Reg) (s : State) : Except Stop Out := do
  let (v, s') ← s.load (lineWordAddress line) 8
  s.okay (s'.setX d (w64 v))

/-- The load of a line's word (R243). -/
def execEventLineWordLoad (d line : Reg) (s : State) := s.perform (.eventLineWordLoad d line) (effLineLoad d line)

/-- The store to a line's word fires it; its value is ignored (R243). -/
def execEventLineWordStore (line : Reg) (s : State) := s.perform (.eventLineWordStore line) fun s => do
  s.okay (← s.store (lineWordAddress line) 8 0)

end Sys2Proof.Machine
end

