-- ==== Sys2Proof/Machine/EventOps.lean ====
section
/-!
DEFINITION. The event unit: phases and tokens, lines, barriers, mutexes, counters and messages (R233 to R245).
-/

namespace Sys2Proof.Machine

/-! ## Shared steps -/

/-- What a token finds at a phase (R236). -/
inductive TokenCase where
  | block
  | pass (stale : Bool)
  | ahead
  deriving DecidableEq, Repr

/-- The case of a token. -/
def tokenCase (phase token : BitVec 16) : TokenCase :=
  let d := (phase - token).toNat
  if d = 0 then .block else if d < 32768 then .pass (d != 1) else .ahead

/-- The register value of a return (R236). -/
def tokenResult (phase : BitVec 16) (stale : Bool) : Word := (BitVec.ofBool stale ++ phase).zeroExtend 64

/-- The cluster of the acting core. -/
def State.unit (s : State) : Cluster := s.clusterAt (clusterOf s.cur)

/-- Change the acting core's cluster. -/
def State.updUnit (s : State) (f : Cluster → Cluster) : State := s.updCluster (clusterOf s.cur) f

/-- Put a line. -/
def Cluster.setLine (c : Cluster) (owner n : Nat) (v : EvLine) : Cluster := { c with lines := alSet (resKey owner n) v c.lines }

/-- Put a barrier. -/
def Cluster.setBarrier (c : Cluster) (owner n : Nat) (v : EvBarrier) : Cluster :=
  { c with barriers := alSet (resKey owner n) v c.barriers }

/-- Put a mutex. -/
def Cluster.setMutex (c : Cluster) (owner n : Nat) (v : EvMutex) : Cluster :=
  { c with mutexes := alSet (resKey owner n) v c.mutexes }

/-- Put a counter. -/
def Cluster.setCounter (c : Cluster) (owner n : Nat) (v : EvCounter) : Cluster :=
  { c with counters := alSet (resKey owner n) v c.counters }

/-- The mark of a sleep on line n, barrier n - 32 or mutex n - 64, with the token (log 14). -/
def sleepMark (n : Nat) (token : BitVec 16) : Wait := .lineWord n token

/-! ## Lines (R238) -/

/-- `ev.wait`. A sleeper that the next firing wakes returns that firing's phase. -/
def effEvWait (d x : Reg) (s : State) : Except Stop Out := do
  let v := s.x x
  let n := (v.extractLsb' 0 5).toNat
  let token := v.extractLsb' 16 16
  need (v.extractLsb' 5 11 = 0 ∧ v.extractLsb' 32 32 = 0)
  s.claim s.unit.lines 1 n
  let line := resOf s.unit.lines s.owner n
  if s.core.wait = sleepMark n token ∧ line.phase ≠ token then s.okay (s.setX d (tokenResult (token + 1) false))
  else match tokenCase line.phase token with
    | .ahead => raise Cause.syncToken (token.zeroExtend 64)
    | .pass stale => s.okay ((s.updUnit fun c => c.setLine s.owner n line).setX d (tokenResult line.phase stale))
    | .block => .ok (.sleep (s.updUnit fun c => c.setLine s.owner n line) (sleepMark n token))

/-- `ev.wait` (R238). -/
def execEvWait (d x : Reg) (s : State) := s.perform (.evWait d x) (effEvWait d x)

/-- `ev.fire`. -/
def effEvFire (x : Reg) (s : State) : Except Stop Out := do
  let n := (s.x x).toNat
  need (n < 32)
  s.claim s.unit.lines 1 n
  s.okay (s.updUnit fun c => c.fire s.owner n false)

/-- `ev.fire` (R238). -/
def execEvFire (x : Reg) (s : State) := s.perform (.evFire x) (effEvFire x)

/-! ## Barriers (R239) -/

/-- Number of cores in an arrival set. -/
def arrived (a : BitVec 16) : Nat := ((List.range 16).filter fun k => a.getLsbD k).length

/-- One more arrival: the barrier, and whether it completes the phase. -/
def EvBarrier.arrive (b : EvBarrier) (count core : Nat) : EvBarrier × Bool :=
  let a := b.arrivals ||| (1#16 <<< core)
  if arrived a = count then (⟨b.phase + 1, count, 0⟩, true) else (⟨b.phase, count, a⟩, false)

/-- `ev.bar`. -/
def effEvBar (d x : Reg) (s : State) : Except Stop Out := do
  let v := s.x x
  let n := (v.extractLsb' 0 3).toNat
  let count := (v.extractLsb' 4 5).toNat
  let token := v.extractLsb' 16 16
  need (v.getLsbD 3 = false ∧ v.extractLsb' 9 7 = 0 ∧ v.extractLsb' 32 32 = 0 ∧ 1 ≤ count ∧ count ≤ 16)
  s.claim s.unit.barriers 2 n
  let b := resOf s.unit.barriers s.owner n
  if s.core.wait = sleepMark (32 + n) token ∧ b.phase ≠ token then s.okay (s.setX d (tokenResult (token + 1) false))
  else match tokenCase b.phase token with
    | .ahead => raise Cause.syncToken (token.zeroExtend 64)
    | .pass stale => s.okay ((s.updUnit fun c => c.setBarrier s.owner n b).setX d (tokenResult b.phase stale))
    | .block =>
      raiseIf (b.arrivals != 0 && b.count != count) Cause.syncMismatch (w64 n)
      let (b', full) := b.arrive count (coreNo s.cur)
      let s' := s.updUnit fun c => c.setBarrier s.owner n b'
      if full then s.okay (s'.setX d (tokenResult b'.phase false)) else .ok (.sleep s' (sleepMark (32 + n) token))

/-- `ev.bar` (R239). -/
def execEvBar (d x : Reg) (s : State) := s.perform (.evBar d x) (effEvBar d x)

/-! ## Mutexes (R240) -/

/-- `ev.lock`: a sleeper that the mutex was passed to completes. -/
def effEvLock (x : Reg) (s : State) : Except Stop Out := do
  let n := (s.x x).toNat
  need (n < 8)
  s.claim s.unit.mutexes 3 n
  let m := resOf s.unit.mutexes s.owner n
  let me := coreNo s.cur
  match m.holder with
  | none => s.okay (s.updUnit fun c => c.setMutex s.owner n { m with holder := some me })
  | some h =>
    if h = me then
      if s.core.wait = sleepMark (64 + n) 0 then s.okay s else raise Cause.syncMismatch (w64 n)
    else
      let m' := if me ∈ m.waiters then m else { m with waiters := m.waiters ++ [me] }
      .ok (.sleep (s.updUnit fun c => c.setMutex s.owner n m') (sleepMark (64 + n) 0))

/-- `ev.lock` (R240). -/
def execEvLock (x : Reg) (s : State) := s.perform (.evLock x) (effEvLock x)

/-- `ev.unlock`. -/
def effEvUnlock (x : Reg) (s : State) : Except Stop Out := do
  let n := (s.x x).toNat
  need (n < 8)
  s.claim s.unit.mutexes 3 n
  let m := resOf s.unit.mutexes s.owner n
  raiseIf (m.holder != some (coreNo s.cur)) Cause.syncMismatch (w64 n)
  s.okay (s.updUnit fun c => c.setMutex s.owner n m.pass)

/-- `ev.unlock` (R240). -/
def execEvUnlock (x : Reg) (s : State) := s.perform (.evUnlock x) (effEvUnlock x)

/-! ## Counters (R241) -/

/-- Put a threshold behind those at or below it. -/
def insertArm (t : BitVec 32 × Nat) : List (BitVec 32 × Nat) → List (BitVec 32 × Nat)
  | [] => [t]
  | h :: r => if h.1 ≤ t.1 then h :: insertArm t r else t :: h :: r

/-- Thresholds in ascending order, equal ones as they were armed. -/
def sortArms (l : List (BitVec 32 × Nat)) : List (BitVec 32 × Nat) := l.foldl (fun acc t => insertArm t acc) []

/-- Add to a counter of an owner and fire every threshold that its new value reaches (R241). -/
def Cluster.addCounter (c : Cluster) (owner n add : Nat) (byMsg : Bool) : Cluster × BitVec 32 :=
  let k := resOf c.counters owner n
  let v := satAdd k.value add
  let c := c.setCounter owner n ⟨v, k.armed.filter fun t => v < t.1⟩
  ((sortArms (k.armed.filter fun t => t.1 ≤ v)).foldl (fun c t => c.fire owner t.2 byMsg) c, v)

/-- `ev.cadd`. -/
def effEvCadd (d c v : Reg) (s : State) : Except Stop Out := do
  let n := (s.x c).toNat
  let add := (s.x v).toNat
  need (n < 8 ∧ add < 2 ^ 32)
  s.claim s.unit.counters 4 n
  let (u, value) := s.unit.addCounter s.owner n add false
  s.okay ((s.updUnit fun _ => u).setX d (value.zeroExtend 64))

/-- `ev.cadd` (R241). -/
def execEvCadd (d c v : Reg) (s : State) := s.perform (.evCadd d c v) (effEvCadd d c v)

/-- A line in use stands under its owner, in its zero state before the first use (R234). -/
def Cluster.useLine (c : Cluster) (owner n : Nat) : Cluster :=
  { c with lines := alSet (resKey owner n) (resOf c.lines owner n) c.lines }

/-- `ev.arm`: it uses the counter and the line that it names (log 43). -/
def effEvArm (c t : Reg) (s : State) : Except Stop Out := do
  let x := s.x c
  let n := (x.extractLsb' 0 3).toNat
  let y := s.x t
  let line := (y.extractLsb' 32 5).toNat
  let threshold := y.extractLsb' 0 32
  need (x.extractLsb' 3 5 = 0 ∧ x.extractLsb' 9 55 = 0)
  need (if x.getLsbD 8 then y == 0 else y.extractLsb' 37 27 == 0)
  s.claim s.unit.counters 4 n
  let k := resOf s.unit.counters s.owner n
  if x.getLsbD 8 then s.okay (s.updUnit fun u => u.setCounter s.owner n ⟨0, []⟩)
  else
    s.claim s.unit.lines 1 line
    if threshold ≤ k.value then s.okay (s.updUnit fun u => (u.setCounter s.owner n k).fire s.owner line false)
    else
      raiseIf (4 ≤ k.armed.length && s.exhausts s.part) Cause.syncExhausted (w64 (5 + n * 256))
      s.okay (s.updUnit fun u => (u.useLine s.owner line).setCounter s.owner n { k with armed := k.armed ++ [(threshold, line)] })

/-- `ev.arm` (R241). -/
def execEvArm (c t : Reg) (s : State) := s.perform (.evArm c t) (effEvArm c t)

/-! ## Messages (R242) -/

/-- Whose resource of a cluster a message reaches: from supervisor mode, that of the partition's supervisor code where it holds the index,
or where its core is the target and the sender's launch holds none (R296, log 113). -/
def State.msgOwner {α : Type} (s : State) (target : Nat) (l : List (Nat × α)) (n : Nat) : Nat :=
  let code := s.part.isSuper target && (s.coreAt target).bound == .supervisor
  if s.core.sup && ((alGet (resKey 0 n) l).isSome || (code && (alGet (resKey s.owner n) l).isNone)) then 0 else s.owner

/-- `ev.msg`: fire a line, or add 1 to a counter, in the cluster of a core of the partition. Over a link that is down it raises
ACCESS_FAULT, whose value is not stated (R280, log 25). -/
def effEvMsg (t w : Reg) (s : State) : Except Stop Out := do
  let l := (s.x t).toNat
  let v := (s.x w).toNat
  let n := v % 32
  need (l < s.part.size ∧ v < 64 ∧ (v < 32 ∨ n < 8))
  let id := s.part.phys l
  raiseIf (s.cutOff s.part s.cur id) Cause.access (Config.unstated s.tick 6)
  let u := s.clusterAt (clusterOf id)
  if v < 32 then
    let o := s.msgOwner id u.lines n
    s.claimAs o u.lines 1 n
    s.okay (s.updCluster (clusterOf id) fun u => u.fire o n true)
  else
    let o := s.msgOwner id u.counters n
    s.claimAs o u.counters 4 n
    s.okay (s.updCluster (clusterOf id) fun u => (u.addCounter o n 1 true).1)

/-- `ev.msg` (R242). -/
def execEvMsg (t w : Reg) (s : State) := s.perform (.evMsg t w) (effEvMsg t w)

end Sys2Proof.Machine
end

