-- ==== Sys2Proof/Machine/Launch.lean ====
section
/-!
DEFINITION. The work of a launch: weight and loans (R208 to R210), nodes becoming ready and complete (R33 to R37), tasks becoming
ready, being cancelled and ending (R211, R217, R224), and faults of the dispatcher itself (R222, R311).
-/

namespace Sys2Proof.Machine

/-! ## Weight (R208, R209) -/

/-- Borrow 2^40 from the root unit; refused at 2^23 - 1 loans. -/
def Launch.borrow (l : Launch) : Option Launch :=
  if l.loans + 1 < 2 ^ 23 then some { l with target := l.target + 2 ^ 40, loans := l.loans + 1 } else none

/-- Shares of a weight: equal but for the first, which takes the rest. -/
def shares (w n : Nat) : List Nat := (w - (n - 1) * (w / n)) :: List.replicate (n - 1) (w / n)

/-- Split a weight among n, borrowing once when a share would fall below 2. -/
def Launch.split (l : Launch) (w n : Nat) : Option (Launch × List Nat) :=
  if 2 ≤ w / n then some (l, shares w n)
  else l.borrow.map fun l => (l, shares (w + 2 ^ 40) n)

/-! ## Choices of the dispatcher -/

/-- An order that the dispatcher chooses: k elements drawn one after another. -/
def drawFrom {α : Type} (choice : Nat → Nat → Nat) : Nat → List α → List α
  | 0, l => l
  | _ + 1, [] => []
  | _ + 1, [v] => [v]
  | k + 1, l =>
    match l[choice k l.length % l.length]? with
    | none => l
    | some v => v :: drawFrom choice k (l.eraseIdx (choice k l.length % l.length))

/-- The choices of a step by purpose. -/
def State.choose (s : State) (purpose : Nat) (k n : Nat) : Nat := Config.managerChoice s.tick (purpose * 2 ^ 32 + k) n

/-! ## What the dispatcher reads and writes (R34, R220) -/

/-- An open migration holds a physical page against all but its core (R307). -/
def Partition.holdsPage (p : Partition) (pa : Nat) : Bool := p.migration.any fun m => m.pages.contains (pa / 65536 * 65536)

/-- Where bytes of one page of a partition lie, for the dispatcher: device or host memory. A migration holds the access (R307). -/
def State.dispatcherPiece (s : State) (pn : Nat) (r : Right) (va n : Nat) : Except Stop (Nat × Nat) :=
  let p := s.partAt pn
  if onChip va then raise Cause.access (w64 va)
  else if p.migration.any fun m => decide (m.va ≤ va) && decide (va < m.va + m.len) then .error (.wait .asleep)
  else match s.leaf p va 0 with
    | .error e => .error e
    | .ok e => match e.permit true r va with
      | .error e => .error e
      | .ok pa => match s.offChip? pa n with
        | none => raise Cause.access (w64 va)
        | some at' => if p.holdsPage pa then .error (.wait .asleep) else .ok (at', n)

/-- Where n bytes at a virtual address of a partition lie, page by page: places and lengths. -/
def State.dispatcherPlaces (s : State) (pn : Nat) (r : Right) (va n : Nat) : Except Stop (List (Nat × Nat)) := do
  let k := min n (65536 - va % 65536)
  let a ← s.dispatcherPiece pn r va k
  if k < n then
    let b ← s.dispatcherPiece pn r (va + k) (n - k)
    .ok [a, b]
  else .ok [a]

/-- n bytes at a virtual address as a number, or the fault of the read. -/
def State.dispatcherRead (s : State) (pn va n : Nat) : Except Stop Nat := do
  let l ← s.dispatcherPlaces pn .read va n
  if l.any fun e => s.poisoned e.1 e.2 then raise Cause.data (w64 va)
  else .ok (leNat (l.flatMap fun e => readBytes s.mem e.1 e.2))

/-! ## Cores the dispatcher may use (R30, R308) -/

/-- A `sv.scrub` that waits holds a core (R308). -/
def State.scrubHolds (s : State) (id : Nat) : Bool := s.cores.any fun e => e.2.wait == .scrub id

/-- A core that may take a task: idle, no supervisor core, sound, and not held by a scrub. -/
def State.canTake (s : State) (pn id : Nat) : Bool :=
  let c := s.coreAt id
  c.bound == .idle && !(s.partAt pn).isSuper id && !c.failed && !s.scrubHolds id

/-- The idle cores of a partition in logical order. -/
def State.idleCores (s : State) (pn : Nat) : List Nat := (s.partAt pn).coreIds.filter (s.canTake pn)

/-! ## Tasks (R211, R224) -/

/-- The fault domain of a node. -/
def Launch.domainOf (l : Launch) (node : Nat) : Nat := (l.nodes[node]?.map (·.domain)).getD 0

/-- The fault domain of a task of a partition. -/
def Partition.taskDomain (p : Partition) (t : Task) : Nat := ((p.launch? t.launch).map fun l => l.domainOf t.node).getD 0

/-- Change a node. -/
def Launch.updNode (l : Launch) (n : Nat) (f : Node → Node) : Launch := { l with nodes := listUpdate l.nodes n f }

/-- Every idle core without an offer of its own is offered because a task is ready, in ascending logical order (R223). -/
def State.offerIdle (s : State) (pn : Nat) : State :=
  let own := (s.partAt pn).offers.filter fun o => !o.2
  let idle := (s.partAt pn).coreIds.filter fun id =>
    (s.coreAt id).bound == .idle && !(s.partAt pn).isSuper id && !(s.coreAt id).failed && !own.any (·.1 == id)
  s.updPartAt pn fun p => { p with offers := own ++ idle.map (·, true) }

/-- A task becomes ready: it is held if its domain is parked (R232), else it enters its queue with age 0, and idle cores are offered. -/
def State.readyTask (s : State) (pn : Nat) (t : Task) : State :=
  let p := s.partAt pn
  let t := { t with age := 0, waits := [] }
  if p.taskDomain t ∈ p.parked then s.updPartAt pn fun p => { p with parkedTasks := p.parkedTasks ++ [t] }
  else (s.updPartAt pn fun p => { p with ready := p.ready ++ [t] }).offerIdle pn

/-- Create a task of a node: the next number of its launch (R211). -/
def Launch.create (l : Launch) (node weight : Nat) (entry : Word) (args : List Word) (cpb : BitVec 50) (tiles : Word × Word × Word)
    (role : Option Nat) : Launch × Task :=
  ({ l.updNode node (fun n => { n with live := n.live + 1 }) with counter := l.counter + 1 },
    ⟨l.key, node, l.counter, weight, entry, args, cpb, tiles.1, tiles.2.1, tiles.2.2, role, [], 0, none, none, none, 0⟩)

/-! ## Faults of the dispatcher (R209, R222, R311) -/

/-- A fault no core takes: it is counted, recorded and given a fault decision. -/
def State.dispatcherFault (s : State) (pn key cause domain : Nat) (value : Word) : State :=
  let id := (((s.partAt pn).launch? key).map fun l => l.id.toNat).getD 0
  let s := s.updPartAt pn fun p => p.countFault key cause domain
  (s.recordDispatcher pn cause domain id value).requestDecision pn ⟨domain, cause, 0, none, none, false⟩

/-! ## Nodes (R33 to R37) -/

/-- What is still to happen to a node. -/
inductive NodeAct where
  | ready (n : Nat)
  | complete (n : Nat)
  deriving DecidableEq, Repr

/-- Change a launch of a partition. -/
def State.updLaunch (s : State) (pn key : Nat) (f : Launch → Launch) : State := s.updPartAt pn fun p => p.updLaunch key f

/-- A launch of a partition. -/
def State.launch? (s : State) (pn key : Nat) : Option Launch := (s.partAt pn).launch? key

/-- The node gives its weight back to the accumulator (R208). -/
def Launch.returnWeight (l : Launch) (n : Nat) : Launch :=
  let w := (l.nodes[n]?.map (·.weight)).getD 0
  { l.updNode n (fun x => { x with weight := 0 }) with acc := l.acc + w }

/-- The points of a grid as tile coordinates, i0 fastest (R36). -/
def gridPoints (e0 e1 e2 : Nat) : List (Word × Word × Word) :=
  (List.range (e0 * e1 * e2)).map fun k => (w64 (k % e0), w64 (k / e0 % e1), w64 (k / e0 / e1))

/-- The tasks that a LEAF or PIPE turns into: entry, tiles and role. -/
def NodeKind.work : NodeKind → List (Word × (Word × Word × Word) × Option Nat)
  | .leaf entry _ e0 e1 e2 => (gridPoints e0 e1 e2).map fun t => (entry, t, none)
  | .pipe roles => (List.zip (List.range roles.length) roles).map fun (i, e) => (e, (w64 i, 0, 0), some i)
  | .group _ | .cond _ => []

/-- Create the tasks of a list with their weights, in order. -/
def Launch.createAll (l : Launch) (node : Nat) (cpb : BitVec 50) :
    List ((Word × (Word × Word × Word) × Option Nat) × Nat) → Launch × List Task
  | [] => (l, [])
  | ((e, t, r), w) :: rest =>
    let (l, a) := l.create node w e l.args cpb t r
    let (l, ts) := l.createAll node cpb rest
    (l, a :: ts)

/-- A LEAF or PIPE becomes its tasks, numbered in an order the dispatcher chooses, and each is ready (R33, R208, R211). -/
def State.readyWork (s : State) (pn key n : Nat) (l : Launch) (node : Node) : State × List NodeAct :=
  let work := drawFrom (s.choose 1) node.kind.work.length node.kind.work
  match l.split node.weight work.length with
  | none =>
    let s := s.updLaunch pn key fun l => l.returnWeight n
    (s.dispatcherFault pn key Cause.weightExhausted node.domain 0, [.complete n])
  | some (l, ws) =>
    let (l, tasks) := (l.updNode n fun x => { x with weight := 0 }).createAll n node.cpb (work.zip ws)
    ((s.updLaunch pn key fun _ => l).forEach tasks fun s t => s.readyTask pn t, [])

/-- A GROUP hands its weight to its children and readies the first, or all (R33, R208). -/
def State.readyGroup (s : State) (pn key n : Nat) (l : Launch) (node : Node) (seq : Bool) : State × List NodeAct :=
  match l.split node.weight node.children.length with
  | none =>
    let s := s.updLaunch pn key fun l => l.returnWeight n
    (s.dispatcherFault pn key Cause.weightExhausted node.domain 0, [.complete n])
  | some (l, ws) =>
    let l := l.updNode n fun x => { x with weight := 0 }
    let l := (node.children.zip ws).foldl (fun l (c, w) => l.updNode c fun x => { x with weight := w }) l
    (s.updLaunch pn key fun _ => l, (if seq then node.children.take 1 else node.children).map .ready)

/-- A COND reads its predicate once and readies the chosen child, or completes (R33, R34). A read that a migration holds waits for its end
(R307): the node keeps its weight. -/
def State.readyCond (s : State) (pn key n : Nat) (node : Node) (pred : Word) : State × List NodeAct :=
  let none' (s : State) : State × List NodeAct := (s.updLaunch pn key fun l => l.returnWeight n, [.complete n])
  match s.dispatcherRead pn pred.toNat 4 with
  | .error (.wait _) => (s, [])
  | .error (.fault f) => none' (s.dispatcherFault pn key f.cause node.domain pred)
  | .ok v =>
    match node.children[if v = 0 then 1 else 0]? with
    | none => none' s
    | some c =>
      (s.updLaunch pn key fun l =>
        (l.updNode c fun x => { x with weight := node.weight }).updNode n fun x => { x with weight := 0 }, [.ready c])

/-- A node completes; its parent goes on to the next child or completes (R33, R37). -/
def Launch.completeNode (l : Launch) (n : Nat) : Launch × List NodeAct :=
  let l := l.updNode n fun x => { x with state := .complete }
  match (l.nodes[n]?).bind (·.parent) with
  | none => (l, [])
  | some p =>
    match l.nodes[p]? with
    | none => (l, [])
    | some pn =>
      let isDone (c : Nat) : Bool := (l.nodes[c]?.map (·.state)) == some .complete
      match pn.kind with
      | .group seq =>
        if pn.children.all isDone then (l, [.complete p])
        else if seq then (l, ((pn.children.find? fun c => !isDone c).toList).map .ready)
        else (l, [])
      | .cond _ => (l, [.complete p])
      | .pipe _ | .leaf .. => (l, [])

/-- One thing happens to a node. -/
def State.nodeAct (s : State) (pn key : Nat) (a : NodeAct) : State × List NodeAct :=
  match s.launch? pn key with
  | none => (s, [])
  | some l =>
    match a with
    | .complete n =>
      let (l, next) := l.completeNode n
      (s.updLaunch pn key fun _ => l, next)
    | .ready n =>
      match l.nodes[n]? with
      | none => (s, [])
      | some node =>
        let l := l.updNode n fun x => { x with state := .ready }
        let s := s.updLaunch pn key fun _ => l
        match node.kind with
        | .group seq => s.readyGroup pn key n l node seq
        | .cond pred => s.readyCond pn key n node pred
        | .pipe _ | .leaf .. => s.readyWork pn key n l node

/-- Everything that follows for the nodes of a launch. Each node is readied and completed once, which bounds the steps. -/
def State.runNodes (s : State) (pn key : Nat) : Nat → List NodeAct → State
  | 0, _ => s
  | _, [] => s
  | k + 1, a :: rest =>
    let (s, next) := s.nodeAct pn key a
    s.runNodes pn key k (next ++ rest)

/-- Steps enough for every node of a launch. -/
def Launch.nodeSteps (l : Launch) : Nat := 2 * l.nodes.length + 2

/-- A COND whose predicate read a migration has held: it is ready, and has not yet given its weight away. -/
def Node.condHeld (n : Node) : Bool :=
  n.state == .ready && n.weight != 0 && match n.kind with
    | .cond _ => true
    | .group _ | .pipe _ | .leaf .. => false

/-- The predicate reads that a migration held are made (R307). -/
def State.retryConds (s : State) (pn : Nat) : State :=
  s.forEach (s.partAt pn).launches fun s l =>
    let held := (List.range l.nodes.length).filter fun i => l.nodes[i]?.any Node.condHeld
    s.runNodes pn l.key (l.nodeSteps + held.length) (held.map .ready)

/-! ## Ending tasks (R210, R217, R218) -/

/-- A task ends: its weight returns, its pool slot is free, and its node completes with its last task. -/
def State.endTask (s : State) (pn key node number weight : Nat) (exited : Bool) : State :=
  match s.launch? pn key with
  | none => s
  | some l =>
    let l := { l with
      acc := l.acc + weight
      pool := l.pool.filter (· != number)
      tasks := if exited then l.tasks + 1 else l.tasks }
    let l := l.updNode node fun x => { x with live := x.live - 1 }
    let s := s.updLaunch pn key fun _ => l
    match l.nodes[node]? with
    | some x => if x.live = 0 ∧ x.state = .ready then s.runNodes pn key l.nodeSteps [.complete node] else s
    | none => s

/-- A task that never runs again ends. -/
def State.cancelTask (s : State) (pn : Nat) (t : Task) : State := s.endTask pn t.launch t.node t.number t.weight false

/-- A waiting task is cancelled. -/
def State.cancelWaiting (s : State) (pn : Nat) (t : Task) : State :=
  (s.updPartAt pn fun p => { p with waiting := p.waiting.filter fun u => !(u.launch == t.launch && u.number == t.number) }).cancelTask pn t

/-- A future is full: no task waits for it any more, and those that wait for nothing become ready (R217). -/
def State.wakeWaiters (s : State) (pn slot : Nat) : State :=
  let p := s.partAt pn
  let woken := p.waiting.filter fun t => t.waits == [slot]
  let s := s.updPartAt pn fun p => { p with
    waiting := (p.waiting.filter fun t => t.waits != [slot]).map fun t => { t with waits := t.waits.filter (· != slot) } }
  s.forEach woken fun s t => s.readyTask pn t

/-- A future is dropped: its waiters are cancelled (R217). -/
def State.cancelWaiters (s : State) (pn slot : Nat) : State :=
  s.forEach ((s.partAt pn).waiting.filter fun t => t.waits.contains slot) fun s t => s.cancelWaiting pn t

/-- Put a future. -/
def State.setFuture (s : State) (pn slot : Nat) (f : Future) : State :=
  s.updPartAt pn fun p => { p with futures := alSet slot f p.futures }

/-- Drop a future. -/
def State.dropFuture (s : State) (pn slot : Nat) (f : Future) : State :=
  (s.setFuture pn slot { f with state := .dropped }).cancelWaiters pn slot

end Sys2Proof.Machine
end

