-- ==== Sys2Proof/Machine/TaskOps.lean ====
section
/-!
DEFINITION. Task and future instructions (R13, R14, R213 to R218).
-/

namespace Sys2Proof.Machine

/-! ## The task on the acting core -/

/-- The bound task: launch, node, number, weight and role. -/
structure Running where
  key : Nat
  node : Nat
  number : Nat
  weight : Nat
  role : Option Nat
  deriving DecidableEq, Repr

/-- The task bound to a core. -/
def Core.running? (c : Core) : Option Running :=
  match c.bound with
  | .task k n m w r => some ⟨k, n, m, w, r⟩
  | .idle | .supervisor => none

/-- Give the bound task another weight. -/
def Core.setWeight (c : Core) (w : Nat) : Core :=
  match c.bound with
  | .task k n m _ r => { c with bound := .task k n m w r }
  | .idle | .supervisor => c

/-! ## Futures (R213 to R218) -/

/-- A live handle: slot and entry, owned by the launch of the bound task (R213). -/
def State.liveFuture (s : State) (h : Word) : Option (Nat × Future) :=
  let slot := (h.extractLsb' 0 16).toNat
  match s.core.running?, alGet slot s.part.futures with
  | some r, some f =>
    if h.extractLsb' 32 32 = 0 ∧ slot ≠ 0 ∧ f.gen = h.extractLsb' 16 16 ∧ f.state ≠ .empty ∧ f.launch = r.key then some (slot, f)
    else none
  | _, _ => none

/-- A live handle, or FUTURE_HANDLE. -/
def State.needFuture (s : State) (h : Word) : Except Stop (Nat × Future) :=
  match s.liveFuture h with
  | some x => .ok x
  | none => raise Cause.futureHandle h

/-- A node lies in the subtree of another. -/
def Launch.under (l : Launch) (top : Nat) : Nat → Nat → Bool
  | 0, n => n == top
  | k + 1, n => n == top || match (l.nodes[n]?).bind (·.parent) with
    | some p => l.under top k p
    | none => false

/-- A node and its ancestors. -/
def Launch.ancestors (l : Launch) : Nat → Nat → List Nat
  | 0, n => [n]
  | k + 1, n => n :: match (l.nodes[n]?).bind (·.parent) with
    | some p => l.ancestors k p
    | none => []

/-- Entries that the tasks of a node's subtree hold. -/
def Partition.heldUnder (p : Partition) (l : Launch) (top : Nat) : Nat :=
  (p.futures.filter fun e => e.2.state != .empty && e.2.launch == l.key && l.under top l.nodes.length e.2.node).length

/-- Some futures budget on the way to the root is used up (R206, R218). -/
def Partition.budgetFull (p : Partition) (l : Launch) (node : Nat) : Bool :=
  (l.ancestors l.nodes.length node).any fun n =>
    match l.nodes[n]? with
    | some x => decide (x.futures ≤ p.heldUnder l n)
    | none => false

/-- Free index slots, in order. -/
def Partition.freeSlots (p : Partition) : List Nat :=
  ((List.range 65535).map (· + 1)).filter fun k =>
    match alGet k p.futures with
    | some f => f.state == .empty
    | none => true

/-- The next generation of a slot: 65,535 is followed by 1 (R214). -/
def nextGen (g : BitVec 16) : BitVec 16 := if g = 65535 then 1 else g + 1

/-- `fu.new`: which free slot it takes is the table's choice. -/
def effFuNew (d : Reg) (s : State) : Except Stop Out :=
  let p := s.part
  match s.core.running? with
  | none => raise Cause.futureBudget 0
  | some r =>
    match p.launch? r.key with
    | none => raise Cause.futureBudget 0
    | some l => do
      raiseIf (p.budgetFull l r.node) Cause.futureBudget 0
      raiseIf (4096 ≤ (p.futures.filter fun e => e.2.state != .empty).length && s.exhausts p) Cause.syncExhausted 6
      let free := p.freeSlots
      match free[s.choose 2 0 free.length % free.length]? with
      | none => raise Cause.syncExhausted 6
      | some k =>
        let g := nextGen (((alGet k p.futures).map (·.gen)).getD 0)
        s.okay ((s.setFuture s.core.part k ⟨0, .pending, g, r.key, r.node⟩).setX d ((g ++ BitVec.ofNat 16 k).zeroExtend 64))

/-- `fu.new` (R218). -/
def execFuNew (d : Reg) (s : State) := s.perform (.fuNew d) (effFuNew d)

/-- `fu.set`. -/
def effFuSet (h v : Reg) (s : State) : Except Stop Out := do
  let (k, f) ← s.needFuture (s.x h)
  let pn := s.core.part
  match f.state with
  | .pending => s.okay ((s.setFuture pn k { f with state := .full, value := s.x v }).wakeWaiters pn k)
  | .dropped => s.okay (s.setFuture pn k { f with state := .empty, value := 0 })
  | .full | .empty => raise Cause.futureState (s.x h)

/-- `fu.set` (R218). -/
def execFuSet (h v : Reg) (s : State) := s.perform (.fuSet h v) (effFuSet h v)

/-- `fu.get`. -/
def effFuGet (d h : Reg) (s : State) : Except Stop Out := do
  let (k, f) ← s.needFuture (s.x h)
  match f.state with
  | .full => s.okay ((s.setFuture s.core.part k { f with state := .empty, value := 0 }).setX d f.value)
  | .pending | .dropped | .empty => raise Cause.futureState (s.x h)

/-- `fu.get` (R218). -/
def execFuGet (d h : Reg) (s : State) := s.perform (.fuGet d h) (effFuGet d h)

/-- What `fu.poll` reads. -/
def FutState.code : FutState → Word
  | .empty => 0 | .pending => 1 | .full => 2 | .dropped => 3

/-- `fu.poll` (R218). -/
def execFuPoll (d h : Reg) (s : State) := s.perform (.fuPoll d h) fun s =>
  s.okay (s.setX d (((s.liveFuture (s.x h)).map fun f => f.2.state.code).getD 0))

/-- `fu.drop`. -/
def effFuDrop (h : Reg) (s : State) : Except Stop Out := do
  let (k, f) ← s.needFuture (s.x h)
  let pn := s.core.part
  match f.state with
  | .pending => s.okay (s.dropFuture pn k f)
  | .full => s.okay (s.setFuture pn k { f with state := .empty, value := 0 })
  | .dropped | .empty => raise Cause.futureState (s.x h)

/-- `fu.drop` (R218). -/
def execFuDrop (h : Reg) (s : State) := s.perform (.fuDrop h) (effFuDrop h)

/-! ## Tasks (R216, R218) -/

/-- The futures that a spawn names: each non-x0 operand must be live, and one named twice counts once. -/
def State.spawnFutures (s : State) : List Reg → Except Stop (List (Nat × Future))
  | [] => .ok []
  | r :: rest =>
    if r = 0 then s.spawnFutures rest
    else match s.needFuture (s.x r) with
      | .error e => .error e
      | .ok x => match s.spawnFutures rest with
        | .error e => .error e
        | .ok l => .ok (if l.any (·.1 == x.1) then l else x :: l)

/-- The weights of spawner and child, with the launch after a borrow that is needed (R13, R216). -/
def Launch.spawnWeights (l : Launch) (w : Nat) : Option (Launch × Nat × Nat) :=
  if 2 ≤ w then some (l, w - w / 2, w / 2)
  else l.borrow.map fun l => (l, (w + 2 ^ 40) - (w + 2 ^ 40) / 2, (w + 2 ^ 40) / 2)

/-- A new task waits for its pending futures, is ready when there is none, or is cancelled by a dropped one (R216, R217). -/
def State.placeSpawned (s : State) (t : Task) (fs : List (Nat × Future)) : State :=
  let pn := s.core.part
  if fs.any fun f => f.2.state == .dropped then s.cancelTask pn t
  else
    let pending := (fs.filter fun f => f.2.state == .pending).map (·.1)
    if pending = [] then s.readyTask pn t
    else s.updPartAt pn fun p => { p with waiting := p.waiting ++ [{ t with waits := pending }] }

/-- `ts.spawn`: the checks of R216 in their order, then the child. -/
def effTsSpawn (d a b c : Reg) (s : State) : Except Stop Out := do
  let entry := s.x a
  raiseIf (entry.toNat % 4 != 0) Cause.misaligned entry
  let fs ← s.spawnFutures [b, c]
  match s.core.running? with
  | none => raise Cause.spawnFull 0
  | some r =>
    match s.part.launch? r.key with
    | none => raise Cause.spawnFull 0
    | some l =>
      raiseIf (decide (l.poolSize ≤ l.pool.length)) Cause.spawnFull 0
      match l.spawnWeights r.weight with
      | none => raise Cause.weightExhausted 0
      | some (l, mine, childs) =>
        let k := s.core.csr
        let (l, t) := l.create r.node childs entry ((List.range 4).map fun i => s.x (BitVec.ofNat 5 (14 + i))) k.cpb
          (k.tile0, k.tile1, k.tile2) none
        let l := { l with pool := l.pool ++ [t.number] }
        let s' := (s.updLaunch s.core.part r.key fun _ => l).updCore fun c => c.setWeight mine
        s.okay ((s'.setX d (w64 t.number)).placeSpawned t fs)

/-- `ts.spawn` (R216). -/
def execTsSpawn (d a b c : Reg) (s : State) := s.perform (.tsSpawn d a b c) (effTsSpawn d a b c)

/-- `ts.weight`; supervisor code has no weight, and what it reads is not stated (log 15). -/
def execTsWeight (d : Reg) (s : State) := s.perform (.tsWeight d) fun s =>
  s.okay (s.setX d (match s.core.running? with | some r => w64 r.weight | none => Config.unstated s.tick 1))

/-- Every command of a core has completed (R218). -/
def Core.commandsDone (c : Core) : Bool := c.eng.idle && c.posts.isEmpty

/-- `ts.exit` begins: inbox and q1 are emptied, and later posts are discarded (R218). -/
def Core.beginExit (c : Core) : Core :=
  if c.exiting then c
  else { c with inbox := [], posts := [], exiting := true, pushers := [], regs := { c.regs with q1 := [] } }

/-- Release the event resources that a partition's supervisor code holds, once none of it is bound (R296). -/
def State.releaseSupervisor (s : State) (pn : Nat) : State :=
  let p := s.partAt pn
  if p.coreIds.any fun id => (s.coreAt id).bound == .supervisor then s
  else s.forEach p.clusterIds fun s n => s.updCluster n fun c => c.releaseOwner 0

/-- What is bound to a core ends by `ts.exit` (R14, R296). -/
def State.exitCore (s : State) (id : Nat) : State :=
  let c := s.coreAt id
  match c.bound with
  | .task key node number weight _ => (s.vacate id true).endTask c.part key node number weight true
  | .supervisor => (s.vacate id true).releaseSupervisor c.part
  | .idle => s

/-- A core has an engine fault to take before it goes on (R311). -/
def Core.faultDue (c : Core) : Bool := !c.faults.isEmpty && !c.trap.ih

/-- `ts.exit`: it waits until every command has completed; in a gang it ends every member's task, once none of them has a fault to take
first (R247, R311). -/
def effTsExit (s : State) : Except Stop Out :=
  let s := s.updCore Core.beginExit
  let members := s.gangOf s.cur
  let ends (m : Nat) : Bool := (s.coreAt m).exiting && (s.coreAt m).commandsDone && (m == s.cur || !(s.coreAt m).faultDue)
  if members.all ends then .ok (.gone (s.forEach members State.exitCore))
  else .ok (.sleep s .exit)

/-- `ts.exit` (R218). -/
def execTsExit (s : State) := s.perform .tsExit effTsExit

end Sys2Proof.Machine
end

