-- ==== Sys2Proof/Machine/Issue.lean ====
section
/-!
DEFINITION. Issuing to the engines (R8, R12, R22 to R26, R65, R96, R143, R152), and the tile-table and inbox commands, which the
control pipeline executes itself (R105 to R111).
-/

namespace Sys2Proof.Machine

/-! ## What a vector command names (R149, R151, R160) -/

/-- The vector operations. -/
inductive VOp where
  | add | sub | mul | fma | min | max | and | or | xor | shl | shr | cmpEq | cmpLt | cmpLe | sel | cvt | exp2 | log2 | rcp
  | rsq | sig | redAdd | redMax | scanAdd | nzs | scl | fmas | bcast | perm | mov | fill | trn
  deriving DecidableEq, Repr

/-- The roles of the four pointer fields: vp1, vpb, vpc, vpd. -/
inductive VRole where
  | a | b | c | d
  deriving DecidableEq, Repr

/-- The operation and operands of a vector command. -/
def vectorParts : Instr → Option (VOp × VOps)
  | .vAdd o => some (.add, o) | .vSub o => some (.sub, o) | .vMul o => some (.mul, o) | .vFma o => some (.fma, o)
  | .vMin o => some (.min, o) | .vMax o => some (.max, o) | .vAnd o => some (.and, o) | .vOr o => some (.or, o)
  | .vXor o => some (.xor, o) | .vShl o => some (.shl, o) | .vShr o => some (.shr, o) | .vCmpEq o => some (.cmpEq, o)
  | .vCmpLt o => some (.cmpLt, o) | .vCmpLe o => some (.cmpLe, o) | .vSel o => some (.sel, o) | .vCvt o => some (.cvt, o)
  | .vExp2 o => some (.exp2, o) | .vLog2 o => some (.log2, o) | .vRcp o => some (.rcp, o) | .vRsq o => some (.rsq, o)
  | .vSig o => some (.sig, o) | .vRedAdd o => some (.redAdd, o) | .vRedMax o => some (.redMax, o)
  | .vScanAdd o => some (.scanAdd, o) | .vNzs o => some (.nzs, o) | .vScl o => some (.scl, o) | .vFmas o => some (.fmas, o)
  | .vBcast o => some (.bcast, o) | .vPerm o => some (.perm, o) | .vMov o => some (.mov, o) | .vFill o => some (.fill, o)
  | .vTrn o => some (.trn, o)
  | _ => none

/-- The format of the elements. -/
def vFmt (o : VOps) : Fmt := o.head.fmt.getD .i8

/-- The source format: that of `v.cvt`, else the command's. -/
def vSrcFmt (k : VOp) (o : VOps) : Fmt := if k = .cvt then o.sfmt.getD .i8 else vFmt o

/-- A `v.cvt` from or to a block-scaled format. -/
def vBlock (k : VOp) (o : VOps) : Bool := k == .cvt && ((vFmt o).isBlock || (vSrcFmt k o).isBlock)

/-- Number of elements, or of blocks. -/
def vCount (o : VOps) : Nat := o.head.count.toNat

/-- The pointer of a role. -/
def vPointer (o : VOps) : VRole → Reg4
  | .a => o.vp1 | .b => o.vpb | .c => o.vpc | .d => o.vpd

/-- Roles that are read. -/
def VOp.reads (k : VOp) (o : VOps) : List VRole :=
  match k with
  | .add | .sub | .mul | .min | .max | .and | .or | .xor | .shl | .shr | .cmpEq | .cmpLt | .cmpLe | .perm => [.a, .b]
  | .fma | .sel => [.a, .b, .c]
  | .cvt => if (vSrcFmt k o).isBlock then [.a, .c] else [.a]
  | .exp2 | .log2 | .rcp | .rsq | .sig | .redAdd | .redMax | .scanAdd | .nzs | .scl | .mov | .trn => [.a]
  | .fmas => [.a, .d]
  | .bcast | .fill => []

/-- Roles that are written. -/
def VOp.writes (k : VOp) (o : VOps) : List VRole :=
  match k with
  | .cmpEq | .cmpLt | .cmpLe => [.c]
  | .cvt => if (vFmt o).isBlock then [.d, .c] else [.d]
  | .redAdd | .redMax => []
  | .nzs => [.d, .c]
  | .bcast | .fill => [.a]
  | .add | .sub | .mul | .fma | .min | .max | .and | .or | .xor | .shl | .shr | .sel | .exp2 | .log2 | .rcp | .rsq | .sig
  | .scanAdd | .scl | .fmas | .perm | .mov | .trn => [.d]

/-- Bits of the widest element format among the operands. The index run of `v.nzs` does not count (R165). -/
def VOp.widest (k : VOp) (o : VOps) : Nat :=
  if k = .perm then Nat.max 8 (vFmt o).width else Nat.max (vFmt o).width (vSrcFmt k o).width

/-- Elements of a step (R151). -/
def VOp.perStep (k : VOp) (o : VOps) : Nat := if vBlock k o then 32 else 512 / k.widest o

/-- Number of steps (R151). -/
def VOp.steps (k : VOp) (o : VOps) : Nat :=
  if k = .trn then vCount o else (vCount o + k.perStep o - 1) / k.perStep o

/-- The pointers a command names, each once. -/
def VOp.named (k : VOp) (o : VOps) : List Reg4 := ((k.reads o ++ k.writes o).map (vPointer o)).eraseDups

/-- A pointer that advances: all but those `v.nzs` writes through (R151, R165). -/
def VOp.advances (k : VOp) (o : VOps) (r : Reg4) : Bool := k != .nzs || (r != o.vpd && r != o.vpc)

/-- A pointer after n advances. -/
def VPtr.advance (p : VPtr) (n : Nat) : VPtr := { p with offset := p.offset + BitVec.ofInt 20 (n * p.stride.toInt) }

/-- The issue value of a pointer, and how often `v.ptr` has written it. -/
def Core.vpAtIssue (c : Core) (r : Reg4) : VPtr × Nat := (c.regs.vpIssue[r.toNat]'r.isLt, c.regs.vpGen[r.toNat]'r.isLt)

/-- Capture the issue values of the pointers a command names, and advance them (R152). -/
def Core.capturePointers (c : Core) (k : VOp) (o : VOps) : List (Reg4 × VPtr × Nat) × Core :=
  (k.named o).foldl (fun (acc : List (Reg4 × VPtr × Nat) × Core) r =>
    let (v, g) := acc.2.vpAtIssue r
    let v' := if k.advances o r then v.advance (k.steps o) else v
    (acc.1 ++ [(r, v, g)],
      { acc.2 with regs := { acc.2.regs with vpIssue := acc.2.regs.vpIssue.set r.toNat v' r.isLt } })) ([], c)

/-! ## The issue patch (R22, R66, R254) -/

/-- The patched words of a command, and whether the patch or the count does not fit. -/
def patchWords (w : CmdWords) (rs1 : Word) (count : Option Word) (add5 add6 : Int) : CmdWords × Bool :=
  let mode := (w.w0.extractLsb' 14 2).toNat
  let sum : Int := (w.w1.extractLsb' 0 40).toNat + rs1.toInt * (if mode = 2 then 64 else 1) + add5
  let w1 := w.w1.extractLsb' 40 24 ++ BitVec.ofInt 40 sum
  let w1 := w1.extractLsb' 8 56 ++ BitVec.ofInt 8 ((w1.extractLsb' 0 8).toNat + add6)
  let carry := mode == 1 && (decide (sum < 0) || decide (2 ^ 40 ≤ sum))
  let c : BitVec 32 := match count with
    | none => w.w0.extractLsb' 32 32
    | some v => if v.toNat < 2 ^ 32 then v.extractLsb' 0 32 else 0xFFFFFFFF
  ({ w with w0 := c ++ w.w0.extractLsb' 0 32, w1 := w1 }, carry || match count with
    | some v => decide (2 ^ 32 ≤ v.toNat)
    | none => false)

/-- The four words of 32 bytes. -/
def commandWords (v : Nat) : CmdWords :=
  ⟨BitVec.ofNat 64 v, BitVec.ofNat 64 (v >>> 64), BitVec.ofNat 64 (v >>> 128), BitVec.ofNat 64 (v >>> 192)⟩

/-- The region register that a word captures, if it names one (R22). -/
def wordsRegion (w : CmdWords) (c : Core) : Region := if w.w0.getLsbD 20 then c.bx (w.w0.extractLsb' 16 4) else Region.null

/-- A descriptor register that w1 names at a bit. -/
def wordsTd (w : CmdWords) (c : Core) (lo : Nat) : Td := c.td (w.w1.extractLsb' lo 4)

/-! ## Numbers and rings (R26, R318) -/

/-- Take the next issue sequence number, with its ring entry. -/
def Core.number (c : Core) (eng : BitVec 3) (index : BitVec 12) (mx : Bool) (st : IssueState) : Core :=
  { c with seqctr := c.seqctr + 1, ring := ⟨c.seqctr, eng, index, mx, st⟩ :: c.ring.take 63 }

/-- The state of an issue changes. -/
def Core.mark (c : Core) (seq : BitVec 16) (st : IssueState) : Core :=
  { c with ring := c.ring.map fun i => if i.seq = seq then { i with state := st } else i }

/-- An engine with a fault pending discards what is issued to it (R312). -/
def Core.dead (c : Core) (e : BitVec 3) : Bool := c.faults.any fun f => f.eng == e

/-! ## Tiles (R105 to R108) -/

/-- The tile of the own scratchpad that a copy at an address addresses (R106). -/
def Core.tileAt (c : Core) (id : Nat) (addr : Word) : Option (BitVec 8) :=
  let w := windowOf id addr.toNat
  if onChip addr.toNat ∧ w.1 = id ∧ w.2 < Config.spadBytes then
    ((List.range 256).find? fun t =>
      let e := c.tile t
      e.state != .empty && e.off.toNat == w.2 && !(e.state == .draining && e.rel)).map (BitVec.ofNat 8)
  else none

/-- Change a tile. -/
def Core.updTile (c : Core) (t : BitVec 8) (f : Tile → Tile) : Core := c.setTile t.toNat (f (c.tile t.toNat))

/-- A copy that will move n cells is issued into a tile (R107). -/
def Tile.expect (t : Tile) (n : Nat) : Tile :=
  if n = 0 then t
  else { t with
    state := if t.state = .ready then .filling else t.state
    remaining := t.remaining + BitVec.ofNat 32 n }

/-- Cells written, suppressed or withdrawn (R107). -/
def Tile.arrive (t : Tile) (n : Nat) : Tile :=
  let r := t.remaining.toNat - n
  { t with
    remaining := BitVec.ofNat 32 r
    state := if t.state = .filling ∧ r = 0 then .ready else t.state }

/-- The drain of a tile ends (R107). A tile that it releases is bound no more: its other fields are zero from then on (log 116). -/
def Tile.undrain (t : Tile) : Tile :=
  if t.state ≠ .draining then t
  else if 0 < t.remaining.toNat then { t with state := .filling, rel := false }
  else if t.rel then Tile.empty
  else { t with state := .ready, rel := false }

/-- Every command of the engines, queued, running or waiting to post. -/
def Engines.commands (g : Engines) : List Cmd :=
  g.vq ++ g.cq ++ g.mq ++ g.kq ++ g.dq ++ (g.vrun.map (·.cmd)).toList ++ g.copies.map (·.cmd) ++
    (g.mrun.map fun r => match r with | .product p => p.cmd | .posting c _ _ => c).toList ++
    (g.krun.map (·.cmd)).toList ++ (g.drun.map (·.cmd)).toList

/-- The matrix operand handle of a tile of a core (R134). -/
def tileHandle (core : Nat) (t : BitVec 8) : Word := w64 (coreNo core * 256 + t.toNat)

/-- The core whose tile a handle names, in a core's cluster (R134). -/
def handleOwner (id : Nat) (h : Word) : Nat := clusterOf id * 16 + (h.extractLsb' 8 4).toNat

/-- The tile a handle names. -/
def State.handleTile (s : State) (id : Nat) (h : Word) : Tile := (s.coreAt (handleOwner id h)).tile (h.extractLsb' 0 8).toNat

/-- A command names a tile of its own core (R108). -/
def Cmd.names (c : Cmd) (id : Nat) (t : BitVec 8) : Bool :=
  (c.fill.map (·.1)) == some t || c.from? == some t || c.ptrs.any (fun p => p.2.1.tile == t) ||
    match c.mx with
    | some m => m.a == tileHandle id t || m.b == tileHandle id t
    | none => false

/-- A joint product reads a tile of a core (R136). -/
def State.productReads (s : State) (id : Nat) (t : BitVec 8) : Bool :=
  (clusterCores (clusterOf id)).any fun k =>
    match (s.coreAt k).eng.mrun with
    | some (.product r) => (match r.cmd.mx with | some m => m.a == tileHandle id t || m.b == tileHandle id t | none => false)
    | some (.posting ..) | none => false

/-! ## Tile-table and inbox commands (R108, R111) -/

/-- Where a command executed by the control pipeline was issued from. -/
structure IssueAt where
  eng : BitVec 3
  index : BitVec 12
  pool : Word
  deriving DecidableEq, Repr

/-- BAD_COMMAND at the issue instruction, which takes no number (R26, R69). -/
def badAt {α : Type} (p : IssueAt) : Except Stop α := .error (.fault ⟨Cause.badCommand, p.pool, 0, p.eng, true, none⟩)

/-- BAD_COMMAND under a condition. -/
def badIf (p : IssueAt) (b : Bool) : Except Stop Unit := if b then badAt p else .ok ()

/-- ILLEGAL_INSTRUCTION at the issue of a tile-table or inbox command in a body of an overwriting loop (R256, R314). -/
def State.overwriteForbids (s : State) (p : IssueAt) : Except Stop Unit :=
  if s.core.overwriting then .error (.fault ⟨Cause.illegal, 0, 0, p.eng, true, none⟩) else .ok ()

/-- The command has executed and takes its number (R25, R26). -/
def State.executed (s : State) (p : IssueAt) (s' : State) : Except Stop Out :=
  s.okay (s'.updCore fun c => c.number p.eng p.index false .complete)

/-- Two allocations overlap. -/
def Tile.overlaps (t : Tile) (off len : Nat) : Bool :=
  t.state != .empty && decide (t.off.toNat < off + len) && decide (off < t.off.toNat + t.len.toNat)

/-- `tt.bind`. -/
def effTtBind (p : IssueAt) (o : TtBind) (s : State) : Except Stop Out := do
  s.overwriteForbids p
  let c := s.core
  badIf p ((c.tile o.tile.toNat).state != .empty || (List.range 256).any fun t => (c.tile t).overlaps o.off.toNat o.len.toNat)
  s.executed p (s.updCore fun c => c.setTile o.tile.toNat ⟨.ready, false, o.off, o.len, o.rows, o.lo0, 0⟩)

/-- A region's dimension-0 range, from the hull of its cells; `none` when it holds none (R78, R108). -/
def Region.rowRange (r : Region) (lens : List Nat) : Option (Int × Int) :=
  match r.cellHull lens with
  | some (d0 :: _) => some (d0.lo, d0.lo + d0.ext - 1)
  | _ => none

/-- A range of dimension-0 coordinates touches a bound tile (R108). -/
def Tile.touched (t : Tile) (lo hi : Int) : Bool :=
  t.state != .empty && (t.rows == 0 || (decide (t.lo0.toInt ≤ hi) && decide (lo ≤ t.lo0.toInt + t.rows.toNat - 1)))

/-- A fault at the issue of a command that the control pipeline executes names the command's engine field and `sqnext` (R26, R314). -/
def IssueAt.faults {α : Type} (p : IssueAt) : Except Stop α → Except Stop α
  | .error (.fault f) => .error (.fault { f with eng := p.eng, numbered := true })
  | r => r

/-- `tt.wait`. A ragged region's lengths are read as scalar loads (R87). -/
def effTtWait (p : IssueAt) (r : Region) (o : TtWait) (s : State) : Except Stop Out := do
  let (lens, s) ← p.faults (s.lengthsOf r)
  match r.rowRange lens with
  | none => s.executed p s
  | some (lo, hi) =>
    waitIf ((List.range o.n.toNat).any fun k =>
      let t := s.core.tile (o.tile.toNat + k)
      t.touched lo hi && t.state != .ready) .counted
    s.executed p s

/-- `tt.rel`: the tile is bound no more, and its other fields are zero from then on (log 116). -/
def effTtRel (p : IssueAt) (o : TtTile) (s : State) : Except Stop Out := do
  s.overwriteForbids p
  let t := s.core.tile o.tile.toNat
  badIf p (t.state == .empty)
  waitIf (t.state != .ready || s.productReads s.cur o.tile || s.core.eng.commands.any fun c => c.names s.cur o.tile) .counted
  s.executed p (s.updCore fun c => c.setTile o.tile.toNat Tile.empty)

/-- `tt.stat`. -/
def effTtStat (p : IssueAt) (o : TtTile) (s : State) : Except Stop Out :=
  s.executed p (s.setX o.rd (w64 (s.core.tile o.tile.toNat).image))

/-- The operation that posted a message (R109, R183). An accumulator command and a joint product share an engine code. -/
def Msg.key (m : Msg) : OpKey := ⟨if m.eng = 2 then 5 else m.eng.toNat, m.seq, m.source⟩

/-- `ib.deq`: it acquires the writes of the operation that posted the entry, and a landed copy becomes visible (R50, R111). -/
def effIbDeq (p : IssueAt) (o : IbOps) (s : State) : Except Stop Out := do
  s.overwriteForbids p
  match s.core.inbox with
  | [] => .error (.wait .counted)
  | m :: t =>
    s.executed p (((s.updCore fun c => { c with inbox := t }.takeLanding m).dequeued m.key).setX o.rd (w64 m.image))

/-- `ib.peek`: all ones where no entry is. -/
def effIbPeek (p : IssueAt) (o : IbOps) (s : State) : Except Stop Out :=
  s.executed p (s.setX o.rd ((s.core.inbox[o.i.toNat]?).elim (BitVec.allOnes 64) fun m => w64 m.image))

/-- The pool entry that a command given by itself stands for: entry 0 (log 21). -/
def State.poolHead (s : State) (e : BitVec 3) : IssueAt := ⟨e, 0, w64 (s.core.csr.cpb.toNat * 32)⟩

/-- The region register of a head. -/
def State.headRegion (s : State) (h : CmdHead) : Region := (h.region.map s.bx).getD Region.null

/-- `tt.bind` (R108). -/
def execTtBind (o : TtBind) (s : State) := s.perform (.ttBind o) (effTtBind (s.poolHead 5) o)

/-- `tt.wait` (R108). -/
def execTtWait (o : TtWait) (s : State) := s.perform (.ttWait o) (effTtWait (s.poolHead 5) (s.headRegion o.head) o)

/-- `tt.rel` (R108). -/
def execTtRel (o : TtTile) (s : State) := s.perform (.ttRel o) (effTtRel (s.poolHead 5) o)

/-- `tt.stat` (R108). -/
def execTtStat (o : TtTile) (s : State) := s.perform (.ttStat o) (effTtStat (s.poolHead 5) o)

/-- `ib.deq` (R111). -/
def execIbDeq (o : IbOps) (s : State) := s.perform (.ibDeq o) (effIbDeq (s.poolHead 6) o)

/-- `ib.peek` (R111). -/
def execIbPeek (o : IbOps) (s : State) := s.perform (.ibPeek o) (effIbPeek (s.poolHead 6) o)

/-- A command of engine field 101 or 110, executed at its issue (R25). -/
def State.commandNow (p : IssueAt) (r : Region) (i : Decoding) (s : State) : Except Stop Out :=
  match i with
  | .ok (.ttBind o) => effTtBind p o s
  | .ok (.ttWait o) => effTtWait p r o s
  | .ok (.ttRel o) => effTtRel p o s
  | .ok (.ttStat o) => effTtStat p o s
  | .ok (.ibDeq o) => effIbDeq p o s
  | .ok (.ibPeek o) => effIbPeek p o s
  | _ => badAt p

/-! ## What a command captures and changes at issue -/

/-- `m.cvt` with descriptors that R148 takes; others raise BAD_COMMAND. -/
def mCvtTakes (o : MCvt) (td tds : Td) : Bool :=
  td.rank == 2 && o.head.fmt == td.fmt && (!td.format.isBlock || (tds.rank == 2 && tds.fmt == some .e8))

/-- `d.dec` with descriptors that may be used; others raise BAD_COMMAND (R42). -/
def dDecTakes (o : DDec) (td tds : Td) : Bool := td.valid && (o.head.fmt != some .k8 || tds.valid)

/-- An extent that a descriptor gives; one at or beyond the rank is ignored (R39). -/
def Td.given (t : Td) (i : Nat) : Nat := if i < t.rank.toNat then t.ext i else 0

/-- Number of elements that a command rounds stochastically (R46): none where the descriptors make it a BAD_COMMAND; for `d.dec` the
captured extents give it, whatever comes of the decode (R356), none where the rank gives no H and W (log 120). -/
def srElements (i : Instr) (td tds : Td) : Nat :=
  match i with
  | .mCvt o => if o.head.round = .sr ∧ mCvtTakes o td tds then 32 * o.head.count.toNat else 0
  | .dDec o => if o.head.round = .sr ∧ dDecTakes o td tds then 3 * td.given 1 * td.given 2 else 0
  | i => match vectorParts i with
    | some (k, o) => if o.head.round = .sr then (if k = .redAdd then 1 else vCount o) else 0
    | none => 0

/-- A displacement in bytes. -/
def dispOf (d : BitVec 40) : Word := d.signExtend 64

/-- The fill address of a command with the cells it will move, and the address of its source (R106, R107, R148, R272). -/
def tileUse (i : Instr) (r : Region) (lens : List Nat) (td1 td2 : Td) : Option (Word × Nat) × Option Word :=
  let cells (h : CmdHead) : Nat := min h.count.toNat (boxesCells ((r.moveBoxes lens).map (·.1)))
  let rows (h : CmdHead) : Nat := h.count.toNat * ((List.range (td1.rank.toNat - 1)).map fun k => td1.ext (k + 1)).foldl (· * ·) 1
  let own (off : BitVec 20) : Word := w64 (aliasBase + off.toNat)
  match i with
  | .cpRg o => (some (td1.base + dispOf o.disp, cells o.head), some (td2.base + dispOf o.sdisp))
  | .cpFill o => (some (td1.base + dispOf o.disp, cells o.head), none)
  | .cpGx o | .cpSx o => (some (td1.base + dispOf o.disp, rows o.head), some td2.base)
  | .mLd o => (none, some (td1.base + dispOf o.disp))
  | .mCvt o => (some (td1.base + dispOf o.disp, 32 * o.head.count.toNat), none)
  | .coRed o | .coBcast o => (some (own o.dst, o.head.count.toNat), some (own o.src))
  | .coAllr o => (some (own o.buf, o.head.count.toNat), some (own o.buf))
  | .spSend o => (none, some (own o.src))
  | .dDec _ => (some (td1.base, td1.given 0 * td1.given 1 * td1.given 2), none)
  | _ => (none, none)

/-- n bytes of a core's scratchpad hold an uncorrectable one. -/
def State.spadPoisoned (s : State) (id off n : Nat) : Bool := s.poisoned (windowAddr id off) n

/-- Log uncorrectable elements that a command of a core read. -/
def State.logErrors (s : State) (id : Nat) (seq : BitVec 16) (l : List DataError) : State :=
  if l = [] then s
  else s.updCoreAt id fun c => l.foldl (fun c e => c.logError seq (s.clock) e) c

/-- Entries of a length table as a command of an engine reads them, each as a scalar load does; an uncorrectable one is a free value,
and is logged (R87, R322, log 22). -/
def State.issueEntries (s : State) (e : BitVec 3) (r : Region) : List Nat → List Nat × State
  | [] => ([], s)
  | k :: rest =>
    let off := (r.entryOff k).toNat
    let (n, s) :=
      if s.spadPoisoned s.cur off 2 then
        ((Config.unstated s.tick (16 + k)).toNat % 65536,
          s.logErrors s.cur s.core.seqctr [⟨e.toNat, false, w64 (aliasBase + off)⟩])
      else s.streamRead (.spad s.cur off) 2
    let (l, s) := s.issueEntries e r rest
    (n :: l, s)

/-- Line lengths of a ragged region at the issue of a command; `none` where an entry lies outside the scratchpad (R87, log 12). -/
def State.lengthsAtIssue (s : State) (e : BitVec 3) (r : Region) : Option (List Nat) × State :=
  match r.kind with
  | .ragged => match r.lengths s.core.spad with
    | none => (none, s)
    | some l =>
      let (l, s) := s.issueEntries e r (List.range l.length)
      (some l, s)
  | .dense | .strided => (some [], s)

/-- The command as it enters its queue, before pointers are captured. -/
def State.captured (s : State) (w : CmdWords) (bad : Bool) (pool : Word) : Cmd :=
  let c := s.core
  let r := wordsRegion w c
  { words := w, mx := none, seq := c.seqctr, pool := pool, bad := bad, sup := c.sup, region := r, lens := (s.lengthsAtIssue 0 r).1,
    td1 := wordsTd w c 40, td2 := wordsTd w c 44, ptrs := [], emptyTile := none, ctr0 := c.csr.rngctr, lcore := s.lcore, fill := none,
    from? := none }

/-- What the issue of a legal command does besides queueing it: `rngctr`, pointers, and its tiles (R46, R107, R152). -/
def Core.enter (c : Core) (id : Nat) (i : Instr) (cmd : Cmd) : Core × Cmd :=
  let (fill, src) := tileUse i cmd.region (cmd.lens.getD []) cmd.td1 cmd.td2
  let fillT := fill.bind fun (a, n) => (c.tileAt id a).map fun t => (t, n)
  let srcT := src.bind (c.tileAt id)
  let (ptrs, c) := match vectorParts i with
    | some (k, o) => c.capturePointers k o
    | none => ([], c)
  let c := match fillT with
    | some (t, n) => c.updTile t fun e => e.expect n
    | none => c
  (c, { cmd with
    ptrs := ptrs
    emptyTile := (ptrs.find? fun p => (c.tile p.2.1.tile.toNat).state == .empty).map fun p => p.2.1.offset
    fill := fillT
    from? := srcT })

/-- Put a command at the tail of a queue. -/
def Core.enqueue (c : Core) (e : BitVec 3) (cmd : Cmd) : Core := { c with eng := c.eng.setQueue e (c.eng.queue e ++ [cmd]) }

/-- Queue a patched command; a dead engine discards it (R22, R312). -/
def State.queueCommand (s : State) (e : BitVec 3) (index : BitVec 12) (cmd : Cmd) : State :=
  let i := decodeCommand e cmd.words
  let sr := match i with
    | .ok i => if cmd.bad then 0 else srElements i cmd.td1 cmd.td2
    | .error _ => 0
  s.updCore fun c =>
    let dead := c.dead e
    let c := { c.number e index false (if dead then .discarded else .queued) with
      csr := { c.csr with rngctr := c.csr.rngctr + w64 sr } }
    if dead then c
    else match i with
      | .ok i =>
        if cmd.bad then c.enqueue e cmd
        else
          let (c, cmd) := c.enter s.cur i cmd
          c.enqueue e cmd
      | .error _ => c.enqueue e cmd

/-- A fault at an issue reports `sqnext` (R26). -/
def numbered {α : Type} : Except Stop α → Except Stop α
  | .error (.fault f) => .error (.fault { f with numbered := true })
  | r => r

/-- The issue of the command at a pool index. -/
def effEngineIssue (e : BitVec 3) (index : BitVec 12) (a b : Reg) (s : State) : Except Stop Out := do
  let c := s.core
  let pool := w64 (c.csr.cpb.toNat * 32) + w64 (32 * index.toNat)
  let (raw, s') ← numbered (s.fetch pool.toNat 32)
  let l := s.loop
  let (w, bad) := patchWords (commandWords raw) (s.x a) (if b = 0 then none else some (s.x b)) (l.addend c.pc 5) (l.addend c.pc 6)
  if 5 ≤ e.toNat then
    badIf ⟨e, index, pool⟩ bad
    s'.commandNow ⟨e, index, pool⟩ (wordsRegion w c) (decodeCommand e w)
  else
    waitIf (!c.dead e && c.eng.free e == 0) .counted
    let cmd := s'.captured w bad pool
    s.okay ((if bad || c.dead e then s' else (s'.lengthsAtIssue e cmd.region).2).queueCommand e index cmd)

/-- An issue instruction (R8, R22). -/
def execEngineIssue (e : BitVec 3) (index : BitVec 12) (a b : Reg) (s : State) :=
  s.perform (.engineIssue e index a b) (effEngineIssue e index a b)

/-! ## Matrix instructions (R11, R12, R143) -/

/-- Issue a matrix instruction: its operands and `mxrow` are read now. -/
def effMx (pair : Pair) (acd : AccReg) (a b : Reg) (m : MxMode) (f : Reg) (s : State) : Except Stop Out := do
  let c := s.core
  waitIf (!c.dead 2 && c.eng.free 2 == 0) .counted
  let unbound (h : Word) : BitVec 2 := if (s.handleTile s.cur h).state = .empty then 1 else 0
  let mx : MxCmd := ⟨pair, m, acd, s.x a, s.x b, s.f f, c.csr.mxrow, unbound (s.x a) ||| unbound (s.x b) <<< 1⟩
  let cmd : Cmd := { s.captured ⟨0, 0, 0, 0⟩ false 0 with mx := some mx }
  s.okay (s.updCore fun c =>
    if c.dead 2 then c.number 2 0 true .discarded else (c.number 2 0 true .queued).enqueue 2 cmd)

/-- `mx.k8k8` (R143). -/
def execMxK8k8 (acd : AccReg) (a b : Reg) (m : MxMode) (f : Reg) (s : State) :=
  s.perform (.mxK8k8 acd a b m f) (effMx .k8k8 acd a b m f)

/-- `mx.k4k4` (R143). -/
def execMxK4k4 (acd : AccReg) (a b : Reg) (m : MxMode) (f : Reg) (s : State) :=
  s.perform (.mxK4k4 acd a b m f) (effMx .k4k4 acd a b m f)

/-- `mx.k8k4` (R143). -/
def execMxK8k4 (acd : AccReg) (a b : Reg) (m : MxMode) (f : Reg) (s : State) :=
  s.perform (.mxK8k4 acd a b m f) (effMx .k8k4 acd a b m f)

/-- `mx.k4k8` (R143). -/
def execMxK4k8 (acd : AccReg) (a b : Reg) (m : MxMode) (f : Reg) (s : State) :=
  s.perform (.mxK4k8 acd a b m f) (effMx .k4k8 acd a b m f)

/-- `mx.i8i8` (R143). -/
def execMxI8i8 (acd : AccReg) (a b : Reg) (m : MxMode) (f : Reg) (s : State) :=
  s.perform (.mxI8i8 acd a b m f) (effMx .i8i8 acd a b m f)

/-- `mx.i4i4` (R143). -/
def execMxI4i4 (acd : AccReg) (a b : Reg) (m : MxMode) (f : Reg) (s : State) :=
  s.perform (.mxI4i4 acd a b m f) (effMx .i4i4 acd a b m f)

/-- `mx.f16f16` (R143). -/
def execMxF16f16 (acd : AccReg) (a b : Reg) (m : MxMode) (f : Reg) (s : State) :=
  s.perform (.mxF16f16 acd a b m f) (effMx .f16f16 acd a b m f)

/-- `mx.b16b16` (R143). -/
def execMxB16b16 (acd : AccReg) (a b : Reg) (m : MxMode) (f : Reg) (s : State) :=
  s.perform (.mxB16b16 acd a b m f) (effMx .b16b16 acd a b m f)

end Sys2Proof.Machine
end

