-- ==== Sys2Proof/Machine/Engine.lean ====
section
/-!
DEFINITION. What the engines share: how a command's fault discards it and what is younger (R312), uncorrectable elements (R322), and
how messages, tile arrivals and q1 entries come in (R107, R110, R158).
-/

namespace Sys2Proof.Machine

/-- The engines of a core move: something is bound and nothing has stopped them (R316, R324, R333, R372). -/
def Core.enginesRun (c : Core) : Bool := c.bound != .idle && c.held == .no && !c.stopped && !c.halted && !c.failed

/-- Messages, arrivals and q1 entries come in at a core: it is not halted, and a gang switch has not passed its quiet phase (R324, R325,
R333). -/
def State.lands (s : State) (id : Nat) : Bool :=
  let c := s.coreAt id
  !c.halted && (!c.stopped || (s.partAt c.part).phase == .stop)

/-- A queued command decodes to an instruction. -/
def Cmd.is (c : Cmd) (e : BitVec 3) (i : Instr) : Bool :=
  match decodeCommand e c.words with
  | .ok j => c.mx.isNone && j == i
  | .error _ => false

/-- The fault of a command: cause and value. -/
abbrev CmdFault := Cause × Word

/-! ## Discarding (R104, R107, R312) -/

/-- A discarded command gives the cells it has not moved back to its fill tile, and ends the drain it began. -/
def Core.drop (c : Core) (cmd : Cmd) (delivered : Nat) (started : Bool) : Core :=
  let c := c.mark cmd.seq .discarded
  let c := match cmd.fill with
    | some (t, n) => c.updTile t fun e => e.arrive (n - delivered)
    | none => c
  match cmd.from?, started with
  | some t, true => c.updTile t Tile.undrain
  | _, _ => c

/-- Discard queued commands. -/
def Core.dropAll (c : Core) (l : List Cmd) : Core := l.foldl (fun c cmd => c.drop cmd 0 false) c

/-- The vector engine discards all it holds; issue values go back to the registers (R152). -/
def Core.dropVector (c : Core) : Core :=
  let c := c.dropAll (c.eng.vq ++ (c.eng.vrun.map (·.cmd)).toList)
  { c with eng := { c.eng with vq := [], vrun := none }, regs := { c.regs with vpIssue := c.regs.vp } }

/-- The core whose register window a command copies into (R101). -/
def State.regTarget? (s : State) (id : Nat) (cmd : Cmd) : Option Nat :=
  match decodeCommand 0 cmd.words with
  | .ok (.cpReg o) => some ((s.partAt (s.coreAt id).part).phys o.core.toNat)
  | _ => none

/-- The arrival message of a copy of a core still waits at its target. -/
def State.arrivalWaits (s : State) (id : Nat) (cmd : Cmd) : Bool :=
  match s.regTarget? id cmd with
  | some t => (s.coreAt t).posts.any fun q => q.arrival && q.seq == cmd.seq && q.source == BitVec.ofNat 12 cmd.lcore
  | none => false

/-- What a discarded copy has sent to its target and nothing has posted is withdrawn (R104). -/
def State.withdrawArrival (s : State) (id : Nat) (cmd : Cmd) : State :=
  match s.regTarget? id cmd with
  | some t =>
    if s.arrivalWaits id cmd then s.updCoreAt t fun c =>
      { c with
        posts := c.posts.filter fun q => !(q.arrival && q.seq == cmd.seq && q.source == BitVec.ofNat 12 cmd.lcore)
        landings := c.landings.filter fun l => !(l.seq == cmd.seq && l.source == BitVec.ofNat 12 cmd.lcore) }
    else s
  | none => s

/-- A copy in flight at or after a number goes with it: it posts no completion message (R104, R312). The arrival message of a `cp.reg`
that has posted, and its words, stand at the target (log 107). -/
def State.goesToo (s : State) (id : Nat) (seq : BitVec 16) (r : CopyRun) : Bool :=
  decide ((s.coreAt id).ageOf r.cmd.seq ≤ (s.coreAt id).ageOf seq)

/-- The copy engine of a core discards its queue and the copies in flight at or after a number (R104). -/
def State.dropCopies (s : State) (id : Nat) (seq : BitVec 16) : State :=
  let gone := (s.coreAt id).eng.copies.filter (s.goesToo id seq)
  let s := s.forEach gone fun s r => s.withdrawArrival id r.cmd
  s.updCoreAt id fun c =>
    let kept := c.eng.copies.filter fun r => !gone.contains r
    let c := gone.foldl (fun c r => c.drop r.cmd r.pos true) (c.dropAll c.eng.cq)
    { c with eng := { c.eng with cq := [], copies := kept } }

/-- The matrix engine of one core discards all it holds, V and the planes as they stand (R133, R146). -/
def Core.dropMatrix (c : Core) : Core :=
  let c := c.dropAll (c.eng.mq ++ (match c.eng.mrun with
    | some (.product r) => [r.cmd]
    | some (.posting cmd _ _) => [cmd]
    | none => []))
  { c with eng := { c.eng with mq := [], mrun := none, posted := false } }

/-- The collective engine of one core discards all it holds. -/
def Core.dropCollective (c : Core) : Core :=
  let c := c.dropAll c.eng.kq
  let c := match c.eng.krun with
    | some r => c.drop r.cmd r.written true
    | none => c
  { c with eng := { c.eng with kq := [], krun := none } }

/-- The media engine discards what a core queued. -/
def Core.dropMedia (c : Core) : Core :=
  let c := c.dropAll (c.eng.dq ++ (c.eng.drun.map (·.cmd)).toList)
  { c with eng := { c.eng with dq := [], drun := none } }

/-- The engine fault of a command, pending until a boundary (R311). -/
def Core.pendFault (c : Core) (e : BitVec 3) (seq : BitVec 16) (f : CmdFault) : Core :=
  { c with faults := c.faults ++ [⟨f.1, f.2, e, seq⟩] }

/-- BAD_COMMAND of a command (R69, R313). -/
def badCommand (cmd : Cmd) : CmdFault := (Cause.badCommand, cmd.pool)

/-! ## Messages, arrivals and q1 (R107, R110, R156, R158) -/

/-- A completion message of a command. -/
def Cmd.message (c : Cmd) (e : BitVec 3) (status : Nat) (tag : BitVec 8) (cells : Nat) : Msg :=
  ⟨e, false, BitVec.ofNat 4 status, c.seq, tag, BitVec.ofNat 32 cells, BitVec.ofNat 12 c.lcore⟩

/-- The vector command is complete: pointers, flags and its ring entry (R10, R130, R152). -/
def Core.finishVector (c : Core) (r : VRun) : Core :=
  let vp := r.ptrs.foldl (fun (vp : Vector VPtr 16) (p : BitVec 4 × VPtr × Nat) =>
    if c.regs.vpGen[p.1.toNat]'p.1.isLt = p.2.2 then vp.set p.1.toNat p.2.1 p.1.isLt else vp) c.regs.vp
  let c := { c with regs := { c.regs with vp := vp }, eng := { c.eng with vrun := none } }
  (c.orVflags r.flags).mark r.cmd.seq .complete

/-- There is room for the q1 entry of a vector command at its end (R158). -/
def Core.pushFits (c : Core) (r : VRun) : Bool := r.push.isNone || c.exiting || decide (c.regs.q1.length < 16)

/-- The vector command completes: it pushes its q1 entry (R156, R158). -/
def Core.completeVector (c : Core) (r : VRun) : Core :=
  match r.push with
  | some v =>
    if c.exiting then c.finishVector r
    else { c with regs := { c.regs with q1 := c.regs.q1 ++ [v] }, pushers := c.pushers ++ [r.cmd.key 1] }.finishVector r
  | none => c.finishVector r

/-- A vector command whose steps are done completes at once if it has nothing to push or post. -/
def Core.settleVector (c : Core) (r : VRun) : Core :=
  if r.done && r.push.isNone && r.post.isNone then c.finishVector r else { c with eng := { c.eng with vrun := some r } }

/-- A copy leaves the set in flight (R23, R107). -/
def Core.finishCopy (c : Core) (r : CopyRun) : Core :=
  let c := match r.cmd.from? with
    | some t => c.updTile t Tile.undrain
    | none => c
  { c with eng := { c.eng with copies := c.eng.copies.filter fun q => q.cmd.seq != r.cmd.seq } }.mark r.cmd.seq .complete

/-- A collective command completes; cells that never came leave its tile, and the drain of its source ends (R272, R280). -/
def Core.finishFill (c : Core) (cmd : Cmd) (delivered : Nat) : Core :=
  let c := match cmd.fill with
    | some (t, n) => c.updTile t fun e => e.arrive (n - delivered)
    | none => c
  let c := match cmd.from? with
    | some t => c.updTile t Tile.undrain
    | none => c
  c.mark cmd.seq .complete

/-- What is waiting to enter an inbox. -/
inductive Poster where
  | waiting (m : Msg)
  | vector (r : VRun) (m : Msg)
  | copy (r : CopyRun) (m : Msg)
  | matrix (c : Cmd) (m : Msg) (flags : VFlags)
  | collective (r : CollRun) (m : Msg)
  | media (r : MediaRun) (m : Msg)
  deriving DecidableEq, Repr

/-- The message of a poster. -/
def Poster.msg : Poster → Msg
  | .waiting m | .vector _ m | .copy _ m | .matrix _ m _ | .collective _ m | .media _ m => m

/-- The operations of a core that have finished every step and wait to post. -/
def Core.unposted (c : Core) : List Poster :=
  (c.eng.vrun.bind fun r => if r.done then r.post.map (.vector r) else none).toList ++
  (c.eng.copies.filterMap fun r => r.post.map (.copy r)) ++
  (match c.eng.mrun with | some (.posting cmd m fl) => [.matrix cmd m fl] | some (.product _) | none => []) ++
  (c.eng.krun.bind fun r => r.post.map (.collective r)).toList ++
  (c.eng.drun.bind fun r => r.post.map (.media r)).toList

/-- A poster finds room beside the inbox: a vector command needs it in q1 too (R158). -/
def Core.pushable (c : Core) : Poster → Bool
  | .vector r _ => c.pushFits r
  | .waiting _ | .copy .. | .matrix .. | .collective .. | .media .. => true

/-- The posters of a core: the first message sent to it from elsewhere, and each operation of its own. After a gang switch those that
had finished before it come first, in issue order (R327). -/
def Core.posters (c : Core) : List Poster :=
  let l := c.unposted
  (c.posts.head?.map .waiting).toList ++
    ((match c.owed.find? fun k => l.any fun (p : Poster) => p.msg.key == k with
      | some k => l.filter fun (p : Poster) => p.msg.key == k
      | none => l).filter c.pushable)

/-- Put a message into the inbox; a task that is exiting discards it (R218). -/
def Core.enterInbox (c : Core) (m : Msg) : Core := if c.exiting then c else { c with inbox := c.inbox ++ [m] }

/-- A poster has posted. -/
def Core.posted (c : Core) : Poster → Core
  | .waiting m => { c.enterInbox m with posts := c.posts.tail }
  | .vector r m => (c.enterInbox m).completeVector r
  | .copy r m => (c.enterInbox m).finishCopy r
  | .matrix cmd m flags =>
    { (c.enterInbox m).orVflags flags with eng := { c.eng with mrun := none } }.mark cmd.seq .complete
  | .collective r m =>
    let c := (c.enterInbox m).orVflags r.flags
    { c with eng := { c.eng with krun := none } }.finishFill r.cmd r.written
  | .media r m => { (c.enterInbox m).orVflags r.flags with eng := { c.eng with drun := none } }.mark r.cmd.seq .complete

/-- Bytes that a stream command of a core has sent and its target has not yet taken into its ring (R183, R283). -/
def State.streamOnItsWay (s : State) (id : Nat) (m : Msg) : Bool :=
  (s.coreAt id).router.streams.toList.any fun p => match p with
    | .send t .. => (s.coreAt t).router.flits.any fun f => f.msg.any fun q => q.seq == m.seq && q.source == m.source && !f.close
    | .closed | .recv .. | .cut _ => false

/-- A message still waits: for the arrival that its copy sent to another core (R110), or for its own writes (R183). -/
def State.awaitsArrival (s : State) (id : Nat) (p : Poster) : Bool :=
  match p with
  | .copy r _ => s.arrivalWaits id r.cmd
  | .collective _ m => s.streamOnItsWay id m
  | .waiting _ | .vector .. | .matrix .. | .media .. => false

/-- A message finds room in an inbox; a task that is exiting discards it (R110, R218). -/
def Core.inboxTakes (c : Core) : Bool := decide (c.inbox.length < 64) || c.exiting

/-- The posters of a core that nothing holds. -/
def State.readyPosters (s : State) (id : Nat) : List Poster :=
  if (s.coreAt id).inboxTakes then (s.coreAt id).posters.filter fun p => !s.awaitsArrival id p else []

/-- A poster of a core posts. -/
def State.post (s : State) (id : Nat) (p : Poster) : State :=
  s.updCoreAt id fun c =>
    let c := c.posted p
    { c with owed := c.owed.erase p.msg.key }

/-- The posting of a message (R110): it waits while the inbox is full. Which operation posts first is a free choice (log 2). -/
def execInboxMessagePost (core : Nat) (s : State) : Host.Outcome State Fault Refusal :=
  let l := s.readyPosters core
  match l[s.choose 3 0 l.length % l.length]? with
  | some p => .next (if s.lands core then s.post core p else s)
  | none => .next s

/-- Put a poster into a list that is in issue order, oldest first. -/
def Core.insertOldest (c : Core) (p : Poster) : List Poster → List Poster
  | [] => [p]
  | q :: l => if c.ageOf q.msg.seq < c.ageOf p.msg.seq then p :: q :: l else q :: c.insertOldest p l

/-- The operations that have finished owe their messages in issue order (R327). -/
def Core.oweAll (c : Core) : Core :=
  { c with owed := (c.unposted.foldl (fun (l : List Poster) (p : Poster) => c.insertOldest p l) []).map fun (p : Poster) => p.msg.key }

/-- The messages a core owes post, in order, before anything of it goes on; those that find no room wait, and still come first
(R327, log 111). -/
def State.postOwed (s : State) (id : Nat) : Nat → State
  | 0 => s
  | n + 1 =>
    match (s.coreAt id).owed with
    | [] => s
    | k :: _ => match (s.readyPosters id).find? fun p => p.msg.key == k with
      | some p => (s.post id p).postOwed id n
      | none => s

/-- Cells counted at a fill tile (R107). -/
def execTileCellArrival (core : Nat) (s : State) : Host.Outcome State Fault Refusal :=
  match (s.coreAt core).arrivals with
  | [] => .next s
  | (t, n) :: rest =>
    .next (if s.lands core then s.updCoreAt core fun c => { c with arrivals := rest }.updTile t fun e => e.arrive n else s)

/-- The end of a vector command that pushes a q1 entry and posts nothing, once there is room (R158). -/
def execQ1EntryPush (core : Nat) (s : State) : Host.Outcome State Fault Refusal :=
  let c := s.coreAt core
  match c.eng.vrun with
  | some r =>
    if r.done && r.push.isSome && r.post.isNone && c.pushFits r && s.lands core then
      .next (s.updCoreAt core fun c => c.completeVector r)
    else .next s
  | none => .next s

/-! ## Uncorrectable elements (R104, R153, R322) -/

/-- The entry that a failing access of a command of the acting core leaves in the log: an uncorrectable page-table entry (R304, R322). -/
def State.logFail (s : State) (cmd : Cmd) (f : Fail) : State := s.logErrors s.cur cmd.seq f.log.toList

end Sys2Proof.Machine
end

