-- ==== Sys2Proof/Machine/CopyOps.lean ====
section
/-!
DEFINITION. The copy engine (R96 to R104, R302, R326, R370). A copy's turn starts it or moves one row of one box.
-/

namespace Sys2Proof.Machine

/-! ## Reaching memory for an engine (R295, R370) -/

/-- Where an engine's access of n bytes lands: off the chip, or in a scratchpad it may reach (R370). -/
def State.engineResolve (s : State) (sup : Bool) (r : Right) (va n src : Nat) : Except Stop (Place × State) :=
  match s.resolve sup r va n src with
  | .error e => .error e
  | .ok (pl, s') => match pl with
    | .mem _ | .spad .. => .ok (pl, s')
    | .acc .. | .regwin .. | .tiles .. | .inbox .. => raise Cause.access (w64 va)

/-- A command's read of n bytes, with what it saw there noted (R155, R183). -/
def State.engineRead (s : State) (k : OpKey) (pl : Place) (n : Nat) : Nat × State :=
  ((s.seenAs k).readPlace pl n, s.notes k pl.phys n)

/-- An engine's access of an element's bytes: its address must be a multiple of its size (log 23). -/
def State.elemPlace (s : State) (sup : Bool) (r : Right) (f : Fmt) (e : ElemAt) (src : Nat) : Except Stop (Place × State) :=
  if e.addr.toNat % elemBytes f ≠ 0 then raise Cause.misaligned e.addr
  else s.engineResolve sup r e.addr.toNat (elemBytes f) src

/-! ## Grants (R300, R302) -/

/-- The grant an id selects covers a descriptor at a displacement for cells, with a right. -/
def Partition.grants? (p : Partition) (launchid : BitVec 32) (td : Td) (disp : Word) (cells : Region) (r : Right) : Bool :=
  match alGet (td.grant.extractLsb' 0 8).toNat p.grants with
  | none => false
  | some g =>
    g.valid && g.tag == td.grant.extractLsb' 8 8 && (g.launch == 0 || g.launch == launchid) && g.base == td.base + disp &&
      g.fmt == fmtCode td.fmt && g.rank == td.rank && g.swizzle == td.swizzle &&
      g.strides.take td.rank.toNat == td.strides.take td.rank.toNat &&
      (match r with | .read => g.rd | .write => g.wr | .exec => false) && covers cells g.region

/-- GRANT_DENIED unless the grant covers the cells. -/
def State.granted (s : State) (td : Td) (disp : Word) (cells : Region) (r : Right) : Except CmdFault Unit :=
  if s.part.grants? s.core.csr.launchid td disp cells r then .ok () else .error (Cause.grantDenied, td.grant.zeroExtend 64)

/-- The full box of a descriptor. -/
def Td.fullBox (t : Td) : Region :=
  let n := t.rank.toNat
  if (List.range n).any (fun i => t.ext i == 0) then Region.empty n
  else Region.dense n [(List.range n).map fun i => ⟨0, t.ext i⟩]

/-! ## What a copy moves -/

/-- A copy between tensors: source with its displacement (`none` for a fill), destination, and the value filled. -/
structure Transfer where
  src : Option (Td × Word)
  dst : Td
  disp : Word
  value : Nat
  deriving DecidableEq, Repr

/-- Progress of a copy within a step: cells dealt with, cells written, and why it stopped. -/
structure Moved where
  s : State
  count : Nat
  written : Nat
  clipped : Bool
  dataErr : Bool
  stop : Option Stop
  deriving DecidableEq, Repr

/-- The value a cell takes: read, filled, or zero where the source is out of bounds or uncorrectable (R99, R104). -/
def State.cellValue (s : State) (cmd : Cmd) (t : Transfer) (c : List Int) (src : Nat) :
    Except Stop (Nat × Bool × Bool × State) :=
  match t.src with
  | none => .ok (t.value, false, false, s)
  | some (td, disp) =>
    let c := td.wrapped c
    if !td.inBounds c then .ok (0, true, false, s)
    else
      let e := td.elem disp c
      match s.elemPlace cmd.sup .read td.format e src with
      | .error x => .error x
      | .ok (pl, s) =>
        if s.poisoned pl.phys (elemBytes td.format) then
          .ok (0, false, true, s.logErrors s.cur cmd.seq [⟨src, td.format == .e8, e.addr⟩])
        else
          let (v, s) := s.engineRead (cmd.key 0) pl (elemBytes td.format)
          .ok (pickElem td.format e.odd v, false, false, s)

/-- The bits of its bytes that an element writes. -/
def elemMask (f : Fmt) (odd : Bool) : Byte := if f.width = 4 then (if odd then 0xF0 else 0x0F) else 0xFF

/-- Write a cell by a command of a kind of operation; `none` where it is out of bounds (R99). The core's stream need not see it before
it dequeues the command's message (R9). -/
def State.writeCell (s : State) (kind : Nat) (cmd : Cmd) (td : Td) (disp : Word) (c : List Int) (v src : Nat) :
    Except Stop (Option State) :=
  let c := td.wrapped c
  if !td.inBounds c then .ok none
  else
    let e := td.elem disp c
    match s.elemPlace cmd.sup .write td.format e src with
    | .error x => .error x
    | .ok (pl, s) =>
      let n := elemBytes td.format
      .ok (some (s.engineWrite (cmd.key kind) (cmd.fill.map (·.1)) [] pl n (placeElem td.format e.odd (s.readPlace pl n) v) n
        (elemMask td.format e.odd)))

/-- Move cells one after another until one stops (R99). -/
def moveCells (cmd : Cmd) (t : Transfer) (src : Nat) : List (List Int × List Int) → Moved → Moved
  | [], m => m
  | (cs, cd) :: rest, m =>
    match m.s.cellValue cmd t cs src with
    | .error e => { m with stop := some e }
    | .ok (v, out, bad, s) =>
      match s.writeCell 0 cmd t.dst t.disp cd v src with
      | .error e => { m with s := s, stop := some e }
      | .ok none => moveCells cmd t src rest { m with s := s, count := m.count + 1, clipped := true, dataErr := m.dataErr || bad }
      | .ok (some s) =>
        moveCells cmd t src rest
          { m with s := s, count := m.count + 1, written := m.written + 1, clipped := m.clipped || out, dataErr := m.dataErr || bad }

/-- Every coordinate over the extents of the dimensions after the first, innermost fastest. -/
def innerCoords : List Nat → List (List Int)
  | [] => [[]]
  | e :: t => (List.range e).flatMap fun (x : Nat) => (innerCoords t).map fun c => (x : Int) :: c

/-! ## Faults and ends -/

/-- A fault of a copy: it and every younger copy are discarded; the cells moved in this step count (R104). -/
def State.copyFault (s : State) (cmd : Cmd) (f : CmdFault) : State :=
  (s.dropCopies s.cur cmd.seq).updCore fun c => c.pendFault 0 cmd.seq f

/-- The status of a copy (R104). -/
def CopyRun.code (r : CopyRun) : Nat := max r.status (if r.dataErr then 2 else if r.clipped then 1 else 0)

/-- The copy in flight in another state. -/
def Core.setCopy (c : Core) (r : CopyRun) : Core :=
  { c with eng := { c.eng with copies := c.eng.copies.map fun q => if q.cmd.seq = r.cmd.seq then r else q } }

/-- The copy waits to post its message. -/
def CopyRun.finish (r : CopyRun) (tag : BitVec 8) (cells : Nat) : CopyRun := { r with post := some (r.cmd.message 0 r.code tag cells) }

/-- Cells of a step as arrivals at the fill tile (R107). -/
def Core.arriveCells (c : Core) (cmd : Cmd) (n : Nat) : Core :=
  match cmd.fill with
  | some (t, _) => if n = 0 then c else { c with arrivals := c.arrivals ++ [(t, n)] }
  | none => c

/-- A step of a copy between tensors has moved cells; `last`: these were its last. -/
def State.afterMove (_s : State) (r : CopyRun) (m : Moved) (last : Bool) (tag : BitVec 8) : State :=
  let r' := { r with
    pos := r.pos + m.count, written := r.written + m.written, clipped := r.clipped || m.clipped
    dataErr := r.dataErr || m.dataErr, entry := if m.stop.isSome then r.entry else none }
  let s' := m.s.updCore fun c => (c.setCopy r').arriveCells r.cmd m.count
  match m.stop with
  | none => if last then s'.updCore fun c => c.setCopy (r'.finish tag r'.written) else s'
  | some (.wait _) => s'
  | some (.fault f) => (s'.logFail r.cmd f).copyFault r.cmd (f.cause, f.tval)

/-- Nothing moved yet. -/
def Moved.none (s : State) : Moved := ⟨s, 0, 0, false, false, .none⟩

/-! ## Starting (R24, R103, R107) -/

/-- Cells that queued copies and collectives will still move into a tile. -/
def Core.queuedCells (c : Core) (t : BitVec 8) : Nat :=
  ((c.eng.cq ++ c.eng.kq).map fun q => match q.fill with | some (u, n) => if u = t then n else 0 | none => 0).foldl (· + ·) 0

/-- A command waits for the tile it reads (R24). One that reads and fills the same tile does not wait for the cells it is to move
itself, nor for those of commands that have not started (log 106). -/
def Core.sourceWaits (c : Core) (cmd : Cmd) (t : BitVec 8) : Bool :=
  let e := c.tile t.toNat
  e.state == .draining || (e.state == .filling && ((cmd.fill.map (·.1)) != some t || decide (c.queuedCells t < e.remaining.toNat)))

/-- A drain of a command's source tile waits: a joint product reads the tile, which stays ready (R136), or the drain ends in an empty
tile that a command of another engine names, which stays bound until that one has completed (R24, R153, log 121). -/
def State.drainHeld (s : State) (cmd : Cmd) (rel : Bool) : Bool :=
  match cmd.from? with
  | some t =>
    let g := s.core.eng
    (s.core.tile t.toNat).state == .ready && (s.productReads s.cur t ||
      (rel && ({ g with cq := [], copies := [] }.commands.any fun q => q.names s.cur t)))
  | none => false

/-- The head of the copy queue waits: for its source tile, for a drain of its fill tile, or while a vector command or a joint
product reads that tile (R24, R107, R136, R155). -/
def State.copyHeld (s : State) (cmd : Cmd) : Bool :=
  let c := s.core
  (match cmd.from? with
    | some t => c.sourceWaits cmd t
    | none => false) ||
  (match cmd.fill with
    | some (t, n) => (n != 0 && (c.tile t.toNat).state == .draining) || s.productReads s.cur t ||
        (match c.eng.vrun with | some r => r.cmd.ptrs.any fun p => p.2.1.tile == t | none => false)
    | none => false)

/-- The command as it runs: a source tile that was not ready gets no drain from it, and none to end (R107). -/
def Core.asStarted (c : Core) (cmd : Cmd) : Cmd :=
  { cmd with from? := cmd.from?.filter fun t => (c.tile t.toNat).state == .ready }

/-- The drain of a started command's source tile begins (R107). -/
def Core.drainSource (c : Core) (cmd : Cmd) (rel : Bool) : Core :=
  match cmd.from? with
  | some t => c.updTile t fun (e : Tile) => { e with state := .draining, rel := rel }
  | none => c

/-- Start the head of the copy queue once its checks pass; `rel`: the drain it begins ends in an empty tile. -/
def State.startCopy (s : State) (cmd : Cmd) (rel : Bool) (check : Except CmdFault Unit) : State :=
  if 128 ≤ s.core.eng.copies.length ∨ s.copyHeld cmd ∨ s.drainHeld cmd rel then s
  else match if cmd.bad then .error (badCommand cmd) else check with
    | .error f => s.copyFault cmd f
    | .ok _ => s.updCore fun c =>
      let cmd := c.asStarted cmd
      let run : CopyRun := ⟨cmd, 0, none, 0, false, false, 0, false, none⟩
      let c : Core := { c with eng := { c.eng with cq := c.eng.cq.tail, copies := c.eng.copies ++ [run] } }
      let c := (c.startsOn (cmd.key 0) cmd.from?.toList).drainSource cmd rel
      let c := match cmd.fill with
        | some (t, _) => c.fillsAfter (cmd.key 0) t
        | none => c
      c.mark cmd.seq .running

/-- The turn of a copy command on the acting core: the start of the queue's head, or a step of the copy picked. -/
def State.copyTurn (s : State) (i : Instr) (rel : Bool) (check : Cmd → Except CmdFault Unit) (step : CopyRun → State) :
    Host.Outcome State Fault Refusal :=
  match s.core.eng.pick with
  | 0 => match s.core.eng.cq with
    | cmd :: _ => .next (if cmd.is 0 i then s.startCopy cmd rel (check cmd) else s)
    | [] => .next s
  | k + 1 => match s.core.eng.copies[k]? with
    | some r => .next (if r.cmd.is 0 i && r.post.isNone then step r else s)
    | none => .next s

/-! ## The commands -/

/-- A condition of a command, or BAD_COMMAND. -/
def okCommand (cmd : Cmd) (b : Bool) : Except CmdFault Unit := if b then .ok () else .error (badCommand cmd)

/-- The format field is 0x00 or that of every descriptor, and each is valid (R96, R97). -/
def copyFormats (h : CmdHead) (l : List Td) : Bool := l.all fun t => t.valid && (h.fmt.isNone || h.fmt == t.fmt)

/-- The captured region takes the rank of the descriptors, or has it (R97). -/
def copyRank (r : Region) (t : Td) : Bool := r.rank == 0 || r.rank == t.rank.toNat

/-- Address of the first entry of a region's length table that lies outside the scratchpad. -/
def tableAddress (r : Region) : Word := BitVec.ofInt 64 (aliasBase + (r.entryOutside?).getD 0)

/-- The cells a region copy tests against grants. -/
def Cmd.grantCells (cmd : Cmd) (t : Td) : Region := (cmd.region.withRank t.rank.toNat).exact (cmd.lens.getD [])

/-- A ragged region's length table could be read (log 12). -/
def Cmd.tableRead (cmd : Cmd) : Except CmdFault Unit :=
  if cmd.lens.isNone then .error (Cause.access, tableAddress cmd.region) else .ok ()

/-- The checks of `cp.rg`. -/
def State.checkCpRg (s : State) (o : CpRg) (cmd : Cmd) : Except CmdFault Unit := do
  okCommand cmd (copyFormats o.head [cmd.td1, cmd.td2] && cmd.td1.fmt == cmd.td2.fmt && cmd.td1.rank == cmd.td2.rank &&
    copyRank cmd.region cmd.td1)
  cmd.tableRead
  s.granted cmd.td2 (dispOf o.sdisp) (cmd.grantCells cmd.td2) .read
  s.granted cmd.td1 (dispOf o.disp) (cmd.grantCells cmd.td1) .write

/-- The checks of `cp.fill`. -/
def State.checkCpFill (s : State) (o : CpFill) (cmd : Cmd) : Except CmdFault Unit := do
  okCommand cmd (copyFormats o.head [cmd.td1] && copyRank cmd.region cmd.td1 &&
    decide (o.value.toNat < 2 ^ cmd.td1.format.width))
  cmd.tableRead
  s.granted cmd.td1 (dispOf o.disp) (cmd.grantCells cmd.td1) .write

/-- The boxes a region copy walks. -/
def Cmd.boxes (cmd : Cmd) (rank : Nat) : List (Box × List Nat) := (cmd.region.withRank rank).moveBoxes (cmd.lens.getD [])

/-- Cells a region copy moves in all. -/
def Cmd.cells (cmd : Cmd) (count rank : Nat) : Nat := min count (boxesCells ((cmd.boxes rank).map (·.1)))

/-- One row of one box of a region copy (R27, R99). -/
def State.moveRow (s : State) (r : CopyRun) (t : Transfer) (count : Nat) (tag : BitVec 8) : State :=
  let boxes := r.cmd.boxes t.dst.rank.toNat
  let n := r.cmd.cells count t.dst.rank.toNat
  let k := min (rowRest boxes r.pos) (n - r.pos)
  let cells := (List.range k).filterMap fun j => cellOf boxes (r.pos + j)
  s.afterMove r (moveCells r.cmd t 0 (cells.map fun c => (c, c)) (.none s)) (r.pos + k == n) tag

/-- `cp.rg` (R99). -/
def execCpRg (o : CpRg) (s : State) :=
  s.copyTurn (.cpRg o) o.rel (s.checkCpRg o) fun r =>
    s.moveRow r ⟨some (r.cmd.td2, dispOf o.sdisp), r.cmd.td1, dispOf o.disp, 0⟩ o.head.count.toNat o.tag

/-- `cp.fill` (R99). -/
def execCpFill (o : CpFill) (s : State) :=
  s.copyTurn (.cpFill o) false (s.checkCpFill o) fun r =>
    s.moveRow r ⟨none, r.cmd.td1, dispOf o.disp, o.value.toNat⟩ o.head.count.toNat o.tag

/-- The checks of `cp.gx` and `cp.sx` (R97, R100). -/
def State.checkRows (s : State) (o : CpRows) (cmd : Cmd) : Except CmdFault Unit := do
  let rank := cmd.td1.rank.toNat
  okCommand cmd (copyFormats o.head [cmd.td1, cmd.td2] && cmd.td1.fmt == cmd.td2.fmt && cmd.td1.rank == cmd.td2.rank &&
    ((List.range rank).all fun i => i == 0 || cmd.td1.ext i == cmd.td2.ext i) &&
    decide (o.list.toNat + 4 * o.head.count.toNat ≤ Config.spadBytes))
  s.granted cmd.td2 0 cmd.td2.fullBox .read
  s.granted cmd.td1 (dispOf o.disp) cmd.td1.fullBox .write

/-- Entry j of an index list; an uncorrectable one is a free value, and is logged (R322, log 22). -/
def State.listEntry (s : State) (cmd : Cmd) (list j : Nat) : Nat × State :=
  let off := list + 4 * j
  if s.spadPoisoned s.cur off 4 then
    ((Config.unstated s.tick 2).toNat % 2 ^ 32, s.logErrors s.cur cmd.seq [⟨0, false, w64 (aliasBase + off)⟩])
  else s.engineRead (cmd.key 0) (.spad s.cur off) 4

/-- One row of a gather or scatter (R100). `pos` counts cells. -/
def State.moveIndexed (s : State) (r : CopyRun) (o : CpRows) (scatter : Bool) : State :=
  let td := r.cmd.td1
  let inner := innerCoords ((List.range (td.rank.toNat - 1)).map fun i => td.ext (i + 1))
  let n := o.head.count.toNat * inner.length
  if inner = [] ∨ n = 0 then s.afterMove r (.none s) true o.tag
  else
    let j := r.pos / inner.length
    let (idx, s) := match r.entry with
      | some v => (v, s)
      | none => s.listEntry r.cmd o.list.toNat j
    let r := { r with entry := some idx }
    let cells := (inner.drop (r.pos % inner.length)).map fun c =>
      if scatter then ((j : Int) :: c, (idx : Int) :: c) else ((idx : Int) :: c, (j : Int) :: c)
    s.afterMove r (moveCells r.cmd ⟨some (r.cmd.td2, 0), td, dispOf o.disp, 0⟩ 0 cells (.none s))
      (j + 1 == o.head.count.toNat) o.tag

/-- `cp.gx` (R100). -/
def execCpGx (o : CpRows) (s : State) :=
  s.copyTurn (.cpGx o) false (s.checkRows o) fun r => s.moveIndexed r o false

/-- `cp.sx` (R100). -/
def execCpSx (o : CpRows) (s : State) :=
  s.copyTurn (.cpSx o) o.rel (s.checkRows o) fun r => s.moveIndexed r o true

/-- The checks of `cp.reg` (R101): the range of the window and the target's number. -/
def State.checkCpReg (s : State) (o : CpReg) (cmd : Cmd) : Except CmdFault Unit :=
  let lo := o.off.toNat
  let hi := lo + 8 * o.head.count.toNat
  okCommand cmd ((decide (hi ≤ 0x280) || (decide (0x300 ≤ lo) && decide (hi ≤ 0x400))) && decide (o.core.toNat < s.part.size))

/-- What a `cp.reg` has read: its words, whether one was uncorrectable, and why it stopped. -/
structure SourceWords where
  s : State
  words : List Word
  bad : Bool
  stop : Option Stop
  deriving DecidableEq, Repr

/-- Words of a `cp.reg` source; an uncorrectable one is zero (R104). -/
def State.sourceWords (s : State) (cmd : Cmd) (va : Nat) : Nat → SourceWords
  | 0 => ⟨s, [], false, none⟩
  | n + 1 =>
    match s.engineResolve cmd.sup .read va 8 0 with
    | .error e => ⟨s, [], false, some e⟩
    | .ok (pl, s) =>
      let bad := s.poisoned pl.phys 8
      let (v, s) :=
        if bad then (0, s.logErrors s.cur cmd.seq [⟨0, false, w64 va⟩]) else s.engineRead (cmd.key 0) pl 8
      let r := s.sourceWords cmd (va + 8) n
      { r with words := w64 v :: r.words, bad := bad || r.bad }

/-- The words of a copy land (R50, R101): entries of q0 at once (R157), register words to be visible when the target dequeues the arrival.
Two messages are posted. -/
def State.landCpReg (s : State) (r : CopyRun) (o : CpReg) (target : Nat) : State :=
  let w := s.sourceWords r.cmd o.src.toNat o.head.count.toNat
  match w.stop with
  | some (.wait _) => s
  | some (.fault f) => (w.s.logFail r.cmd f).copyFault r.cmd (f.cause, f.tval)
  | none =>
    let s := w.s
    let full := 0x300 ≤ o.off.toNat && decide (32 < (s.coreAt target).regs.q0.length + w.words.length)
    let status := if full then 3 else if w.bad then 2 else 0
    let m : Msg := { r.cmd.message 0 status o.tag o.head.count.toNat with arrival := true }
    let s := s.updCoreAt target fun c =>
      let c := if c.exiting then c else { c with posts := c.posts ++ [m] }
      if full then c
      else if 0x300 ≤ o.off.toNat then { c with regs := { c.regs with q0 := c.regs.q0 ++ w.words } }
      else { c with landings := c.landings ++ [⟨m.seq, m.source, o.off.toNat, w.words⟩] }
    s.updCore fun c => c.setCopy ({ r with status := status, landed := true }.finish o.tag o.head.count.toNat)

/-- A core is at an instruction boundary: no instruction of its stream is in the middle of its effect. -/
def Core.atBoundary (c : Core) : Bool := c.wait != .partway && c.wait != .token

/-- The one step of `cp.reg`. In supervisor mode it reaches a supervisor core of the partition, whatever is bound there (R101, R296). -/
def State.stepCpReg (s : State) (r : CopyRun) (o : CpReg) : State :=
  let target := s.part.phys o.core.toNat
  if !(r.cmd.sup && s.part.isSuper target) && !s.sameLaunch target then
    s.updCore fun c => c.setCopy ({ r with status := 4 }.finish o.tag 0)
  else if s.cutOff s.part s.cur target then s.copyFault r.cmd (Cause.access, w64 (windowAddr target (0xE0000 + o.off.toNat)))
  else if !(s.coreAt target).atBoundary then s
  else s.landCpReg r o target

/-- `cp.reg` (R101). -/
def execCpReg (o : CpReg) (s : State) := s.copyTurn (.cpReg o) false (s.checkCpReg o) fun r => s.stepCpReg r o

/-- A place of a `cp.pf` in its range: the translated address is one of the second tier, or of local HBM; else BAD_COMMAND (R102). -/
def State.prefetchPlace (s : State) (cmd : Cmd) (r : Right) (va : Nat) : Except Stop (Place × State) :=
  match s.translate cmd.sup r va 0 with
  | .error e => .error e
  | .ok (pa, _) =>
    let inRange := !onChip pa && match r with
      | .read => isTier pa
      | .write | .exec => (s.offChip? pa 64).any fun a => decide (a + 64 ≤ s.hbmLimit)
    if inRange then s.engineResolve cmd.sup r va 64 0 else raise Cause.badCommand cmd.pool

/-- Copy 64-byte pieces from the second tier to HBM (R102); an uncorrectable word of 8 bytes is zero and is logged (log 24). -/
def State.prefetch (s : State) (r : CopyRun) (o : CpPf) : Nat → Moved → Moved
  | 0, m => m
  | n + 1, m =>
    let va := o.src.toNat + r.pos + m.count
    match m.s.prefetchPlace r.cmd .read va with
    | .error e => { m with stop := some e }
    | .ok (src, s1) =>
      match s1.prefetchPlace r.cmd .write (o.dst.toNat + r.pos + m.count) with
      | .error e => { m with s := s1, stop := some e }
      | .ok (dst, s2) =>
        let err (j : Nat) : Bool := s2.poisoned (src.phys + 8 * j) 8
        let (v, s2) := s2.engineRead (r.cmd.key 0) src 64
        let words := (List.range 8).map fun j => if err j then 0 else slice v (8 * j) 8
        let errs := ((List.range 8).filter err).map fun j => (⟨0, false, w64 (va + 8 * j)⟩ : DataError)
        let s3 := (s2.logErrors s.cur r.cmd.seq errs).engineWrite (r.cmd.key 0) none [] dst 64
          (words.foldr (fun w n => w + 2 ^ 64 * n) 0) 1 0xFF
        s.prefetch r o n
          { m with s := s3, count := m.count + 64, written := m.written + 64, dataErr := m.dataErr || !errs.isEmpty }

/-- The one step of `cp.pf`. -/
def State.stepCpPf (s : State) (r : CopyRun) (o : CpPf) : State :=
  s.afterMove r (s.prefetch r o ((o.head.count.toNat - r.pos) / 64) (.none s)) true o.tag

/-- `cp.pf` (R102). -/
def execCpPf (o : CpPf) (s : State) := s.copyTurn (.cpPf o) false (fun _ => .ok ()) fun r => s.stepCpPf r o

end Sys2Proof.Machine
end

