-- ==== Sys2Proof/Machine/MatrixOps.lean ====
section
/-!
DEFINITION. The matrix engine: the row barrier and its checks (R131 to R137), the residue and binary paths (R138 to R142), joint products
K-block by K-block (R143 to R146), and the accumulator commands (R147, R148).
-/

namespace Sys2Proof.Machine

/-! ## Pairs and operand tiles (R11, R134, R135) -/

/-- The formats a pair gives to A and to B. -/
def Pair.fmts : Pair → Fmt × Fmt
  | .k8k8 => (.k8, .k8) | .k4k4 => (.k4, .k4) | .k8k4 => (.k8, .k4) | .k4k8 => (.k4, .k8)
  | .i8i8 => (.i8, .i8) | .i4i4 => (.i4, .i4) | .f16f16 => (.f16, .f16) | .b16b16 => (.b16, .b16)

/-- A block-scaled pair. -/
def Pair.isBlock (p : Pair) : Bool := p.fmts.1.isBlock

/-- An integer pair. -/
def Pair.isInt (p : Pair) : Bool := p.fmts.1.isInt

/-- Bytes of a tile for each k: 32 elements, and a scale code for every 32 k of a line (R135). -/
def tileBytesPerK (f : Fmt) : Nat := 4 * f.width + if f.isBlock then 1 else 0

/-- K of a tile of a length, if it gives one (R135). -/
def tileK (f : Fmt) (len : Nat) : Option Nat :=
  let k := len / tileBytesPerK f
  if len % tileBytesPerK f = 0 ∧ k % 32 = 0 ∧ 32 ≤ k ∧ k ≤ 1024 then some k else none

/-- The task on the core that owns a tile is of the same launch as the one that names it (R113). -/
def State.ownerStays (s : State) (id : Nat) (h : Word) : Bool :=
  handleOwner id h == id || (s.act id).sameLaunch (handleOwner id h)

/-- K of the tile a handle names, or the cause of its fault (R134, R135): its reserved bits, its owner, an empty tile, the tile's length, in
this order; the value of a PEER_GONE is the handle (log 125). -/
def State.operandK (s : State) (id : Nat) (h : Word) (f : Fmt) : Except CmdFault Nat :=
  let t := s.handleTile id h
  if h.extractLsb' 12 52 ≠ 0 then .error (Cause.matrixOperand, h)
  else if !s.ownerStays id h then .error (Cause.peerGone, h)
  else if t.state = .empty then .error (Cause.matrixOperand, h)
  else match tileK f t.len.toNat with
    | some k => .ok k
    | none => .error (Cause.matrixOperand, h)

/-- A participant's own checks: operand A, operand B, one K for both, for which B's handle is reported, then its accumulator's type (R133 to
R137, log 125). -/
def State.checkOperands (s : State) (id : Nat) (m : MxCmd) : Except CmdFault Nat := do
  let ka ← s.operandK id m.a m.pair.fmts.1
  let kb ← s.operandK id m.b m.pair.fmts.2
  if ka ≠ kb then .error (Cause.matrixOperand, m.b)
  else if (s.coreAt id).actype.getLsbD m.acd.toNat ∧ !m.pair.isInt then
    .error (Cause.matrixOperand, w64 (2 ^ 63 + m.acd.toNat))
  else .ok ka

/-! ## Discarding (R133, R146, R312) -/

/-- The cores of a mask in the row of a core (R131). -/
def maskCores (id : Nat) (mask : BitVec 4) : List Nat := (rowCores id).filter fun k => mask.getLsbD (colOf k)

/-- The joint product that runs on a core. -/
def Core.product? (c : Core) : Option MxRun :=
  match c.eng.mrun with
  | some (.product r) => some r
  | some (.posting ..) | none => none

/-- The mask of a matrix command. -/
def Cmd.mask (c : Cmd) : BitVec 4 := (c.mx.map (·.mask)).getD 0

/-- A core's part of its product is discarded. -/
def Core.dropProduct (c : Core) : Core :=
  match c.product? with
  | some r => { c.drop r.cmd 0 true with eng := { c.eng with mrun := none } }
  | none => c

/-- The joint product a core takes part in is discarded on every participant (R146). -/
def State.dropProduct (s : State) (id : Nat) : State :=
  match (s.coreAt id).product? with
  | some r => s.forEach (maskCores id r.cmd.mask) fun s k => s.updCoreAt k Core.dropProduct
  | none => s

/-- The matrix engine of a core discards all it holds. -/
def State.discardMatrix (s : State) (id : Nat) : State := (s.dropProduct id).updCoreAt id Core.dropMatrix

/-- A fault of a core's matrix engine: its head and every younger command are discarded (R133, R312). -/
def State.matrixFault (s : State) (id : Nat) (cmd : Cmd) (f : CmdFault) : State :=
  (s.discardMatrix id).updCoreAt id fun c => c.pendFault 2 cmd.seq f

/-! ## Accumulators in memory (R49) -/

/-- Offset of a plane of an accumulator: plane 0 is the value. -/
def planeAt (n plane : Nat) : Nat := n * 0x4000 + plane * 0x1000

/-- The 1,024 words of a plane. -/
def Core.plane (c : Core) (n plane : Nat) : List Nat := (List.range 1024).map fun k => readLE c.acc (planeAt n plane + 4 * k) 4

/-- Put the words of a plane. -/
def Core.setPlane (c : Core) (n plane : Nat) (vs : List Nat) : Core := { c with acc := writeItems 4 c.acc (planeAt n plane) vs }

/-- Clear the three residue planes. -/
def Core.clearPlanes (c : Core) (n : Nat) : Core := { c with acc := clearBytes c.acc (planeAt n 1) 0x3000 }

/-- Set the type of an accumulator; true is I32 (R137). -/
def Core.setType (c : Core) (n : Nat) (int : Bool) : Core :=
  { c with actype := if int then c.actype ||| (1#8 <<< n) else c.actype &&& ~~~(1#8 <<< n) }

/-! ## Reading a K-block of an operand (R135, R145) -/

/-- One K-block of an operand: 32 lines of 32 elements, a scale code for each line, and what was uncorrectable. -/
structure MxBlock where
  lines : List (List Nat)
  scales : List Nat
  errors : List DataError
  flags : VFlags
  deriving DecidableEq, Repr

/-- The place of an entry of the data-error log (R322). -/
def matrixPlace (h : Word) (line k block : Nat) : Word :=
  w64 ((h.extractLsb' 0 12).toNat ||| line <<< 12 ||| (k % 1024) <<< 17 ||| (block % 32) <<< 27)

/-- The raw element (line, k) of a tile, and whether it is uncorrectable. -/
def State.tileElem (s : State) (owner off k : Nat) (f : Fmt) (line x : Nat) : Nat × Bool :=
  let e := line * k + x
  let o := off + e * f.width / 8
  if s.spadPoisoned owner o (elemBytes f) then (0, true)
  else (pickElem f (e % 2 == 1) (readLE (s.coreAt owner).spad o (elemBytes f)), false)

/-- The scale code of a line and K-block, and whether it is uncorrectable. -/
def State.tileScale (s : State) (owner off k : Nat) (f : Fmt) (line b : Nat) : Nat × Bool :=
  let o := off + 32 * k * f.width / 8 + line * (k / 32) + b
  if s.spadPoisoned owner o 1 then (255, true) else ((readByte (s.coreAt owner).spad o).toNat, false)

/-- The bytes of K-block b of an operand tile at an address: those of each line's elements, and its scale code. -/
def blockSpans (f : Fmt) (k b base : Nat) : List (Nat × Nat) :=
  (List.range 32).flatMap fun i =>
    (base + (i * k + 32 * b) * f.width / 8, 4 * f.width) ::
      if f.isBlock then [(base + 32 * k * f.width / 8 + i * (k / 32) + b, 1)] else []

/-- Physical address of the tile a handle names. -/
def State.handleAddr (s : State) (id : Nat) (h : Word) : Nat := windowAddr (handleOwner id h) (s.handleTile id h).off.toNat

/-- Read K-block b of the tile a handle names. -/
def State.readBlock (s : State) (id : Nat) (h : Word) (f : Fmt) (k b : Nat) : MxBlock :=
  let owner := handleOwner id h
  let off := (s.handleTile id h).off.toNat
  let raw := (List.range 32).map fun i => (List.range 32).map fun x => s.tileElem owner off k f i (32 * b + x)
  let sc := if f.isBlock then (List.range 32).map fun i => s.tileScale owner off k f i b else []
  let bad := (List.range 32).flatMap fun i => (List.range 32).filterMap fun x =>
    if ((raw.getD i []).getD x (0, false)).2 then some (⟨2, false, matrixPlace h i (32 * b + x) b⟩ : DataError) else none
  let badSc := (List.range sc.length).filterMap fun i =>
    if (sc.getD i (0, false)).2 then
      some (⟨2, true, matrixPlace h i (Config.unstated s.tick 3).toNat b⟩ : DataError) else none
  ⟨raw.map fun l => l.map (·.1), sc.map (·.1), bad ++ badSc,
    VFlags.when (!bad.isEmpty || !badSc.isEmpty) VFlags.errz ||| VFlags.when (!badSc.isEmpty) VFlags.badsc⟩

/-! ## The paths (R138 to R142) -/

/-- The integer image of an element (R118, R119, R138). -/
def imageOf (f : Fmt) (raw : Nat) : Int :=
  match f with
  | .k8 =>
    let e := raw / 8 % 16
    signed (raw.testBit 7) (if e = 0 then raw % 8 else (8 + raw % 8) <<< (e - 1))
  | .k4 =>
    let e := raw / 2 % 4
    signed (raw.testBit 3) (if e = 0 then raw % 2 else (2 + raw % 2) <<< (e - 1))
  | .f32 | .f16 | .b16 | .i32 | .i16 | .i8 | .i4 | .n32 | .n16 | .n8 | .e8 => intOf f raw

/-- The exponent of an image's unit (R138). -/
def unitExp : Fmt → Int
  | .k8 => -9
  | .k4 => -1
  | .f32 | .f16 | .b16 | .i32 | .i16 | .i8 | .i4 | .n32 | .n16 | .n8 | .e8 => 0

/-- The moduli of the three channels (R138). -/
def moduli : List Nat := [65535, 65536, 65537]

/-- The product of the moduli. -/
def moduliProduct : Nat := 65535 * 65536 * 65537

/-- Add to the residues of an element. -/
def addResidues (p : List Nat) (x : Int) : List Nat := (p.zip moduli).map fun (r, m) => (((r : Int) + x) % m).toNat

/-- `crt` (R139). -/
def crt (p : List Nat) : Int :=
  let y1 := p.getD 0 0 * 32768 % 65535
  let y2 := p.getD 1 0 * 65535 % 65536
  let y3 := p.getD 2 0 * 32769 % 65537
  let x := (y1 * (2 ^ 32 + 2 ^ 16) + y2 * (2 ^ 32 - 1) + y3 * (2 ^ 32 - 2 ^ 16)) % moduliProduct
  if moduliProduct / 2 ≤ x then (x : Int) - moduliProduct else x

/-- The value of one element with its residues, and the flags so far. -/
structure MxElem where
  v : Nat
  planes : List Nat
  flags : VFlags
  deriving DecidableEq, Repr

/-- `V <- round_rne(V + sign * t, F32)`. -/
def MxElem.accumulate (e : MxElem) (sub : Bool) (t : Val) : MxElem :=
  let (x, f1) := (valOf .f32 e.v).add .rne (if sub then t.neg else t)
  let (r, f2) := roundVal .f32 .rne 0 x
  { e with v := r, flags := e.flags ||| f1 ||| f2 }

/-- The exact sum of products of images. -/
def imageSum (fa fb : Fmt) (a b : List Nat) : Int := ((a.zip b).map fun (x, y) => imageOf fa x * imageOf fb y).foldl (· + ·) 0

/-- The end of a K-block of a block-scaled pair (R140). -/
def MxElem.scaledBlock (e : MxElem) (m : MxCmd) (a b : List Nat) (sa sb : Nat) : MxElem :=
  let (fa, fb) := m.pair.fmts
  let s := crt (addResidues e.planes (imageSum fa fb a b))
  let bad := sa == 0xFF || sb == 0xFF
  let ex : Int := (sa : Int) - 127 + ((sb : Int) - 127) + unitExp fa + unitExp fb
  let s' : Val := if bad then .zero else match Val.ofInt s with
    | .fin n x y => .fin n x (y + ex)
    | v => v
  let (t, f) := (valOf .f32 m.fs.toNat).mul s'
  { e with planes := [0, 0, 0], flags := e.flags ||| f ||| VFlags.when bad VFlags.badsc }.accumulate (m.mode == MxMode.sub) t

/-- A K-block of an integer pair; after the last one the sum is converted and added (R141). -/
def MxElem.intBlock (e : MxElem) (m : MxCmd) (i32 last : Bool) (a b : List Nat) : MxElem :=
  let (fa, fb) := m.pair.fmts
  let p := addResidues e.planes (imageSum fa fb a b)
  if !last then { e with planes := p }
  else
    let s := crt p
    let e := { e with planes := [0, 0, 0] }
    if i32 then
      let (r, f) := clampInt .i32 (intOf .i32 e.v + if m.mode = MxMode.sub then -s else s)
      { e with v := r, flags := e.flags ||| f }
    else
      let (t, f) := (valOf .f32 m.fs.toNat).mul (.ofInt s)
      { e with flags := e.flags ||| f }.accumulate (m.mode == MxMode.sub) t

/-- A group of 16 values of k of a binary pair (R142). -/
def MxElem.group (e : MxElem) (m : MxCmd) (a b : List Nat) : MxElem :=
  let f := m.pair.fmts.1
  let ps : List (Val × VFlags) := (a.zip b).map fun (x, y) => (valOf f x).mul (valOf f y)
  let (p, f1) := exactTotal (ps.map (·.1))
  let (t, f2) := (valOf .f32 m.fs.toNat).mul p
  { e with flags := ps.foldl (fun (g : VFlags) (q : Val × VFlags) => g ||| q.2) (e.flags ||| f1 ||| f2) }.accumulate (m.mode == MxMode.sub) t

/-- One element through one K-block. -/
def MxElem.block (e : MxElem) (m : MxCmd) (i32 last : Bool) (a b : List Nat) (sa sb : Nat) : MxElem :=
  if m.pair.isBlock then e.scaledBlock m a b sa sb
  else if m.pair.isInt then e.intBlock m i32 last a b
  else (e.group m (a.take 16) (b.take 16)).group m (a.drop 16) (b.drop 16)

/-! ## A K-block of a joint product (R136, R140 to R146) -/

/-- An element as a K-block finds it: overwrite starts from zero (R143). -/
def MxRun.startElem (r : MxRun) (m : MxCmd) (v p1 p2 p3 : Nat) : MxElem :=
  if m.mode = MxMode.ow ∧ r.block = 0 then ⟨0, [0, 0, 0], 0⟩ else ⟨v, [p1, p2, p3], 0⟩

/-- Every element of a participant's accumulator through the current K-block. -/
def MxRun.blockElems (r : MxRun) (m : MxCmd) (c : Core) (a b : MxBlock) : List MxElem :=
  let n := m.acd.toNat
  let vs := (c.plane n 0).zip ((c.plane n 1).zip ((c.plane n 2).zip (c.plane n 3)))
  let last := (r.block + 1) * 32 == r.k
  ((List.range 1024).zip vs).map fun (e, v, p1, p2, p3) =>
    let i := e / 32
    let j := e % 32
    (r.startElem m v p1 p2 p3).block m (c.actype.getLsbD n) last (a.lines.getD i []) (b.lines.getD j [])
      (a.scales.getD i 0) (b.scales.getD j 0)

/-- A participant takes the K-block's elements, and completes with the last block. -/
def Core.takeBlock (c : Core) (r : MxRun) (m : MxCmd) (es : List MxElem) (flags : VFlags) : Core :=
  let n := m.acd.toNat
  let c := (((c.setPlane n 0 (es.map (·.v))).setPlane n 1 (es.map (·.planes.getD 0 0))).setPlane n 2
    (es.map (·.planes.getD 1 0))).setPlane n 3 (es.map (·.planes.getD 2 0))
  let r : MxRun := { r with block := r.block + 1, flags := es.foldl (fun f e => f ||| e.flags) (r.flags ||| flags) }
  if r.block * 32 = r.k then
    ({ c with eng := { c.eng with mrun := none } }.orVflags r.flags).mark r.cmd.seq .complete
  else { c with eng := { c.eng with mrun := some (.product r) } }

/-- What a participant reads for a K-block. -/
structure MxReads where
  id : Nat
  run : MxRun
  cmd : MxCmd
  a : MxBlock
  b : MxBlock
  deriving DecidableEq, Repr

/-- What a participant reads for its next K-block, as its engine sees it. -/
def State.participantReads (s : State) (id : Nat) : Option MxReads :=
  match (s.coreAt id).product? with
  | none => none
  | some r => r.cmd.mx.map fun m =>
    let v := ((s.act id).seenAs (r.cmd.key 2)).act s.cur
    ⟨id, r, m, v.readBlock id m.a m.pair.fmts.1 r.k r.block, v.readBlock id m.b m.pair.fmts.2 r.k r.block⟩

/-- One participant's K-block. -/
def State.participantBlock (s : State) (p : MxReads) : State :=
  let r := p.run
  let m := p.cmd
  let spans := blockSpans m.pair.fmts.1 r.k r.block (s.handleAddr p.id m.a) ++
    blockSpans m.pair.fmts.2 r.k r.block (s.handleAddr p.id m.b)
  let s := ((s.act p.id).notesAll (r.cmd.key 2) spans).act s.cur
  (s.updCoreAt p.id fun c => c.takeBlock r m (r.blockElems m c p.a p.b) (p.a.flags ||| p.b.flags)).logErrors p.id r.cmd.seq
    (p.a.errors ++ p.b.errors)

/-- The participants of a product go through its next K-block together; none moves while one is stopped (R146). -/
def State.productBlock (s : State) (id : Nat) (r : MxRun) : State :=
  let members := maskCores id r.cmd.mask
  let ready (k : Nat) : Bool := (s.coreAt k).enginesRun && match (s.coreAt k).product? with
    | some q => q.cmd.mask == r.cmd.mask && q.block == r.block
    | none => false
  if members.all ready then s.forEach (members.filterMap s.participantReads) State.participantBlock else s

/-! ## The row barrier (R132, R133) -/

/-- The head of a core's matrix queue, if it is a matrix instruction and nothing runs. -/
def Core.matrixHead? (c : Core) : Option (Cmd × MxCmd) :=
  if c.eng.mrun.isSome then none
  else match c.eng.mq with
    | cmd :: _ => cmd.mx.map (cmd, ·)
    | [] => none

/-- A posted head of a core whose engines run. -/
def State.posted? (s : State) (id : Nat) : Option (Cmd × MxCmd) :=
  let c := s.coreAt id
  if c.eng.posted && c.enginesRun then c.matrixHead? else none

/-- A named tile of a matrix instruction is filling or draining; one that was empty at issue is not waited for (R24). -/
def State.operandWaits (s : State) (id : Nat) (m : MxCmd) : Bool :=
  ([(m.a, 0), (m.b, 1)] : List (Word × Nat)).any fun (h, k) =>
    h.extractLsb' 12 52 == 0 && !m.unbound.getLsbD k && s.ownerStays id h &&
      ((s.handleTile id h).state == .filling || (s.handleTile id h).state == .draining)

/-- A posted head sees another mask among the posted heads of its mask (R132). -/
def State.maskDisagrees (s : State) (id : Nat) (m : MxCmd) : Bool :=
  (maskCores id m.mask).any fun k => match s.posted? k with
    | some (_, q) => q.mask != m.mask
    | none => false

/-- Every posted head of the row that sees another mask raises MATRIX_MISMATCH. -/
def State.mismatchRow (s : State) (id : Nat) : State :=
  let bad := (rowCores id).filterMap fun k => (s.posted? k).bind fun (cmd, m) =>
    if s.maskDisagrees k m then some (k, cmd) else none
  s.forEach bad fun s (k, cmd) => s.matrixFault k cmd (Cause.matrixMismatch, 0)

/-- The participants' heads agree in pair, mode and A handle, and with these in K (R133). -/
def headsAgree (heads : List (Nat × Cmd × MxCmd)) : Bool :=
  heads.all fun (_, _, m) => heads.all fun (_, _, q) => m.pair == q.pair && m.mode == q.mode && m.a == q.a

/-- The fault of each participant when an operand check fails: its own cause, or MATRIX_MISMATCH (R133). -/
def barrierFaults (heads : List (Nat × Cmd × MxCmd)) (own : List (Except CmdFault Nat)) : List (Nat × Cmd × CmdFault) :=
  (heads.zip own).map fun ((k, cmd, _), r) => (k, cmd, match r with
    | .error f => f
    | .ok _ => (Cause.matrixMismatch, 0))

/-- The checks of the barrier on the heads of the participants, agreement first: K, or the fault of each (R133). -/
def State.barrierCheck (s : State) (heads : List (Nat × Cmd × MxCmd)) : Except (List (Nat × Cmd × CmdFault)) Nat :=
  let own : List (Except CmdFault Nat) := heads.map fun (k, _, m) => s.checkOperands k m
  if !headsAgree heads then .error (heads.map fun (k, cmd, _) => (k, cmd, (Cause.matrixMismatch, 0)))
  else match own with
    | .ok k :: _ => if own.all (fun r => match r with | .ok j => j == k | .error _ => false) then .ok k else .error (barrierFaults heads own)
    | _ => .error (barrierFaults heads own)

/-- The tiles of its own core that a matrix instruction names. -/
def Cmd.ownOperands (cmd : Cmd) (id : Nat) : List (BitVec 8) :=
  match cmd.mx with
  | some m => ([m.a, m.b].filter fun (h : Word) => handleOwner id h == id).map fun (h : Word) => h.extractLsb' 0 8
  | none => []

/-- The head of a core's matrix queue starts to run. -/
def Core.startProduct (c : Core) (id : Nat) (cmd : Cmd) (k : Nat) : Core :=
  let c : Core := { c with eng := { c.eng with mq := c.eng.mq.tail, mrun := some (.product ⟨cmd, k, 0, 0⟩), posted := false } }
  (c.startsMatrix (cmd.key 2) (cmd.ownOperands id)).mark cmd.seq .running

/-- The barrier of a core's row opens once every core of its mask has posted, and no named tile of theirs is filling or draining again
(R24, R107). -/
def State.openBarrier (s : State) (id : Nat) : State :=
  match s.posted? id with
  | none => s
  | some (_, m) =>
    let members := maskCores id m.mask
    let heads := members.filterMap fun k => (s.posted? k).map fun h => (k, h)
    if heads.length < members.length ∨ heads.any (fun (k, _, q) => s.operandWaits k q) then s
    else match s.barrierCheck heads with
      | .ok k => s.forEach heads fun s (i, cmd, _) => s.updCoreAt i fun c => c.startProduct i cmd k
      | .error l => s.forEach l fun s (i, cmd, f) => s.matrixFault i cmd f

/-- A matrix head posts to the row barrier (R132, R45). -/
def State.postHead (s : State) (id : Nat) : State :=
  match (s.coreAt id).matrixHead? with
  | none => s
  | some (cmd, m) =>
    if !m.mask.getLsbD (colOf id) then s.matrixFault id cmd (Cause.matrixMismatch, 0)
    else if s.operandWaits id m then s
    else
      let s := s.updCoreAt id fun c => { c with eng := { c.eng with posted := true } }
      (s.mismatchRow id).openBarrier id

/-- A step of the matrix array for a core: the next K-block of its product, or the posting of its head. -/
def execJointProductStart (core : Nat) (s : State) : Host.Outcome State Fault Refusal :=
  match (s.coreAt core).product? with
  | some r => .next (s.productBlock core r)
  | none => .next (if (s.coreAt core).enginesRun then s.postHead core else s)

/-! ## Accumulator commands (R147, R148) -/

/-- The step of an accumulator command: the state, the cells it moved, and its message or its fault. -/
structure AccDone where
  s : State
  fault : Option Stop
  flags : VFlags
  post : Option Msg
  /-- Cells counted at the fill tile. -/
  moved : Nat
  deriving DecidableEq, Repr

/-- It ends without a message. -/
def AccDone.silent (s : State) : AccDone := ⟨s, none, 0, none, 0⟩

/-- The command has ended: it frees its slot, or waits to post. -/
def AccDone.finish (r : AccDone) (cmd : Cmd) : State :=
  let s := r.s.updCore fun c => c.arriveCells cmd r.moved
  match r.fault with
  | some (.wait _) => r.s
  | some (.fault f) => ((s.logFail cmd f).updCore fun c =>
      match cmd.fill with
      | some (t, n) => { c with eng := { c.eng with mq := listUpdate c.eng.mq 0 fun q => { q with fill := some (t, n - r.moved) } } }
      | none => c).matrixFault s.cur cmd (f.cause, f.tval)
  | none => s.updCore fun c =>
    let c : Core := { c with eng := { c.eng with mq := c.eng.mq.tail } }
    match r.post with
    | some m => { c with eng := { c.eng with mrun := some (.posting cmd m r.flags) } }.mark cmd.seq .running
    | none => (c.orVflags r.flags).mark cmd.seq .complete

/-- The turn of an accumulator command at the head of the acting core's matrix queue: one step once its tiles allow it; none for a count
of 0 (R66). -/
def State.accTurn (s : State) (i : Instr) (check : Cmd → Except CmdFault Unit) (step : State → Cmd → AccDone) :
    Host.Outcome State Fault Refusal :=
  match s.core.eng.mrun, s.core.eng.mq with
  | none, cmd :: _ =>
    if !cmd.is 2 i ∨ s.copyHeld cmd then .next s
    else match if cmd.bad then .error (badCommand cmd) else check cmd with
      | .error f => .next (s.matrixFault s.cur cmd f)
      | .ok _ => .next ((step (s.updCore fun c => c.startsMatrix (cmd.key 5) cmd.from?.toList) cmd).finish cmd)
  | _, _ => .next s

/-- `m.clr` (R148). -/
def execMClr (o : MClr) (s : State) :=
  s.accTurn (.mClr o) (fun _ => .ok ()) fun s _ => .silent (s.updCore fun c =>
    { c with acc := clearBytes c.acc (planeAt o.acd.toNat 0) 0x4000 }.setType o.acd.toNat (o.head.fmt == some Fmt.i32))

/-- The cells that `m.ld` and `m.cvt` reach: rows from row0, and columns (R302). -/
def accCells (row0 : BitVec 32) (col0 : Int) (count cols : Nat) : Region :=
  if count = 0 then Region.empty 2 else Region.dense 2 [[⟨row0.toInt, count⟩, ⟨col0, cols⟩]]

/-- The checks of `m.ld`. -/
def State.checkMLd (s : State) (o : MLd) (cmd : Cmd) : Except CmdFault Unit := do
  okCommand cmd (cmd.td1.rank == 2 && o.head.fmt == cmd.td1.fmt)
  s.granted cmd.td1 (dispOf o.disp) (accCells o.row0 o.col0.toInt o.head.count.toNat 32) .read

/-- The word an element of a source widens to (R148). -/
def widen (f : Fmt) (raw : Nat) : Nat :=
  if f.isFloat then (roundVal .f32 .rne 0 (valOf f raw)).1 else (intOf f raw % 2 ^ 32).toNat

/-- An element that `m.ld` reads: its word, and whether it was uncorrectable (log 24). -/
def State.loadCell (s : State) (o : MLd) (cmd : Cmd) (c : List Int) : Except Stop (Nat × Bool × State) :=
  let td := cmd.td1
  let c := td.wrapped c
  if !td.inBounds c then .ok (0, false, s)
  else
    let e := td.elem (dispOf o.disp) c
    match s.elemPlace cmd.sup .read td.format e 2 with
    | .error x => .error x
    | .ok (pl, s) =>
      if s.poisoned pl.phys (elemBytes td.format) then
        .ok (0, true, s.logErrors s.cur cmd.seq [⟨2, false, Config.unstated s.tick 4⟩])
      else
        let (v, s) := s.engineRead (cmd.key 5) pl (elemBytes td.format)
        .ok (widen td.format (pickElem td.format e.odd v), false, s)

/-- What a command that cannot go on leaves: the errors it has logged if it faults (R322), nothing if it waits. -/
def stoppedAt (s : State) (e : Stop) (s' : State) : State :=
  match e with
  | .fault _ => s'
  | .wait _ => s

/-- Read cells one after another. -/
def State.loadCells (s : State) (o : MLd) (cmd : Cmd) : List (List Int) → Except (State × Stop) (List Nat × Bool × State)
  | [] => .ok ([], false, s)
  | c :: rest =>
    match s.loadCell o cmd c with
    | .error e => .error (s, e)
    | .ok (v, bad, s) => match s.loadCells o cmd rest with
      | .error e => .error e
      | .ok (vs, b, s) => .ok (v :: vs, bad || b, s)

/-- `m.ld` (R148). -/
def execMLd (o : MLd) (s : State) :=
  s.accTurn (.mLd o) (s.checkMLd o) fun s cmd =>
    let cells := (List.range (32 * o.head.count.toNat)).map fun k => [o.row0.toInt + (k / 32 : Nat), o.col0.toInt + (k % 32 : Nat)]
    if o.head.count = 0 then .silent s
    else match s.loadCells o cmd cells with
    | .error (s', e) => ⟨stoppedAt s e s', some e, 0, none, 0⟩
    | .ok (vs, bad, s') =>
      let n := o.acd.toNat
      let s' := s'.updCore fun c =>
        ({ c with acc := clearBytes c.acc (planeAt n 0) 0x4000 }.setPlane n 0 vs).setType n !cmd.td1.format.isFloat
      ⟨s', none, VFlags.when bad VFlags.errz, none, 0⟩

/-- The checks of `m.cvt`. -/
def State.checkMCvt (s : State) (o : MCvt) (cmd : Cmd) : Except CmdFault Unit := do
  okCommand cmd (mCvtTakes o cmd.td1 cmd.td2)
  s.granted cmd.td1 (dispOf o.disp) (accCells o.row0 o.col0.toInt o.head.count.toNat 32) .write
  if cmd.td1.format.isBlock then
    s.granted cmd.td2 0 (accCells o.row0 (o.col0.toInt / 32) o.head.count.toNat 1) .write
  else .ok ()

/-- A row of an accumulator in a format: its scale code if it has one, its elements and the flags (R125, R126). -/
def State.convertRow (s : State) (o : MCvt) (cmd : Cmd) (i : Nat) : Option Nat × List Nat × VFlags :=
  let c := s.core
  let n := o.acs.toNat
  let src : Fmt := if c.actype.getLsbD n then .i32 else .f32
  let mode := rmodeOf o.head.round
  let f := cmd.td1.format
  let vs := (List.range 32).map fun j =>
    (valOf src (readLE c.acc (planeAt n 0 + 4 * (32 * i + j)) 4),
      if mode = .sr then randomWord c.csr.jobseed cmd.lcore cmd.ctr0 (32 * i + j) else 0)
  if f.isBlock then
    let (sc, es, fl) := convertBlock f mode vs
    (some sc, es, fl)
  else
    let rs := vs.map fun (v, z) => roundVal f mode z v
    (none, rs.map (·.1), rs.foldl (fun fl r => fl ||| r.2) 0)

/-- Write the cells of a row one after another: cells written, and whether one was suppressed. -/
def State.writeRow (s : State) (kind : Nat) (cmd : Cmd) (td : Td) (disp : Word) :
    List (List Int × Nat) → Except (State × Stop) (Nat × Bool × State)
  | [] => .ok (0, false, s)
  | (c, v) :: rest =>
    match s.writeCell kind cmd td disp c v 2 with
    | .error e => .error (s, e)
    | .ok none => match s.writeRow kind cmd td disp rest with
      | .error e => .error e
      | .ok (n, _, s) => .ok (n, true, s)
    | .ok (some s) => match s.writeRow kind cmd td disp rest with
      | .error e => .error e
      | .ok (n, cl, s) => .ok (n + 1, cl, s)

/-- Write rows from row i on; `n` rows are left. -/
def State.convertRows (s : State) (o : MCvt) (cmd : Cmd) (i : Nat) : Nat → Nat → Bool → VFlags → AccDone
  | 0, written, clipped, fl =>
    ⟨s, none, fl, some (cmd.message 2 (if clipped then 1 else 0) o.tag written), 32 * i⟩
  | n + 1, written, clipped, fl =>
    let (sc, es, f) := s.convertRow o cmd i
    let row := o.row0.toInt + i
    let cells := ((List.range 32).zip es).map fun (j, v) => ([row, o.col0.toInt + j], v)
    match s.writeRow 5 cmd cmd.td1 (dispOf o.disp) cells with
    | .error (s, e) => ⟨s, some e, 0, none, 32 * i⟩
    | .ok (w, cl, s) =>
      match s.writeRow 5 cmd cmd.td2 0 (sc.toList.map fun v => ([row, o.col0.toInt / 32], v)) with
      | .error (s, e) => ⟨s, some e, 0, none, 32 * i⟩
      | .ok (_, cl', s) => s.convertRows o cmd (i + 1) n (written + w) (clipped || cl || cl') (fl ||| f)

/-- `m.cvt` (R148). -/
def execMCvt (o : MCvt) (s : State) :=
  s.accTurn (.mCvt o) (s.checkMCvt o) fun s cmd => s.convertRows o cmd 0 o.head.count.toNat 0 false 0

/-- Write 64-byte pieces of an image, as far as they can be written (R148). -/
def State.writePieces (s : State) (cmd : Cmd) (va : Nat) : List (List Byte) → State × Option Stop
  | [] => (s, none)
  | bs :: rest =>
    match s.engineResolve cmd.sup .write va 64 2 with
    | .error e => (s, some e)
    | .ok (pl, s) => (s.engineWrite (cmd.key 5) none [] pl 64 (leNat bs) 4 0xFF).writePieces cmd (va + 64) rest

/-- The header of an accumulator image (R148). -/
def accHeader (int : Bool) : List Byte := (if int then 1#8 else 0#8) :: List.replicate 63 0

/-- `m.sv` (R148). -/
def execMSv (o : MImg) (s : State) :=
  s.accTurn (.mSv o) (fun _ => .ok ()) fun s cmd =>
    let n := o.ac.toNat
    let pieces := accHeader (s.core.actype.getLsbD n) :: (List.range 256).map fun k => readBytes s.core.acc (planeAt n 0 + 64 * k) 64
    let (s', e) := s.writePieces cmd o.addr.toNat pieces
    ⟨s', e, 0, some (cmd.message 2 0 o.tag 16448), 0⟩

/-- Read 64-byte pieces of an image; an uncorrectable piece's bytes read as zero (log 24). -/
def State.readPieces (s : State) (cmd : Cmd) (va : Nat) : Nat → Except (State × Stop) (List Byte × Bool × State)
  | 0 => .ok ([], false, s)
  | n + 1 =>
    match s.engineResolve cmd.sup .read va 64 2 with
    | .error e => .error (s, e)
    | .ok (pl, s) =>
      let bad (k : Nat) : Bool := s.poisoned (pl.phys + k / 4 * 4) 4
      let (v, s) := s.engineRead (cmd.key 5) pl 64
      let bs := (List.range 64).map fun k => if bad k then 0 else BitVec.ofNat 8 (v >>> (8 * k))
      let s' := s.logErrors s.cur cmd.seq (((List.range 16).filter fun k => bad (4 * k)).map fun _ =>
        ⟨2, false, Config.unstated s.tick 4⟩)
      match s'.readPieces cmd (va + 64) n with
      | .error e => .error e
      | .ok (r, b, s') => .ok (bs ++ r, s.poisoned pl.phys 64 || b, s')

/-- Every residue of an image is legal (R148). -/
def imageLegal (image : List Byte) : Bool :=
  (List.range 3).all fun p => (List.range 1024).all fun k =>
    leNat ((image.drop (0x1000 * (p + 1) + 4 * k)).take 4) < moduli.getD p 0

/-- `m.rs` (R148). -/
def execMRs (o : MImg) (s : State) :=
  s.accTurn (.mRs o) (fun _ => .ok ()) fun s cmd =>
    match s.readPieces cmd o.addr.toNat 257 with
    | .error (s', e) => ⟨stoppedAt s e s', some e, 0, none, 0⟩
    | .ok (bs, bad, s') =>
      let head := leNat (bs.take 64)
      let image := bs.drop 64
      if 1 < head ∨ !imageLegal image then ⟨s', some (.fault (.of Cause.badCommand cmd.pool)), 0, none, 0⟩
      else
        let n := o.ac.toNat
        ⟨s'.updCore fun c => { c with acc := writeBytes c.acc (planeAt n 0) image }.setType n (head == 1), none,
          VFlags.when bad VFlags.errz, none, 0⟩

end Sys2Proof.Machine
end

