-- ==== Sys2Proof/Machine/VectorOps.lean ====
section
/-!
DEFINITION. The vector engine (R149 to R168). A command's turn starts it, or runs one step of it.
-/

namespace Sys2Proof.Machine

/-! ## Runs of elements -/

/-- Bytes of m elements. -/
def runBytes (width m : Nat) : Nat := (m * width + 7) / 8

/-- Element i of a run (R97: an even 4-bit element in the low nibble). -/
def runElem (spad : Memory) (off width i : Nat) : Nat :=
  if width = 4 then
    let b := (readByte spad (off + i / 2)).toNat
    if i % 2 = 0 then b % 16 else b / 16
  else readLE spad (off + i * (width / 8)) (width / 8)

/-- The spad with element i of a run written; a 4-bit element keeps its neighbour. -/
def putElem (spad : Memory) (off width i v : Nat) : Memory :=
  if width = 4 then
    let b := (readByte spad (off + i / 2)).toNat
    writeByte spad (off + i / 2) (BitVec.ofNat 8 (if i % 2 = 0 then b / 16 * 16 + v % 16 else b % 16 + v % 16 * 16))
  else writeLE spad (off + i * (width / 8)) (width / 8) v

/-- The spad with a run written. -/
def putRun (spad : Memory) (off width : Nat) (vs : List Nat) : Memory :=
  ((List.range vs.length).zip vs).foldl (fun m (i, v) => putElem m off width i v) spad

/-- A run that a step writes: offset, element width, elements. -/
abbrev RunWrite := Nat × Nat × List Nat

/-- A run read, uncorrectable elements as zero, and their offsets (R153). -/
def State.readRun (s : State) (off width m : Nat) : List Nat × List Nat :=
  let spad := s.core.spad
  let vs := (List.range m).map (runElem spad off width)
  if s.spadPoisoned s.cur off (runBytes width m) then
    let bad (i : Nat) : Bool := s.spadPoisoned s.cur (off + i * width / 8) (max 1 (width / 8))
    (((List.range m).zip vs).map fun (i, v) => if bad i then 0 else v,
      ((List.range m).filter bad).map fun i => off + i * width / 8)
  else (vs, [])

/-! ## Pointers (R151, R153) -/

/-- The offset of an access of n bytes through a pointer, or VECTOR_OPERAND with the offset before wrapping. -/
def Core.vectorAccess (c : Core) (p : VPtr) (extra : Int) (align n : Nat) : Except CmdFault Nat :=
  let t := c.tile p.tile.toNat
  let toff := t.off.toNat
  let tlen := t.len.toNat
  let wrap := p.wrap.toNat
  let o : Int := p.offset.toNat + extra
  let bad : Except CmdFault Nat := .error (Cause.vectorOperand, BitVec.ofInt 64 o)
  if wrap ≠ 0 ∧ (wrap % 64 ≠ 0 ∨ tlen < wrap) then bad
  else
    let o' : Int := if wrap = 0 then o else toff + (o - toff) % wrap
    if o' < toff ∨ (toff + tlen : Int) < o' + n ∨ (wrap ≠ 0 ∧ (toff + wrap : Int) < o' + n) ∨ o' % align ≠ 0 then bad
    else .ok o'.toNat

/-- The current value of a pointer of a running command. -/
def VRun.pointer (r : VRun) (p : Reg4) : VPtr := ((r.ptrs.find? fun e => e.1 == p).map (·.2.1)).getD VPtr.zero

/-- The size of the access of a role in a step of m elements: element width and alignment; a mask is `none`. -/
def VOp.shape (k : VOp) (o : VOps) (role : VRole) : Option Nat :=
  match k, role with
  | .cmpEq, .c | .cmpLt, .c | .cmpLe, .c | .sel, .c => none
  | .cvt, .c => some 8
  | .cvt, .a => some (vSrcFmt k o).width
  | .perm, .b => some 8
  | _, _ => some (vFmt o).width

/-- Elements that a role's access holds in a step of m elements: one scale code for a block. -/
def VOp.roleCount (k : VOp) (role : VRole) (m : Nat) : Nat := if k = .cvt ∧ role = .c then 1 else m

/-- The displacement of an access through a pointer register: that of w1 through the first pointer, whatever role it plays (R149). -/
def vDisp (o : VOps) (p : Reg4) : Int := if p = o.vp1 then (dispOf o.disp).toInt else 0

/-- Offset of the access of a role in the current step. -/
def State.roleOffset (s : State) (r : VRun) (k : VOp) (o : VOps) (role : VRole) (m : Nat) : Except CmdFault Nat :=
  let extra := vDisp o (vPointer o role)
  let p := r.pointer (vPointer o role)
  match k.shape o role with
  | none => s.core.vectorAccess p extra 1 ((m + 7) / 8)
  | some w => s.core.vectorAccess p extra (max 1 (w / 8)) (runBytes w (k.roleCount role m))

/-! ## Elements (R161 to R167) -/

/-- Sum, difference, product or fused sum of elements, rounded once (R161, R166). -/
def vArith (k : VOp) (f : Fmt) (mode : RMode) (z : Nat) (sat : Bool) (a b c : Nat) : Nat × VFlags :=
  if f.isInt then
    let x := intOf f a
    let y := intOf f b
    finInt f sat (match k with
      | .add => x + y
      | .sub => x - y
      | .fma | .fmas => x * y + intOf f c
      | _ => x * y)
  else
    let x := valOf f a
    let y := valOf f b
    let (v, fl) := match k with
      | .add => x.add mode y
      | .sub => x.add mode y.neg
      | .fma | .fmas => Val.fma mode x y (valOf f c)
      | _ => x.mul y
    let (r, g) := roundVal f mode z v
    (r, fl ||| g)

/-- The sign bit of an element. -/
def signBit (f : Fmt) (a : Nat) : Bool := a.testBit (f.width - 1)

/-- The lesser or greater element (R161): a NaN gives the canonical NaN, and the sign decides between zeros. -/
def vPick (greater : Bool) (f : Fmt) (a b : Nat) : Nat :=
  match (valOf f a).cmp (valOf f b) with
  | none => nanCode f
  | some .lt => if greater then b else a
  | some .gt => if greater then a else b
  | some .eq => if f.isInt then a else if signBit f a = greater then b else a

/-- A shift (R161). -/
def vShift (left : Bool) (f : Fmt) (a b : Nat) : Nat :=
  let n := b % f.width
  if left then (a <<< n) % 2 ^ f.width else ((intOf f a) / (2 ^ n : Int) % (2 ^ f.width : Int)).toNat

/-- A comparison (R162); false with a NaN. -/
def vCompare (k : VOp) (f : Fmt) (a b : Nat) : Bool :=
  match k, (valOf f a).cmp (valOf f b) with
  | .cmpEq, some .eq => true
  | .cmpLt, some .lt => true
  | .cmpLe, some .lt | .cmpLe, some .eq => true
  | _, _ => false

/-- A function of one element (R128, R164). -/
def vFunction (k : VOp) (v : Val) : Val × VFlags :=
  match k with
  | .exp2 => v.exp2
  | .log2 => v.log2
  | .rcp => v.rcp
  | .rsq => v.rsq
  | _ => v.sig

/-- Bits as bytes of a mask, bits beyond the count zero (R162). -/
def maskBytes (bits : List Bool) : List Nat :=
  (List.range ((bits.length + 7) / 8)).map fun k =>
    ((List.range 8).map fun i => if bits.getD (8 * k + i) false then 2 ^ i else 0).foldl (· + ·) 0

/-- Bit i of a mask. -/
def maskBit (bytes : List Nat) (i : Nat) : Bool := (bytes.getD (i / 8) 0).testBit (i % 8)

/-- What a step computes: the runs by role, flags, and what the command carries on. -/
structure VStep where
  runs : List (VRole × List Nat)
  flags : VFlags
  scalar : Word
  sum : ExactSum
  /-- Elements `v.nzs` writes: place in the output, value, index. -/
  kept : List (Nat × Nat × Nat)
  deriving DecidableEq, Repr

/-- The results of elements in order, flags together. -/
def gather (l : List (Nat × VFlags)) : List Nat × VFlags := (l.map (·.1), l.foldl (fun f r => f ||| r.2) 0)

/-- One block of a block-scaled conversion (R120, R126, R163). -/
def vConvertBlock (o : VOps) (mode : RMode) (zs a : List Nat) (scale : Nat) : List (VRole × List Nat) × VFlags :=
  let src := vSrcFmt .cvt o
  let bad := src.isBlock && scale == 255
  let vs := a.map fun x => if src.isBlock then scaledVal src x scale else valOf src x
  if (vFmt o).isBlock then
    let (code, es, fl) := convertBlock (vFmt o) mode (vs.zip zs)
    ([(.d, es), (.c, [code])], fl)
  else
    let (es, fl) := gather ((vs.zip zs).map fun (v, z) => roundVal (vFmt o) mode z v)
    ([(.d, es)], fl ||| VFlags.when bad VFlags.badsc)

/-- Prefix sums (R165). -/
def vScan (f : Fmt) (mode : RMode) (sat : Bool) : List (Nat × Nat) → ExactSum → List (Nat × VFlags) × ExactSum
  | [], s => ([], s)
  | (a, z) :: t, s =>
    let s := s.add (valOf f a)
    let r := if f.isInt then finInt f sat (s.num * 2 ^ s.ex.toNat) else
      let (v, fl) := s.val
      let (x, g) := roundVal f mode z v
      (x, fl ||| g)
    let (l, s) := vScan f mode sat t s
    (r :: l, s)

/-- The elements `v.nzs` keeps (R165): their place in the output from n on, with the index base + i. -/
def vKeep (f : Fmt) (base : Nat) : List (Nat × Nat) → Nat → List (Nat × Nat × Nat)
  | [], _ => []
  | (i, a) :: t, n =>
    if (valOf f a).isZero then vKeep f base t n else (n, a, (base + i) % 2 ^ 32) :: vKeep f base t (n + 1)

/-- A step on the elements it has read, `k0` being the index of its first (R160 to R167). An operation that moves elements leaves a NaN's
bits as they are (log 117). -/
def vStep (k : VOp) (o : VOps) (r : VRun) (k0 : Nat) (zs a b c d : List Nat) : VStep :=
  let f := vFmt o
  let mode := rmodeOf o.head.round
  let m := zs.length
  let s := r.scalar.toNat % 2 ^ f.width
  let out (l : List (Nat × VFlags)) : VStep :=
    let (es, fl) := gather l
    ⟨[(.d, es)], fl, r.scalar, r.sum, []⟩
  let plain (role : VRole) (l : List Nat) : VStep := ⟨[(role, l)], 0, r.scalar, r.sum, []⟩
  match k with
  | .add | .sub | .mul => out ((a.zip (b.zip zs)).map fun (x, y, z) => vArith k f mode z o.sat x y 0)
  | .fma => out ((a.zip (b.zip (c.zip zs))).map fun (x, y, w, z) => vArith k f mode z o.sat x y w)
  | .scl => out ((a.zip zs).map fun (x, z) => vArith k f mode z o.sat x s 0)
  | .fmas => out ((a.zip (d.zip zs)).map fun (x, w, z) => vArith k f mode z o.sat x s w)
  | .min => plain .d ((a.zip b).map fun (x, y) => vPick false f x y)
  | .max => plain .d ((a.zip b).map fun (x, y) => vPick true f x y)
  | .and => plain .d ((a.zip b).map fun (x, y) => x &&& y)
  | .or => plain .d ((a.zip b).map fun (x, y) => x ||| y)
  | .xor => plain .d ((a.zip b).map fun (x, y) => x ^^^ y)
  | .shl => plain .d ((a.zip b).map fun (x, y) => vShift true f x y)
  | .shr => plain .d ((a.zip b).map fun (x, y) => vShift false f x y)
  | .cmpEq | .cmpLt | .cmpLe => plain .c (maskBytes ((a.zip b).map fun (x, y) => vCompare k f x y))
  | .sel => plain .d (((List.range m).zip (a.zip b)).map fun (i, x, y) => if maskBit c i then x else y)
  | .cvt =>
    let (runs, fl) := vConvertBlock o mode zs a (c.getD 0 127)
    ⟨runs, fl, r.scalar, r.sum, []⟩
  | .exp2 | .log2 | .rcp | .rsq | .sig => out ((a.zip zs).map fun (x, z) =>
      let (v, fl) := vFunction k (valOf f x)
      let (y, g) := roundVal f mode z v
      (y, fl ||| g))
  | .redAdd => ⟨[], 0, r.scalar, a.foldl (fun t x => t.add (valOf f x)) r.sum, []⟩
  | .redMax => ⟨[], 0, w64 (a.foldl (vPick true f) s), r.sum, []⟩
  | .scanAdd =>
    let (l, t) := vScan f mode o.sat (a.zip zs) r.sum
    { out l with sum := t }
  | .nzs => ⟨[], 0, r.scalar, r.sum, vKeep f o.imm.toNat (((List.range m).map (k0 + ·)).zip a) r.outCount⟩
  | .bcast => plain .a (List.replicate m s)
  | .perm => plain .d (b.map fun p => a.getD (p % m) 0)
  | .mov => plain .d a
  | .fill => plain .a (List.replicate m (o.imm.toNat % 2 ^ f.width))
  | .trn => plain .d a

/-- What a reduction pushes at its end (R158, R165). -/
def vPush (k : VOp) (o : VOps) (z0 : Nat) (r : VRun) : Option Word × VFlags :=
  let f := vFmt o
  match k with
  | .redAdd =>
    if f.isInt then (some (BitVec.ofInt 64 (r.sum.num * 2 ^ r.sum.ex.toNat)), 0)
    else if vCount o = 0 then (some 0, 0)
    else
      let (v, fl) := r.sum.val
      let (x, g) := roundVal f (rmodeOf o.head.round) z0 v
      (some (w64 x), fl ||| g)
  | .redMax => (some (if f.isInt then BitVec.ofInt 64 (intOf f r.scalar.toNat) else r.scalar), 0)
  | .nzs => (some (w64 r.outCount), 0)
  | _ => (none, 0)

/-- The least element, which `v.red.max` starts from (R165). -/
def vLeast (f : Fmt) : Word :=
  if f.isInt then w64 (((intRange f).1 % 2 ^ f.width).toNat)
  else w64 (roundVal f .rne 0 (.inf true)).1

/-! ## Start, step and end (R158, R168) -/

/-- The end of a running command's steps: what it pushes and posts (R156, R158). -/
def State.endVector (s : State) (k : VOp) (o : VOps) (r : VRun) : State :=
  let z0 := if o.head.round = .sr then randomWord s.core.csr.jobseed r.cmd.lcore r.cmd.ctr0 0 else 0
  let (push, fl) := vPush k o z0 r
  let cells := match k with
    | .redAdd | .redMax => 0
    | .nzs => r.outCount
    | .trn => vCount o * k.perStep o * k.perStep o
    | _ => vCount o
  let post := if o.msg then some (r.cmd.message 1 0 o.tag cells) else none
  s.updCore fun c => c.settleVector { r with done := true, push := push, post := post, flags := r.flags ||| fl }

/-- A fault of the vector engine: its command and every younger one are discarded (R312). -/
def State.vectorFault (s : State) (cmd : Cmd) (f : CmdFault) : State :=
  s.updCore fun c => c.dropVector.pendFault 1 cmd.seq f

/-- The tiles a command names through its pointers. -/
def Cmd.tiles (cmd : Cmd) : List (BitVec 8) := cmd.ptrs.map fun p => p.2.1.tile

/-- A tile that a command names through its pointers is filling or draining (R24). -/
def Core.pointersWait (c : Core) (cmd : Cmd) : Bool :=
  cmd.tiles.any fun t => (c.tile t.toNat).state == .filling || (c.tile t.toNat).state == .draining

/-- Offset of the first pointer whose tile is empty. -/
def Core.emptyPointer? (c : Core) (l : List (BitVec 4 × VPtr × Nat)) : Option (BitVec 20) :=
  (l.find? fun p => (c.tile p.2.1.tile.toNat).state == .empty).map fun p => p.2.1.offset

/-- The command at the head starts, once no tile of it is filling or draining and the scalar it needs is in q0 (R24, R153, R158). One
whose tile was empty at issue faults at the head, and takes no scalar (log 126). -/
def State.startVector (s : State) (k : VOp) (o : VOps) (cmd : Cmd) : State :=
  let c := s.core
  let pops := k == .scl || k == .fmas || k == .bcast
  if cmd.bad then s.vectorFault cmd (badCommand cmd)
  else match cmd.emptyTile with
    | some off => s.vectorFault cmd (Cause.vectorOperand, w64 off.toNat)
    | none =>
      if c.pointersWait cmd || (pops && c.regs.q0.isEmpty) then s
      else match c.emptyPointer? cmd.ptrs with
      | some off => s.vectorFault cmd (Cause.vectorOperand, w64 off.toNat)
      | none =>
        let scalar := if pops then c.regs.q0.headD 0 else if k = .redMax then vLeast (vFmt o) else 0
        let r : VRun := ⟨cmd, 0, cmd.ptrs, scalar, ExactSum.empty, 0, 0, none, none, false⟩
        let s := s.updCore fun c =>
          { c with
            regs := { c.regs with q0 := if pops then c.regs.q0.tail else c.regs.q0 }
            eng := { c.eng with vq := c.eng.vq.tail, vrun := some r } }.startsVector (cmd.key 1) cmd.tiles |>.mark cmd.seq .running
        if k.steps o = 0 then s.endVector k o r else s

/-- Elements of the current step. -/
def VRun.stepCount (r : VRun) (k : VOp) (o : VOps) : Nat := min (k.perStep o) (vCount o - r.step * k.perStep o)

/-- The reads of a step: a role's elements and its uncorrectable offsets. The index run of `v.perm` has as many bytes as the step has
elements (log 128). -/
def State.readRole (s : State) (r : VRun) (k : VOp) (o : VOps) (m : Nat) (role : VRole) :
    Except CmdFault (List Nat × List Nat) :=
  if !(k.reads o).contains role then .ok ([], [])
  else match s.roleOffset r k o role m with
    | .error e => .error e
    | .ok off => .ok (match k.shape o role with
      | none => s.readRun off 8 ((m + 7) / 8)
      | some w => s.readRun off w (k.roleCount role m))

/-- The writes of a step, each access checked (R153). -/
def State.roleWrites (s : State) (r : VRun) (k : VOp) (o : VOps) (m : Nat) :
    List (VRole × List Nat) → Except CmdFault (List RunWrite)
  | [] => .ok []
  | (role, vs) :: t =>
    match s.roleOffset r k o role m, s.roleWrites r k o m t with
    | .ok off, .ok l => .ok ((off, (k.shape o role).getD 8, vs) :: l)
    | .error e, _ => .error e
    | _, .error e => .error e

/-- The writes of `v.nzs`, element by element. -/
def State.keptWrites (s : State) (r : VRun) (o : VOps) : List (Nat × Nat × Nat) → Except CmdFault (List (Nat × Nat × Nat × Nat))
  | [] => .ok []
  | (j, v, i) :: t =>
    let w := (vFmt o).width
    let n := max 1 (w / 8)
    match s.core.vectorAccess (r.pointer o.vpd) (vDisp o o.vpd + (j * w / 8 : Nat)) n n,
        s.core.vectorAccess (r.pointer o.vpc) (vDisp o o.vpc + (4 * j : Nat)) 4 4, s.keptWrites r o t with
    | .ok d, .ok c, .ok l => .ok ((d, if w = 4 then j % 2 else 0, v, 0) :: (c, 0, i, 1) :: l)
    | .error e, _, _ => .error e
    | _, .error e, _ => .error e
    | _, _, .error e => .error e

/-- Row i of a block that `v.trn` reads or writes: 64 bytes at a pitch (R167). -/
def State.trnRow (s : State) (r : VRun) (o : VOps) (source : Bool) (i : Nat) : Except CmdFault Nat :=
  let pitch := if source then o.imm.toNat % 65536 else o.imm.toNat / 65536
  let p := if source then o.vp1 else o.vpd
  s.core.vectorAccess (r.pointer p) (vDisp o p + (i * pitch : Nat)) (max 1 ((vFmt o).width / 8)) 64

/-- One block of `v.trn`: its writes, in order of their rows, so that of rows that overlap the last remains (log 128), and its
uncorrectable offsets. -/
def State.trnBlock (s : State) (r : VRun) (o : VOps) : Except CmdFault (List RunWrite × List Nat) :=
  let e := VOp.trn.perStep o
  let w := (vFmt o).width
  match (List.range e).mapM (s.trnRow r o true), (List.range e).mapM (s.trnRow r o false) with
  | .error f, _ => .error f
  | _, .error f => .error f
  | .ok src, .ok dst =>
    let rows := src.map fun off => s.readRun off w e
    .ok (((List.range e).zip dst).map fun (c, off) => (off, w, rows.map fun row => row.1.getD c 0),
      rows.flatMap (·.2))

/-- The offsets of a step's uncorrectable elements as log entries. -/
def vErrors (scale : Bool) (l : List Nat) : List DataError := l.map fun off => ⟨1, scale, w64 off⟩

/-- What a step writes, and the errors it met. -/
structure VEffect where
  writes : List RunWrite
  kept : List (Nat × Nat × Nat × Nat)
  step : VStep
  errors : List DataError
  deriving DecidableEq, Repr

/-- One step: all reads, then the computation, then the checks of its writes (R151, R153). The first access that fails in this order,
a, b, c, d, then the writes, gives the offset reported (log 127). -/
def State.vectorEffect (s : State) (r : VRun) (k : VOp) (o : VOps) : Except CmdFault VEffect :=
  if k = .trn then
    match s.trnBlock r o with
    | .error e => .error e
    | .ok (ws, bad) => .ok ⟨ws, [], ⟨[], 0, r.scalar, r.sum, []⟩, vErrors false bad⟩
  else
    let m := r.stepCount k o
    let k0 := r.step * k.perStep o
    let zs := (List.range m).map fun i =>
      if o.head.round = .sr then randomWord s.core.csr.jobseed r.cmd.lcore r.cmd.ctr0 (k0 + i) else 0
    match s.readRole r k o m .a, s.readRole r k o m .b, s.readRole r k o m .c, s.readRole r k o m .d with
    | .ok a, .ok b, .ok c, .ok d =>
      let st := vStep k o r k0 zs a.1 b.1 c.1 d.1
      match s.roleWrites r k o m st.runs, s.keptWrites r o st.kept with
      | .ok ws, .ok kept =>
        .ok ⟨ws, kept, st, vErrors false (a.2 ++ b.2 ++ d.2) ++ vErrors (k == .cvt) c.2⟩
      | .error e, _ => .error e
      | _, .error e => .error e
    | .error e, _, _, _ => .error e
    | _, .error e, _, _ => .error e
    | _, _, .error e, _ => .error e
    | _, _, _, .error e => .error e

/-- The running command after a step: pointers advance by their strides (R151). -/
def VRun.after (r : VRun) (k : VOp) (o : VOps) (e : VEffect) : VRun :=
  { r with
    step := r.step + 1
    ptrs := r.ptrs.map fun p => if k.advances o p.1 then (p.1, p.2.1.advance 1, p.2.2) else p
    scalar := e.step.scalar
    sum := e.step.sum
    outCount := r.outCount + e.step.kept.length
    flags := r.flags ||| e.step.flags ||| VFlags.when (!e.errors.isEmpty) VFlags.errz }

/-- The ranges of the scratchpad that a step writes. -/
def VEffect.spans (e : VEffect) (o : VOps) : List (Nat × Nat) :=
  e.writes.map (fun w => (w.1, runBytes w.2.1 w.2.2.length)) ++
    e.kept.map fun (off, _, _, idx) => (off, if idx = 1 then 4 else elemBytes (vFmt o))

/-- Element i of a run is in the scratchpad; the core's stream and other engines need not see it yet (R155, R172). -/
def Core.hideElem (c : Core) (id : Nat) (cmd : Cmd) (off width i v : Nat) : Core :=
  let o := off + i * width / 8
  c.hideWrite id (cmd.key 1) none cmd.tiles o (if width = 4 then (if i % 2 = 0 then 0x0F else 0xF0) else 0xFF)
    (readBytes (putElem c.spad off width i v) o (max 1 (width / 8)))

/-- The elements that a step writes: offset of their run, width, place in it, value. -/
def VEffect.elems (e : VEffect) (o : VOps) : List (Nat × Nat × Nat × Nat) :=
  (e.writes.flatMap fun (off, w, vs) => ((List.range vs.length).zip vs).map fun (i, v) => (off, w, i, v)) ++
    e.kept.map fun (off, i, v, idx) => (off, if idx = 1 then 32 else (vFmt o).width, i, v)

/-- What a step writes, element by element. -/
def Core.takeEffect (c : Core) (id : Nat) (cmd : Cmd) (o : VOps) (e : VEffect) : Core :=
  (e.elems o).foldl (fun c (off, w, i, v) => c.hideElem id cmd off w i v) c

/-- The ranges of the scratchpad that a step reads. -/
def State.vectorReads (s : State) (r : VRun) (k : VOp) (o : VOps) : List (Nat × Nat) :=
  let at? (x : Except CmdFault Nat) (n : Nat) : Option (Nat × Nat) := x.toOption.map fun off => (windowAddr s.cur off, n)
  if k = .trn then (List.range (k.perStep o)).filterMap fun i => at? (s.trnRow r o true i) 64
  else
    let m := r.stepCount k o
    ([VRole.a, .b, .c, .d].filter (k.reads o).contains).filterMap fun role =>
      at? (s.roleOffset r k o role m) (match k.shape o role with
        | none => (m + 7) / 8
        | some w => runBytes w (k.roleCount role m))

/-- A running command takes one step. -/
def State.stepVector (s : State) (k : VOp) (o : VOps) (r : VRun) : State :=
  match (s.seenAs (r.cmd.key 1)).vectorEffect r k o with
  | .error f => s.vectorFault r.cmd f
  | .ok e =>
    let r' := r.after k o e
    let s := s.notesAll (r.cmd.key 1) (s.vectorReads r k o)
    let s := (s.updCore fun c => { c.takeEffect s.cur r.cmd o e with eng := { c.eng with vrun := some r' } }).logErrors
      s.cur r.cmd.seq e.errors
    let s := s.forEach (e.spans o) fun s w => s.touch (windowAddr s.cur w.1) w.2
    if k.steps o ≤ r'.step then s.endVector k o r' else s

/-- The turn of a vector command on the acting core: the running command's next step, or the start of the head. -/
def State.vectorTurn (s : State) (i : Instr) (k : VOp) (o : VOps) : Host.Outcome State Fault Refusal :=
  match s.core.eng.vrun, s.core.eng.vq with
  | some r, _ => .next (if r.cmd.is 1 i && !r.done then s.stepVector k o r else s)
  | none, cmd :: _ => .next (if cmd.is 1 i then s.startVector k o cmd else s)
  | none, [] => .next s

/-- `v.add` (R161). -/
def execVAdd (o : VOps) (s : State) := s.vectorTurn (.vAdd o) .add o

/-- `v.sub` (R161). -/
def execVSub (o : VOps) (s : State) := s.vectorTurn (.vSub o) .sub o

/-- `v.mul` (R161). -/
def execVMul (o : VOps) (s : State) := s.vectorTurn (.vMul o) .mul o

/-- `v.fma` (R161). -/
def execVFma (o : VOps) (s : State) := s.vectorTurn (.vFma o) .fma o

/-- `v.min` (R161). -/
def execVMin (o : VOps) (s : State) := s.vectorTurn (.vMin o) .min o

/-- `v.max` (R161). -/
def execVMax (o : VOps) (s : State) := s.vectorTurn (.vMax o) .max o

/-- `v.and` (R161). -/
def execVAnd (o : VOps) (s : State) := s.vectorTurn (.vAnd o) .and o

/-- `v.or` (R161). -/
def execVOr (o : VOps) (s : State) := s.vectorTurn (.vOr o) .or o

/-- `v.xor` (R161). -/
def execVXor (o : VOps) (s : State) := s.vectorTurn (.vXor o) .xor o

/-- `v.shl` (R161). -/
def execVShl (o : VOps) (s : State) := s.vectorTurn (.vShl o) .shl o

/-- `v.shr` (R161). -/
def execVShr (o : VOps) (s : State) := s.vectorTurn (.vShr o) .shr o

/-- `v.cmp.eq` (R162). -/
def execVCmpEq (o : VOps) (s : State) := s.vectorTurn (.vCmpEq o) .cmpEq o

/-- `v.cmp.lt` (R162). -/
def execVCmpLt (o : VOps) (s : State) := s.vectorTurn (.vCmpLt o) .cmpLt o

/-- `v.cmp.le` (R162). -/
def execVCmpLe (o : VOps) (s : State) := s.vectorTurn (.vCmpLe o) .cmpLe o

/-- `v.sel` (R162). -/
def execVSel (o : VOps) (s : State) := s.vectorTurn (.vSel o) .sel o

/-- `v.cvt` (R163). -/
def execVCvt (o : VOps) (s : State) := s.vectorTurn (.vCvt o) .cvt o

/-- `v.exp2` (R164). -/
def execVExp2 (o : VOps) (s : State) := s.vectorTurn (.vExp2 o) .exp2 o

/-- `v.log2` (R164). -/
def execVLog2 (o : VOps) (s : State) := s.vectorTurn (.vLog2 o) .log2 o

/-- `v.rcp` (R164). -/
def execVRcp (o : VOps) (s : State) := s.vectorTurn (.vRcp o) .rcp o

/-- `v.rsq` (R164). -/
def execVRsq (o : VOps) (s : State) := s.vectorTurn (.vRsq o) .rsq o

/-- `v.sig` (R164). -/
def execVSig (o : VOps) (s : State) := s.vectorTurn (.vSig o) .sig o

/-- `v.red.add` (R165). -/
def execVRedAdd (o : VOps) (s : State) := s.vectorTurn (.vRedAdd o) .redAdd o

/-- `v.red.max` (R165). -/
def execVRedMax (o : VOps) (s : State) := s.vectorTurn (.vRedMax o) .redMax o

/-- `v.scan.add` (R165). -/
def execVScanAdd (o : VOps) (s : State) := s.vectorTurn (.vScanAdd o) .scanAdd o

/-- `v.nzs` (R165). -/
def execVNzs (o : VOps) (s : State) := s.vectorTurn (.vNzs o) .nzs o

/-- `v.scl` (R166). -/
def execVScl (o : VOps) (s : State) := s.vectorTurn (.vScl o) .scl o

/-- `v.fmas` (R166). -/
def execVFmas (o : VOps) (s : State) := s.vectorTurn (.vFmas o) .fmas o

/-- `v.bcast` (R166). -/
def execVBcast (o : VOps) (s : State) := s.vectorTurn (.vBcast o) .bcast o

/-- `v.perm` (R167). -/
def execVPerm (o : VOps) (s : State) := s.vectorTurn (.vPerm o) .perm o

/-- `v.mov` (R167). -/
def execVMov (o : VOps) (s : State) := s.vectorTurn (.vMov o) .mov o

/-- `v.fill` (R167). -/
def execVFill (o : VOps) (s : State) := s.vectorTurn (.vFill o) .fill o

/-- `v.trn` (R167). -/
def execVTrn (o : VOps) (s : State) := s.vectorTurn (.vTrn o) .trn o

end Sys2Proof.Machine
end

