-- ==== Sys2Proof/Machine/CollectiveOps.lean ====
section
/-!
DEFINITION. Collectives (R272 to R281), links (R268, R269, R280) and stream ports (R282 to R285): the collective engine of a core, and
its router.
-/

namespace Sys2Proof.Machine

/-! ## Aborts (R280) -/

/-- A router learns that a wave ends: its chunks go, and its own core's command will end. -/
def Core.endWave (c : Core) (w : WaveEnd) : Core :=
  let c := c.updChunks fun l => l.filter fun k => !k.ofWave w.vsn w.name
  match c.entry? w.vsn with
  | some e =>
    if !e.isPast w.name ∧ w ∉ c.router.aborted then { c with router := { c.router with aborted := c.router.aborted ++ [w] } } else c
  | none => c

/-- A wave of a router ends with a status along its whole entry. -/
def State.endWave (s : State) (id vsn : Nat) (n : WaveName) (status : Nat) : State :=
  s.forEach (s.waveRouters id vsn n) fun s (k, w) => s.updCoreAt k fun c => c.endWave ⟨vsn, w, status⟩

/-- An entry past the wave that its router is in. -/
def VsEntry.pass (e : VsEntry) (allr : Bool) : VsEntry :=
  if allr then { e with down := e.down + 1, up := max e.up (e.down + 1) } else { e with wave := e.wave + 1 }

/-- The router's own core has no more part in a wave; one that the router is not in yet waits for it. -/
def Core.passWave (c : Core) (vsn : Nat) (n : WaveName) : Core :=
  match c.entry? vsn with
  | none => c
  | some e =>
    if e.next n.allr ≠ n then c
    else
      let c := c.updEntry vsn fun e => e.pass n.allr
      { c with router := { c.router with aborted := c.router.aborted.filter fun a => !(a.vsn == vsn && (e.pass n.allr).isPast a.name) } }

/-- A command that a fault or a kill discards takes its wave with it, malformed words too (R280); `run` is its progress, if it runs. -/
def State.leaveWave (s : State) (id : Nat) (cmd : Cmd) (run : Option CollRun) : State :=
  match cmd.waveEntry? with
  | none => s
  | some (vsn, allr) =>
    let c := s.coreAt id
    match c.waveName? vsn allr (match run with | some r => r.step | none => ((c.entry? vsn).map (·.marks)).getD 0) with
    | none => s
    | some n => (s.endWave id vsn n 5).updCoreAt id fun c => c.passWave vsn n

/-- A send-direction `sp.open` that is taking its lanes lets go of its target. -/
def State.unclaim (s : State) (id : Nat) (o : SpOpen) : State :=
  s.forEach (s.cores.map (·.1)) fun s k =>
    let n := o.tport
    match (s.coreAt k).port n with
    | .recv ring len (some (c, q)) u =>
      if c = id ∧ q = o.port.toNat then s.updCoreAt k fun c => c.setPort n (.recv ring len none u) else s
    | .recv _ _ none _ | .closed | .send .. | .cut _ => s

/-- The collective engine of a core discards all it holds (R280, R312). -/
def State.discardCollective (s : State) (id : Nat) : State :=
  let g := (s.coreAt id).eng
  let s := match g.krun, g.kq with
    | some r, _ => if r.post.isSome then s else
      match decodeCommand 3 r.cmd.words with
      | .ok (.spOpen o) => s.unclaim id o
      | _ => s.leaveWave id r.cmd (some r)
    | none, cmd :: _ => s.leaveWave id cmd none
    | none, [] => s
  s.updCoreAt id Core.dropCollective

/-- A fault of the collective engine of the acting core. -/
def State.collectiveFault (s : State) (cmd : Cmd) (f : CmdFault) : State :=
  (s.discardCollective s.cur).updCore fun c => c.pendFault 3 cmd.seq f

/-! ## The turn of a collective command -/

/-- The head of the acting core's collective queue ends in its one step. -/
def State.endHead (s : State) (cmd : Cmd) (f : Core → Core) : State :=
  s.updCore fun c => (f { c with eng := { c.eng with kq := c.eng.kq.tail } }).mark cmd.seq .complete

/-- A collective command as it starts, in a step of its entry. -/
def CollRun.start (cmd : Cmd) (step : Nat) : CollRun := ⟨cmd, 0, 0, 0, 0, step, none, none⟩

/-- The head starts to run; the drain of its source tile begins as a copy's does (R272). -/
def Core.startColl (c : Core) (cmd : Cmd) (step : Nat := 0) : Core :=
  let cmd := c.asStarted cmd
  let c : Core := { c with eng := { c.eng with kq := c.eng.kq.tail, krun := some (.start cmd step) } }
  let c := (c.startsOn (cmd.key 3) cmd.from?.toList).drainSource cmd false
  let c := match cmd.fill with
    | some (t, _) => c.fillsAfter (cmd.key 3) t
    | none => c
  c.mark cmd.seq .running

/-- Put the running command. -/
def Core.setColl (c : Core) (r : CollRun) : Core := { c with eng := { c.eng with krun := some r } }

/-- The running command ends without a message. -/
def Core.endColl (c : Core) (r : CollRun) : Core := { c with eng := { c.eng with krun := none } }.finishFill r.cmd r.written

/-- The turn of a collective command on the acting core: the start of the head, or a step of what runs. -/
def State.collTurn (s : State) (i : Instr) (start : Cmd → State) (step : CollRun → State) : Host.Outcome State Fault Refusal :=
  match s.core.eng.krun, s.core.eng.kq with
  | some r, _ => .next (if r.cmd.is 3 i && r.post.isNone then step r else s)
  | none, cmd :: _ =>
    if !cmd.is 3 i then .next s
    else .next (if cmd.bad then s.collectiveFault cmd (badCommand cmd) else start cmd)
  | none, [] => .next s

/-! ## Configuring and markers (R274, R277) -/

/-- Chunks and markers of an entry in a router. Those of an entry that is not configured wait on their links (R273). -/
def Core.holdsEntry (c : Core) (vsn : Nat) : Bool := (c.entry? vsn).isSome && c.router.chunks.any fun k => k.vsn.toNat == vsn

/-- The port sets of a `co.cfg`. -/
def cfgSets (o : CoCfg) : List PortSet := [o.s0, o.s1, o.s2, o.s3].take (o.last.toNat + 1)

/-- `co.cfg` (R274). -/
def execCoCfg (o : CoCfg) (s : State) :=
  s.collTurn (.coCfg o) (fun cmd =>
    let vsn := o.vsn.toNat
    let missing := (cfgSets o).any fun q => [1, 2, 3, 4].any fun p => inMask (q.inm ||| q.outm) p && (s.neighbour? s.cur p).isNone
    if missing then s.collectiveFault cmd (badCommand cmd)
    else if s.core.holdsEntry vsn then s
    else s.endHead cmd fun c =>
      { c with router := { c.router with
          entries := alSet vsn ⟨o.op, o.head.fmt.getD .f32, cfgSets o, 0, 0, 0, 0, 0⟩ c.router.entries
          aborted := c.router.aborted.filter fun a => a.vsn != vsn } }) fun _ => s

/-- The set that a core's next mark ends (R277): there is one mark per core for each step (log 27). -/
def VsEntry.marked (e : VsEntry) : Nat := e.marks % e.sets.length

/-- `co.mark` (R277): a marker enters the local port if the set it ends takes one there. A mark on an entry that is not configured raises
BAD_COMMAND (log 27). -/
def execCoMark (o : CoMark) (s : State) :=
  s.collTurn (.coMark o) (fun cmd =>
    match s.core.entry? o.vsn.toNat with
    | none => s.collectiveFault cmd (badCommand cmd)
    | some e =>
      let marker : Chunk := ⟨o.vsn, 0, 0, true, false, e.marks, 0, 0, 0, none, e.op, [], 0⟩
      if !inMask (e.set e.marked).inm 0 then s.endHead cmd fun c => c.updEntry o.vsn.toNat fun e => { e with marks := e.marks + 1 }
      else if !s.core.router.takes .own 9 then s
      else s.endHead cmd fun c =>
        (c.updChunks fun l => l ++ [marker]).updEntry o.vsn.toNat fun e => { e with marks := e.marks + 1 }) fun _ => s

/-! ## Waves at a core (R272, R276, R278) -/

/-- A wave's links are not all up (R280). -/
def State.waveCut (s : State) (id vsn : Nat) (n : WaveName) : Bool :=
  (s.waveRouters id vsn n).any fun (k, m) =>
    match (s.coreAt k).entry? vsn with
    | some e => [1, 2, 3, 4].any fun p =>
        (s.coreAt k).router.down.contains p && (e.setsOf m.allr m.step).any fun q => inMask (q.inm ||| q.outm) p
    | none => false

/-- The conditions of a wave command (R272, R276, R278, R279). -/
def State.waveLegal (s : State) (w : Wave) (bcast : Bool) : Bool :=
  let bytes := w.count * w.fmt.width / 8
  match s.core.entry? w.vsn with
  | none => false
  | some e =>
    e.fmt == w.fmt && decide (w.src + bytes ≤ Config.spadBytes) && decide (w.dst + bytes ≤ Config.spadBytes) &&
    (!bcast || (portsOf (e.set e.marked).inm).length == 1) && (!w.allr || decide (2 ≤ e.sets.length)) &&
    match w.devices with
    | some (lo, n) => decide (lo ≤ s.mgmt.slice.rank) && decide (s.mgmt.slice.rank < lo + n)
    | none => true

/-- An element of the own scratchpad that a collective reads; an uncorrectable one is zero (log 24). -/
def State.sourceElems (s : State) (off : Nat) (f : Fmt) (n : Nat) : List Nat × List DataError :=
  let b := f.width / 8
  let bad (k : Nat) : Bool := s.spadPoisoned s.cur (off + b * k) b
  ((List.range n).map fun k => if bad k then 0 else readLE s.core.spad (off + b * k) b,
    ((List.range n).filter bad).map fun k => ⟨3, false, w64 (aliasBase + off + b * k)⟩)

/-- The running command completes with a status and waits to post. -/
def CollRun.complete (r : CollRun) (w : Wave) (status : Nat) : CollRun :=
  { r with post := some (r.cmd.message 3 status w.tag r.written) }

/-- The entry of a wave has not yet stepped past the marks of its own core (R277). -/
def Core.stepping (c : Core) (w : Wave) : Bool :=
  match c.entry? w.vsn with
  | some e => !w.allr && decide (e.steps < e.marks)
  | none => false

/-- The step of an entry that the core's next wave belongs to. -/
def Core.nextStep (c : Core) (vsn : Nat) : Nat := ((c.entry? vsn).map (·.marks)).getD 0

/-- A wave command starts, once its tiles and the entry allow it. Its conditions are those of the set after its core's marks. -/
def State.startWave (s : State) (w : Wave) (bcast : Bool) (cmd : Cmd) : State :=
  if s.core.stepping w then s
  else if !s.waveLegal w bcast then s.collectiveFault cmd (badCommand cmd)
  else if s.copyHeld cmd || s.drainHeld cmd false then s
  else
    let step := s.core.nextStep w.vsn
    let s' := s.updCore fun c => c.startColl cmd step
    if (s.core.waveName? w.vsn w.allr step).any fun n => s.waveCut s.cur w.vsn n then
      s'.updCore fun c => c.setColl ((CollRun.start (s.core.asStarted cmd) step).complete w 6)
    else s'

/-- A chunk of the acting core enters its router. -/
def State.sendChunk (s : State) (r : CollRun) (w : Wave) (e : VsEntry) : State :=
  let off := w.src + r.sent * 512
  let n := w.chunkLen r.sent
  let (data, errs) := (s.seenAs (r.cmd.key 3)).sourceElems off w.fmt n
  let s := s.notes (r.cmd.key 3) (windowAddr s.cur off) (n * (w.fmt.width / 8))
  let k : Chunk :=
    ⟨BitVec.ofNat 8 w.vsn, 0, 0, false, w.allr, if w.allr then 0 else e.steps, if w.allr then e.up else e.wave, r.sent, w.count,
      some e.fmt, e.op, data, 0⟩
  let r := { r with sent := r.sent + 1, flags := r.flags ||| VFlags.when (!errs.isEmpty) VFlags.errz }
  (s.updCore fun c => (c.setColl r).updChunks fun l => l ++ [k]).logErrors s.cur r.cmd.seq errs

/-- A running wave command: it sends its next chunk once the last one has been combined, and completes after its last chunk; that of a
root, once all have turned round. What it sends and takes is what the set of its step says, wherever the entry stands (R276, R277). -/
def State.stepWave (s : State) (w : Wave) (r : CollRun) : State :=
  match s.core.entry? w.vsn with
  | none => s
  | some e =>
    let n := w.chunks
    let sends := e.sends w.allr r.step
    let waits := e.takes w.allr r.step || (w.allr && e.isRoot)
    let waiting := s.core.router.chunks.any fun k => k.vsn.toNat == w.vsn && k.allr == w.allr && k.set == 0 && k.port == 0 && !k.marker
    if s.core.router.aborted.any fun a => a.vsn == w.vsn && s.core.waveName? w.vsn w.allr r.step == some a.name then s
    else if (!sends || (r.sent == n && !waiting)) && (!waits || r.received == n) then
      s.updCore fun c => c.setColl (r.complete w 0)
    else if sends && r.sent < n && !waiting && s.core.router.takes .own 8 && (r.limit.all fun m => decide (r.sent < m)) then
      s.sendChunk r w e
    else s

/-- `co.red` (R276). -/
def execCoRed (o : CoMove) (s : State) := s.collTurn (.coRed o) (s.startWave (moveWave o) false) (s.stepWave (moveWave o))

/-- `co.bcast` (R276). -/
def execCoBcast (o : CoMove) (s : State) := s.collTurn (.coBcast o) (s.startWave (moveWave o) true) (s.stepWave (moveWave o))

/-- `co.allr` (R278). -/
def execCoAllr (o : CoAllr) (s : State) := s.collTurn (.coAllr o) (s.startWave (allrWave o) false) (s.stepWave (allrWave o))

/-! ## Combining (R275, R278, R279) -/

/-- `fin` of two elements (R275). -/
def finElem (op : CombineOp) (f : Fmt) (a b : Nat) : Nat × VFlags :=
  match op with
  | .add =>
    if f.isInt then finInt f false (intOf f a + intOf f b)
    else
      let (x, g) := (valOf f a).add .rne (valOf f b)
      let (r, h) := roundVal f .rne 0 x
      (r, g ||| h)
  | .max => (vPick true f a b, 0)
  | .min => (vPick false f a b, 0)

/-- `fin` of two chunks. -/
def finData (op : CombineOp) (f : Fmt) (a b : List Nat × VFlags) : List Nat × VFlags :=
  let l := (a.1.zip b.1).map fun (x, y) => finElem op f x y
  (l.map (·.1), l.foldl (fun (g : VFlags) (r : Nat × VFlags) => g ||| r.2) (a.2 ||| b.2))

/-- Combine chunks in the order of their ports. -/
def combineAll (op : CombineOp) (f : Fmt) : List (List Nat × VFlags) → List Nat × VFlags
  | [] => ([], 0)
  | h :: t => t.foldl (finData op f) h

/-- The canonical tree over devices (R279). -/
def deviceTree (op : CombineOp) (f : Fmt) (d : Nat → List Nat × VFlags) : Nat → Nat → Nat → List Nat × VFlags
  | 0, lo, _ => d lo
  | k + 1, lo, n =>
    if n ≤ 1 then d lo
    else
      let m := 2 ^ (n - 1).log2
      finData op f (deviceTree op f d k lo m) (deviceTree op f d k (lo + m) (n - m))

/-- What another device of the slice puts into a wave: its data and flags come from outside, as free values (log 28). -/
def State.deviceData (s : State) (f : Fmt) (len rank : Nat) : List Nat × VFlags :=
  ((List.range len).map fun i => (Config.unstated s.tick (4096 + rank * 1024 + i)).toNat % 2 ^ f.width,
    BitVec.ofNat 8 (Config.unstated s.tick (4096 + rank * 1024 + 1023)).toNat &&& 0x0F)

/-- The first chunk that waits on a port of an entry. -/
def Core.headChunk (c : Core) (vsn : Nat) (allr : Bool) (set port : Nat) : Option Chunk :=
  c.router.chunks.find? fun k => k.vsn.toNat == vsn && k.allr == allr && k.port == port && (!allr || k.set.toNat == set)

/-- Remove chunks. -/
def Core.takeChunks (c : Core) (l : List Chunk) : Core := c.updChunks fun all => l.foldl (fun a k => a.erase k) all

/-- The headers of a combine agree (R275). -/
def sameHeaders (l : List Chunk) : Bool :=
  match l with
  | [] => true
  | h :: t => t.all fun k => k.count == h.count && k.fmt == h.fmt && k.op == h.op

/-- The engines run, or finish what comes before the chunk agreed at a stop (R281). -/
def Core.mayMove (c : Core) (r : CollRun) (chunk : Nat) : Bool :=
  (c.held == .no || c.held == .leaving) && !c.failed && match r.limit with
  | none => c.enginesRun
  | some m => decide (chunk < m)

/-- The core's command is ready for a chunk of its wave. -/
def Core.awaits (c : Core) (k : Chunk) : Bool :=
  match c.wave? with
  | some (r, w) => w.vsn == k.vsn.toNat && w.allr == k.allr && r.post.isNone && r.received == k.index && decide (k.index < w.chunks) &&
      c.mayMove r k.index
  | none => false

/-- A chunk is written into the core's scratchpad in one step (R272, R278). Its stream need not see it before it dequeues the message. -/
def Core.deliver (c : Core) (id : Nat) (data : List Nat) (flags : VFlags) : Core :=
  match c.wave? with
  | some (r, w) =>
    let n := data.length
    let off := w.dst + r.received * 512
    let b := w.fmt.width / 8
    let c := ((List.range n).zip data).foldl (fun (c : Core) (i, v) =>
      c.hideWrite id (r.cmd.key 3) (r.cmd.fill.map (·.1)) [] (off + i * b) 0xFF (leBytes v b)) c
    (c.setColl
      { r with received := r.received + 1, written := r.written + n, flags := r.flags ||| flags }).arriveCells r.cmd n
  | none => c

/-- Where the next chunk that a core receives goes. -/
def Core.chunkAddr (c : Core) (id : Nat) : Nat :=
  match c.wave? with
  | some (r, w) => windowAddr id (w.dst + r.received * 512)
  | none => 0

/-- The last chunk of a wave has passed a router. -/
def Core.countWave (c : Core) (k : Chunk) : Core :=
  if !k.isLast then c
  else c.updEntry k.vsn.toNat fun e =>
    if k.upward then { e with up := e.up + 1 } else e.pass k.allr

/-- A chunk leaves a router by its ports, numbered as the next router counts. A link that carries it has not failed in a row. -/
def State.forward (s : State) (id : Nat) (ports : List Nat) (k : Chunk) : State :=
  s.forEach (ports.filter (· != 0)) fun s p =>
    match s.neighbour? id p with
    | none => s
    | some n =>
      (s.updCoreAt id fun c => { c with router := { c.router with fails := alErase p c.router.fails } }).updCoreAt n fun c =>
        let m := c.nextWave k.vsn.toNat k.allr k.upward (oppositePort p)
        c.updChunks fun l => l ++ [{ k with port := oppositePort p, step := m.step, wave := m.idx }]

/-- The routers behind some ports take flits. -/
def State.roomBehind (s : State) (id : Nat) (ports : List Nat) (n : Nat) : Bool :=
  (ports.filter (· != 0)).all fun p => match s.neighbour? id p with
    | some k => (s.coreAt k).router.takes (.link (oppositePort p)) n
    | none => true

/-- The root's own `co.allr`, with which its chunks turn round: it runs, and has dealt with the chunks before this one (R276, R279). -/
def Core.turner? (c : Core) (e : VsEntry) (k : Chunk) : Option (CollRun × Wave) :=
  c.wave?.filter fun (r, w) => w.vsn == k.vsn.toNat && w.allr && r.post.isNone && c.mayMove r k.index &&
    (if e.takes true 0 then decide (r.received ≤ k.index) && decide (k.index < w.chunks) else r.received == k.index)

/-- One of the other devices of an exchange aborts it: the choice comes from outside (R280, log 28). -/
def State.deviceAborts (s : State) (devices : Option (Nat × Nat)) : Bool :=
  devices.any (fun d => decide (1 < d.2)) && (Config.unstated s.tick 40).getLsbD 0

/-- The root turns a combined chunk round, after the exchange with the other devices that its own command names (R278, R279). `none`: it
waits. -/
def State.turnRound (s : State) (id : Nat) (e : VsEntry) (heads : List Chunk) (k : Chunk) (sum : List Nat × VFlags) : Option State :=
  match (s.coreAt id).turner? e k with
  | none => none
  | some (r, w) =>
    if s.deviceAborts w.devices then some (s.endWave id k.vsn.toNat k.name 5)
    else if !(s.coreAt id).router.takes .turned k.flits then none
    else
      let (data, flags) := match w.devices with
        | some (lo, n) => deviceTree e.op e.fmt (fun r => if r = s.mgmt.slice.rank then sum else s.deviceData e.fmt sum.1.length r) 13 lo n
        | none => sum
      some (s.updCoreAt id fun c =>
        let c := (c.takeChunks heads).countWave k
        let c := if e.takes true 0 then c else c.setColl { r with received := r.received + 1 }
        let m := c.nextWave k.vsn.toNat true false 0
        c.updChunks fun l => l ++ [{ k with port := 0, set := 1, step := m.step, wave := m.idx, data := data, flags := flags }])

/-- Combine chunks of one wave along a port set (R275, R278). `none`: they wait. -/
def State.combineSet (s : State) (id : Nat) (e : VsEntry) (q : PortSet) (heads : List Chunk) (k : Chunk) : Option State :=
  let c := s.coreAt id
  let vsn := k.vsn.toNat
  let outs := portsOf q.outm
  if !sameHeaders heads then some (s.endWave id vsn k.name 5)
  else if outs.any fun p => c.router.down.contains p then some (s.endWave id vsn k.name 6)
  else
    let sum := combineAll e.op e.fmt (heads.map fun h => (h.data, h.flags))
    if k.upward && q.outm == 1 then s.turnRound id e heads k sum
    else
      let here := !k.upward && inMask q.outm 0
      if (here && !c.awaits k) || !s.roomBehind id outs k.flits then none
      else
        let s := if here then s.touchBy (some id) (c.chunkAddr id) (sum.1.length * (e.fmt.width / 8)) else s
        let s := s.updCoreAt id fun c =>
          let c := (c.takeChunks heads).countWave k
          if here then c.deliver id sum.1 sum.2 else c
        some (s.forward id outs { k with data := sum.1, flags := sum.2 })

/-- The cores that run a wave of a router. -/
def State.waveRunners (s : State) (id vsn : Nat) (n : WaveName) : List (Core × CollRun) :=
  (s.waveRouters id vsn n).filterMap fun m => ((s.coreAt m.1).runOf vsn m.2).map fun r => (s.coreAt m.1, r.1)

/-- A router moves a wave's chunks: nothing has stopped it or the wave's launch, or its members still finish the chunks below the agreed
one (R281, R324, R333). -/
def State.routerMoves (s : State) (id : Nat) (k : Chunk) : Bool :=
  if !(s.coreAt id).stopped && !s.cores.any (·.2.halted) then true
  else
    let l := s.waveRunners id k.vsn.toNat k.name
    (!(s.coreAt id).stopped && !l.any (·.1.halted)) || l.any (·.2.limit.isSome)

/-- The heads of every in port of a set, if each port has a chunk. -/
def Core.heads? (c : Core) (vsn : Nat) (allr : Bool) (set : Nat) (q : PortSet) : Option (List Chunk) :=
  let l := (portsOf q.inm).filterMap fun p => c.headChunk vsn allr set p
  if l.length = (portsOf q.inm).length ∧ l ≠ [] ∧ l.all (fun k => !k.marker) then some l else none

/-- Combine the chunks of a wave along a port set, if all are there and nothing holds them. -/
def State.combineHeads (s : State) (id : Nat) (e : VsEntry) (q : PortSet) (heads : Option (List Chunk)) : Option State :=
  match heads with
  | some (k :: t) => if s.routerMoves id k then s.combineSet id e q (k :: t) k else none
  | some [] | none => none

/-- The combining of a router for an entry along a port set: of a `co.red` or `co.bcast` if the set is current and its chunks are there
and need not wait, else of a `co.allr`, which no current set holds up (R278). -/
def execRouterCombine (core vsn set : Nat) (s : State) : Host.Outcome State Fault Refusal :=
  let c := s.coreAt core
  match c.entry? vsn with
  | none => .next s
  | some e =>
    let q := e.set set
    .next (((s.combineHeads core e q (if set = e.current then c.heads? vsn false 0 q else none)).or
      (s.combineHeads core e q (if set ≤ 1 then c.heads? vsn true set q else none))).getD s)

/-- A router steps an entry to its next set once it has seen a marker on every in port (R277). -/
def execEntrySetStep (core vsn : Nat) (s : State) : Host.Outcome State Fault Refusal :=
  let c := s.coreAt core
  match c.entry? vsn with
  | none => .next s
  | some e =>
    let q := e.set e.current
    let l := (portsOf q.inm).filterMap fun p => c.headChunk vsn false 0 p
    match l with
    | [] => .next s
    | k :: _ =>
      if l.length = (portsOf q.inm).length ∧ l.all (·.marker) ∧ s.roomBehind core (portsOf q.outm) 1 ∧ !c.stopped then
        let s := s.updCoreAt core fun c =>
          (c.takeChunks l).updEntry vsn fun e => { e with steps := e.steps + 1, wave := 0 }
        .next (s.forward core (portsOf q.outm) k)
      else .next s

/-- A router learns of the end of a wave: its core's command completes with the status and the prefix it has written (R280). -/
def execCollectiveAbort (core vsn : Nat) (s : State) : Host.Outcome State Fault Refusal :=
  let c := s.coreAt core
  match c.entry? vsn with
  | none => .next s
  | some e => match c.router.aborted.find? fun a => a.vsn == vsn && (e.isPast a.name || e.next a.name.allr == a.name) with
    | none => .next s
    | some a =>
      let n := a.name
      if e.isPast n then .next (s.updCoreAt core fun c => { c with router := { c.router with aborted := c.router.aborted.erase a } })
      else if !s.lands core then .next s
      else
        let done (c : Core) : Core := (c.updChunks fun l => l.filter fun k => !k.ofWave vsn n).passWave vsn n
        let comes := (e.sends n.allr n.step || e.takes n.allr n.step) && c.bound != .idle && !c.dead 3
        match (c.runOf vsn n).filter fun r => r.1.post.isNone with
        | some (r, w) => .next (s.updCoreAt core fun c => done (c.setColl (r.complete w a.status)))
        | none => .next (if comes then s else s.updCoreAt core done)

/-! ## Links (R280) -/

/-- A link is taken down at both ends; every wave over it ends with LINK_DOWN. -/
def State.takeDown (s : State) (id port : Nat) : State :=
  match s.neighbour? id port with
  | none => s
  | some n =>
    let put (s : State) (k p : Nat) : State := s.updCoreAt k fun c =>
      let down := if p ∈ c.router.down then c.router.down else c.router.down ++ [p]
      { c with router := { c.router with down := down, fails := alErase p c.router.fails } }
    let s := put (put s id port) n (oppositePort port)
    let openRows (k p : Nat) : List (Nat × Nat × WaveName) := (s.coreAt k).router.entries.flatMap fun (v, e) =>
      [false, true].filterMap fun allr =>
        if (e.setsOf allr e.steps).any fun q => inMask (q.inm ||| q.outm) p then some (k, v, e.next allr) else none
    s.forEach (openRows id port ++ openRows n (oppositePort port)) fun s (k, v, w) => s.endWave k v w 6

/-- A link resends a flit that failed its check; after 16 in a row it is taken down (R280). -/
def execLinkFlitResend (core port : Nat) (s : State) : Host.Outcome State Fault Refusal :=
  match s.neighbour? core port with
  | none => .next s
  | some _ =>
    if (s.coreAt core).router.down.contains port then .next s
    else
      let n := (alGet port (s.coreAt core).router.fails).getD 0 + 1
      if 16 ≤ n then .next (s.takeDown core port)
      else .next (s.updCoreAt core fun c => { c with router := { c.router with fails := alSet port n c.router.fails } })

/-- A link is taken down (R280). -/
def execLinkDown (core port : Nat) (s : State) : Host.Outcome State Fault Refusal := .next (s.takeDown core port)

/-! ## Stream ports (R282 to R285) -/

/-- The core that a send-direction `sp.open` names: a logical core, or the core that runs a role of the task's own PIPE. -/
def State.streamTarget (s : State) (o : SpOpen) : Option Nat :=
  let t := o.target.toNat
  if o.role then
    match s.core.bound with
    | .task key node _ _ (some _) =>
      s.part.coreIds.find? fun id =>
        match (s.coreAt id).bound with
        | .task k n _ _ r => k == key && n == node && r == some t && (s.coreAt id).part == s.core.part
        | .supervisor | .idle => false
    | _ => none
  else if t < s.part.size then some (s.part.phys t) else none

/-- The target is one `sp.open` may name (R282). -/
def State.streamLegal (s : State) (o : SpOpen) : Bool :=
  if o.role then
    match s.core.bound with
    | .task key node _ _ (some _) =>
      match (s.part.launch? key).bind fun l => l.nodes[node]? with
      | some n => (match n.kind with | .pipe roles => decide (o.target.toNat < roles.length) | .group _ | .cond _ | .leaf .. => false)
      | none => false
    | _ => false
  else decide (o.target.toNat < s.part.size)

/-- The hops of the lanes that a core holds: of its send ports, and of the `sp.open` it runs. -/
def State.lanes (s : State) (id : Nat) : List (Nat × Nat) :=
  let c := s.coreAt id
  let p := s.partAt c.part
  let ports := c.router.streams.toList.flatMap fun x => match x with
    | .send _ _ _ _ _ route | .cut route => p.streamPath route.1 route.2
    | .closed | .recv .. => []
  ports ++ match c.eng.krun with
    | some r => (match decodeCommand 3 r.cmd.words with
      | .ok (.spOpen o) => (match (s.act id).streamTarget o with
        | some t => (p.streamPath id t).take r.sent
        | none => [])
      | _ => [])
    | none => []

/-- A lane of a hop is free: fewer than four streams of the partition hold one, those of tasks off their cores among them (R282). -/
def State.laneFree (s : State) (hop : Nat × Nat) : Bool :=
  (((s.cores.filter fun e => e.2.part == s.core.part).map fun e => ((s.lanes e.1).filter (· == hop)).length).foldl (· + ·) 0) < 4

/-- The head `sp.open` opens a receive port, or claims its target (R282). -/
def State.startOpen (s : State) (o : SpOpen) (cmd : Cmd) : State :=
  if s.core.port o.port != .closed then s.collectiveFault cmd (badCommand cmd)
  else if o.recv then s.endHead cmd fun c => c.setPort o.port (.recv o.ring.toNat o.len.toNat none 0)
  else if !s.streamLegal o then s.collectiveFault cmd (badCommand cmd)
  else match s.streamTarget o with
    | none => s
    | some t =>
      match (s.coreAt t).port o.tport with
      | .recv ring len none u =>
        if s.pathDown (s.part.streamPath s.cur t) then s.endHead cmd id
        else (s.updCoreAt t fun c => c.setPort o.tport (.recv ring len (some (s.cur, o.port.toNat)) u)).updCore fun c => c.startColl cmd
      | .recv _ _ (some _) _ | .closed | .send .. | .cut _ => s

/-- A running `sp.open` takes the next lane of its path, and opens its port with the last one. -/
def State.stepOpen (s : State) (o : SpOpen) (r : CollRun) : State :=
  match s.streamTarget o with
  | none => s.updCore fun c => c.endColl r
  | some t =>
    let path := s.part.streamPath s.cur t
    match (s.coreAt t).port o.tport, path[r.sent]? with
    | .recv _ len (some (k, q)) _, hop =>
      if k ≠ s.cur ∨ q ≠ o.port.toNat then s.updCore fun c => c.endColl r
      else if s.pathDown path then (s.unclaim s.cur o).updCore fun c => c.endColl r
      else match hop with
        | some h => if s.laneFree h then s.updCore fun c => c.setColl { r with sent := r.sent + 1 } else s
        | none => s.updCore fun c => (c.endColl r).setPort o.port (.send t o.tport.toNat len 0 len (s.cur, t % 4096))
    | .recv _ _ none _, _ | .closed, _ | .send .., _ | .cut _, _ => s.updCore fun c => c.endColl r

/-- `sp.open` (R282). -/
def execSpOpen (o : SpOpen) (s : State) := s.collTurn (.spOpen o) (s.startOpen o) (s.stepOpen o)

/-- A send port of the acting core stands on the lanes of its route: after a task at one of its ends has gone to another core, the lanes
of the new route are taken first, when all are free (R282, R325, log 130). `none`: it waits. -/
def State.onRoute (s : State) (port : BitVec 2) : Option State :=
  match s.core.port port with
  | .send t tp credit pos len route =>
    let new := (s.cur, t % 4096)
    if route = new then some s
    else
      let put (r : Nat × Nat) : State := s.updCore fun c => c.setPort port (.send t tp credit pos len r)
      if (s.part.streamPath new.1 new.2).all (put (s.cur, s.cur)).laneFree then some (put new) else none
  | .closed | .recv .. | .cut _ => some s

/-- A send ends at its head: it posts only with `msg`. -/
def State.endSend (s : State) (o : SpSend) (cmd : Cmd) (status cells : Nat) : State :=
  if o.msg then s.updCore fun c =>
    (c.startColl cmd).setColl { CollRun.start (c.asStarted cmd) 0 with post := some (cmd.message 3 status o.tag cells) }
  else s.endHead cmd id

/-- The head `sp.send` starts, once there is credit (R283). -/
def State.startSend (s : State) (o : SpSend) (cmd : Cmd) : State :=
  let n := o.head.count.toNat
  match s.core.port o.port with
  | .closed | .cut _ => s.endSend o cmd 7 0
  | .recv ring len sender u =>
    if u < n ∨ len < n then s.collectiveFault cmd (badCommand cmd)
    else
      let s := s.updCore fun c => c.setPort o.port (.recv ring len sender (u - n))
      let s := match sender with
        | some (k, q) =>
          match (s.coreAt k).port (BitVec.ofNat 2 q) with
          | .send t tp credit pos l r => s.updCoreAt k fun c => c.setPort (BitVec.ofNat 2 q) (.send t tp (credit + n) pos l r)
          | .closed | .recv .. | .cut _ => s
        | none => s
      s.endSend o cmd 0 n
  | .send t tp credit pos len _ =>
    if len < n ∨ Config.spadBytes < o.src.toNat + n then s.collectiveFault cmd (badCommand cmd)
    else if s.pathDown (s.part.streamPath s.cur t) then s.endSend o cmd 6 0
    else if s.copyHeld cmd ∨ s.drainHeld cmd false ∨ credit < n then s
    else match s.onRoute o.port with
      | none => s
      | some s => s.updCore fun c => (c.startColl cmd).setPort o.port (.send t tp (credit - n) pos len (s.cur, t % 4096))

/-- Bytes of the own scratchpad that a send reads; an uncorrectable word is zero (log 24). -/
def State.sourceBytes (s : State) (off n : Nat) : List Byte × List DataError :=
  let bad (k : Nat) : Bool := s.spadPoisoned s.cur (off + 8 * k) 8
  ((List.range n).map fun i => if bad (i / 8) then 0 else readByte s.core.spad (off + i),
    ((List.range (n / 8)).filter bad).map fun k => ⟨3, false, w64 (aliasBase + off + 8 * k)⟩)

/-- A running send ends with a status other than OK. -/
def State.breakSend (s : State) (o : SpSend) (r : CollRun) (status : Nat) : State :=
  s.updCore fun c => if o.msg then c.setColl { r with post := some (r.cmd.message 3 status o.tag r.sent) } else c.endColl r

/-- A running send moves its next 512 bytes; it ends where its port has closed or a link of its route is down (R280, R284). -/
def State.stepSend (s : State) (o : SpSend) (r : CollRun) : State :=
  let n := o.head.count.toNat
  match s.core.port o.port with
  | .send t tp credit pos len _ =>
    let k := min 512 (n - r.sent)
    if s.pathDown (s.part.streamPath s.cur t) then s.breakSend o r 6
    else if !(s.coreAt t).router.takesStream (max 1 ((k + 63) / 64)) then s
    else match s.onRoute o.port with
    | none => s
    | some s =>
    let (bytes, errs) := (s.seenAs (r.cmd.key 3)).sourceBytes (o.src.toNat + r.sent) k
    let last := r.sent + k == n
    let m := r.cmd.message 3 0 o.tag n
    let s := (s.logErrors s.cur r.cmd.seq errs).notes (r.cmd.key 3) (windowAddr s.cur (o.src.toNat + r.sent)) k
    let s := s.updCoreAt t fun c => { c with router := { c.router with
      flits := c.router.flits ++ [⟨r.cmd.key 3, tp, false, pos, bytes, if last then some m else none⟩] } }
    let r := { r with sent := r.sent + k, flags := r.flags ||| VFlags.when (!errs.isEmpty) VFlags.errz }
    s.updCore fun c =>
      let c := c.setPort o.port (.send t tp credit ((pos + k) % len) len (s.cur, t % 4096))
      if !last then c.setColl r
      else if o.msg then c.setColl { r with post := some m }
      else (c.orVflags r.flags).endColl r
  | .closed | .cut _ | .recv .. => s.breakSend o r 7

/-- `sp.send` (R283). -/
def execSpSend (o : SpSend) (s : State) := s.collTurn (.spSend o) (s.startSend o) (s.stepSend o)

/-- `sp.close` (R284). -/
def execSpClose (o : SpClose) (s : State) :=
  s.collTurn (.spClose o) (fun cmd => (s.closePort s.cur o.port cmd.seq).endHead cmd id) fun _ => s

/-- The ring with the data of a flit, which the core's stream need not see before it dequeues the message (R183). -/
def Core.fillRing (c : Core) (id ring len : Nat) (f : StreamFlit) : Core :=
  ((List.range f.bytes.length).zip f.bytes).foldl (fun (c : Core) (i, b) =>
    c.hideWrite id f.key none [] (ring + (f.pos + i) % len) 0xFF [b]) c

/-- Stream data that is next at a core arrives, or is dropped where its port is closed; messages follow it (R283). -/
def Core.arriveStream (c : Core) (id : Nat) (f : StreamFlit) (rest : List StreamFlit) : Core :=
  let c := { c with router := { c.router with flits := rest } }
  let n := BitVec.ofNat 2 f.tport
  let msg (c : Core) : Core := if c.exiting then c else { c with posts := c.posts ++ f.msg.toList }
  match c.port n with
  | .recv ring len sender u =>
    if f.close then msg (c.setPort n .closed)
    else msg ((c.fillRing id ring len f).setPort n (.recv ring len sender (u + f.bytes.length)))
  | .closed | .send .. | .cut _ => c

/-- Where the bytes of a flit go. -/
def Core.ringBytes (c : Core) (id : Nat) (f : StreamFlit) : List Nat :=
  match c.port (BitVec.ofNat 2 f.tport) with
  | .recv ring len _ _ => (List.range f.bytes.length).map fun i => windowAddr id (ring + (f.pos + i) % len)
  | .closed | .send .. | .cut _ => []

/-- The next flit for a core arrives, if it is of a kind and the core is not stopped. -/
def State.streamArrival (s : State) (core : Nat) (close : Bool) : State :=
  let c := s.coreAt core
  match c.router.flits with
  | f :: rest =>
    if f.close = close ∧ s.lands core then
      (s.forEach (c.ringBytes core f) fun s pa => s.touchBy (some core) pa 1).updCoreAt core fun c => c.arriveStream core f rest
    else s
  | [] => s

/-- Stream data arrives (R283). -/
def execStreamDataArrival (core : Nat) (s : State) : Host.Outcome State Fault Refusal := .next (s.streamArrival core false)

/-- A closing marker arrives (R284). -/
def execStreamCloseArrival (core : Nat) (s : State) : Host.Outcome State Fault Refusal := .next (s.streamArrival core true)

/-! ## Tree stitching (R268, R274) -/

/-- The spanning tree that entries 0 to 15 of a router hold (R274): up towards logical core 0, and down again. -/
def Partition.treeEntry (p : Partition) (id : Nat) : VsEntry :=
  let x := coreX id - 4 * p.x0
  let y := coreY id - 4 * p.y0
  let parent : BitVec 5 := if 0 < x then 0b00010 else if 0 < y then 0b00100 else 0b00001
  let east : BitVec 5 := if x + 1 < p.cw then 0b01000 else 0
  let south : BitVec 5 := if x = 0 ∧ y + 1 < p.ch then 0b10000 else 0
  let below := 0b00001 ||| east ||| south
  ⟨.add, .f32, [⟨below, parent⟩, ⟨parent, below⟩], 0, 0, 0, 0, 0⟩

/-- The routers of a partition as its stitching leaves them. -/
def Partition.stitchedRouter (p : Partition) (id : Nat) (r : Router) : Router :=
  match p.stitching with
  | .tree => { r with entries := (List.range 16).map fun v => (v, p.treeEntry id) }
  | .mesh | .ring | .torus => { r with entries := [] }

end Sys2Proof.Machine
end

