-- ==== Sys2Proof/Machine/MediaOps.lean ====
section
/-!
DEFINITION. The media engine (R354 to R357). The codecs are opaque (log 9).
-/

namespace Sys2Proof.Machine

/-- A fault of what a core queued to the media engine (R312). -/
def State.mediaFault (s : State) (cmd : Cmd) (f : CmdFault) : State := s.updCore fun c => c.dropMedia.pendFault 4 cmd.seq f

/-- The head waits to post its message; every cell its fill tile expects is accounted for (log 29). -/
def State.endMedia (s : State) (cmd : Cmd) (tag : BitVec 8) (status cells : Nat) (flags : VFlags := 0) : State :=
  s.updCore fun c =>
    let c := c.arriveCells cmd ((cmd.fill.map (·.2)).getD 0)
    { c with eng := { c.eng with dq := c.eng.dq.tail, drun := some ⟨cmd, flags, some (cmd.message 4 status tag cells)⟩ } }.mark cmd.seq .running

/-- The turn of a media command on the acting core: the whole command at the head. -/
def State.mediaTurn (s : State) (i : Instr) (run : Cmd → State) : Host.Outcome State Fault Refusal :=
  match s.core.eng.drun, s.core.eng.dq with
  | none, cmd :: _ =>
    if !cmd.is 4 i ∨ s.copyHeld cmd then .next s
    else .next (if cmd.bad then s.mediaFault cmd (badCommand cmd) else run cmd)
  | _, _ => .next s

/-- Read n bytes page by page; an uncorrectable word reads as zero and is logged (R322, log 24). -/
def State.mediaRead (s : State) (cmd : Cmd) : Nat → Nat → Nat → Except (State × Stop) (List Byte × State)
  | 0, _, _ => .ok ([], s)
  | k + 1, va, n =>
    if n = 0 then .ok ([], s)
    else
      let m := min n (65536 - va % 65536)
      match s.engineResolve cmd.sup .read va m 4 with
      | .error e => .error (s, e)
      | .ok (pl, s) =>
        let a := pl.phys
        let bad (i : Nat) : Bool := s.poisoned ((a + i) / 8 * 8) 8
        let (v, s) := s.engineRead (cmd.key 4) pl m
        let bytes := (List.range m).map fun i => if bad i then 0 else BitVec.ofNat 8 (v >>> (8 * i))
        let words := ((List.range m).filter fun i => (i = 0 ∨ (a + i) % 8 = 0) && bad i).map fun i =>
          (⟨4, false, w64 (va + i)⟩ : DataError)
        match (s.logErrors s.cur cmd.seq words).mediaRead cmd k (va + m) (n - m) with
        | .error e => .error e
        | .ok (rest, s) => .ok (bytes ++ rest, s)

/-- Pages that n bytes can touch. -/
def pagesOf (n : Nat) : Nat := n / 65536 + 2

/-- `d.cfg` (R356): with a count of 0 it takes no step and posts (R66). -/
def State.configureSlot (s : State) (o : DCfg) (cmd : Cmd) : State :=
  let n := o.slot.toNat
  let taken := match alGet n s.slots with
    | some x => x.owner != s.owner || x.part != s.core.part
    | none => false
  if o.head.count = 0 then s.endMedia cmd o.tag 0 0
  else if taken then s.endMedia cmd o.tag 10 0
  else match s.mediaRead cmd 2 o.ws.toNat 24 with
    | .error (_, .wait _) => s
    | .error (s, .fault f) => (s.logFail cmd f).mediaFault cmd (f.cause, f.tval)
    | .ok (bytes, s) =>
      let scales := (List.range 6).map fun i => BitVec.ofNat 32 (leNat ((bytes.drop (4 * i)).take 4))
      let slot : Slot := ⟨s.core.part, s.owner, o.codec, o.w.toNat, o.h.toNat, w64 o.ws.toNat, scales, []⟩
      { s with slots := alSet n slot s.slots }.endMedia cmd o.tag 0 0

/-- `d.cfg` (R356). -/
def execDCfg (o : DCfg) (s : State) := s.mediaTurn (.dCfg o) (s.configureSlot o)

/-- The codec numbers of R355. -/
def codecNumber : Codec → Nat
  | .av1 => 0
  | .h265 => 1
  | .h266 => 2

/-- A picture that the codec yields. -/
structure Picture where
  w : Nat
  h : Nat
  y : List Nat
  cb : List Nat
  cr : List Nat
  deriving DecidableEq, Repr

/-- The sample a cell takes (R356). -/
def Picture.sample (p : Picture) (c y x : Nat) : Nat :=
  let half := (p.w + 1) / 2
  match c with
  | 0 => p.y.getD (y * p.w + x) 0
  | 1 => p.cb.getD (y / 2 * half + x / 2) 0
  | _ => p.cr.getD (y / 2 * half + x / 2) 0

/-- The exact value of a cell. -/
def Picture.value (p : Picture) (scales : List Word32) (c y x : Nat) : Val :=
  let f (i : Nat) : Val := valOf .f32 (scales.getD i 0).toNat
  ((((Val.ofInt (p.sample c y x)).mul (f (2 * c))).1).add .rne (f (2 * c + 1))).1

/-- One row of 32 or fewer cells from column x on: its scale code for K8, its elements and the flags. -/
def State.pictureRow (s : State) (o : DDec) (cmd : Cmd) (p : Picture) (scales : List Word32) (c y x n : Nat) :
    Option Nat × List Nat × VFlags :=
  let mode := rmodeOf o.head.round
  let vs := (List.range n).map fun i =>
    (p.value scales c y (x + i),
      if mode = .sr then randomWord s.core.csr.jobseed cmd.lcore cmd.ctr0 ((c * p.h + y) * p.w + x + i) else 0)
  if o.head.fmt = some .k8 then
    let (sc, es, fl) := convertBlock .k8 mode vs
    (some sc, es, fl)
  else
    let rs := vs.map fun (v, z) => roundVal .f16 mode z v
    (none, rs.map (·.1), rs.foldl (fun (f : VFlags) (r : Nat × VFlags) => f ||| r.2) 0)

/-- Write the rows of a picture one after another. -/
def State.writePicture (s : State) (o : DDec) (cmd : Cmd) (p : Picture) (scales : List Word32) :
    List (Nat × Nat × Nat) → VFlags → Except (State × Stop) (VFlags × State)
  | [], fl => .ok (fl, s)
  | (c, y, x) :: rest, fl =>
    let n := min 32 (p.w - x)
    let (sc, es, f) := s.pictureRow o cmd p scales c y x n
    let cells := ((List.range n).zip es).map fun (i, v) => ([(c : Int), (y : Int), ((x + i : Nat) : Int)], v)
    match s.writeRow 4 cmd cmd.td1 0 cells with
    | .error e => .error e
    | .ok (_, _, s) =>
      match s.writeRow 4 cmd cmd.td2 0 (sc.toList.map fun v => ([(c : Int), (y : Int), ((x / 32 : Nat) : Int)], v)) with
      | .error e => .error e
      | .ok (_, _, s) => s.writePicture o cmd p scales rest (fl ||| f)

/-- The output tensor suits a picture (R356). -/
def shapeFits (o : DDec) (cmd : Cmd) (p : Picture) : Bool :=
  let t := cmd.td1
  t.rank == 3 && t.fmt == o.head.fmt && t.ext 0 == 3 && t.ext 1 == p.h && t.ext 2 == p.w &&
    (o.head.fmt != some .k8 || (p.w % 32 == 0 && cmd.td2.fmt == some .e8 && cmd.td2.rank == 3))

/-- The flags a decode may set (R356). -/
def mediaFlags : VFlags := VFlags.nx ||| VFlags.uf ||| VFlags.of ||| VFlags.sat ||| VFlags.badsc

/-- A decoded picture is written, or does not fit. -/
def State.yieldPicture (s : State) (o : DDec) (cmd : Cmd) (slot : Slot) (p : Picture) : State :=
  if 4096 < p.w ∨ 2304 < p.h then s.endMedia cmd o.tag 12 0
  else if !shapeFits o cmd p then s.endMedia cmd o.tag 9 0
  else
    let rows := (List.range 3).flatMap fun c => (List.range p.h).flatMap fun y =>
      (List.range ((p.w + 31) / 32)).map fun b => (c, y, 32 * b)
    match s.writePicture o cmd p slot.scales rows 0 with
    | .error (s, .fault f) => (s.logFail cmd f).mediaFault cmd (f.cause, f.tval)
    | .error (_, .wait _) => s
    | .ok (fl, s) => s.endMedia cmd o.tag 0 (3 * p.h * p.w) (fl &&& mediaFlags)

/-- Put a slot's decoded access units. -/
def State.setHistory (s : State) (n : Nat) (h : List (List Byte)) : State :=
  { s with slots := alUpdate n (fun x => { x with history := h }) s.slots }

/-- The decode of an access unit on a slot of the launch (R356). -/
def State.decodeUnit (s : State) (o : DDec) (cmd : Cmd) (slot : Slot) (au : List Byte) : State :=
  let n := o.slot.toNat
  let kept := s.setHistory n (slot.history ++ [au])
  match Config.decodeAccessUnit (codecNumber slot.codec) slot.w slot.h slot.history au with
  | .bitstreamError => (s.setHistory n []).endMedia cmd o.tag 8 0
  | .unsupported => s.endMedia cmd o.tag 12 0
  | .noPicture => kept.endMedia cmd o.tag 11 0
  | .picture w h y cb cr => kept.yieldPicture o cmd slot ⟨w, h, y, cb, cr⟩

/-- The checks of `d.dec`: the grants of td and tds over their full boxes (R357). -/
def State.checkDDec (s : State) (o : DDec) (cmd : Cmd) : Except CmdFault Unit := do
  okCommand cmd (dDecTakes o cmd.td1 cmd.td2)
  s.granted cmd.td1 0 cmd.td1.fullBox .write
  if o.head.fmt = some .k8 then s.granted cmd.td2 0 cmd.td2.fullBox .write else .ok ()

/-- `d.dec`: one of 0 bytes completes without a step (R66, log 67); a slot of another launch is busy; on a slot that nothing has
configured the status is a free value (log 29). -/
def State.decodeHead (s : State) (o : DDec) (cmd : Cmd) : State :=
  match s.checkDDec o cmd with
  | .error f => s.mediaFault cmd f
  | .ok _ =>
    if o.head.count = 0 then s.endMedia cmd o.tag 0 0
    else match alGet o.slot.toNat s.slots with
    | none => s.endMedia cmd o.tag (8 + (Config.unstated s.tick 8).toNat % 5) 0
    | some slot =>
      if slot.owner ≠ s.owner ∨ slot.part ≠ s.core.part then s.endMedia cmd o.tag 10 0
      else match s.mediaRead cmd (pagesOf o.head.count.toNat) o.au.toNat o.head.count.toNat with
        | .error (_, .wait _) => s
        | .error (s, .fault f) => (s.logFail cmd f).mediaFault cmd (f.cause, f.tval)
        | .ok (au, s) => s.decodeUnit o cmd slot au

/-- `d.dec` (R356, R357). -/
def execDDec (o : DDec) (s : State) := s.mediaTurn (.dDec o) (s.decodeHead o)

end Sys2Proof.Machine
end

