-- ==== Sys2Proof/Machine/SystemOps.lean ====
section
/-!
DEFINITION. System forms (R65): the return from a trap (R317, R266), the issue ring and error log (R318), policy images (R230, R231), page
migration and TLBs (R306, R307), scrubbing (R308) and halting a launch (R319, R333, R334); and the taking of engine faults (R311).
-/

namespace Sys2Proof.Machine

/-! ## Engine faults (R311, R312) -/

/-- The pending engine fault that is taken first: the oldest issue, counted back from `sqnext`. -/
def Core.oldestFault (c : Core) : Option EngineFault :=
  c.faults.foldl (fun (b : Option EngineFault) f => match b with
    | none => some f
    | some g => if c.ageOf g.seq < c.ageOf f.seq then some f else some g) none

/-- A core is at a boundary at which it takes an engine fault. -/
def Core.atFault (c : Core) : Bool := c.enginesRun && !c.trap.ih && !c.faults.isEmpty && c.wait != .token

/-- The acting core takes its oldest pending engine fault at the boundary (R311, R315). -/
def execTrapEntry (core : Nat) (s : State) : Host.Outcome State Fault Refusal :=
  let s' := s.act core
  match s'.core.oldestFault with
  | some f =>
    if s'.core.atFault then
      let s' := s'.updCore fun c => { c with faults := c.faults.erase f }
      .next (s'.takeTrap ⟨f.cause, f.tval, 0, true, f.eng, f.seq⟩ s'.core.pc)
    else .next s
  | none => .next s

/-! ## Restarting a loop (R265, R266) -/

/-- Restart an overwrite iteration from its checkpoint. -/
def Core.restartIteration (c : Core) : Core :=
  let c := match c.loop.check with
    | some k => c.restoreCheckpoint k
    | none => c
  { c with pc := c.loop.resume, loop := { c.loop with declared := false, footprint := Region.null, lens := [] } }

/-- A suspended loop when control returns to an address: inside the body it goes on or restarts, elsewhere it is abandoned. -/
def Core.returnTo (c : Core) (pc : Word) : Core :=
  let l := c.loop
  if l.mode = .none ∨ !l.suspended then { c with pc := pc }
  else if l.start.toNat ≤ pc.toNat ∧ pc.toNat < l.bodyEnd.toNat then
    let c := { c with pc := pc, loop := { l with suspended := false } }
    if l.mode = .overwrite then c.restartIteration else c
  else { c with pc := pc, loop := { l with mode := .none, suspended := false, declared := false, check := none } }

/-! ## Halting a launch (R333, R334, R281) -/

/-- The wave command at the head of a core's collective queue starts, if nothing holds it. -/
def State.startHead (s : State) (id : Nat) : State :=
  let s' := s.act id
  match s'.core.eng.krun, s'.core.eng.kq with
  | none, cmd :: _ =>
    if cmd.bad then s
    else match decodeCommand 3 cmd.words with
      | .ok (.coRed o) => (s'.startWave (moveWave o) false cmd).act s.cur
      | .ok (.coBcast o) => (s'.startWave (moveWave o) true cmd).act s.cur
      | .ok (.coAllr o) => (s'.startWave (allrWave o) false cmd).act s.cur
      | _ => s
  | _, _ => s

/-- The members of every running wave among cores agree on the chunk before which they stop (R281). A member whose command is next in its
queue starts it; a wave that some member cannot bring to that chunk stops where it is (log 109). -/
def State.agreeChunks (s : State) (ids : List Nat) : State :=
  s.forEach ids fun s id =>
    match (s.coreAt id).wave? with
    | some (r, w) =>
      if r.post.isSome ∨ r.limit.isSome then s
      else
        let members := (s.runRouters id r w).map (·.1)
        let n := s.agreedChunk id r w
        let s' := if n = 0 then s else s.forEach members State.startHead
        if s'.canReach id r w n then s'.forEach members fun s k => s.updCoreAt k fun d => d.limitWave w n else s
    | none => s

/-- The wave of a core goes on after a stop. -/
def Core.clearLimit (c : Core) : Core :=
  { c with eng := { c.eng with krun := c.eng.krun.map fun r => { r with limit := none } } }

/-- The flits of a router fall into its saddlebag, each channel in its order (R328). -/
def Core.fillSaddlebag (c : Core) : Core :=
  { c with router := { c.router with
      chunks := [], flits := [], saddlebag := c.router.saddlebag ++ c.router.chunks.map .chunk ++ c.router.flits.map .stream } }

/-- A router puts its saddlebag back before any new traffic, each channel in its order (R328). -/
def Core.emptySaddlebag (c : Core) : Core :=
  let chunks := c.router.saddlebag.filterMap fun f => match f with | .chunk k => some k | .stream _ => none
  let flits := c.router.saddlebag.filterMap fun f => match f with | .stream f => some f | .chunk _ => none
  { c with router := { c.router with chunks := chunks ++ c.router.chunks, flits := flits ++ c.router.flits, saddlebag := [] } }

/-- The flits of a halted launch at a core's router fall into its saddlebag; chunks below an agreed one still move, and those of other
launches pass (R333). -/
def State.bagHalted (s : State) (id : Nat) : State :=
  let c := s.coreAt id
  let goes (k : Chunk) : Bool := k.marker || s.routerMoves id k
  s.updCoreAt id fun d => { d with router := { d.router with
    chunks := c.router.chunks.filter goes
    flits := []
    saddlebag := d.router.saddlebag ++ (c.router.chunks.filter fun k => !goes k).map .chunk ++ c.router.flits.map .stream } }

/-- A core stops at its boundary: an instruction that waits has not executed. A take with its token in the network goes on (R250). -/
def State.stopWaiting (s : State) (id : Nat) : State :=
  if (s.coreAt id).wait = .token then s
  else (s.interruptWait id).updCoreAt id fun c => { c with
    wait := .none, exiting := false, eng := { c.eng with posted := false } }

/-- Cores that run tasks of a launch. -/
def State.coresOf (s : State) (pn key : Nat) : List Nat :=
  ((s.partAt pn).coreIds).filter fun id => s.launchOf? id == some key && (s.coreAt id).part == pn

/-- Cores of a halted launch stop, and the flits of their routers fall into saddlebags. -/
def State.haltCores (s : State) (ids : List Nat) : State :=
  let s := (s.forEach ids State.stopWaiting).agreeChunks ids
  let s := s.forEach ids fun s id => s.updCoreAt id fun c => { c with halted := true }
  s.forEach ids State.bagHalted

/-- The saved cores of a launch, changed: a halt or a resume reaches a context that a gang switch keeps too, and takes effect as it
resumes (R332). -/
def Partition.updSaved (p : Partition) (key : Nat) (f : Core → Core) : Partition :=
  { p with contexts := p.contexts.map fun k => { k with cores := k.cores.map fun (l, c) => (l, match c.bound with
      | .task n .. => if n = key then f c else c
      | .supervisor | .idle => c) } }

/-- Halt a launch: every core of it stops; the one that asks for it stops at the `tret` that leaves its handler (R319). -/
def State.haltLaunch (s : State) (pn key : Nat) (asks : Option Nat) : State :=
  let ids := (s.coresOf pn key).filter fun id => some id != asks
  let s := (s.updLaunch pn key fun l => { l with halted := true }).updPartAt pn fun p => p.updSaved key fun c => { c with halted := true }
  s.haltCores ids

/-- A byte of a core's window that a store may write. -/
def Core.windowByte (c : Core) : Place → Nat
  | .spad _ off => (readByte c.spad off).toNat
  | .acc _ off => (readByte c.acc off).toNat
  | .regwin _ off => slice (c.regWord (off / 8)) (off % 8) 1
  | .mem _ | .tiles .. | .inbox .. => 0

/-- A byte with one nibble of another put in. -/
def placeNibble (odd : Bool) (old new : Nat) : Nat := if odd then old % 16 + new / 16 * 16 else old / 16 * 16 + new % 16

/-- The stores that waited for a core's resume take effect (R334); a 4-bit element keeps the other nibble as it stands then (R188). -/
def Core.landLate (c : Core) : Core :=
  let c' := c.late.foldl (fun (d : Core) e =>
    match windowPart 0 e.off e.bytes.length, e.half with
    | some pl, none => d.storeWindow pl e.bytes.length (leNat e.bytes)
    | some pl, some odd => d.storeWindow pl 1 (placeNibble odd (d.windowByte pl) (leNat e.bytes))
    | none, _ => d) c
  { c' with late := [] }

/-- A core goes on where it stopped; an overwrite iteration restarts (R266). -/
def Core.goOn (c : Core) : Core :=
  let c := c.clearLimit
  if c.overwriting then c.restartIteration else c

/-- The cores that share a wave with some cores. -/
def State.waveMembers (s : State) (ids : List Nat) : List Nat :=
  ids.flatMap fun id => match (s.coreAt id).wave? with
    | some (r, w) => (s.runRouters id r w).map (·.1)
    | none => []

/-- Resume a halted launch: saddlebags go back, and then every core goes on (R334); so does a member of its waves that was not halted. -/
def State.resumeLaunch (s : State) (pn key : Nat) : State :=
  let s := (s.updLaunch pn key fun l => { l with halted := false }).updPartAt pn fun p => p.updSaved key fun c =>
    if c.halted then { c.landLate with halted := false } else c
  let ids := s.coresOf pn key
  let members := s.waveMembers ids
  let s := s.forEach ids fun s id => s.updCoreAt id fun c =>
    if !c.halted then c
    else
      let c := { c.landLate with halted := false }
      if c.stopped then c else c.emptySaddlebag.goOn
  s.forEach members fun s id => s.updCoreAt id fun c => if c.halted || c.stopped then c else c.clearLimit

/-! ## The end of a quiet phase (R281, R325, R326) -/

/-- A started copy of one step is held: by a migration, or by a target that is in the middle of an instruction. -/
def State.stepHeld (s : State) (id : Nat) (r : CopyRun) : Bool :=
  let s' := s.act id
  match decodeCommand 0 r.cmd.words with
  | .ok (.cpReg o) => s'.stepCpReg r o == s'
  | .ok (.cpPf o) => s'.stepCpPf r o == s'
  | _ => true

/-- A core has nothing more to finish before its context is saved: its wave, its copies of one step. -/
def State.quietAt (s : State) (id : Nat) : Bool :=
  let c := s.coreAt id
  c.waveQuiet && c.openSteps.all (s.stepHeld id)

/-! ## `tret` (R317) -/

/-- The launch of the acting core is halted. -/
def State.launchHalted (s : State) : Bool :=
  match s.launchOf? s.cur with
  | some k => ((s.launch? s.core.part k).map (·.halted)).getD false
  | none => false

/-- `tret`: resume at `tepc` in the mode before the trap, or hand the task on. -/
def effTret (s : State) : Except Stop Out := do
  let t := s.core.trap
  need (s.core.sup && t.ih && decide (t.rk.toNat ≤ 1))
  if t.rk = 0 then
    let s := s.updCore fun c => ({ c with
      sup := t.pm
      trap := { c.trap with ih := false }
      csr := { c.csr with instret := c.csr.instret + 1 }
      wait := .none }).returnTo (w64 (t.tepc.toNat * 4))
    .ok (.gone (if s.launchHalted then s.haltCores [s.cur] else s))
  else
    let s := s.updCore fun c => { c with
      trap := { c.trap with ih := false }
      csr := { c.csr with instret := c.csr.instret + 1 } }
    .ok (.gone s.handOn)

/-- `tret` (R317). -/
def execTret (s : State) := s.perform .tret effTret

/-! ## `sq.rd` (R318) -/

/-- The value a register takes where there is no entry. -/
def noEntry : Word := BitVec.allOnes 64

/-- `sq.rd`. -/
def effSqRd (d i : Reg) (s : State) : Except Stop Out := do
  let v := s.x i
  let sel := (v.extractLsb' 16 2).toNat
  let clear := v.getLsbD 18
  let c := s.core
  need (v.extractLsb' 19 45 = 0 ∧ (clear → sel = 3 ∧ c.sup) ∧ (sel = 1 ∨ sel = 2 → v.extractLsb' 5 11 = 0))
  let k := (v.extractLsb' 0 5).toNat
  match sel with
  | 0 => s.okay (s.setX d (((c.ring.find? fun e => e.seq == v.extractLsb' 0 16).map fun e => w64 e.image).getD noEntry))
  | 1 => s.okay (s.setX d ((c.errlog[k]?.map (·.word0)).getD noEntry))
  | 2 => s.okay (s.setX d ((c.errlog[k]?.map (·.word1)).getD noEntry))
  | _ =>
    let s' := s.setX d (w64 (c.errlog.length ||| c.errlost.toNat <<< 16))
    s.okay (if clear then s'.updCore fun c => { c with errlog := [], errlost := 0 } else s')

/-- `sq.rd` (R318). -/
def execSqRd (d i : Reg) (s : State) := s.perform (.sqRd d i) (effSqRd d i)

/-! ## `pol.swap` (R230, R231) -/

/-- The instruction ends a policy program. -/
def isTerminal : Instr → Bool
  | .bridlePick .. | .bridleDefer | .bridleAct .. | .bridleEnd => true
  | _ => false

/-- Instruction i of an image of n is legal (R229, R230). -/
def policyWordOk (n i : Nat) (w : BitVec 16) : Bool :=
  match decodeBridle w with
  | .error _ => false
  | .ok j => (i + 1 < n || isTerminal j) && match j with
    | .bridleJf _ off => decide (i + 1 + off.toNat < n)
    | _ => true

/-- The first bad byte of a header (log 30). -/
def headerBad (h : Nat) : Option Nat :=
  let n := h % 256
  let budget := h / 256 % 512
  if n < 1 ∨ 128 < n then some 0
  else if budget < 8 ∨ 256 < budget then some 1
  else if h / 2 ^ 17 = 0 then none
  else ((List.range 8).find? fun k => (h / 2 ^ 17 * 2 ^ 17) / 256 ^ k % 256 != 0)

/-- The first bad byte of a body. -/
def bodyBad (code : List (BitVec 16)) : Option Nat :=
  (((List.range code.length).zip code).find? fun (i, w) => !policyWordOk code.length i w).map fun (i, _) => 8 + 2 * i

/-- Read half-words from an address. -/
def State.loadHalves (s : State) (va : Word) : Nat → Except Stop (List (BitVec 16) × State)
  | 0 => .ok ([], s)
  | n + 1 =>
    match s.load va 2 with
    | .error e => .error e
    | .ok (v, s) => match s.loadHalves (va + 2) n with
      | .error e => .error e
      | .ok (l, s) => .ok (BitVec.ofNat 16 v :: l, s)

/-- The image at an address: the header and its 2n bytes are read, and then checked. -/
def State.readPolicy (s : State) (a : Word) : Except Stop (Option Policy × State) := do
  if a = 0 then .ok (none, s)
  else
    raiseIf (a.toNat % 8 != 0) Cause.misaligned a
    let (h, s1) ← s.load a 8
    let (code, s2) ← s1.loadHalves (a + 8) (h % 256)
    match (headerBad h).or (bodyBad code) with
    | some k => raise Cause.policyInvalid (w64 k)
    | none => .ok (some ⟨h / 256 % 512, code⟩, s2)

/-- `pol.swap`: it installs at a decision boundary. -/
def effPolSwap (a : Reg) (s : State) : Except Stop Out := do
  need s.core.sup
  let (img, s') ← s.readPolicy (s.x a)
  waitIf s.part.decision.isSome .asleep
  s.okay (s'.updPart fun p => { p with program := img })

/-- `pol.swap` (R231). -/
def execPolSwap (a : Reg) (s : State) := s.perform (.polSwap a) (effPolSwap a)

/-! ## Translations (R306, R307) -/

/-- Remove every translation that meets a range. -/
def Partition.dropTlb (p : Partition) (va len : Nat) : Partition :=
  { p with tlb := p.tlb.filter fun e => !(decide (0 < len) && decide (e.va < va + len) && decide (va < e.va + e.size)) }

/-- `tlb.inv` (R306). -/
def execTlbInv (a l : Reg) (s : State) := s.perform (.tlbInv a l) fun s => do
  need s.core.sup
  s.okay (s.updPart fun p => p.dropTlb (s.x a).toNat (s.x l).toNat)

/-- The physical pages that L2 entries map a range to, if they map all of it, each under its direct address (R52). -/
def State.mappedPages (s : State) (va len : Nat) : Option (List Nat) :=
  if 2 ^ 55 < va + len then none
  else (List.range (len / 65536)).mapM fun k =>
    match s.walk s.part.root (va + 65536 * k) 5 with
    | .ok e => if e.size = 65536 then some (s.direct e.pa) else none
    | .error _ => none

/-- The range of a migration is legal (R307). -/
def rangeOk (va len : Nat) : Bool := va != 0 && va % 65536 == 0 && len != 0 && len % 65536 == 0

/-- `mig.begin`: the old homes apply every pending operand of the range's lines (R307). -/
def effMigBegin (a l : Reg) (s : State) : Except Stop Out := do
  let va := (s.x a).toNat
  let len := (s.x l).toNat
  need (s.core.sup && rangeOk va len)
  match s.mappedPages va len with
  | none => illegal
  | some pages =>
    match s.part.migration with
    | some m => if m.core = s.cur then illegal else .error (.wait .asleep)
    | none => s.okay ((s.forEach pages fun s pa => s.endAdds pa 65536).updPart fun p =>
        { p.dropTlb va len with migration := some ⟨s.cur, va, len, pages⟩ })

/-- `mig.begin` (R307). -/
def execMigBegin (a l : Reg) (s : State) := s.perform (.migBegin a l) (effMigBegin a l)

/-- `mig.end`. -/
def effMigEnd (a l : Reg) (s : State) : Except Stop Out := do
  let va := (s.x a).toNat
  let len := (s.x l).toNat
  need (s.core.sup && rangeOk va len && (s.mappedPages va len).isSome)
  match s.part.migration with
  | some m =>
    need (m.core == s.cur && m.va == va && m.len == len)
    s.okay ((s.updPart fun p => { p.dropTlb va len with migration := none }).retryConds s.core.part)
  | none => illegal

/-- `mig.end` (R307). -/
def execMigEnd (a l : Reg) (s : State) := s.perform (.migEnd a l) (effMigEnd a l)

/-! ## `sv.scrub` and `sv.halt` (R308, R319) -/

/-- What the scrub engine leaves of a core's windows. -/
def Core.scrubbed (c : Core) : Core :=
  { c with spad := [], acc := [], actype := 0, tiles := [], pins := [], stale := [], dom := none }

/-- `sv.scrub`: it waits for the target's task to end. -/
def effSvScrub (r : Reg) (s : State) : Except Stop Out := do
  let l := (s.x r).toNat
  let id := s.part.phys l
  need (s.core.sup && decide (l < s.part.size) && !s.part.isSuper id)
  if (s.coreAt id).bound != .idle then .ok (.sleep s (.scrub id)) else s.okay (s.updCoreAt id Core.scrubbed)

/-- `sv.scrub` (R308). -/
def execSvScrub (r : Reg) (s : State) := s.perform (.svScrub r) (effSvScrub r)

/-- `sv.halt`. -/
def effSvHalt (r : Reg) (s : State) : Except Stop Out := do
  let v := s.x r
  let pn := s.core.part
  need (s.core.sup && v.extractLsb' 33 31 == 0)
  match s.part.launches.find? fun l => l.id == v.extractLsb' 0 32 with
  | none => illegal
  | some l =>
    need (l.halted == v.getLsbD 32)
    s.okay (if l.halted then s.resumeLaunch pn l.key else s.haltLaunch pn l.key (some s.cur))

/-- `sv.halt` (R319). -/
def execSvHalt (r : Reg) (s : State) := s.perform (.svHalt r) (effSvHalt r)

end Sys2Proof.Machine
end

