-- ==== Sys2Proof/Machine/Dispatcher.lean ====
section
/-!
DEFINITION. The dispatcher of a partition (R222 to R232): which task fits an offered core, the binding of a task (R41, R309, R372), the
three kinds of decision with their built-in policy, the fault actions, and the faults the dispatcher raises itself (R219, R248).
-/

namespace Sys2Proof.Machine

/-! ## What fits (R206, R212, R224, R337) -/

/-- The node of a task. -/
def Partition.nodeOf? (p : Partition) (t : Task) : Option Node := (p.launch? t.launch).bind fun l => l.nodes[t.node]?

/-- The queue of a task. -/
def Partition.queueOf (p : Partition) (t : Task) : Nat := ((p.nodeOf? t).map fun n => n.policy.toNat % 8).getD 0

/-- The head of a queue. -/
def Partition.head? (p : Partition) (q : Nat) : Option Task := p.ready.find? fun t => p.queueOf t == q

/-- A task has reached its starvation bound (R225). -/
def Partition.overdue (p : Partition) (t : Task) : Bool := ((p.nodeOf? t).map fun n => decide (n.starve ≤ t.age)).getD false

/-- Running tasks of a node's subtree. -/
def State.runningUnder (s : State) (pn : Nat) (l : Launch) (top : Nat) : Nat :=
  ((s.partAt pn).coreIds.filter fun id =>
    let c := s.coreAt id
    c.part == pn && match c.bound with
      | .task k n .. => k == l.key && l.under top l.nodes.length n
      | .idle | .supervisor => false).length

/-- Every cores budget from a node up admits k more tasks (R206). -/
def State.roomFor (s : State) (pn : Nat) (l : Launch) (node k : Nat) : Bool :=
  (l.ancestors l.nodes.length node).all fun a =>
    decide (s.runningUnder pn l a + k ≤ (l.nodes[a]?.map (·.cores)).getD 0)

/-- A core waits for a task that may run nowhere else (R372). -/
def Partition.keptFor (p : Partition) (id : Nat) (t : Task) : Bool :=
  (p.ready ++ p.parkedTasks ++ p.stoppedTasks).any fun u =>
    u.only == some id && !(u.launch == t.launch && u.number == t.number)

/-- A core may take a task now. -/
def State.takes (s : State) (pn : Nat) (t : Task) (id : Nat) : Bool := s.canTake pn id && !(s.partAt pn).keptFor id t

/-- Points of the root's grid of a co-resident launch, and its number of dimensions. -/
def Launch.grid? (l : Launch) : Option (Nat × Nat) :=
  match l.nodes with
  | ⟨.leaf _ dims e0 e1 e2, _, _, _, _, _, _, _, _, _, _, _, _, _, _, _⟩ :: _ => if l.cores then some (dims, e0 * e1 * e2) else none
  | _ => none

/-- The cores of the pair or row that a core lies in (R337). -/
def shapeCores (id points : Nat) : List Nat := (List.range points).map fun k => id / points * points + k

/-- Tasks with cores: the task on the offered core, and the others on cores the dispatcher chooses. -/
def State.scatter (s : State) (t : Task) (id : Nat) (others : List Task) (free : List Nat) : Option (List (Task × Nat)) :=
  if others.length ≤ free.length then some ((t, id) :: others.zip (drawFrom (s.choose 4) others.length free)) else none

/-- A whole role set in the offered core's cluster (R35). -/
def State.placeRoles (s : State) (pn : Nat) (l : Launch) (t : Task) (id : Nat) : Option (List (Task × Nat)) :=
  let p := s.partAt pn
  let set := p.ready.filter fun u => u.launch == t.launch && u.node == t.node && u.role.isSome && u.ctx.isNone
  let free := (clusterCores (clusterOf id)).filter fun k => k != id && p.holds k && s.takes pn t k
  if s.roomFor pn l t.node set.length then s.scatter t id (set.filter fun u => u.number != t.number) free else none

/-- A whole co-resident grid (R212, R337). -/
def State.placeGrid (s : State) (pn : Nat) (l : Launch) (t : Task) (id dims points : Nat) : Option (List (Task × Nat)) :=
  let p := s.partAt pn
  let set := p.ready.filter fun u => u.launch == t.launch && decide (u.number < points) && u.ctx.isNone
  if !s.roomFor pn l t.node set.length then none
  else if dims = 1 ∧ (points = 2 ∨ points = 4) then
    let cores := shapeCores id points
    if cores.all (s.takes pn t) then
      some (((List.range points).filterMap fun i => set.find? fun u => u.tile0 == w64 i).zip cores)
    else none
  else s.scatter t id (set.filter fun u => u.number != t.number) ((s.idleCores pn).filter fun k => k != id && !p.keptFor k t)

/-- The launch is out of the partition with a context that a gang switch keeps: its tasks wait for the context (log 40). -/
def Partition.out (p : Partition) (key : Nat) : Bool := p.contexts.any fun k => k.launches.contains key

/-- Where a ready task goes when an offered core takes it; `none` if it does not fit. -/
def State.place (s : State) (pn : Nat) (t : Task) (id : Nat) : Option (List (Task × Nat)) :=
  match s.launch? pn t.launch with
  | none => none
  | some l =>
    if l.halted || (s.partAt pn).out l.key || !s.takes pn t id then none
    else if t.ctx.isSome then
      if (t.only.isNone || t.only == some id) && (t.image.isNone || t.image.map (·.1) == some (s.partAt pn).area) &&
          s.roomFor pn l t.node 1 then some [(t, id)] else none
    else if t.role.isSome then s.placeRoles pn l t id
    else match l.grid? with
      | some (dims, points) =>
        if t.number < points then s.placeGrid pn l t id dims points
        else if s.roomFor pn l t.node 1 then some [(t, id)] else none
      | none => if s.roomFor pn l t.node 1 then some [(t, id)] else none

/-- A ready task fits an offered core. -/
def State.fits (s : State) (pn id : Nat) (t : Task) : Bool := (s.place pn t id).isSome

/-! ## Binding (R41, R309, R327, R372) -/

/-- A core of another domain is scrubbed before the bind. A domain is named by its partition, its launch and its number: one that moved in
with a context is not a live one of the same number. -/
def Core.scrubFor (c : Core) (dom : Nat × Nat × Nat) : Core := if c.dom = some dom then c else { c.scrubbed with dom := some dom }

/-- A core with everything zero that a bind clears (R41, R309): what the domain leaves to its next task stays. -/
def Core.unbound (c : Core) (id : Nat) : Core :=
  { Core.idle id with
    spad := c.spad
    tiles := c.tiles
    router := c.router
    recseq := c.recseq
    part := c.part
    dom := c.dom
    pins := c.pins
    stale := c.stale
    failed := c.failed }

/-- A core as a fresh task finds it. -/
def Core.bindFresh (c : Core) (id pn : Nat) (p : Partition) (l : Launch) (dom : Nat) (t : Task) : Core :=
  let c := c.scrubFor (pn, t.launch, dom)
  let c := { c.unbound id with
    csr := { Csrs.idle id with
      cpb := t.cpb
      tile0 := t.tile0
      tile1 := t.tile1
      tile2 := t.tile2
      jobseed := l.jobseed
      taskno := w64 t.number
      launchid := l.id
      fdom := BitVec.ofNat 16 dom }
    trap := { TrapCsrs.zero with tvec := p.handler }
    pc := t.entry
    bound := .task t.launch t.node t.number t.weight t.role
    part := pn }
  ((List.range 4).zip t.args).foldl (fun (c : Core) (a : Nat × Word) => c.setX (BitVec.ofNat 5 (10 + a.1)) a.2) c

/-- A core as a task that was handed on finds it: the kept context, with all its virtual stream entries (log 112) and what its saddlebag
holds, on this core's own caches and links (R325, R327, R372). -/
def Core.bindKept (c : Core) (pn : Nat) (dom : Nat) (t : Task) (k : Core) : Core :=
  let c := c.scrubFor (pn, t.launch, dom)
  ({ k with
    recseq := c.recseq
    router := { c.router with entries := k.router.entries, saddlebag := k.router.saddlebag }
    bound := .task t.launch t.node t.number t.weight t.role
    part := pn
    held := .no
    stopped := false
    halted := false
    dom := c.dom
    pins := c.pins
    stale := c.stale
    late := []
    unseen := []
    failed := c.failed }).emptySaddlebag.clearLimit.oweAll.returnTo k.pc

/-- The first uncorrectable address of a range. -/
def State.firstPoison? (s : State) (base n : Nat) : Option Nat :=
  (s.poison.filter fun a => decide (base ≤ a) && decide (a < base + n)).foldl
    (fun (m : Option Nat) a => some (match m with | none => a | some b => min a b)) none

/-- Take a task out of every list of tasks off their cores. -/
def Partition.removeTask (p : Partition) (t : Task) : Partition :=
  let other (u : Task) : Bool := !(u.launch == t.launch && u.number == t.number)
  { p with
    ready := p.ready.filter other
    waiting := p.waiting.filter other
    parkedTasks := p.parkedTasks.filter other
    stoppedTasks := p.stoppedTasks.filter other
    images := match t.image with
      | some i => p.images.erase i
      | none => p.images }

/-- Bind one task: a fresh one, or one with a kept context, whose image may have become unreadable (R331). -/
def State.bindOne (s : State) (pn : Nat) (t : Task) (id : Nat) : State :=
  let p := s.partAt pn
  let dom := p.taskDomain t
  match p.launch? t.launch with
  | none => s
  | some l =>
    let taken (s : State) : State := s.updPartAt pn fun p => { p.removeTask t with
      offers := p.offers.filter (·.1 != id), deferred := alErase id p.deferred }
    match t.ctx with
    | none => taken (s.updCoreAt id fun c => c.bindFresh id pn p l dom t)
    | some k =>
      match t.image.bind fun i => s.firstPoison? (p.handOnBase i.2) 0x100000 with
      | some a =>
        let s := s.updPartAt pn fun p => { p with
          ready := p.ready.filter (fun u => !(u.launch == t.launch && u.number == t.number)), stoppedTasks := p.stoppedTasks ++ [t] }
        let s := s.updPartAt pn fun p => p.countFault t.launch Cause.data dom
        (s.recordDispatcher pn Cause.data dom l.id.toNat (w64 a)).requestDecision pn
          ⟨dom, Cause.data, 0, some (t.launch, t.number), none, false⟩
      | none =>
        let s := taken (s.updCoreAt id fun c => c.bindKept pn dom t k)
        let s := s.keepStreams t.ghost id
        let s := { s with cores := alErase t.ghost s.cores }
        s.postOwed id (s.coreAt id).owed.length

/-- Bind tasks to their cores. -/
def State.bindAll (s : State) (pn : Nat) (l : List (Task × Nat)) : State := s.forEach l fun s e => s.bindOne pn e.1 e.2

/-! ## Decisions (R222, R226) -/

/-- A number as a value of the bridle: 32 bits, saturating (R228). -/
def sat32 (n : Nat) : Word32 := BitVec.ofNat 32 (min n 0xFFFFFFFF)

/-- The eight fields of a queue (R228). -/
def State.queueFields (s : State) (pn : Nat) (core : Option Nat) (q : Nat) : List Word32 :=
  let p := s.partAt pn
  match p.head? q with
  | none => List.replicate 8 0
  | some t =>
    let n := p.nodeOf? t
    let dom := p.taskDomain t
    let starve := (n.map (·.starve)).getD 0
    [sat32 (p.ready.filter fun u => p.queueOf u == q).length, sat32 t.age, sat32 ((n.map (·.prio)).getD 0), sat32 dom,
      if (core.map fun id => s.fits pn id t).getD false then 1 else 0, sat32 ((alGet dom p.domFaults).getD 0),
      sat32 ((n.map fun n => n.policy.toNat).getD 0), sat32 (starve - t.age)]

/-- The eight values of `ldc` (R228). -/
def State.countFields (s : State) (pn : Nat) (kind : DecisionKind) (deferrals : Nat) : List Word32 :=
  let p := s.partAt pn
  let idle := s.idleCores pn
  let code : Nat := match kind with | .dispatch _ => 0 | .preempt => 1 | .fault _ => 2
  let dom : Nat := match kind with | .fault d => d | .dispatch _ | .preempt => 0
  let core : Option Nat := match kind with | .dispatch id => some id | .preempt | .fault _ => none
  [sat32 code, sat32 idle.length,
    sat32 ((core.map fun id => (idle.filter fun k => clusterOf k == clusterOf id).length).getD 0), sat32 dom,
    sat32 ((alGet dom p.domFaults).getD 0), sat32 ((core.map p.logical).getD 0), p.decisions.extractLsb' 0 32, sat32 deferrals]

/-- The queue heads that fit an offered core, in the order in which they became ready. -/
def State.fitting (s : State) (pn id : Nat) : List Fit :=
  let p := s.partAt pn
  p.ready.filterMap fun t =>
    let q := p.queueOf t
    if p.head? q = some t then
      (s.place pn t id).map fun l =>
        ⟨q, ((p.nodeOf? t).map (·.prio)).getD 0, t.age, t.launch, l.map fun e => ((e.1.launch, e.1.number), e.2)⟩
    else none

/-- A decision with its snapshot. -/
def State.openDecision (s : State) (pn : Nat) (kind : DecisionKind) (req : Option FaultReq) (deferrals : Nat) : Decision :=
  let core : Option Nat := match kind with | .dispatch id => some id | .preempt | .fault _ => none
  ⟨kind, req, 0, 0, Vector.replicate 8 0, [], (List.range 8).map (s.queueFields pn core), s.countFields pn kind deferrals,
    (core.map (s.fitting pn)).getD []⟩

/-- One more decision of a partition. -/
def State.countDecision (s : State) (pn : Nat) : State := s.updPartAt pn fun p => { p with decisions := p.decisions + 1 }

/-- Dispatcher decisions are made now: none is in progress, and no gang switch has stopped the partition. -/
def Partition.decides (p : Partition) : Bool := p.decision.isNone && (p.phase == .none || p.phase == .granted)

/-! ## Dispatch decisions (R223, R225, R227) -/

/-- The offered core stays idle until its next offer. -/
def State.deferCore (s : State) (pn id : Nat) : State :=
  s.updPartAt pn fun p => { p with deferred := alSet id ((alGet id p.deferred).getD 0 + 1) p.deferred }

/-- A task takes the offered core now. -/
def State.dispatchTo (s : State) (pn id : Nat) (t : Task) : State :=
  match s.place pn t id with
  | some l => s.bindAll pn l
  | none => s.deferCore pn id

/-- The binding that a decision chose in its snapshot; one that cannot be made any more leaves the core idle. -/
def State.bindFit (s : State) (pn id : Nat) (f : Fit) : State :=
  let p := s.partAt pn
  let l := f.places.filterMap fun e => (p.ready.find? fun t => t.launch == e.1.1 && t.number == e.1.2).map (·, e.2)
  if l.length = f.places.length ∧ l.all (fun e => s.takes pn e.1 e.2) ∧
      (p.launch? f.launch).any (fun x => !x.halted && !p.out x.key) then s.bindAll pn l
  else s.deferCore pn id

/-- The built-in choice: among unvetoed queues whose head fits, the highest priority, then the greatest age, then the first that
became ready. -/
def Decision.builtinPick (d : Decision) (vetoes : List Nat) : Option Fit :=
  (d.fits.filter fun f => !vetoes.contains f.queue).foldl (fun (b : Option Fit) f => match b with
    | none => some f
    | some g => if g.prio < f.prio ∨ g.prio = f.prio ∧ g.age < f.age then some f else b) none

/-- The built-in policy decides a dispatch on the snapshot; an overrun counts for the launch of the task that it picks (R226). -/
def State.builtinDispatch (s : State) (pn id : Nat) (d : Decision) (vetoes : List Nat) (overrun : Bool) : State :=
  match d.builtinPick vetoes with
  | none => s.deferCore pn id
  | some f =>
    let s := if overrun then s.updLaunch pn f.launch fun l => { l with overruns := satInc l.overruns } else s
    s.bindFit pn id f

/-- The first overdue task that fits (R225). -/
def State.overdue? (s : State) (pn id : Nat) : Option Task :=
  let p := s.partAt pn
  p.ready.find? fun t => p.overdue t && s.fits pn id t

/-- An offer that a ready task caused is passed over without a decision if no queue head fits (R223). -/
def State.passedOver (s : State) (pn id : Nat) : Bool :=
  let p := s.partAt pn
  !(List.range 8).any fun q => (p.head? q).any (s.fits pn id)

/-- An idle core that a `sv.scrub` holds keeps its offer until the scrub has ended (R223, R308). -/
def State.offerHeld (s : State) (id : Nat) : Bool := (s.coreAt id).bound == .idle && !(s.coreAt id).failed && s.scrubHolds id

/-- The dispatch decision for an offered core. -/
def State.decideDispatch (s : State) (pn id : Nat) (mark : Bool) : State :=
  let s' := s.updPartAt pn fun p => { p with offers := p.offers.erase (id, mark) }
  if s.offerHeld id then s
  else if !s.canTake pn id then s'
  else match s.overdue? pn id with
    | some t =>
      ((s'.countDecision pn).updLaunch pn t.launch fun l => { l with forced := l.forced + 1 }).dispatchTo pn id t
    | none =>
      if mark && s.passedOver pn id then s'
      else
        let d := s.openDecision pn (.dispatch id) none ((alGet id (s.partAt pn).deferred).getD 0)
        let s' := (s'.countDecision pn).updPartAt pn fun p => { p with ready := p.ready.map fun t => { t with age := t.age + 1 } }
        if (s.partAt pn).program.isSome then s'.updPartAt pn fun p => { p with decision := some d }
        else s'.builtinDispatch pn id d [] false

/-- The dispatch decision for an offered core; cores offered because a task became ready come in their order (R223, R226). -/
def execDispatchDecision (p core : Nat) (s : State) : Host.Outcome State Fault Refusal :=
  let q := s.partAt p
  match q.offers.find? fun o => o.1 == core with
  | none => .next s
  | some (_, mark) =>
    if q.decides && (!mark || (q.offers.find? fun o => o.2 && !s.offerHeld o.1) == some (core, true)) then
      .next (s.decideDispatch p core mark)
    else .next s

/-- A deferred core is offered again after 4,096 cycles without another offer (R223). -/
def execDeferredCoreReoffer (p core : Nat) (s : State) : Host.Outcome State Fault Refusal :=
  let q := s.partAt p
  if (alGet core q.deferred).isSome && s.canTake p core && !q.offers.any (·.1 == core) then
    .next (s.updPartAt p fun q => { q with offers := q.offers ++ [(core, false)] })
  else .next s

/-! ## Pre-emption decisions (R222, R227, R323) -/

/-- Grant the request for a gang switch. -/
def State.grantSwitch (s : State) (pn : Nat) : State := s.updPartAt pn fun p => { p with preempt := none, phase := .granted }

/-- The pre-emption decision (R226): the ninth on one request grants it. -/
def execPreemptionDecision (p : Nat) (s : State) : Host.Outcome State Fault Refusal :=
  let q := s.partAt p
  match q.preempt with
  | none => .next s
  | some (n, at') =>
    if !q.decides || q.phase != .none || q.decisions.toNat < at' then .next s
    else
      let s' := s.countDecision p
      if 8 ≤ n ∨ q.program.isNone then .next (s'.grantSwitch p)
      else
        let d := s.openDecision p .preempt none n
        .next (s'.updPartAt p fun q => { q with decision := some d })

/-- A bridle defers the request: it is decided again after the next decision of any kind. -/
def State.deferSwitch (s : State) (pn : Nat) : State :=
  s.updPartAt pn fun p => { p with preempt := p.preempt.map fun r => (r.1 + 1, p.decisions.toNat + 1) }

/-! ## Fault actions (R232) -/

/-- The launch that a domain belongs to. -/
def Partition.launchOfDomain? (p : Partition) (dom : Nat) : Option Launch := p.launches.find? fun l => l.nodes.any (·.domain == dom)

/-- A task off its core ends: its image is free, the streams it had open close, and the mutexes it holds pass on (R240). -/
def State.endOffCore (s : State) (pn : Nat) (t : Task) : State :=
  let s := s.updPartAt pn fun p => p.removeTask t
  let s := if t.ctx.isSome then
      let s := (s.closeStreams t.ghost).releaseHeld t.ghost
      { s with cores := alErase t.ghost s.cores }
    else s
  s.cancelTask pn t

/-- A task on its core ends by a kill: its commands are discarded, with no message and no flag. -/
def State.killOnCore (s : State) (pn id : Nat) : State :=
  let cur := s.cur
  let s := ((s.act id).dissolveGang).act cur
  let s := (s.discardMatrix id).discardCollective id
  let s := (s.dropCopies id ((s.coreAt id).seqctr + 1)).updCoreAt id fun c => c.dropVector.dropMedia
  match (s.coreAt id).bound with
  | .task key node number weight _ => (s.vacate id true).endTask pn key node number weight false
  | .supervisor | .idle => s

/-- The cores on which tasks of a domain are bound. -/
def State.coresOfDomain (s : State) (pn dom : Nat) : List Nat :=
  (s.partAt pn).coreIds.filter fun id =>
    let c := s.coreAt id
    c.part == pn && c.csr.fdom.toNat == dom && match c.bound with | .task .. => true | .supervisor | .idle => false

/-- Drop a future as `fu.drop` does. -/
def State.dropAsTask (s : State) (pn slot : Nat) (f : Future) : State :=
  match f.state with
  | .pending => s.dropFuture pn slot f
  | .full => s.setFuture pn slot { f with state := .empty }
  | .dropped | .empty => s

/-- Kill a domain. -/
def State.killDomain (s : State) (pn dom : Nat) : State :=
  match (s.partAt pn).launchOfDomain? dom with
  | none => s
  | some l =>
    let s := (s.updLaunch pn l.key fun l => { l with killed := true }).updPartAt pn fun p => { p with
      killed := if p.killed.contains dom then p.killed else p.killed ++ [dom]
      contexts := p.contexts.map fun k => if k.launches.contains l.key then { k with kills := k.kills ++ [dom] } else k
      parked := p.parked.filter (· != dom) }
    let p := s.partAt pn
    let off := (p.ready ++ p.waiting ++ p.parkedTasks ++ p.stoppedTasks).filter fun t => p.taskDomain t == dom
    let s := s.forEach (s.coresOfDomain pn dom) fun s id => s.killOnCore pn id
    let s := s.forEach off fun s t => s.endOffCore pn t
    let mine := p.futures.filter fun e => e.2.launch == l.key && l.domainOf e.2.node == dom
    s.forEach mine fun s e => match alGet e.1 (s.partAt pn).futures with
      | some f => s.dropAsTask pn e.1 f
      | none => s

/-- A task that stayed on its core after a second hand-on leaves it, and may run only there (R372). -/
def State.leaveInPlace (s : State) (pn id : Nat) : State :=
  let s := s.updCoreAt id Core.bagOwn
  let c := s.coreAt id
  match c.bound with
  | .task key node number weight role =>
    let g := s.freeGhost id
    let t : Task := { { c with held := .no }.asTask id key node number weight role with ghost := g }
    ((s.keepStreams id g).updPartAt pn fun p => { p with stoppedTasks := p.stoppedTasks ++ [t] }).vacate id false
  | .supervisor | .idle => s

/-- A stopped task is the one that a fault decision is about. A deadlock's decision, which names no task, is about every stopped
task of its domain that no other request names (R248). -/
def Partition.concerns (p : Partition) (r : FaultReq) (key number dom : Nat) : Bool :=
  match r.task with
  | some t => t == (key, number)
  | none => r.cause == Cause.queueDeadlock && r.domain == dom && !p.faults.any fun q => q.task == some (key, number)

/-- The tasks of a fault, stopped on their cores, leave them. -/
def State.freeStopped (s : State) (pn : Nat) (r : FaultReq) : State :=
  let ids := (s.coresOfDomain pn r.domain).filter fun id =>
    let c := s.coreAt id
    c.held == .stopped && match c.bound with
      | .task key _ number .. => (s.partAt pn).concerns r key number r.domain
      | .supervisor | .idle => false
  s.forEach ids fun s id => s.leaveInPlace pn id

/-- The tasks of a fault that stand stopped off their cores. -/
def Partition.faulting (p : Partition) (r : FaultReq) : List Task :=
  p.stoppedTasks.filter fun t => p.taskDomain t == r.domain && p.concerns r t.launch t.number r.domain

/-- Retry: the faulting task re-enters its queue. -/
def State.retryFault (s : State) (pn : Nat) (r : FaultReq) : State :=
  let s := s.freeStopped pn r
  let ts := (s.partAt pn).faulting r
  let s := s.updPartAt pn fun p => { p with stoppedTasks := p.stoppedTasks.filter fun t => !ts.contains t }
  s.forEach ts fun s t => s.readyTask pn t

/-- Park a domain; its faulting task is held with its ready tasks if it is the subject. -/
def State.parkDomain (s : State) (pn dom : Nat) (r : FaultReq) : State :=
  let s := if r.domain = dom then s.freeStopped pn r else s
  s.updPartAt pn fun p =>
    let ready := p.ready.filter fun t => p.taskDomain t == dom
    let ts := if r.domain = dom then p.faulting r else []
    { p with
      parked := p.parked ++ [dom]
      ready := p.ready.filter fun t => p.taskDomain t != dom
      stoppedTasks := p.stoppedTasks.filter fun t => !ts.contains t
      parkedTasks := p.parkedTasks ++ ready ++ ts }

/-! ## Fault decisions (R222, R227, R298) -/

/-- Apply an action to a domain. A subject left untouched is decided again after the decisions already waiting, in test mode after a halt
of its own (R298). -/
def State.applyAction (s : State) (pn : Nat) (r : FaultReq) (dom : Nat) (kind : BitVec 2) : State :=
  let s := if kind = 0 then s.killDomain pn dom else if kind = 1 then s.parkDomain pn dom r else s.retryFault pn r
  if dom = r.domain then s else s.updPartAt pn fun p => { p with faults := p.faults ++ [{ r with passes := r.passes + 1, tested := false }] }

/-- An action is a valid outcome of a fault decision (R227). -/
def Partition.validAction (p : Partition) (r : FaultReq) (dom : Nat) (kind : BitVec 2) : Bool :=
  (p.launchOfDomain? dom).isSome && !p.killed.contains dom && kind != 3 && (kind != 1 || !p.parked.contains dom) &&
    (kind != 2 || dom == r.domain)

/-- The launch of a fault's domain is halted, or out with a context: its decision waits. -/
def Partition.haltedDomain (p : Partition) (dom : Nat) : Bool := (p.launchOfDomain? dom).any fun l => l.halted || p.out l.key

/-- A fault decision starts. -/
def State.decideFault (s : State) (pn : Nat) (r : FaultReq) : State :=
  let s' := (s.countDecision pn).updPartAt pn fun p => { p with faults := p.faults.erase r }
  if 8 ≤ r.passes ∨ (s.partAt pn).program.isNone then s'.applyAction pn r r.domain 0
  else
    let d := s.openDecision pn (.fault r.domain) (some r) 0
    s'.updPartAt pn fun p => { p with decision := some d }

/-- In test mode the launch is halted before the decision, which waits until the owner resumes it (R298). -/
def State.testHalt (s : State) (pn : Nat) (r : FaultReq) : State :=
  let s := s.updPartAt pn fun p => { p with faults := p.faults.map fun q => if q = r then { q with tested := true } else q }
  match (s.partAt pn).launchOfDomain? r.domain with
  | some l => s.haltLaunch pn l.key none
  | none => s

/-- The next fault decision (R226). -/
def execFaultDecision (p : Nat) (s : State) : Host.Outcome State Fault Refusal :=
  let q := s.partAt p
  match q.faults.find? fun r => !q.haltedDomain r.domain with
  | none => .next s
  | some r =>
    if !q.decides then .next s
    else if q.mode = .test ∧ !r.tested then .next (s.testHalt p r)
    else .next (s.decideFault p r)

/-! ## How a bridle ends (R226, R229) -/

/-- The result of a bridle. -/
inductive Verdict where
  /-- An overrun, or a register that names no queue. -/
  | invalid
  | fallback
  | pick (q : Nat)
  | defer
  | act (dom : Nat) (kind : BitVec 2)
  deriving DecidableEq, Repr

/-- Count an overrun for a domain's launch. -/
def State.overrunDomain (s : State) (pn dom : Nat) : State :=
  match (s.partAt pn).launchOfDomain? dom with
  | some l => s.updLaunch pn l.key fun l => { l with overruns := satInc l.overruns }
  | none => s

/-- The verdict on an offered core. -/
def State.concludeDispatch (s : State) (pn id : Nat) (d : Decision) (v : Verdict) : State :=
  match v with
  | .fallback => s.builtinDispatch pn id d d.vetoes false
  | .defer => s.deferCore pn id
  | .pick q =>
    match if d.vetoes.contains q then none else d.fits.find? fun f => f.queue == q with
    | some f => s.bindFit pn id f
    | none => s.builtinDispatch pn id d [] true
  | .invalid | .act .. => s.builtinDispatch pn id d [] true

/-- The verdict on a gang-switch request. -/
def State.concludePreempt (s : State) (pn : Nat) (v : Verdict) : State :=
  match v with
  | .defer => s.deferSwitch pn
  | .fallback | .invalid | .pick _ | .act .. => s.grantSwitch pn

/-- The verdict on a fault. -/
def State.concludeFault (s : State) (pn : Nat) (r : FaultReq) (v : Verdict) : State :=
  match v with
  | .fallback => s.applyAction pn r r.domain 0
  | .act dom kind =>
    if (s.partAt pn).validAction r dom kind then s.applyAction pn r dom kind
    else (s.overrunDomain pn r.domain).applyAction pn r r.domain 0
  | .invalid | .pick _ | .defer => (s.overrunDomain pn r.domain).applyAction pn r r.domain 0

/-- The decision in progress ends. -/
def State.conclude (s : State) (pn : Nat) (d : Decision) (v : Verdict) : State :=
  let s := s.updPartAt pn fun p => { p with decision := none }
  match d.kind, d.req with
  | .dispatch id, _ => s.concludeDispatch pn id d v
  | .preempt, _ => s.concludePreempt pn v
  | .fault _, some r => s.concludeFault pn r v
  | .fault _, none => s

/-! ## Faults the dispatcher raises (R219, R248) -/

/-- The cores of a partition that run tasks. -/
def State.runningCores (s : State) (pn : Nat) : List Nat :=
  (s.partAt pn).coreIds.filter fun id =>
    let c := s.coreAt id
    c.part == pn && match c.bound with | .task .. => true | .supervisor | .idle => false

/-- A core waits in a counted operation (R248). -/
def Core.counted (c : Core) : Bool :=
  c.held == .no && !c.halted && !c.stopped && match c.wait with
    | .counted | .fuse _ | .exit => true
    | .none | .asleep | .lineWord .. | .partway | .token | .scrub _ => false

/-- A core counts as blocked: it waits in a counted operation, or has executed an instruction in which another member of its gang waits
(R247, R248). -/
def State.blocked (s : State) (id : Nat) : Bool :=
  let c := s.coreAt id
  c.counted || (c.held == .no && !c.halted && !c.stopped && c.gang.any (·.retired.isSome) &&
    (s.gangOf id).any fun m => (s.coreAt m).counted)

/-- Put a number into a rising list. -/
def insertNat (n : Nat) : List Nat → List Nat
  | [] => [n]
  | m :: t => if n < m then n :: m :: t else if n = m then m :: t else m :: insertNat n t

/-- What `tstat` says of the instruction that a core is blocked in: the engine field of a tile-table or inbox command, and `sqnext` for
an issue or matrix instruction (R26, R314). -/
def State.blockedAt (s : State) : BitVec 3 × BitVec 16 :=
  match s.fetchWord with
  | .ok (w, _) =>
    let e := w.extractLsb' 12 3
    if issuesNumber w then (if w.extractLsb' 0 7 == 0x7B && decide (5 ≤ e.toNat) then e else 0, s.core.seqctr) else (0, 0)
  | .error _ => (0, 0)

/-- QUEUE_DEADLOCK of a partition: one fault decision for each domain, and the fault taken at each blocked instruction (R248). -/
def State.deadlock (s : State) (pn : Nat) : State :=
  let ids := s.runningCores pn
  let doms := ids.foldl (fun l id => insertNat (s.coreAt id).csr.fdom.toNat l) []
  let cur := s.cur
  let s := s.forEach doms fun s d => s.requestDecision pn ⟨d, Cause.queueDeadlock, 0, none, none, false⟩
  (s.forEach ids fun s id =>
    let s := s.act id
    match s.core.gang.bind (·.retired) with
    | some npc => s.takeTrap ⟨Cause.queueDeadlock, 0, 0, false, 0, 0⟩ npc
    | none =>
      let at' := s.blockedAt
      s.takeTrap ⟨Cause.queueDeadlock, 0, 0, false, at'.1, at'.2⟩ s.core.pc).act cur

/-- The deadlock count of a partition runs out. That no engine of it could move is the turn's to see (R248, log 3). -/
def execQueueDeadlock (p : Nat) (s : State) : Host.Outcome State Fault Refusal :=
  let ids := s.runningCores p
  let decoding := (s.partAt p).coreIds.any fun id => (s.coreAt id).eng.drun.any fun r => r.post.isNone
  if ids ≠ [] ∧ ids.all s.blocked ∧ !decoding then .next (s.deadlock p) else .next s

/-- FUTURE_ORPHAN of a launch whose tasks all wait (R219). The value is the handle of a future that the lowest-numbered one waits
for. -/
def execFutureOrphan (p launch : Nat) (s : State) : Host.Outcome State Fault Refusal :=
  let q := s.partAt p
  let mine (t : Task) : Bool := t.launch == launch
  let live := (q.ready ++ q.parkedTasks ++ q.stoppedTasks).any mine || (s.coresOf p launch) != [] || q.out launch
  let waiting := q.waiting.filter mine
  let first := waiting.foldl (fun (b : Option Task) t => match b with
    | none => some t
    | some u => if t.number < u.number then some t else b) none
  match first with
  | none => .next s
  | some t =>
    if live then .next s
    else
      let slot := t.waits.headD 0
      let gen := ((alGet slot q.futures).map fun f => f.gen.toNat).getD 0
      let s := s.dispatcherFault p launch Cause.futureOrphan (q.taskDomain t) (w64 (slot + gen * 65536))
      .next (s.forEach (waiting.flatMap (·.waits)).eraseDups fun s n => match alGet n (s.partAt p).futures with
        | some f => if f.state = .pending then s.dropFuture p n f else s
        | none => s)

end Sys2Proof.Machine
end

