-- ==== Sys2Proof/Machine/Placing.lean ====
section
/-!
DEFINITION. A program placed from outside (log 38): a partition with one task bound to its first core, and a word, a command or a bridle
half-word laid where the next step takes it.
-/

namespace Sys2Proof.Machine

/-- Time advances, and the turn that is taken leaves the agenda. -/
def State.advance (s : State) : State :=
  { s with tick := s.tick + 1, clock := if s.clock < Config.timeBase s.tick then Config.timeBase s.tick else s.clock, agenda := s.agenda.tail }

/-- Physical address of the page-table root of a placed partition. -/
def placedRoot : Nat := 0x100000

/-- Address of the placed word, virtual and physical. -/
def placedPc : Nat := 0x200000

/-- Address of the placed command pool. -/
def placedPool : Nat := 0x300000

/-- The node of a placed task. -/
def placedNode : Node :=
  ⟨.leaf (w64 placedPc) 1 1 1 1, none, [], 1, 0, 15, 0xC0000, 64, 128, 4096, 65536, 0, BitVec.ofNat 50 (placedPool / 32), .ready, 0, 1⟩

/-- The launch of a placed task. -/
def placedLaunch : Launch :=
  { key := 0, id := 0, jobseed := 0, args := [0, 0, 0, 0], record := 0, sigcore := 0, sigkind := 0, vector := 0, cores := false,
    nomove := false, nodes := [placedNode], acc := 0, target := 2 ^ 63, loans := 0, counter := 1, poolSize := 1, pool := [],
    faults := 0, overruns := 0, forced := 0, tasks := 0, faulted := false, killed := false, cause := 0, domain := 0, start := 0,
    halted := false }

/-- A partition of one cluster whose tables map every address to itself. -/
def placedPartition : Partition :=
  { Partition.blank with
    w := 1
    h := 1
    root := placedRoot
    area := 0x400000
    logBase := 0x3000000
    launches := [placedLaunch]
    nextKey := 1
    domCounter := 1 }

/-- The task of a placed launch. -/
def placedTask : Task :=
  ⟨0, 0, 0, 2 ^ 63, w64 placedPc, [0, 0, 0, 0], BitVec.ofNat 50 (placedPool / 32), 0, 0, 0, none, [], 0, none, none, none, 0⟩

/-- The machine with a placed task bound to core 0, and a turn laid down. -/
def State.placeTask (s : State) (t : Turn) : State :=
  let s := { s with
    agenda := [t]
    mem := writeLE s.mem placedRoot 8 0x1F
    poison := []
    parts := alSet 0 placedPartition (alErase 0 s.parts)
    mgmt := { s.mgmt with pstate := 0 } }
  (s.setCoreAt 0 ((Core.idle 0).bindFresh 0 0 placedPartition placedLaunch 1 placedTask)).act 0

/-- A word at the pc of the placed task. -/
def State.placeWord (s : State) (w : Word32) : State :=
  let s := s.placeTask (.stream 0)
  { s with mem := writeLE s.mem placedPc 4 w.toNat }

/-- A command at the head of its engine's queue; one of the pool engines lies in the pool, and its issue word at the pc. -/
def State.placeCommand (s : State) (w : CmdWords) : State :=
  let e := commandEngine w.w0
  if 5 ≤ e.toNat then
    let s := s.placeWord (encode32 (.engineIssue e 0 0 0))
    let m := writeLE (writeLE s.mem placedPool 8 w.w0.toNat) (placedPool + 8) 8 w.w1.toNat
    { s with mem := writeLE (writeLE m (placedPool + 16) 8 w.w2.toNat) (placedPool + 24) 8 w.w3.toNat }
  else
    let s := s.placeTask (.engine 0 e 0)
    s.queueCommand e 0 (s.captured w false (w64 placedPool))

/-- A half-word as the policy program of a decision in progress. -/
def State.placeHalf (s : State) (w : BitVec 16) : State :=
  let s := s.placeTask (.bridle 0)
  s.updPartAt 0 fun p => { p with
    program := some ⟨256, [w]⟩
    decision := some (s.openDecision 0 .preempt none 0) }

end Sys2Proof.Machine
end

