-- ==== Sys2Proof/Machine/Bridle.lean ====
section
/-!
DEFINITION. The bridle (R229): each instruction is one step of the decision in progress of the partition that the acting core lies in.
-/

namespace Sys2Proof.Machine

/-- A register of the bridle. -/
def Decision.reg (d : Decision) (r : BitVec 3) : Word32 := d.p[r.toNat]'r.isLt

/-- Act on the decision in progress of the acting core's partition; without one nothing happens. -/
def State.bridle (s : State) (f : Nat → Decision → State) : Host.Outcome State Fault Refusal :=
  match s.partOf? s.cur with
  | none => .next s
  | some pn => match (s.partAt pn).decision with
    | some d => .next (f pn d)
    | none => .next s

/-- The bridle goes on after a step, unless its budget is used up: then the result is an overrun. -/
def State.bridleGoesOn (s : State) (pn : Nat) (d : Decision) : State :=
  let d := { d with steps := d.steps + 1 }
  if (((s.partAt pn).program.map (·.budget)).getD 0) ≤ d.steps then s.conclude pn d .invalid
  else s.updPartAt pn fun p => { p with decision := some d }

/-- A step that changes the decision alone. -/
def State.bridleStep (s : State) (f : Decision → Decision) : Host.Outcome State Fault Refusal :=
  s.bridle fun pn d => s.bridleGoesOn pn (f d)

/-- A step that writes a register. -/
def State.bridleWrites (s : State) (r : BitVec 3) (f : Decision → Word32) : Host.Outcome State Fault Refusal :=
  s.bridleStep fun d => { d with index := d.index + 1, p := d.p.set r.toNat (f d) r.isLt }

/-- A terminal step. -/
def State.bridleEnds (s : State) (f : Decision → Verdict) : Host.Outcome State Fault Refusal :=
  s.bridle fun pn d => s.conclude pn d (f d)

/-- `end`: the built-in policy decides, with the vetoes in force. -/
def execBridleEnd  (s : State) : Host.Outcome State Fault Refusal :=
  s.bridleEnds fun _ => .fallback

/-- `li`. -/
def execBridleLi (d : BitVec 3) (i : BitVec 8) (s : State) : Host.Outcome State Fault Refusal := s.bridleWrites d fun _ => i.zeroExtend 32

/-- `ldq` (R228). -/
def execBridleLdq (d q f : BitVec 3) (s : State) : Host.Outcome State Fault Refusal := s.bridleWrites d fun k =>
  ((k.queues[q.toNat]?.bind (·[f.toNat]?)).getD 0)

/-- `ldc` (R228). -/
def execBridleLdc (d c : BitVec 3) (s : State) : Host.Outcome State Fault Refusal := s.bridleWrites d fun k => (k.counts[c.toNat]?).getD 0

/-- `add`, modulo 2^32. -/
def execBridleAdd (d a b : BitVec 3) (s : State) : Host.Outcome State Fault Refusal := s.bridleWrites d fun k => k.reg a + k.reg b

/-- `sub`, modulo 2^32. -/
def execBridleSub (d a b : BitVec 3) (s : State) : Host.Outcome State Fault Refusal := s.bridleWrites d fun k => k.reg a - k.reg b

/-- `min`, unsigned. -/
def execBridleMin (d a b : BitVec 3) (s : State) : Host.Outcome State Fault Refusal := s.bridleWrites d fun k => if k.reg a < k.reg b then k.reg a else k.reg b

/-- `max`, unsigned. -/
def execBridleMax (d a b : BitVec 3) (s : State) : Host.Outcome State Fault Refusal := s.bridleWrites d fun k => if k.reg a < k.reg b then k.reg b else k.reg a

/-- `and`. -/
def execBridleAnd (d a b : BitVec 3) (s : State) : Host.Outcome State Fault Refusal := s.bridleWrites d fun k => k.reg a &&& k.reg b

/-- `or`. -/
def execBridleOr (d a b : BitVec 3) (s : State) : Host.Outcome State Fault Refusal := s.bridleWrites d fun k => k.reg a ||| k.reg b

/-- `shl`, by pb mod 32. -/
def execBridleShl (d a b : BitVec 3) (s : State) : Host.Outcome State Fault Refusal := s.bridleWrites d fun k => k.reg a <<< ((k.reg b).toNat % 32)

/-- `shr`, by pb mod 32. -/
def execBridleShr (d a b : BitVec 3) (s : State) : Host.Outcome State Fault Refusal := s.bridleWrites d fun k => k.reg a >>> ((k.reg b).toNat % 32)

/-- `clt`, unsigned. -/
def execBridleClt (d a b : BitVec 3) (s : State) : Host.Outcome State Fault Refusal := s.bridleWrites d fun k => if k.reg a < k.reg b then 1 else 0

/-- `ceq`. -/
def execBridleCeq (d a b : BitVec 3) (s : State) : Host.Outcome State Fault Refusal := s.bridleWrites d fun k => if k.reg a = k.reg b then 1 else 0

/-- `sel`. -/
def execBridleSel (d a b : BitVec 3) (s : State) : Host.Outcome State Fault Refusal := s.bridleWrites d fun k => if k.reg d ≠ 0 then k.reg a else k.reg b

/-- `jf`: forward if pa is 0. -/
def execBridleJf (a : BitVec 3) (o : BitVec 8) (s : State) : Host.Outcome State Fault Refusal :=
  s.bridleStep fun k =>
    if k.reg a = 0 then { k with index := k.index + 1 + o.toNat } else { k with index := k.index + 1 }

/-- `pick`. -/
def execBridlePick (a : BitVec 3) (s : State) : Host.Outcome State Fault Refusal :=
  s.bridleEnds fun k =>
    if (k.reg a).toNat < 8 then .pick (k.reg a).toNat else .invalid

/-- `veto`. -/
def execBridleVeto (a : BitVec 3) (s : State) : Host.Outcome State Fault Refusal :=
  s.bridle fun pn k =>
    if (k.reg a).toNat < 8 then s.bridleGoesOn pn { k with index := k.index + 1, vetoes := (k.reg a).toNat :: k.vetoes }
    else s.conclude pn k .invalid

/-- `defer`. -/
def execBridleDefer  (s : State) : Host.Outcome State Fault Refusal :=
  s.bridleEnds fun _ => .defer

/-- `act` (R232). -/
def execBridleAct (a : BitVec 3) (k : BitVec 2) (s : State) : Host.Outcome State Fault Refusal :=
  s.bridleEnds fun d => .act (d.reg a).toNat k

end Sys2Proof.Machine
end

