-- ==== Sys2Proof/Machine/LaunchEvents.lean ====
section
/-!
DEFINITION. Launch records, work control blocks, acceptance and completion (R202 to R207, R212, R220, R299).
-/

namespace Sys2Proof.Machine

/-- Bits [hi:lo] of a number. -/
def fieldOf (v hi lo : Nat) : Nat := (v >>> lo) % 2 ^ (hi + 1 - lo)

/-! ## Work control blocks (R204, R205) -/

/-- A field with its override bit: the parent's value if the bit is clear and the field zero, the field's own if it is in range. -/
def overridden (v bit hi lo : Nat) (ok : Nat → Bool) (inherited : Nat) : Option Nat :=
  let x := fieldOf v hi lo
  if v.testBit bit then if ok x then some x else none else if x = 0 then some inherited else none

/-- Reserved bits of a WCB are zero, and so are pool and its size outside the root. -/
def wcbReserved (v : Nat) (root : Bool) : Bool :=
  fieldOf v 63 21 == 0 && fieldOf v 171 171 == 0 && fieldOf v 191 180 == 0 && fieldOf v 223 208 == 0 && fieldOf v 319 264 == 0 &&
    fieldOf v 1023 544 == 0 && (root || fieldOf v 543 448 == 0)

/-- The root's own fields: cpb overridden, pool aligned and of at least one slot. -/
def wcbRoot (v : Nat) : Bool := v.testBit 15 && fieldOf v 511 448 % 64 == 0 && fieldOf v 543 512 != 0

/-- The kind of a WCB with its own fields; the roles of a PIPE are read by its caller. `none` if a field is out of range. The
sequential flag of a node that is no GROUP, and the extent of a dimension that a grid lacks, have no effect (log 39). -/
def wcbKind (v : Nat) (roles : List Word) : Option NodeKind :=
  let n := fieldOf v 20 16
  let param := fieldOf v 447 384
  match fieldOf v 1 0 with
  | 0 => if 1 ≤ n ∧ param = 0 then some (.group (v.testBit 2)) else none
  | 1 => if (n = 1 ∨ n = 2) ∧ param % 4 = 0 then some (.cond (w64 param)) else none
  | 2 => if 2 ≤ n ∧ n ≤ 16 ∧ param = 0 then some (.pipe roles) else none
  | _ =>
    let dims := fieldOf param 49 48
    let e (k : Nat) : Nat := if k < dims then fieldOf param (16 * k + 15) (16 * k) + 1 else 1
    if n = 0 ∧ 1 ≤ dims ∧ fieldOf param 63 50 = 0 ∧ e 0 * e 1 * e 2 ≤ 2 ^ 32 then
      some (.leaf (w64 (fieldOf v 127 64)) dims (e 0) (e 1) (e 2))
    else none

/-- A WCB as a node below its parent; its domain and children are filled in later. -/
def wcbNode (v : Nat) (roles : List Word) (root : Bool) (up : Node) (parent : Option Nat) : Option Node := do
  if !wcbReserved v root || (root && !wcbRoot v) then none
  let kind ← wcbKind v roles
  let prio ← overridden v 7 6 4 (fun _ => true) up.prio
  let cores ← overridden v 8 143 128 (fun x => 1 ≤ x && x ≤ 4096) up.cores
  let scratch ← overridden v 9 163 144 (· ≤ 0xC0000) up.scratch
  let inbox ← overridden v 10 170 164 (fun x => 1 ≤ x && x ≤ 64) up.inbox
  let futures ← overridden v 11 207 192 (fun _ => true) up.futures
  let copy ← overridden v 12 179 172 (fun x => 1 ≤ x && x ≤ 128) up.copy
  let starve ← overridden v 13 255 224 (1 ≤ ·) up.starve
  let policy ← overridden v 14 263 256 (fun _ => true) up.policy.toNat
  let cpb ← overridden v 15 383 320 (fun x => x % 32 == 0 && x < 2 ^ 55) (up.cpb.toNat * 32)
  some ⟨kind, parent, [], 0, prio, cores, scratch, inbox, copy, futures, starve, BitVec.ofNat 8 policy, BitVec.ofNat 50 (cpb / 32),
    .pending, 0, 0⟩

/-- What the root inherits (R205). -/
def Partition.defaults (p : Partition) : Node :=
  { kind := .group false, parent := none, children := [], domain := 0, prio := 0,
    cores := p.size - (p.coreIds.filter p.isSuper).length, scratch := 0xC0000, inbox := 64, copy := 128, futures := 4096,
    starve := 65536, policy := 0, cpb := 0, state := .pending, weight := 0, live := 0 }

/-- A node as read, with its domain bit, the address of its first child, and pool size. -/
structure ReadNode where
  node : Node
  opens : Bool
  pool : Nat
  deriving DecidableEq, Repr

/-- The role table of a PIPE. -/
def State.readRoles (s : State) (pn va n : Nat) : Except Stop (List Word) :=
  (List.range n).mapM fun k => (s.dispatcherRead pn (va + 8 * k) 8).map w64

/-- A WCB that cannot be taken (reason 2). -/
def badWcb {α : Type} : Except Stop α := raise Cause.illegal 0

/-- One WCB at an address, with the address of its first child and how many it has. -/
def State.readWcb (s : State) (pn va : Nat) (up : Node) (parent : Option Nat) : Except Stop (ReadNode × Nat × Nat) := do
  if va % 128 ≠ 0 then badWcb
  else
    let v ← s.dispatcherRead pn va 128
    let n := fieldOf v 20 16
    let link := fieldOf v 127 64
    let roles ← if fieldOf v 1 0 = 2 then s.readRoles pn link n else .ok []
    match wcbNode v roles parent.isNone up parent with
    | some node => .ok (⟨node, v.testBit 3, fieldOf v 543 512⟩, if fieldOf v 1 0 < 2 then (link, n) else (0, 0))
    | none => badWcb

/-- The tree below a list of addresses with their parents, breadth first: at most k nodes. -/
def State.readNodes (s : State) (pn : Nat) : Nat → List (Nat × Option Nat) → List ReadNode → Except Stop (List ReadNode)
  | _, [], done => .ok done
  | 0, _ :: _, _ => badWcb
  | k + 1, (va, parent) :: rest, done =>
    let up := ((parent.bind fun i => done[i]?).map (·.node)).getD (s.partAt pn).defaults
    match s.readWcb pn va up parent with
    | .error e => .error e
    | .ok (r, link, n) =>
      let first := done.length + 1 + rest.length
      let r := { r with node := { r.node with children := (List.range n).map (first + ·) } }
      s.readNodes pn k (rest ++ (List.range n).map fun i => (link + 128 * i, some done.length)) (done ++ [r])

/-- The whole tree of a root: at most 4,096 nodes (R207). -/
def State.readTree (s : State) (pn root : Nat) : Except Stop (List ReadNode) := s.readNodes pn 4096 [(root, none)] []

/-! ## Fault domains (R299) -/

/-- The domain numbers that are live. -/
def Partition.liveDomains (p : Partition) : List Nat := p.launches.flatMap fun l => l.nodes.map (·.domain)

/-- The next domain number: 1 to 65,535, wrapping, past those in use. -/
def nextDomain (used : List Nat) : Nat → Nat → Nat
  | 0, last => last
  | k + 1, last =>
    let n := last % 65535 + 1
    if used.contains n then nextDomain used k n else n

/-- Number the domains of a tree, parents first (log 31). -/
def numberDomains (used : List Nat) : Nat → List Node → List ReadNode → Nat × List Node
  | last, done, [] => (last, done)
  | last, done, r :: rest =>
    match r.opens, r.node.parent.bind (done[·]?) with
    | false, some up => numberDomains used last (done ++ [{ r.node with domain := up.domain }]) rest
    | _, _ =>
      let n := nextDomain used 65535 last
      numberDomains (n :: used) n (done ++ [{ r.node with domain := n }]) rest

/-! ## Acceptance (R207, R212, R337) -/

/-- Cores of a partition that tasks may use. -/
def Partition.taskCores (p : Partition) : Nat := p.size - (p.coreIds.filter p.isSuper).length

/-- Reason 1: the fields of the record. -/
def Partition.recordBad (p : Partition) (v : Nat) : Bool :=
  let kind := fieldOf v 461 460
  fieldOf v 479 472 != 0 || kind == 3 || (kind != 2 && fieldOf v 469 462 != 0) || fieldOf v 63 0 % 128 != 0 ||
    fieldOf v 447 384 % 64 != 0 || decide (p.size ≤ fieldOf v 459 448)

/-- Reason 4: a PIPE of n roles fits no cluster (R35). -/
def Partition.pipeTooBig (p : Partition) (n : Nat) : Bool :=
  p.clusterIds.all fun cl => decide (((clusterCores cl).filter fun id => !p.isSuper id).length < n)

/-- A core that a task can ever have: no supervisor core, and sound. -/
def State.usable (s : State) (pn id : Nat) : Bool := !(s.partAt pn).isSuper id && !(s.coreAt id).failed

/-- Reason 5: the co-residency of a root cannot be met (R212, R337). -/
def State.noResidence (s : State) (pn : Nat) (root : Node) : Bool :=
  let ids := (s.partAt pn).coreIds.filter (s.usable pn)
  match root.kind with
  | .leaf _ dims e0 e1 e2 =>
    let n := e0 * e1 * e2
    decide (root.cores < n) || decide (ids.length < n) ||
      (dims == 1 && (n == 2 || n == 4) && !ids.any fun id => (shapeCores id n).all ids.contains)
  | .group _ | .cond _ | .pipe _ => false

/-- A node is a LEAF. -/
def NodeKind.isLeaf : NodeKind → Bool
  | .leaf .. => true
  | .group _ | .cond _ | .pipe _ => false

/-- Why a record is not accepted now. -/
inductive NotTaken where
  /-- Refused with a reason. -/
  | reason (n : Nat)
  /-- A migration holds an access of the dispatcher (R307). -/
  | held
  deriving DecidableEq, Repr

/-- A read of the dispatcher that refuses a launch with a reason when it cannot be made. -/
def orReason {α : Type} (n : Nat) : Except Stop α → Except NotTaken α
  | .ok v => .ok v
  | .error (.wait _) => .error .held
  | .error (.fault _) => .error (.reason n)

/-- Refuse with a reason under a condition. -/
def refuseIf (c : Bool) (n : Nat) : Except NotTaken Unit := if c then .error (.reason n) else .ok ()

/-- The tree of a record, or the reason of its refusal: reason 6 first, then the others in order (R207). -/
def State.judge (s : State) (pn v : Nat) : Except NotTaken (List ReadNode) := do
  let p := s.partAt pn
  refuseIf (p.mode == .recovery) 6
  refuseIf (p.recordBad v) 1
  let _ ← orReason 1 (s.dispatcherPlaces pn .write (fieldOf v 447 384) 64)
  let tree ← orReason 2 (s.readTree pn (fieldOf v 63 0))
  match tree with
  | [] => .error (.reason 2)
  | root :: _ =>
    refuseIf (v.testBit 470 && !root.node.kind.isLeaf) 2
    refuseIf (tree.any fun r => decide (p.taskCores < r.node.cores)) 3
    refuseIf (tree.any fun r => match r.node.kind with
      | .pipe roles => p.pipeTooBig roles.length
      | .group _ | .cond _ | .leaf .. => false) 4
    refuseIf (v.testBit 470 && s.noResidence pn root.node) 5
    .ok tree

/-- A launch as a record makes it. -/
def launchOf (v key : Nat) (nodes : List Node) (pool : Nat) (start : Word) : Launch :=
  { key := key, id := BitVec.ofNat 32 (fieldOf v 511 480), jobseed := w64 (fieldOf v 127 64),
    args := (List.range 4).map fun i => w64 (fieldOf v (191 + 64 * i) (128 + 64 * i)), record := w64 (fieldOf v 447 384),
    sigcore := fieldOf v 459 448, sigkind := fieldOf v 461 460, vector := fieldOf v 469 462, cores := v.testBit 470,
    nomove := v.testBit 471, nodes := nodes, acc := 0, target := 2 ^ 63, loans := 0, counter := 0, poolSize := pool, pool := [],
    faults := 0, overruns := 0, forced := 0, tasks := 0, faulted := false, killed := false, cause := 0, domain := 0, start := start,
    halted := false }

/-! ## Completion (R220) -/

/-- The signal target cannot be posted to: it is idle, its task is exiting, or, in a refused record, it is no core of the
partition. -/
def State.signalLost (s : State) (pn : Nat) (l : Launch) : Bool :=
  l.sigkind == 1 && (decide ((s.partAt pn).size ≤ l.sigcore) ||
    let c := s.coreAt ((s.partAt pn).phys l.sigcore)
    match c.bound with
    | .idle => true
    | .task .. => c.exiting
    | .supervisor => false)

/-- The 64 bytes of a completion record: `reason` is `some` for a refused launch. -/
def Launch.recordImage (l : Launch) (reason : Option Nat) (lost : Bool) (now : Word) : Nat :=
  l.id.toNat ||| (if reason.isSome then 1 else 0) <<< 32 ||| (if l.faulted then 2 ^ 40 else 0) ||| (if lost then 2 ^ 41 else 0) |||
    (if l.killed then 2 ^ 42 else 0) ||| (reason.getD 0) <<< 44 ||| l.faults.toNat <<< 64 ||| l.overruns.toNat <<< 96 |||
    l.start.toNat <<< 128 ||| now.toNat <<< 192 ||| l.tasks.toNat <<< 256 ||| l.cause <<< 320 ||| l.domain <<< 336 |||
    l.forced.toNat <<< 384

/-- Put bytes into pieces of memory, one after another. -/
def State.putPieces (s : State) : List (Nat × Nat) → List Byte → State
  | [], _ => s
  | e :: t, bytes => (s.putMem e.1 (bytes.take e.2)).putPieces t (bytes.drop e.2)

/-- Write a completion record; a write that fails leaves a trap record instead. -/
def State.writeRecord (s : State) (pn : Nat) (l : Launch) (v : Nat) : State :=
  match s.dispatcherPlaces pn .write l.record.toNat 64 with
  | .error (.wait _) => s
  | .error (.fault f) => s.recordDispatcher pn f.cause 0 l.id.toNat l.record
  | .ok pieces =>
    if pieces.any fun e => s.poisoned e.1 e.2 then s.recordDispatcher pn Cause.data 0 l.id.toNat l.record
    else s.putPieces pieces (leBytes v 64)

/-- A migration holds the write of a completion record (R307): its launch is reported after `mig.end`. -/
def State.recordHeld (s : State) (pn : Nat) (record : Nat) : Bool :=
  match s.dispatcherPlaces pn .write record 64 with
  | .error (.wait _) => true
  | .error (.fault _) | .ok _ => false

/-- The signal of a launch. -/
def State.signalLaunch (s : State) (pn : Nat) (l : Launch) (lost : Bool) : State :=
  match l.sigkind with
  | 1 =>
    if lost then s
    else s.updCoreAt ((s.partAt pn).phys l.sigcore) fun c => { c with posts := c.posts ++ [⟨6, false, 0, 0, 0, l.id, 0⟩] }
  | 2 => { s with mgmt := { s.mgmt with signals := s.mgmt.signals ++ [.interrupt l.vector] } }
  | _ => s

/-- Report a launch: check the target, write the record, signal. -/
def State.report (s : State) (pn : Nat) (l : Launch) (reason : Option Nat) (now : Word) : State :=
  let lost := s.signalLost pn l
  (s.writeRecord pn l (l.recordImage reason lost now)).signalLaunch pn l lost

/-- What a launch held goes back when it completes (R218, R234, R299, R356). Its domains end: a later domain of the same number is another
one, for which a core is scrubbed (R309). -/
def State.freeLaunch (s : State) (pn key : Nat) : State :=
  let p := s.partAt pn
  let doms := ((p.launch? key).map fun l => l.nodes.map (·.domain)).getD []
  let s := s.updPartAt pn fun p => { p with
    launches := p.launches.filter (·.key != key)
    futures := p.futures.map fun (n, f) => (n, if f.launch = key then { f with state := .empty } else f)
    domFaults := p.domFaults.filter fun e => !doms.contains e.1
    killed := p.killed.filter fun d => !doms.contains d
    parked := p.parked.filter fun d => !doms.contains d }
  let s := s.forEach p.clusterIds fun s n => s.updCluster n fun c => c.releaseOwner (key + 1)
  let s := s.forEach p.coreIds fun s id =>
    if (s.coreAt id).dom.any fun d => d.1 == pn && d.2.1 == key then s.updCoreAt id fun c => { c with dom := none } else s
  { s with slots := s.slots.filter fun e => !(e.2.part == pn && e.2.owner == key + 1) }

/-! ## The events -/

/-- A launch-port write, a doorbell or traffic wakes the device (R351). -/
def State.wake (s : State) : State := { s with mgmt := { s.mgmt with pstate := 0 } }

/-- A launch record is written into a partition's port; one past sixteen is not taken (R202). -/
def execLaunchRecordWrite (p : Nat) (record : BitVec 512) (s : State) : Host.Outcome State Fault Refusal :=
  .next (s.wake.updPartAt p fun q =>
    if q.port.length < 16 then { q with port := q.port ++ [record] } else { q with notTaken := satInc q.notTaken })

/-- Accept a tree: number its domains, and ready its root with the whole weight (R207, R208). -/
def State.acceptTree (s : State) (pn v : Nat) (tree : List ReadNode) : State :=
  let p := s.partAt pn
  let (last, nodes) := numberDomains p.liveDomains p.domCounter [] tree
  let pool := (tree.head?.map (·.pool)).getD 0
  let l := launchOf v p.nextKey (listUpdate nodes 0 fun n => { n with weight := 2 ^ 63 }) pool (s.clock)
  let doms := nodes.map (·.domain)
  let s := s.updPartAt pn fun p => { p with
    launches := p.launches ++ [l]
    nextKey := p.nextKey + 1
    domCounter := last
    domFaults := p.domFaults.filter fun e => !doms.contains e.1 }
  s.runNodes pn l.key l.nodeSteps [.ready 0]

/-- The dispatcher takes the next record (R202, R207). -/
def execLaunchAcceptance (p : Nat) (s : State) : Host.Outcome State Fault Refusal :=
  let q := s.partAt p
  match q.port with
  | [] => .next s
  | w :: rest =>
    if 64 ≤ q.launches.length then .next s
    else
      let s' := s.updPartAt p fun q => { q with port := rest }
      let now := s.clock
      match s.judge p w.toNat with
      | .ok tree => .next (s'.acceptTree p w.toNat tree)
      | .error .held => .next s
      | .error (.reason n) =>
        .next (if s.recordHeld p (fieldOf w.toNat 447 384) then s else s'.report p (launchOf w.toNat 0 [] 0 now) (some n) now)

/-- A launch completes once all its weight has come back (R210, R220). -/
def execLaunchCompletion (p launch : Nat) (s : State) : Host.Outcome State Fault Refusal :=
  match s.launch? p launch with
  | none => .next s
  | some l =>
    if l.acc = l.target ∧ !s.recordHeld p l.record.toNat then .next ((s.report p l none (s.clock)).freeLaunch p launch) else .next s

end Sys2Proof.Machine
end

