-- ==== Sys2Proof/Machine/Switch.lean ====
section
/-!
DEFINITION. The gang switch (R32, R323 to R332): its six phases, the contexts that the manager keeps, and the move of a context to another
rectangle.
-/

namespace Sys2Proof.Machine

/-! ## Stop, quiet and drain (R281, R324, R325) -/

/-- The cores of a partition that something is bound to. -/
def State.boundCores (s : State) (pn : Nat) : List Nat := (s.partAt pn).coreIds.filter fun id => (s.coreAt id).bound != .idle

/-- Phase 1: every core stops at a boundary, and the waves agree where they stop. -/
def execSwitchStop (p : Nat) (s : State) : Host.Outcome State Fault Refusal :=
  if (s.partAt p).phase != .granted || (s.partAt p).decision.isSome then .next s
  else
    let ids := s.boundCores p
    let s := (s.forEach ids State.stopWaiting).agreeChunks ids
    let s := s.forEach (s.partAt p).coreIds fun s id => s.updCoreAt id fun c => { c with stopped := true }
    .next (s.updPartAt p fun q => { q with phase := .stop })

/-- The cinches of a partition, by number. -/
def State.cinchesOf (s : State) (pn : Nat) : List Nat := (s.cinches.filter fun e => e.2.part == some pn).map (·.1)

/-- Open or close the entries of a partition's cinches (R251). -/
def State.cinchEntries (s : State) (pn : Nat) (isOpen : Bool) : State :=
  { s with cinches := s.cinches.map fun (n, c) => (n, if c.part = some pn then { c with shut := !isOpen } else c) }

/-- A core has nothing more to finish before the quiet phase ends: its take has returned (R250), its wave stands at the agreed chunk, its
copies of one step are done, and what has finished has posted or pushed as far as there is room (R281, R325, R326). -/
def State.coreQuiet (s : State) (id : Nat) : Bool :=
  let c := s.coreAt id
  c.wait != .token && (c.halted || ((s.readyPosters id).isEmpty &&
    !(c.eng.vrun.any fun r => r.done && r.push.isSome && r.post.isNone && c.pushFits r))) &&
    (c.held == .stopped || c.held == .double || c.failed || s.quietAt id)

/-- Phase 2: every engine has stopped at an interruptible step; the cinches close, and have drained. -/
def execSwitchQuiet (p : Nat) (s : State) : Host.Outcome State Fault Refusal :=
  if (s.partAt p).phase == .stop && (s.boundCores p).all s.coreQuiet && (s.cinchesOf p).all fun n => (s.cinchAt n).tokens.isEmpty then
    .next ((s.cinchEntries p false).updPartAt p fun q => { q with phase := .quiet })
  else .next s

/-- Cells that writes have brought are counted: every write is acknowledged. -/
def Core.settleArrivals (c : Core) : Core :=
  c.arrivals.foldl (fun (d : Core) (a : BitVec 8 × Nat) => d.updTile a.1 fun e => e.arrive a.2) { c with arrivals := [] }

/-- Phase 3: writes are acknowledged, and flits fall into saddlebags. -/
def execSwitchDrain (p : Nat) (s : State) : Host.Outcome State Fault Refusal :=
  if (s.partAt p).phase = .quiet then
    let s := s.forEach (s.partAt p).coreIds fun s id => s.updCoreAt id fun c => c.settleArrivals.fillSaddlebag
    .next (s.updPartAt p fun q => { q with phase := .drain })
  else .next s

/-! ## Save (R329, R331) -/

/-- The cores of a partition that belong to its context: supervisor cores do not (R296). -/
def Partition.contextCores (p : Partition) : List Nat := p.coreIds.filter fun id => !p.isSuper id

/-- Resources of the event unit that belong to the context: those of supervisor code do not (R296). -/
def Cluster.split (c : Cluster) (keep : Nat → Bool) : Cluster :=
  ⟨c.lines.filter fun e => keep (e.1 / 32), c.barriers.filter fun e => keep (e.1 / 32), c.mutexes.filter fun e => keep (e.1 / 32),
    c.counters.filter fun e => keep (e.1 / 32), c.pins.filter fun e => keep e.2⟩

/-- The context of a partition as it stands. -/
def State.contextOf (s : State) (pn : Nat) : Context :=
  let p := s.partAt pn
  { area := p.area, part := pn, x0 := p.x0, y0 := p.y0, width := p.w, height := p.h,
    cores := p.contextCores.map fun id => (p.logical id, s.coreAt id),
    clusters := (List.range p.clusterIds.length).zip (p.clusterIds.map fun n => (s.clusterAt n).split (· != 0)),
    cinches := s.cinches.filter fun e => e.2.part == some pn,
    migration := p.migration
    launches := (p.launches.map (·.key)).filter fun key => !p.contexts.any fun k => k.area != p.area && k.launches.contains key
    kills := [] }

/-- The partition was left with no context, and has none since: its area still holds the context that left it (log 40). -/
def State.vacant (s : State) (pn : Nat) : Bool :=
  let p := s.partAt pn
  p.contexts.any (fun k => k.area == p.area) && p.contextCores.all fun id => (s.coreAt id).bound == .idle

/-- Phase 4: the images, and the partition section, of which R331 gives no layout (log 20), are saved. Where there is no context to save,
none is. -/
def execSwitchSave (p : Nat) (s : State) : Host.Outcome State Fault Refusal :=
  let q := s.partAt p
  if q.phase = .drain ∧ s.vacant p = true then .next (s.updPartAt p fun q => { q with phase := .save })
  else if q.phase = .drain then
    let s := s.forEach q.coreIds fun s id => s.writeImage (q.area + q.logical id * 0x100000) id
    .next (s.updPartAt p fun q => { q with phase := .save, contexts := s.contextOf p :: q.contexts.filter fun c => c.area != q.area })
  else .next s

/-! ## A context on another rectangle (R32, R331) -/

/-- The core of a rectangle that stands where another stood in the saver's; an entry past the last core keeps its distance. -/
def Context.moved (k : Context) (p : Partition) (id : Nat) : Nat :=
  idAt (coreX id + 4 * p.x0 - 4 * k.x0) (coreY id + 4 * p.y0 - 4 * k.y0) + id / 4096 * 4096

/-- The far end of a stream port, moved. -/
def StreamPort.move (f : Nat → Nat) : StreamPort → StreamPort
  | .closed => .closed
  | .recv ring len sender u => .recv ring len (sender.map fun (k, q) => (f k, q)) u
  | .send target tport credit pos len (a, b) => .send (f target) tport credit pos len (f a, f b)
  | .cut (a, b) => .cut (f a, f b)

/-- A saved core, moved: its launch keys rise by `off`. -/
def Core.move (c : Core) (f : Nat → Nat) (pn off : Nat) : Core :=
  { c with
    part := pn
    bound := match c.bound with
      | .task k n m w r => .task (k + off) n m w r
      | .idle => .idle
      | .supervisor => .supervisor
    dom := c.dom.map fun d => (pn, d.2.1 + off, d.2.2)
    gang := c.gang.map fun g => { g with leader := f g.leader }
    router := { c.router with streams := c.router.streams.map (StreamPort.move f) } }

/-- A task off its core, moved. -/
def Task.move (t : Task) (f : Nat → Nat) (off : Nat) : Task :=
  { t with launch := t.launch + off, only := t.only.map f, ghost := f t.ghost }

/-- The name of a mutex's holder, moved: a core of the cluster keeps its number in it, and a task off its core moves with its own. -/
def movedName (f : Nat → Nat) (n : Nat) : Nat := if 2 ^ 24 ≤ n then 2 ^ 24 + f (n - 2 ^ 24) else if 4096 ≤ n then f n else n

/-- Resources of launches under their new keys. -/
def Cluster.move (c : Cluster) (f : Nat → Nat) (off : Nat) : Cluster :=
  ⟨c.lines.map fun e => (e.1 + 32 * off, e.2), c.barriers.map fun e => (e.1 + 32 * off, e.2),
    c.mutexes.map fun e => (e.1 + 32 * off, ⟨e.2.holder.map (movedName f), e.2.waiters.map (movedName f)⟩),
    c.counters.map fun e => (e.1 + 32 * off, e.2), c.pins.map fun e => (e.1, e.2 + off)⟩

/-- A context moved to another partition. -/
def Context.move (k : Context) (p : Partition) (pn off : Nat) : Context :=
  { k with
    part := pn
    x0 := p.x0
    y0 := p.y0
    cores := k.cores.map fun (l, c) => (l, c.move (k.moved p) pn off)
    clusters := k.clusters.map fun (n, c) => (n, c.move (k.moved p) off)
    migration := k.migration.map fun m => { m with core := k.moved p m.core }
    launches := k.launches.map (· + off) }

/-- Entries of one table put into another that has none under their keys. -/
def mergeEntries {α : Type} (l new : List (Nat × α)) : List (Nat × α) :=
  new.foldl (fun l e => if (alGet e.1 l).isSome then l else alSet e.1 e.2 l) l

/-- What a partition receives with a moved context: the launches, and the entries of every table that they own (log 32). -/
def Partition.receive (q p : Partition) (k : Context) (f : Nat → Nat) (off : Nat) : Partition :=
  let mine (key : Nat) : Bool := k.launches.contains key
  let ls := p.launches.filter fun l => mine l.key
  let doms := ls.flatMap fun l => l.nodes.map (·.domain)
  let ids := ls.map (·.id)
  let move (ts : List Task) : List Task := (ts.filter fun t => mine t.launch).map fun t => t.move f off
  let used := q.futures.filter fun e => e.2.state != .empty
  { q with
    launches := q.launches ++ ls.map fun l => { l with key := l.key + off }
    nextKey := q.nextKey + p.nextKey
    ready := q.ready ++ move p.ready
    waiting := q.waiting ++ move p.waiting
    parkedTasks := q.parkedTasks ++ move p.parkedTasks
    stoppedTasks := q.stoppedTasks ++ move p.stoppedTasks
    parked := q.parked ++ p.parked.filter doms.contains
    killed := q.killed ++ p.killed.filter doms.contains
    domFaults := mergeEntries q.domFaults (p.domFaults.filter fun e => doms.contains e.1)
    faults := q.faults ++ (p.faults.filter fun r => doms.contains r.domain).map fun r =>
      { r with task := r.task.map fun t => (t.1 + off, t.2), core := r.core.map f }
    futures := mergeEntries used ((p.futures.filter fun e => mine e.2.launch).map fun e => (e.1, { e.2 with launch := e.2.launch + off }))
    grants := mergeEntries q.grants (p.grants.filter fun e => ids.contains e.2.launch)
    images := q.images ++ p.images.filter fun i => i.1 == k.area }

/-- What the partition that saved a context keeps. -/
def Partition.giveUp (p : Partition) (k : Context) : Partition :=
  let mine (key : Nat) : Bool := k.launches.contains key
  let ls := p.launches.filter fun l => mine l.key
  let doms := ls.flatMap fun l => l.nodes.map (·.domain)
  let ids := ls.map (·.id)
  { p with
    launches := p.launches.filter fun l => !mine l.key
    ready := p.ready.filter fun t => !mine t.launch
    waiting := p.waiting.filter fun t => !mine t.launch
    parkedTasks := p.parkedTasks.filter fun t => !mine t.launch
    stoppedTasks := p.stoppedTasks.filter fun t => !mine t.launch
    parked := p.parked.filter fun d => !doms.contains d
    killed := p.killed.filter fun d => !doms.contains d
    domFaults := p.domFaults.filter fun e => !doms.contains e.1
    faults := p.faults.filter fun r => !doms.contains r.domain
    futures := p.futures.map fun (n, f) => (n, if mine f.launch then { f with state := .empty } else f)
    grants := p.grants.filter fun e => !ids.contains e.2.launch
    images := p.images.filter fun i => i.1 != k.area
    contexts := p.contexts.filter fun c => c.area != k.area }

/-- The records that a partition's trap log still holds, oldest first. -/
def State.logRecords (s : State) (p : Partition) : List Nat :=
  let n := min p.records (2 ^ p.logK)
  (List.range n).map fun i => readLE s.mem (p.logBase + 64 + 64 * ((p.records - n + i) % 2 ^ p.logK)) 64

/-- A record of the trap log names a launch. -/
def recordOf (ids : List (BitVec 32)) (v : Nat) : Bool := ids.any fun i => i.toNat == bitsOf v 224 32

/-- A context may come to a partition: it stays on its rectangle, or none of its launches forbids a move (R203) and the entries they own
find their places free in the partition's tables (log 32). -/
def State.movable (s : State) (pn : Nat) (k : Context) : Bool :=
  let p := s.partAt k.part
  let q := s.partAt pn
  let ls := p.launches.filter fun l => k.launches.contains l.key
  let ids := ls.map (·.id)
  k.part == pn ||
    (ls.all (fun l => !l.nomove) &&
      !(p.futures.any fun e => k.launches.contains e.2.launch && e.2.state != .empty && (alGet e.1 q.futures).any (·.state != .empty)) &&
      !(p.grants.any fun e => ids.contains e.2.launch && (alGet e.1 q.grants).any (·.valid)))

/-- Carry a context from the partition that saved it to another, with the entries of its launches in the partition's tables and the records
of its trap log (R331, log 32). -/
def State.carry (s : State) (k : Context) (pn : Nat) : State × Context :=
  let p := s.partAt k.part
  let q := s.partAt pn
  let off := q.nextKey
  let f := k.moved q
  let ids := (p.launches.filter fun l => k.launches.contains l.key).map (·.id)
  let ghosts := ((p.ready ++ p.parkedTasks ++ p.stoppedTasks).filter fun t => k.launches.contains t.launch && t.ctx.isSome).map (·.ghost)
  let s := s.forEach ((s.logRecords p).filter (recordOf ids)) fun s v => s.appendImage pn v
  let s := (s.updPartAt pn fun q => q.receive p k f off).updPartAt k.part fun p => p.giveUp k
  let s := s.forEach ghosts fun s g => { s with cores := alSet (f g) ((s.coreAt g).move f pn off) (alErase g s.cores) }
  let s := { s with slots := s.slots.map fun (n, e) =>
    (n, if e.part = k.part ∧ e.owner ≠ 0 ∧ k.launches.contains (e.owner - 1) then { e with part := pn, owner := e.owner + off } else e) }
  (s, k.move q pn off)

/-! ## Clear and restore (R309, R324, R327, R331) -/

/-- The context that an area holds, for a partition of a shape. -/
def State.contextIn? (s : State) (pn area : Nat) : Option Context :=
  let p := s.partAt pn
  (s.parts.flatMap fun e => e.2.contexts).find? fun k => k.area == area && k.width == p.w && k.height == p.h

/-- A core with no context coming in: idle, as a task would leave it. -/
def Core.emptied (c : Core) (id : Nat) (p : Partition) : Core :=
  { c.freed id with router := p.stitchedRouter id { Router.empty with fails := c.router.fails, down := c.router.down }, stopped := true }

/-- A core with its saved image coming in; its caches hold nothing, so that its stream sees every write (R325). -/
def Core.restored (c k : Core) : Core :=
  let c := if k.bound = .idle ∨ c.dom = k.dom then c else c.scrubbed
  { k with
    router := { k.router with fails := c.router.fails, down := c.router.down }
    stopped := true
    pins := c.pins
    stale := []
    unseen := []
    failed := c.failed }

/-- Restore one core. A task whose image cannot be read stops for a fault decision (R331). -/
def State.restoreCore (s : State) (pn base id : Nat) (k : Core) : State :=
  let l := (s.partAt pn).logical id
  let s := s.updCoreAt id fun c => c.restored k
  match k.bound, s.firstPoison? (base + l * 0x100000) 0x100000 with
  | .task key _ number .., some a =>
    let dom := k.csr.fdom.toNat
    let s := (s.updCoreAt id fun c => { c with held := .stopped }).updPartAt pn fun p => p.countFault key Cause.data dom
    (s.recordDispatcher pn Cause.data dom k.csr.launchid.toNat (w64 a)).requestDecision pn
      ⟨dom, Cause.data, 0, some (key, number), some id, false⟩
  | _, _ => s

/-- Put a context into a partition; the tasks of domains killed meanwhile end (R232). The image of logical core L comes to logical core L of
the rectangle (R32). Where that is a supervisor core, because a rectangle of the same shape straddles the dies in another way (R30), the
image is put there all the same: the manual gives no case for it (log 114). -/
def State.restoreContext (s : State) (pn : Nat) (k : Context) : State :=
  let p := s.partAt pn
  let s := s.forEach k.cores fun s e => s.restoreCore pn k.area (p.phys e.1) e.2
  let s := s.forEach ((List.range p.clusterIds.length).zip p.clusterIds) fun s e =>
    s.updCluster e.2 fun c =>
      let mine := c.split (· == 0)
      let new := (alGet e.1 k.clusters).getD Cluster.zero
      ⟨mergeEntries mine.lines new.lines, mergeEntries mine.barriers new.barriers, mergeEntries mine.mutexes new.mutexes,
        mergeEntries mine.counters new.counters, mine.pins ++ new.pins⟩
  let s := s.forEach k.cinches fun s e =>
    if (s.cinchAt e.1).part = some pn then { s with cinches := alSet e.1 { e.2 with part := some pn, shut := true } s.cinches } else s
  let s := s.updPartAt pn fun p => { p with
    area := k.area
    migration := k.migration
    contexts := p.contexts.filter fun c => c.area != k.area }
  s.forEach k.kills fun s dom => s.forEach (s.coresOfDomain pn dom) fun s id => s.killOnCore pn id

/-- Leave a partition with no context. -/
def State.emptyContext (s : State) (pn : Nat) : State :=
  let p := s.partAt pn
  let s := s.forEach p.contextCores fun s id => s.updCoreAt id fun c => c.emptied id p
  let s := s.forEach p.clusterIds fun s n => s.updCluster n fun c => c.split (· == 0)
  let clear (c : Cinch) : Cinch := if c.part = some pn then { Cinch.zero with part := some pn, shut := true } else c
  let s := { s with cinches := s.cinches.map fun (e : Nat × Cinch) => (e.1, clear e.2) }
  s.updPartAt pn fun p => { p with migration := none }

/-- Phase 5: the incoming context, from the area that the request named, takes the place of the outgoing one; caches and TLBs
are empty afterwards. -/
def execSwitchClearRestore (p : Nat) (s : State) : Host.Outcome State Fault Refusal :=
  let q := s.partAt p
  if q.phase != .save then .next s
  else
    let s := s.emptyContext p
    let s := match if q.incoming = 0 then none else s.contextIn? p q.incoming with
      | some k =>
        if !s.movable p k then s
        else
          let r := if k.part = p then (s, k) else s.carry k p
          r.1.restoreContext p r.2
      | none => if q.incoming = 0 then s else s.updPartAt p fun q => { q with area := q.incoming }
    let s := s.forEach q.coreIds fun s id => (s.freeMonitor id).updCoreAt id fun c => { c with stale := [] }
    .next (s.updPartAt p fun q => { q with phase := .restored, tlb := [], incoming := 0 })

/-! ## Resume (R324, R327, R333) -/

/-- Phase 6: what had finished posts in issue order, saddlebags go back, entries open, and every core goes on (R327); idle cores are offered
while tasks are ready. What a halted launch owes waits for its own resume, and its flits go back into the saddlebags (R333). -/
def execSwitchResume (p : Nat) (s : State) : Host.Outcome State Fault Refusal :=
  let q := s.partAt p
  if q.phase != .restored then .next s
  else
    let s := s.forEach q.coreIds fun s id => s.updCoreAt id Core.oweAll
    let s := s.forEach q.coreIds fun s id => if (s.coreAt id).halted then s else s.postOwed id (s.coreAt id).owed.length
    let s := s.forEach q.coreIds fun s id => s.updCoreAt id fun c =>
      let c := { c with stopped := false }.emptySaddlebag
      if c.halted then c else c.goOn
    let s := s.forEach (q.coreIds.filter fun id => (s.coreAt id).halted) State.bagHalted
    let s := (s.cinchEntries p true).updPartAt p fun q => { q with phase := .none }
    let s := if q.ready = [] then s else s.offerIdle p
    .next { s with mgmt := { s.mgmt with reqHeld := false } }

end Sys2Proof.Machine
end

