-- ==== Sys2Proof/Machine/Management.lean ====
section
/-!
DEFINITION. The management view: masters and ownership (R341 to R344), management requests (R346), grants (R301), partitions (R296,
R297), the slice (R353) and attestation (R349).
-/

namespace Sys2Proof.Machine

/-! ## Ownership (R342, R343) -/

/-- Change the management side. -/
def State.updMgmt (s : State) (f : Mgmt → Mgmt) : State := { s with mgmt := f s.mgmt }

/-- A master whose link is up and on which the view answers. -/
def State.reaches (s : State) (m : Nat) : Bool := s.mgmt.up.contains m && s.mgmt.stage != .off

/-- A master is the owner. -/
def State.owns (s : State) (m : Nat) : Bool := s.reaches m && s.mgmt.owner.toNat == m

/-- The owner changes: the epoch advances. -/
def State.setOwner (s : State) (m : Nat) : State :=
  s.updMgmt fun g => { g with owner := BitVec.ofNat 4 m, epoch := g.epoch + 1 }

/-- A write to `OWNER`: a claim, a handover or a release; every other write is ignored (R342). -/
def State.writeOwner (s : State) (m v : Nat) : State :=
  if !s.reaches m then s
  else if s.mgmt.owner = 0xF then if v = m then s.setOwner m else s
  else if s.mgmt.owner.toNat = m ∧ v ≠ m then
    if v = 0xF ∨ s.mgmt.up.contains v then s.setOwner v else s
  else s

/-- A master writes its own id. -/
def execOwnerClaim (m : Nat) (s : State) : Host.Outcome State Fault Refusal := .next (s.writeOwner m m)

/-- The owner names another master. -/
def execOwnerHandover (m new : Nat) (s : State) : Host.Outcome State Fault Refusal := .next (s.writeOwner m new)

/-- The owner lets go. -/
def execOwnerRelease (m : Nat) (s : State) : Host.Outcome State Fault Refusal := .next (s.writeOwner m 0xF)

/-- The owner was silent for 2 s: no owner, and every master is signalled, on each Birlin Link and on I3C (R343). -/
def execOwnerSilenceTimeout (s : State) : Host.Outcome State Fault Refusal :=
  if s.mgmt.owner = 0xF then .next s
  else .next ((s.setOwner 0xF).updMgmt fun g => { g with signals := g.signals ++ [.linkInterrupt 0 0, .linkInterrupt 1 0, .inBand] })

/-- A Birlin Link trains for a socket, or the board controller completes address assignment (R342). A socket that has no id takes the next
of 0 to 2 (R341). -/
def execMasterLinkUp (m : Nat) (s : State) : Host.Outcome State Fault Refusal :=
  if !s.mgmt.up.contains m ∧ s.mgmt.stage ≠ .off ∧ (m = 3 ∨ m < 3 ∧ m ≤ s.mgmt.given) then
    .next (s.updMgmt fun g => { g with up := g.up ++ [m], given := if m = g.given ∧ m ≠ 3 then m + 1 else g.given })
  else .next s

/-! ## The doorbell (R343, R344, R346) -/

/-- Statuses of a request. -/
def reqOk : BitVec 8 := 0
/-- The ringer is not the owner. -/
def reqNotOwner : BitVec 8 := 1
/-- An argument is out of range. -/
def reqBadField : BitVec 8 := 2
/-- The region of a grant is INEXACT. -/
def reqInexact : BitVec 8 := 3
/-- A request is busy. -/
def reqBusy : BitVec 8 := 4
/-- The request conflicts with what is there. -/
def reqConflict : BitVec 8 := 5

/-- An argument word of a request. -/
def State.arg (s : State) (k : Nat) : Nat := readLE s.mgmt.payload (8 * k) 8

/-- What a request does: the new state, or the status it is refused with. -/
abbrev Request := State → Except (BitVec 8) State

/-- A request is made: it shows busy until it is done. -/
def State.answer (s : State) (f : Request) : State :=
  match f s with
  | .ok s' => s'.updMgmt fun g => { g with reqState := 1, reqStatus := 0, reqNext := reqOk }
  | .error e => s.updMgmt fun g => { g with reqState := 1, reqStatus := 0, reqNext := e }

/-- A master rings the doorbell (R343, R344, R346). -/
def State.ring (s : State) (m : Nat) (f : Request) : State :=
  if !s.reaches m then s
  else
    let s := s.wake
    if s.mgmt.reqState = 1 then s.updMgmt fun g => { g with reqStatus := reqBusy }
    else if !s.owns m then s.updMgmt fun g => { g with reqState := 2, reqStatus := reqNotOwner }
    else s.answer f

/-- Refuse unless a condition holds. -/
def demand (c : Bool) (e : BitVec 8) : Except (BitVec 8) Unit := if c then .ok () else .error e

/-- A request that needs a started device. Before its start and in minimal mode it is refused (R335) with a status that the manual does not
give: a free one of the refusals (log 34). -/
def State.started (s : State) : Except (BitVec 8) Unit :=
  demand (s.mgmt.stage == .ready) (BitVec.ofNat 8 (1 + (Config.unstated s.tick 10).toNat % 5))

/-- The partition that a request's first argument names. -/
def State.needPart (s : State) : Except (BitVec 8) (Nat × Partition) :=
  match alGet (s.arg 0) s.parts with
  | some p => .ok (s.arg 0, p)
  | none => .error reqBadField

/-- Remember an accepted payload of n words for attestation (R349). -/
def State.accepted (s : State) (n : Nat) : State :=
  s.updMgmt fun g => { g with accepted := g.accepted ++ [readBytes g.payload 0 (8 * n)] }

/-! ## Codes 1 to 4: partitions (R268, R296 to R298) -/

/-- Two ranges meet. -/
def meets (a b : Nat × Nat) : Bool := decide (a.1 < b.1 + b.2) && decide (b.1 < a.1 + a.2)

/-- The context area of n cores at a base. -/
def contextArea (base n : Nat) : Nat × Nat := (base, (2 * n + 1) * 0x100000)

/-- The three areas of a partition: page-table root, context area, trap log. -/
def Partition.areas (p : Partition) : List (Nat × Nat) :=
  [(p.root, 0x10000), contextArea p.area p.size, (p.logBase, 64 + 64 * 2 ^ p.logK)]

/-- The areas of every partition but one. -/
def State.otherAreas (s : State) (pn : Nat) : List (Nat × Nat) := (s.parts.filter (·.1 != pn)).flatMap fun e => e.2.areas

/-- Ranges that do not meet one another. -/
def apart : List (Nat × Nat) → Bool
  | [] => true
  | a :: t => !t.any (meets a) && apart t

/-- The stitching of a code. -/
def stitchingOf? (n : Nat) : Option Stitching :=
  match n with
  | 0 => some .mesh | 1 => some .ring | 2 => some .torus | 3 => some .tree | _ => none

/-- The new partition that the arguments describe, if each is in range. -/
def State.newPartition (s : State) : Option Partition :=
  let a := s.arg
  match stitchingOf? (a 10) with
  | none => none
  | some st =>
    if a 0 ≤ 15 ∧ 1 ≤ a 3 ∧ 1 ≤ a 4 ∧ a 1 + a 3 ≤ 16 ∧ a 2 + a 4 ≤ 16 ∧ a 5 % 0x10000 = 0 ∧ a 6 % 0x100000 = 0 ∧ a 7 % 64 = 0 ∧
        6 ≤ a 8 ∧ a 8 ≤ 20 ∧ a 9 % 4 = 0 ∧ a 9 < 2 ^ 55 then
      some { Partition.blank with
        x0 := a 1
        y0 := a 2
        w := a 3
        h := a 4
        stitching := st
        root := a 5
        area := a 6
        logBase := a 7
        logK := a 8
        handler := BitVec.ofNat 53 (a 9 / 4)
        supEntry := w64 (a 11)
        supArg := w64 (a 12) }
    else none

/-- The rectangles of two partitions overlap. -/
def Partition.overlaps (p q : Partition) : Bool := meets (p.x0, p.w) (q.x0, q.w) && meets (p.y0, p.h) (q.y0, q.h)

/-- A supervisor core with the partition's supervisor code bound (R296). -/
def Core.bindSupervisor (c : Core) (id pn : Nat) (p : Partition) : Core :=
  let c := { c with
    regs := Regs.zero
    pc := p.supEntry
    sup := true
    bound := .supervisor
    trap := { TrapCsrs.zero with tvec := p.handler }
    dom := some (pn, 0, 0) }
  ((c.setX 10 p.supArg).setX 11 (w64 (dieOf id))).setX 12 (w64 (p.logical id))

/-- Blocks that a partition's tables map, by base and size, and the lower tables themselves: each table holds an entry only where a byte of
it is not zero. -/
def State.mappedBlocks (s : State) (table : Nat) : List Nat → List (Nat × Nat)
  | [] => []
  | sh :: rest =>
    let idx := ((s.mem.filter fun c => decide (table ≤ c.1) && decide (c.1 < table + 0x10000)).map fun c => (c.1 - table) / 8).eraseDups
    idx.flatMap fun i =>
      let e := readLE s.mem (table + 8 * i) 8
      let pa := e / 65536 % 2 ^ 38 * 65536
      if !entryValid e then []
      else if e.testBit 1 then if pa % 2 ^ sh = 0 then [(pa, 2 ^ sh)] else []
      else if rest = [] ∨ s.hbmLimit < pa + 0x10000 then []
      else (pa, 0x10000) :: s.mappedBlocks pa rest

/-- The device's own memory in a block: what lies in the own Span window is local HBM (R52). -/
def State.ownBlocks (s : State) (b : Nat × Nat) : List (Nat × Nat) :=
  if b.1 < spanBase then [b]
  else
    let w := spanBase + s.mgmt.slice.rank * 2 ^ 40
    let lo := max b.1 w
    let hi := min (b.1 + b.2) (w + Config.spanBytes)
    if lo < hi then [(lo - w, hi - lo)] else []

/-- The lower tables of a partition, and the blocks of device memory that its tables map. -/
def State.tablePages (s : State) (p : Partition) : List (Nat × Nat) :=
  (s.mappedBlocks p.root [42, 29, 16]).flatMap s.ownBlocks

/-- The page-table root, context areas and trap log of a partition, its lower tables, and the blocks of device memory that they map. -/
def State.pagesOf (s : State) (p : Partition) : List (Nat × Nat) :=
  p.areas ++ p.contexts.map (fun k => contextArea k.area (16 * k.width * k.height)) ++ s.tablePages p

/-- What the other partitions hold. -/
def State.heldPages (s : State) (pn : Nat) : List (Nat × Nat) := (s.parts.filter (·.1 != pn)).flatMap fun e => s.pagesOf e.2

/-- The pages that a partition held, of HBM and of the second tier, are zero-filled, its context areas among them; what other partitions
hold stays (R309, log 33). -/
def State.zeroPages (s : State) (pn : Nat) : State :=
  let p := s.partAt pn
  let mine := s.pagesOf p
  let keep := s.heldPages pn
  let inside (l : List (Nat × Nat)) (a : Nat) : Bool := l.any fun b => decide (b.1 ≤ a) && decide (a < b.1 + b.2)
  let goes (a : Nat) : Bool := (decide (a < s.hbmLimit) || isTier a) && inside mine a
  { s with mem := s.mem.filter fun c => !goes c.1 || inside keep c.1 }

/-- Code 1: create a partition, stitch it, and bind its supervisor code. Areas that lie on a page which another partition holds, and tables
that map one, are refused (R297, R309, log 115). -/
def createRequest : Request := fun s => do
  s.started
  match s.newPartition with
  | none => .error reqBadField
  | some p => do
    let pn := s.arg 0
    demand ((alGet pn s.parts).isNone && !s.parts.any fun e => p.overlaps e.2) reqConflict
    let mine := p.areas
    demand (mine.all (fun a => decide (a.1 + a.2 ≤ s.hbmLimit)) && apart mine &&
      !mine.any fun a => (s.otherAreas pn).any (meets a)) reqBadField
    demand (!(mine ++ s.tablePages p).any fun a => (s.heldPages pn).any (meets a)) reqConflict
    let s := s.accepted 13
    let s := { s with parts := alSet pn p s.parts }.putMem p.logBase (List.replicate 64 0)
    .ok (s.forEach p.coreIds fun s id => s.updCoreAt id fun c =>
      let c := { c with part := pn, router := p.stitchedRouter id c.router }
      if p.isSuper id ∧ p.supEntry ≠ 0 then c.bindSupervisor id pn p else c)

/-- Code 2: destroy a partition; every core of it is scrubbed. -/
def destroyRequest : Request := fun s => do
  s.started
  let (pn, p) ← s.needPart
  demand (p.launches == []) reqConflict
  let s := s.zeroPages pn
  let s := s.forEach p.coreIds fun s id => (s.freeMonitor id).updCoreAt id fun c => { Core.idle id with failed := c.failed }
  let s := s.forEach p.clusterIds fun s n => { s with clusters := alErase n s.clusters }
  let free (c : Cinch) : Cinch := if c.part = some pn then Cinch.zero else c
  .ok { s with
    parts := alErase pn s.parts
    cinches := s.cinches.map fun (e : Nat × Cinch) => (e.1, free e.2)
    slots := s.slots.filter fun e => e.2.part != pn }

/-- The mode of a code. -/
def modeOf? (n : Nat) : Option PMode :=
  match n with
  | 0 => some .startup | 1 => some .service | 2 => some .test | 3 => some .recovery | _ => none

/-- Code 3: set the mode of a partition. -/
def modeRequest : Request := fun s => do
  s.started
  let (pn, p) ← s.needPart
  match modeOf? (s.arg 1) with
  | none => .error reqBadField
  | some m =>
    demand (p.launches == []) reqConflict
    .ok (s.updPartAt pn fun p => { p with mode := m })

/-- Code 4: stitch a partition anew. -/
def stitchRequest : Request := fun s => do
  s.started
  let (pn, p) ← s.needPart
  match stitchingOf? (s.arg 1) with
  | none => .error reqBadField
  | some st =>
    demand (p.launches == []) reqConflict
    let p := { p with stitching := st }
    let s := (s.accepted 2).updPartAt pn fun _ => p
    .ok (s.forEach p.coreIds fun s id => s.updCoreAt id fun c => { c with router := p.stitchedRouter id c.router })

/-! ## Code 5: grants (R300, R301) -/

/-- A grant entry of a partition, from its 64 bytes and its region image; or why it is refused. A region that overflows as it is loaded is
INEXACT too (R79, R82). -/
def grantOf (v img : Nat) : Except (BitVec 8) Grant := do
  demand (fieldOf v 7 3 == 0 && fieldOf v 31 31 == 0 && fieldOf v 511 352 == 0) reqBadField
  let rank := fieldOf v 26 24
  let entry (r : Region) : Grant :=
    ⟨v.testBit 0, v.testBit 1, v.testBit 2, BitVec.ofNat 8 (fieldOf v 15 8), BitVec.ofNat 8 (fieldOf v 23 16), BitVec.ofNat 3 rank,
      BitVec.ofNat 4 (fieldOf v 30 27), BitVec.ofNat 32 (fieldOf v 63 32), w64 (fieldOf v 127 64),
      (List.range 7).map fun i => BitVec.ofNat 32 (fieldOf v (159 + 32 * i) (128 + 32 * i)), r, BitVec.ofNat 2560 (v + 2 ^ 512 * img)⟩
  if !v.testBit 0 then .ok (entry Region.null)
  else
    let fmt := (fmt? (BitVec.ofNat 8 (fieldOf v 23 16))).bind id
    demand (fmt.isSome && rank != 0 && decide (fieldOf v 30 27 ≤ 4)) reqBadField
    demand (((List.range 7).drop rank).all fun i => fieldOf v (159 + 32 * i) (128 + 32 * i) == 0) reqBadField
    match Region.parse img with
    | none => .error reqBadField
    | some r =>
      demand (!r.inexact) reqInexact
      demand (r.kind != .ragged && r.rank == rank) reqBadField
      match Region.load img with
      | .ok r _ => do
        demand (!r.inexact) reqInexact
        .ok (entry r)
      | _ => .error reqBadField

/-- Code 5: write an entry of a grant table. -/
def grantRequest : Request := fun s => do
  s.started
  let (pn, _) ← s.needPart
  demand (decide (s.arg 1 < 256)) reqBadField
  let g ← grantOf (readLE s.mgmt.payload 16 64) (readLE s.mgmt.payload 80 256)
  .ok ((s.accepted 42).updPartAt pn fun p => { p with grants := alSet (s.arg 1) g p.grants })

/-! ## Codes 6 to 9 -/

/-- Code 6: the tasks of a parked domain enter their queues (R232). -/
def parkedRequest : Request := fun s => do
  s.started
  let (pn, p) ← s.needPart
  let dom := s.arg 1
  demand (decide (dom < 65536)) reqBadField
  demand (p.parked.contains dom) reqConflict
  let mine := p.parkedTasks.filter fun t => p.taskDomain t == dom
  let s := s.updPartAt pn fun p => { p with
    parked := p.parked.filter (· != dom), parkedTasks := p.parkedTasks.filter fun t => !mine.contains t }
  .ok (s.forEach mine fun s t => s.readyTask pn t)

/-- Code 7: halt or resume a launch (R319, R333). -/
def haltRequest : Request := fun s => do
  s.started
  let (pn, p) ← s.needPart
  demand (decide (s.arg 1 < 2 ^ 32) && decide (s.arg 2 ≤ 1)) reqBadField
  match p.launches.find? fun l => l.id.toNat == s.arg 1 with
  | none => .error reqConflict
  | some l =>
    demand (l.halted == (s.arg 2 == 1)) reqConflict
    .ok (if l.halted then s.resumeLaunch pn l.key else s.haltLaunch pn l.key none)

/-- Ask for a gang switch of a partition to the context at a base (R323). A context that may not move to the partition is refused (log
32). -/
def switchTo (pn base : Nat) : Request := fun s => do
  s.started
  let p ← (alGet pn s.parts).elim (.error reqBadField) .ok
  let area := contextArea base p.size
  demand (base == 0 || (base % 0x100000 == 0 && decide (area.1 + area.2 ≤ s.hbmLimit) &&
    !(s.otherAreas pn ++ [(p.root, 0x10000), (p.logBase, 64 + 64 * 2 ^ p.logK)]).any (meets area))) reqBadField
  demand (base == 0 || (if base = p.area then s.vacant pn || !p.contexts.any (fun k => k.area == base)
    else !meets area (contextArea p.area p.size))) reqBadField
  demand (base == 0 || !(s.heldPages pn).any (meets area)) reqConflict
  demand (p.phase == .none && p.preempt.isNone && (base == 0 || (s.contextIn? pn base).all (s.movable pn))) reqConflict
  .ok ((s.updPartAt pn fun p => { p with preempt := some (0, 0), incoming := base }).updMgmt fun g => { g with reqHeld := true })

/-- Code 8: ask for a gang switch (R323). -/
def switchRequest : Request := fun s => switchTo (s.arg 0) (s.arg 1) s

/-- A gang switch of a partition has been asked for and has not yet resumed. -/
def State.switching (s : State) (pn : Nat) : Bool :=
  s.mgmt.reqState == 1 && s.mgmt.reqHeld && (alGet pn s.parts).any fun p => p.preempt.isSome || p.phase != .none

/-- The owner rings for a second switch of a partition before the resume: the request waits until that resume (R323), and the doorbell
leaves the status BUSY (R346; log 131). -/
def State.ringSwitch (s : State) (m : Nat) : State :=
  if s.owns m && s.switching (s.arg 0) then
    (s.ring m switchRequest).updMgmt fun g => { g with waiting := g.waiting ++ [(s.arg 0, s.arg 1)] }
  else s.ring m switchRequest

/-- The request that is busy is done; one for a gang switch is held until the resume, and a second one that waited for it is then made. -/
def execRequestDone (s : State) : Host.Outcome State Fault Refusal :=
  if s.mgmt.reqState ≠ 1 ∨ s.mgmt.reqHeld then .next s
  else match s.mgmt.waiting with
    | [] => .next (s.updMgmt fun g => { g with reqState := 2, reqStatus := g.reqNext })
    | (pn, base) :: rest =>
      .next ((s.updMgmt fun g => { g with waiting := rest }).answer (switchTo pn base))

/-- Code 9: assign or release a cinch (R249). -/
def cinchRequest : Request := fun s => do
  s.started
  let (pn, _) ← s.needPart
  let net := s.arg 1
  demand (decide (net < 64) && decide (s.arg 2 ≤ 1)) reqBadField
  let c := s.cinchAt net
  demand (c.part.isNone || c.part == some pn) reqConflict
  let c' := if s.arg 2 = 0 then Cinch.zero else if c.part = some pn then c else { Cinch.zero with part := some pn }
  .ok { s with cinches := alSet net c' s.cinches }

/-! ## Code 10: the slice (R353) -/

/-- The route table of the arguments. The payload area ends before its last 32 entries, which read zero (log 35). -/
def State.routeArgs (s : State) : List Nat :=
  (List.range 4096).map fun r => if 32 + r < 4096 then (readByte s.mgmt.payload (32 + r)).toNat else 0

/-- Code 10: configure the slice; the entry of the device's own rank is ignored. -/
def sliceRequest : Request := fun s => do
  s.started
  let rank := s.arg 0
  let n := s.arg 1
  let routes := s.routeArgs
  demand (decide (1 ≤ n) && decide (n ≤ 4096) && decide (rank < n) && s.arg 2 != 0 && s.arg 3 != 0 &&
    ((List.range 4096).zip routes).all fun e => e.1 == rank || e.2 ≤ 15 || e.2 == 0xFF) reqBadField
  demand (!s.parts.any fun e => e.2.launches != []) reqConflict
  let kept := ((List.range 4096).zip routes).filter fun e => e.1 != rank && e.2 != 0xFF
  .ok ((s.accepted 516).updMgmt fun g => { g with slice := ⟨rank, n, s.arg 2, s.arg 3, kept⟩ })

/-! ## Code 11: attestation (R349) -/

/-- A digest as 64 bytes. -/
def digestBytes (bs : List Byte) : List Byte := leBytes (Config.sha3_512 bs).toNat 64

/-- The report over the nonce, before its signature: 328 bytes. -/
def State.reportBody (s : State) : List Byte :=
  let g := s.mgmt
  leBytes 1 8 ++ readBytes g.attest 0 64 ++ digestBytes Config.bootRom ++ digestBytes g.firmware ++
    digestBytes g.accepted.flatten ++ leBytes (g.owner.toNat + 256 * g.epoch.toNat) 64

/-- Code 11: sign a report. -/
def attestRequest : Request := fun s => do
  s.started
  let body := s.reportBody
  .ok (s.updMgmt fun g => { g with
    attest := writeBytes g.attest 0x40 (body ++ leBytes (Config.identitySign (Config.sha3_512 body)).toNat 4627) })

/-- The request of a code; one that the table does not list is refused. -/
def requestOf (code : Nat) : Request :=
  match code with
  | 1 => createRequest
  | 2 => destroyRequest
  | 3 => modeRequest
  | 4 => stitchRequest
  | 5 => grantRequest
  | 6 => parkedRequest
  | 7 => haltRequest
  | 8 => switchRequest
  | 9 => cinchRequest
  | 10 => sliceRequest
  | 11 => attestRequest
  | _ => fun _ => .error reqBadField

/-- A master writes a code to the doorbell. -/
def State.doorbell (s : State) (m code : Nat) : State := if code = 8 then s.ringSwitch m else s.ring m (requestOf code)

/-! ## The events -/

/-- Code 1. -/
def execCreatePartition (m : Nat) (s : State) : Host.Outcome State Fault Refusal := .next (s.ring m createRequest)

/-- Code 2. -/
def execDestroyPartition (m : Nat) (s : State) : Host.Outcome State Fault Refusal := .next (s.ring m destroyRequest)

/-- Code 3. -/
def execSetMode (m : Nat) (s : State) : Host.Outcome State Fault Refusal := .next (s.ring m modeRequest)

/-- Code 4. -/
def execReStitch (m : Nat) (s : State) : Host.Outcome State Fault Refusal := .next (s.ring m stitchRequest)

/-- Code 5. -/
def execWriteGrant (m : Nat) (s : State) : Host.Outcome State Fault Refusal := .next (s.ring m grantRequest)

/-- Code 6. -/
def execReleaseParkedDomain (m : Nat) (s : State) : Host.Outcome State Fault Refusal := .next (s.ring m parkedRequest)

/-- Code 7. -/
def execHaltOrResume (m : Nat) (s : State) : Host.Outcome State Fault Refusal := .next (s.ring m haltRequest)

/-- Code 8. -/
def execGangSwitch (m : Nat) (s : State) : Host.Outcome State Fault Refusal := .next (s.ringSwitch m)

/-- Code 9. -/
def execAssignCinch (m : Nat) (s : State) : Host.Outcome State Fault Refusal := .next (s.ring m cinchRequest)

/-- Code 10. -/
def execSliceConfiguration (m : Nat) (s : State) : Host.Outcome State Fault Refusal := .next (s.ring m sliceRequest)

/-- Code 11. -/
def execAttest (m : Nat) (s : State) : Host.Outcome State Fault Refusal := .next (s.ring m attestRequest)

end Sys2Proof.Machine
end

