-- ==== Sys2Proof/Machine/Outside.lean ====
section
/-!
DEFINITION. Starts, firmware and failures (R335, R336, R347, R348), registers of the management view (R341, R371), power (R350, R351),
links and traffic from outside (R52, R342, R352), and faults of cores in service (R18, R358).
-/

namespace Sys2Proof.Machine

/-! ## Starts (R335, R336, R347, R348) -/

/-- A start fails: the count rises, the cause is kept, and the third failure in a row brings minimal mode. A device that is in minimal mode
stays in it (R336: a good start clears minimal). -/
def Mgmt.failStart (g : Mgmt) (reason unit pid : Nat) : Mgmt :=
  let fails := if g.fails = 3 then 3 else g.fails + 1
  { g with
    fails := fails
    minimal := g.minimal || fails == 3
    reason := BitVec.ofNat 8 reason
    unit := BitVec.ofNat 4 unit
    pid := BitVec.ofNat 12 pid
    firmware := []
    stage := if g.minimal || fails == 3 then .minimal else .waiting }

/-- Length of the body that a header names. -/
def imageBody (img : List Byte) : Nat := leNat ((img.drop 4).take 4)

/-- Length of the signature of an image. -/
def signatureBytes : Nat := 4627

/-- The header of an image of the right length is good. -/
def headerGood (img : List Byte) : Bool :=
  leNat (img.take 4) == 0x4C593746 && ((img.drop 16).take 48).all (· == 0) && img.length == 64 + imageBody img + signatureBytes

/-- Verification of an image: the reason it fails for. -/
def verify (img : List Byte) : Option Nat :=
  if !headerGood img then some 2
  else
    let signed := img.take (64 + imageBody img)
    if Config.firmwareSignatureGood (Config.sha3_512 signed) (img.drop (64 + imageBody img)) then none else some 1

/-- The least of a list of numbers. -/
def least? : List Nat → Option Nat
  | [] => none
  | a :: t => some (t.foldl min a)

/-- Stacks that fail training: those that fail, and the sites that are empty (R2). -/
def Mgmt.failingStacks (g : Mgmt) : List Nat := g.badStacks ++ (List.range 8).drop g.stackCount

/-- Why a start fails, if it does: reason, unit and pid. Verification comes first (log 36). -/
def Mgmt.startFailure (g : Mgmt) : Option (Nat × Nat × Nat) :=
  match verify g.firmware with
  | some r => some (r, 0, 0)
  | none => match least? g.badDies with
    | some d => some (6, d, 0)
    | none => match least? g.failingStacks with
      | some k => some (3, k, 0)
      | none => match least? g.badCores with
        | some c => some (4, 0, c)
        | none => (least? g.badRouters).map fun r => (5, 0, r)

/-- A start runs to its end: ready for partition creation, or failed. -/
def execDeviceStart (s : State) : Host.Outcome State Fault Refusal :=
  if s.mgmt.stage ≠ .starting then .next s
  else match s.mgmt.startFailure with
    | some (r, u, p) => .next (s.updMgmt fun g => g.failStart r u p)
    | none => .next (s.updMgmt fun g => { g with
        fails := 0
        minimal := false
        firmware := g.firmware.take (64 + imageBody g.firmware)
        accepted := []
        stage := .ready })

/-- A start that does not finish within 10 s (R335). -/
def execStartTimeout (s : State) : Host.Outcome State Fault Refusal :=
  if s.mgmt.stage = .starting then .next (s.updMgmt fun g => g.failStart 7 0 0) else .next s

/-- The first bytes of the load window. -/
def Mgmt.image (g : Mgmt) (len : Nat) : List Byte := readBytes g.window 0 len

/-- The owner writes the length of the image (R344, R348); the register is not on I3C (R341). -/
def execFwgo (m : Nat) (len : BitVec 64) (s : State) : Host.Outcome State Fault Refusal :=
  if !s.owns m || m == 3 || s.mgmt.stage != .waiting then .next s
  else if 0x800000 < len.toNat then .next (s.updMgmt fun g => g.failStart 2 0 0)
  else .next (s.updMgmt fun g => { g with firmware := g.image len.toNat, stage := .starting })

/-- The owner writes `BOOT_CAUSE`.retry in minimal mode: the count clears, and the loaded firmware starts; minimal stays until a start is
good (R335, R336). -/
def execBootRetry (m : Nat) (s : State) : Host.Outcome State Fault Refusal :=
  if !s.owns m || s.mgmt.stage != .minimal then .next s
  else
    let n := min 0x800000 (64 + imageBody (s.mgmt.image 64) + signatureBytes)
    .next (s.updMgmt fun g => { g with fails := 0, firmware := g.image n, stage := .starting })

/-! ## The management view (R341) -/

/-- `OWNER` as a master reads it. -/
def Mgmt.ownerWord (g : Mgmt) (m : Nat) : Nat := g.owner.toNat ||| (m % 16) <<< 4 ||| g.epoch.toNat <<< 8

/-- `BOOT_CAUSE` (R336). -/
def Mgmt.bootCause (g : Mgmt) : Nat :=
  g.fails.toNat ||| (if g.minimal then 4 else 0) ||| g.reason.toNat <<< 8 ||| g.unit.toNat <<< 16 ||| g.pid.toNat <<< 20

/-- The status word of a launch port (R345). -/
def State.portStatus (s : State) (p : Nat) : Nat :=
  match alGet p s.parts with
  | none => 0
  | some q => q.port.length ||| q.launches.length <<< 8 ||| 2 ^ 15 ||| q.notTaken.toNat <<< 16

/-- The byte of the identity public key and its certificate at an offset of the attestation area. -/
def keyByte (off : Nat) : Byte :=
  if 0x3000 ≤ off then Config.identityCertificate.getD (off - 0x3000) 0
  else if 0x2000 ≤ off then Config.identityKey.extractLsb' (8 * (off - 0x2000)) 8
  else 0

/-- Offsets that answer over I3C. -/
def onI3c (off : Nat) : Bool :=
  off < 0x120 || (0x200 ≤ off && off < 0x210) || (0x1000 ≤ off && off < 0x2000) || (0x20000 ≤ off && off < 0x24000)

/-- An 8-byte register or word of the view as a master reads it; other offsets read zero. Reading changes nothing. -/
def State.viewWord (s : State) (m off : Nat) : Word :=
  let g := s.mgmt
  if m = 3 ∧ !onI3c off then 0
  else if off = 0 then Config.identity ||| w64 (m % 16)
  else if off = 0x100 then w64 (g.ownerWord m)
  else if off = 0x108 then w64 g.bootCause
  else if off = 0x110 then g.lattol.zeroExtend 64
  else if off = 0x118 then g.pstate.zeroExtend 64
  else if off = 0x200 then w64 (g.reqState.toNat ||| g.reqStatus.toNat <<< 8)
  else if 0x1000 ≤ off ∧ off < 0x2000 then w64 (readLE g.payload (off - 0x1000) 8)
  else if 0x10000 ≤ off ∧ off < 0x11000 then if off % 0x100 = 0x40 then w64 (s.portStatus ((off - 0x10000) / 0x100)) else 0
  else if 0x20000 ≤ off ∧ off < 0x22000 then w64 (readLE g.attest (off - 0x20000) 8)
  else if 0x22000 ≤ off ∧ off < 0x24000 then w64 (leNat ((List.range 8).map fun k => keyByte (off - 0x20000 + k)))
  else if 0x800000 ≤ off ∧ off < 0x1000000 then w64 (readLE g.window (off - 0x800000) 8)
  else 0

/-- Bytes of an 8-byte write to a memory range of the view that lie below its end. -/
def fitting (at' size : Nat) (v : Word) : List Byte := (leBytes v.toNat 8).take (size - at')

/-- An 8-byte write of a master to an offset of the view. Registers with an event of their own act as that event; a write to a
launch port that is no launch record is not taken (R345). -/
def execManagementRegisterWrite (m off : Nat) (v : BitVec 64) (s : State) : Host.Outcome State Fault Refusal :=
  if !s.reaches m || (m == 3 && !onI3c off) then .next s
  else if off = 0x100 then .next (s.writeOwner m (v.toNat % 16))
  else if off = 0x108 then if v.getLsbD 32 then execBootRetry m s else .next s
  else if off = 0x110 then .next (if s.owns m then s.updMgmt fun g => { g with lattol := v.extractLsb' 0 32 } else s)
  else if off = 0x120 then execFwgo m v s
  else if off = 0x208 then .next (s.doorbell m v.toNat)
  else if 0x1000 ≤ off ∧ off < 0x2000 then
    .next (s.updMgmt fun g => { g with payload := writeBytes g.payload (off - 0x1000) (fitting (off - 0x1000) 0x1000 v) })
  else if 0x10000 ≤ off ∧ off < 0x11000 ∧ off % 0x100 < 0x40 then
    .next (s.wake.updPartAt ((off - 0x10000) / 0x100) fun q => { q with notTaken := satInc q.notTaken })
  else if 0x20000 ≤ off ∧ off < 0x20040 then
    .next (s.updMgmt fun g => { g with attest := writeBytes g.attest (off - 0x20000) (fitting (off - 0x20000) 0x40 v) })
  else if 0x800000 ≤ off ∧ off < 0x1000000 then
    .next (s.updMgmt fun g => { g with window := writeBytes g.window (off - 0x800000) (fitting (off - 0x800000) 0x800000 v) })
  else .next s

/-! ## Power (R350, R351) -/

/-- The device is idle, but for traffic in the last 10 µs (log 3): no launch, record or request, and no media command of a core that has not
completed. -/
def State.deviceIdle (s : State) : Bool :=
  s.parts.all (fun e => e.2.launches == [] && e.2.port == []) && s.mgmt.reqState != 1 &&
    s.cores.all fun e => e.2.eng.dq.isEmpty && e.2.eng.drun.isNone

/-- The deepest state within a latency tolerance in µs. -/
def deepest (lattol : Nat) : BitVec 2 := if 3000 ≤ lattol then 3 else if 80 ≤ lattol then 2 else if 2 ≤ lattol then 1 else 0

/-- An idle device enters a power state; A3 leaves every core scrubbed. -/
def execPowerStateEntry (s : State) : Host.Outcome State Fault Refusal :=
  let d := deepest s.mgmt.lattol.toNat
  if s.deviceIdle && s.mgmt.stage == .ready && s.mgmt.pstate == 0 && d != 0 then
    let s := s.updMgmt fun g => { g with pstate := d }
    .next (if d = 3 then { s with cores := s.cores.map fun (e : Nat × Core) => (e.1, e.2.scrubbed) } else s)
  else .next s

/-- The device wakes. -/
def execPowerWake (s : State) : Host.Outcome State Fault Refusal := .next s.wake

/-- What is fitted and connected outlives the device's own state, and so does what it has sent. -/
def Mgmt.fitted (g : Mgmt) : Mgmt :=
  { Mgmt.reset with
    stackCount := g.stackCount
    badStacks := g.badStacks
    badDies := g.badDies
    badCores := g.badCores
    badRouters := g.badRouters
    cxl := g.cxl
    signals := g.signals }

/-- Power goes: HBM, `BOOT_CAUSE` and the failure count are lost; memory outside the package is not (R351). -/
def execPowerRemoval (s : State) : Host.Outcome State Fault Refusal :=
  .next { State.reset with
    tick := s.tick
    agenda := s.agenda
    mem := s.mem.filter fun c => decide (tierBase ≤ c.1)
    poison := s.poison.filter fun a => decide (tierBase ≤ a)
    mgmt := { s.mgmt.fitted with stage := .off } }

/-- Power returns: the ROM waits for an image. -/
def execPowerOn (s : State) : Host.Outcome State Fault Refusal :=
  if s.mgmt.stage = .off then .next (s.updMgmt fun g => { g with stage := .waiting }) else .next s

/-- A reset short of power removal: firmware, partitions and what runs are gone; HBM and the failure count stay (R336, R347). -/
def execReset (s : State) : Host.Outcome State Fault Refusal :=
  if s.mgmt.stage = .off then .next s
  else .next { State.reset with
    tick := s.tick
    agenda := s.agenda
    mem := s.mem
    poison := s.poison.filter fun a => decide (a < chipBase) || decide (tierBase ≤ a)
    mgmt := { s.mgmt.fitted with
      up := s.mgmt.up.filter (· != 3)
      given := s.mgmt.given
      cxlDown := s.mgmt.cxlDown
      fails := s.mgmt.fails
      minimal := s.mgmt.minimal
      reason := s.mgmt.reason
      unit := s.mgmt.unit
      pid := s.mgmt.pid
      stage := if s.mgmt.minimal then .minimal else .waiting } }

/-! ## Links and traffic (R52, R342, R352) -/

/-- A Birlin Link loses training: the ids it carried are no longer up. -/
def execBirlinLinkDown (ids : List Nat) (s : State) : Host.Outcome State Fault Refusal :=
  .next (s.updMgmt fun g => { g with up := g.up.filter fun m => m == 3 || !ids.contains m })

/-- A CXL port's link goes down. -/
def execCxlLinkDown (port : Nat) (s : State) : Host.Outcome State Fault Refusal :=
  .next (if port < 8 ∧ !s.mgmt.cxlDown.contains port then s.updMgmt fun g => { g with cxlDown := g.cxlDown ++ [port] } else s)

/-- The device's own memory at an address that traffic from outside names: HBM, or the second tier behind it. -/
def State.ownMemory? (s : State) (addr n : Nat) : Option Nat :=
  match s.offChip? addr n with
  | some pa => if pa < chipBase ∨ isTier pa then some pa else none
  | none => none

/-- Send something outside. -/
def State.send (s : State) (g : Signal) : State := s.updMgmt fun m => { m with signals := m.signals ++ [g] }

/-- An atomic from outside at the home port: it answers with the old word. It reads the word, so it ends the merging of pending operands
there, stored or not (R191). -/
def State.outsideAtomic (s : State) (addr n : Nat) (f : Nat → Option Nat) : State :=
  match s.ownMemory? addr n with
  | none => s.send (.accessFault addr)
  | some pa =>
    if addr % n ≠ 0 then s.send (.accessFault addr)
    else
      let old := readLE s.mem pa n
      let s := (s.send (.reply addr (leBytes old n))).touchBy none pa n
      match f old with
      | some v => s.putMem pa (leBytes v n)
      | none => s

/-- An address lies in a part of a context area to which the manual gives no layout: what it holds is free (R329, R331, log 20). -/
def State.unlaid (s : State) (pa : Nat) : Bool :=
  s.parts.any fun e => (e.2.area :: e.2.contexts.map (·.area)).any fun base =>
    let i := (pa - base) / 0x100000
    let off := (pa - base) % 0x100000
    decide (base ≤ pa) && decide (i < 2 * e.2.size + 1) &&
      (i == e.2.size || unlaidSections.any fun r => decide (r.1 ≤ off) && decide (off < r.1 + r.2))

/-- Bytes that a read from outside returns. What an uncorrectable word reads as is not stated. -/
def State.outsideBytes (s : State) (pa n : Nat) : List Byte :=
  let bad := s.poisoned pa n
  (List.range n).map fun k =>
    if bad || s.unlaid (pa + k) then BitVec.ofNat 8 (Config.unstated s.tick (32 + k)).toNat else readByte s.mem (pa + k)

/-- A migration refuses traffic to the pages that it quiets: its requester tries again (R307). -/
def State.refusesTraffic (s : State) (t : Traffic) : Bool :=
  let (addr, n) : Nat × Nat := match t with
    | .read addr n => (addr, n)
    | .write addr bytes => (addr, bytes.length)
    | .amo _ addr _ | .cas addr _ _ => (addr, 8)
    | .fadd addr _ => (addr, 4)
  match s.ownMemory? addr n with
  | some pa => s.parts.any fun e => e.2.migration.any fun g => g.pages.any fun b => meets (b, 65536) (pa, n)
  | none => false

/-- Traffic from a host or another device (R52, R190, R307). -/
def execSpanOrBirlinTraffic (t : Traffic) (s : State) : Host.Outcome State Fault Refusal :=
  let s := s.wake
  if s.refusesTraffic t then .next s
  else match t with
  | .read addr n => match s.ownMemory? addr n with
    | none => .next (s.send (.accessFault addr))
    | some pa => .next ((s.send (.reply addr (s.outsideBytes pa n))).touchBy none pa n)
  | .write addr bytes => match s.ownMemory? addr bytes.length with
    | none => .next (s.send (.accessFault addr))
    | some pa => .next ((s.putMem pa bytes).expose none pa bytes.length)
  | .amo op addr v => .next (s.outsideAtomic addr 8 fun o => some (amoNew op (w64 o) v).toNat)
  | .cas addr e n => .next (s.outsideAtomic addr 8 fun o => if o = e.toNat then some n.toNat else none)
  | .fadd addr v => .next (s.outsideAtomic addr 4 fun o => some (amoFadd (BitVec.ofNat 32 o) v).toNat)

/-! ## Cores in service (R18, R358) -/

/-- The causes that R313 lists. -/
def Cause.listed : List Cause :=
  [1, 2, 3, 4, 5, 6, 7, 8, 9, 10, 16, 17, 18, 19, 20, 21, 22, 23, 24, 32, 33, 34, 35, 36, 40, 41, 42, 43, 44, 45, 48, 49]

/-- A core develops a fault: it never runs again, and its task waits for a fault decision. Which of the listed causes it reports is not
stated (log 37). -/
def execCoreFaultInService (core : Nat) (s : State) : Host.Outcome State Fault Refusal :=
  let c := s.coreAt core
  if 4096 ≤ core ∨ c.failed then .next s
  else
    let s := s.updCoreAt core fun c => { c with failed := true }
    match c.bound with
    | .task key _ number .. =>
      let dom := c.csr.fdom.toNat
      let cause := Cause.listed.getD ((Config.unstated s.tick 9).toNat % Cause.listed.length) Cause.data
      let s := (s.updCoreAt core fun c => { c with held := if c.held = .double then .double else .stopped }).updPartAt c.part
        fun p => p.countFault key cause dom
      .next ((s.recordDispatcher c.part cause dom c.csr.launchid.toNat 0).requestDecision c.part
        ⟨dom, cause, 0, some (key, number), some core, false⟩)
    | .supervisor | .idle => .next s

/-- The device passes its thermal limit: stall cycles change timing only. -/
def execThermalLimit (on : Bool) (s : State) : Host.Outcome State Fault Refusal := .next (s.updMgmt fun g => { g with thermal := on })

end Sys2Proof.Machine
end

