-- ==== Sys2Proof/Machine/Dispatch.lean ====
section
/-!
DEFINITION. One arm per instruction: each is one call of its meaning.
-/

namespace Sys2Proof.Machine

def exec (i : Instr) (s : State) : Host.Outcome State Fault Refusal :=
  match i with
  | .rgAnd d a b => Sys2Proof.Machine.execRgAnd d a b s
  | .rgOr d a b => Sys2Proof.Machine.execRgOr d a b s
  | .rgSub d a b => Sys2Proof.Machine.execRgSub d a b s
  | .rgIn d a b => Sys2Proof.Machine.execRgIn d a b s
  | .rgDil d a x => Sys2Proof.Machine.execRgDil d a x s
  | .rgShf d a x => Sys2Proof.Machine.execRgShf d a x s
  | .rgProj d a m => Sys2Proof.Machine.execRgProj d a m s
  | .rgSplitK d a k => Sys2Proof.Machine.execRgSplitK d a k s
  | .rgClip d a t => Sys2Proof.Machine.execRgClip d a t s
  | .rgCnt d a => Sys2Proof.Machine.execRgCnt d a s
  | .rgNbox d a => Sys2Proof.Machine.execRgNbox d a s
  | .rgGet d a k => Sys2Proof.Machine.execRgGet d a k s
  | .rgSplit d a n => Sys2Proof.Machine.execRgSplit d a n s
  | .rgBox d x k => Sys2Proof.Machine.execRgBox d x k s
  | .rgBoxs d x k => Sys2Proof.Machine.execRgBoxs d x k s
  | .rgBoxr d x k => Sys2Proof.Machine.execRgBoxr d x k s
  | .rgLd d x imm => Sys2Proof.Machine.execRgLd d x imm s
  | .rgSt b x imm => Sys2Proof.Machine.execRgSt b x imm s
  | .tdLd d x imm => Sys2Proof.Machine.execTdLd d x imm s
  | .tdSt t x imm => Sys2Proof.Machine.execTdSt t x imm s
  | .vPtr d x => Sys2Proof.Machine.execVPtr d x s
  | .qPush x => Sys2Proof.Machine.execQPush x s
  | .qPop d => Sys2Proof.Machine.execQPop d s
  | .qCnt d q => Sys2Proof.Machine.execQCnt d q s
  | .paPeer d a o => Sys2Proof.Machine.execPaPeer d a o s
  | .gFuse n => Sys2Proof.Machine.execGFuse n s
  | .tkTake d n => Sys2Proof.Machine.execTkTake d n s
  | .tkClr n b => Sys2Proof.Machine.execTkClr n b s
  | .tkQs d n => Sys2Proof.Machine.execTkQs d n s
  | .lpSet a b => Sys2Proof.Machine.execLpSet a b s
  | .lpStep k f c => Sys2Proof.Machine.execLpStep k f c s
  | .lpCnt d => Sys2Proof.Machine.execLpCnt d s
  | .ovSet a b t c => Sys2Proof.Machine.execOvSet a b t c s
  | .ovDecl x => Sys2Proof.Machine.execOvDecl x s
  | .ovStat d => Sys2Proof.Machine.execOvStat d s
  | .ovCov d x => Sys2Proof.Machine.execOvCov d x s
  | .mxK8k8 acd a b m f => Sys2Proof.Machine.execMxK8k8 acd a b m f s
  | .mxK4k4 acd a b m f => Sys2Proof.Machine.execMxK4k4 acd a b m f s
  | .mxK8k4 acd a b m f => Sys2Proof.Machine.execMxK8k4 acd a b m f s
  | .mxK4k8 acd a b m f => Sys2Proof.Machine.execMxK4k8 acd a b m f s
  | .mxI8i8 acd a b m f => Sys2Proof.Machine.execMxI8i8 acd a b m f s
  | .mxI4i4 acd a b m f => Sys2Proof.Machine.execMxI4i4 acd a b m f s
  | .mxF16f16 acd a b m f => Sys2Proof.Machine.execMxF16f16 acd a b m f s
  | .mxB16b16 acd a b m f => Sys2Proof.Machine.execMxB16b16 acd a b m f s
  | .jointProductStart core => Sys2Proof.Machine.execJointProductStart core s
  | .lAqB d a x => Sys2Proof.Machine.execLAqB d a x s
  | .lAqH d a x => Sys2Proof.Machine.execLAqH d a x s
  | .lAqW d a x => Sys2Proof.Machine.execLAqW d a x s
  | .lAqD d a x => Sys2Proof.Machine.execLAqD d a x s
  | .lAqBu d a x => Sys2Proof.Machine.execLAqBu d a x s
  | .lAqHu d a x => Sys2Proof.Machine.execLAqHu d a x s
  | .lAqWu d a x => Sys2Proof.Machine.execLAqWu d a x s
  | .tLd d t c => Sys2Proof.Machine.execTLd d t c s
  | .sRlB v a x => Sys2Proof.Machine.execSRlB v a x s
  | .sRlH v a x => Sys2Proof.Machine.execSRlH v a x s
  | .sRlW v a x => Sys2Proof.Machine.execSRlW v a x s
  | .sRlD v a x => Sys2Proof.Machine.execSRlD v a x s
  | .tSt v t c => Sys2Proof.Machine.execTSt v t c s
  | .feFull x => Sys2Proof.Machine.execFeFull x s
  | .feAcq x => Sys2Proof.Machine.execFeAcq x s
  | .feRel x => Sys2Proof.Machine.execFeRel x s
  | .amAdd d v a x => Sys2Proof.Machine.execAmAdd d v a x s
  | .amMin d v a x => Sys2Proof.Machine.execAmMin d v a x s
  | .amMax d v a x => Sys2Proof.Machine.execAmMax d v a x s
  | .amAnd d v a x => Sys2Proof.Machine.execAmAnd d v a x s
  | .amOr d v a x => Sys2Proof.Machine.execAmOr d v a x s
  | .amXor d v a x => Sys2Proof.Machine.execAmXor d v a x s
  | .amSwp d v a x => Sys2Proof.Machine.execAmSwp d v a x s
  | .amCas d e a x => Sys2Proof.Machine.execAmCas d e a x s
  | .amAddn v a x => Sys2Proof.Machine.execAmAddn v a x s
  | .amMinn v a x => Sys2Proof.Machine.execAmMinn v a x s
  | .amMaxn v a x => Sys2Proof.Machine.execAmMaxn v a x s
  | .amAndn v a x => Sys2Proof.Machine.execAmAndn v a x s
  | .amOrn v a x => Sys2Proof.Machine.execAmOrn v a x s
  | .amXorn v a x => Sys2Proof.Machine.execAmXorn v a x s
  | .amFadd d v a x => Sys2Proof.Machine.execAmFadd d v a x s
  | .amFaddn v a x => Sys2Proof.Machine.execAmFaddn v a x s
  | .wtCh d v a x => Sys2Proof.Machine.execWtCh d v a x s
  | .monitorWake core => Sys2Proof.Machine.execMonitorWake core s
  | .mvBlk d x n => Sys2Proof.Machine.execMvBlk d x n s
  | .rep c a => Sys2Proof.Machine.execRep c a s
  | .icPf l x n => Sys2Proof.Machine.execIcPf l x n s
  | .icPin l x n => Sys2Proof.Machine.execIcPin l x n s
  | .icUnpin l x n => Sys2Proof.Machine.execIcUnpin l x n s
  | .evWait d x => Sys2Proof.Machine.execEvWait d x s
  | .evFire x => Sys2Proof.Machine.execEvFire x s
  | .evBar d x => Sys2Proof.Machine.execEvBar d x s
  | .evLock x => Sys2Proof.Machine.execEvLock x s
  | .evUnlock x => Sys2Proof.Machine.execEvUnlock x s
  | .evCadd d c v => Sys2Proof.Machine.execEvCadd d c v s
  | .evArm c t => Sys2Proof.Machine.execEvArm c t s
  | .evMsg t w => Sys2Proof.Machine.execEvMsg t w s
  | .eventLineWordLoad d line => Sys2Proof.Machine.execEventLineWordLoad d line s
  | .eventLineWordStore line => Sys2Proof.Machine.execEventLineWordStore line s
  | .tsSpawn d a b c => Sys2Proof.Machine.execTsSpawn d a b c s
  | .tsWeight d => Sys2Proof.Machine.execTsWeight d s
  | .fuNew d => Sys2Proof.Machine.execFuNew d s
  | .fuSet h v => Sys2Proof.Machine.execFuSet h v s
  | .fuGet d h => Sys2Proof.Machine.execFuGet d h s
  | .fuPoll d h => Sys2Proof.Machine.execFuPoll d h s
  | .fuDrop h => Sys2Proof.Machine.execFuDrop h s
  | .engineIssue e index a b => Sys2Proof.Machine.execEngineIssue e index a b s
  | .sqRd d k => Sys2Proof.Machine.execSqRd d k s
  | .polSwap a => Sys2Proof.Machine.execPolSwap a s
  | .migBegin a l => Sys2Proof.Machine.execMigBegin a l s
  | .migEnd a l => Sys2Proof.Machine.execMigEnd a l s
  | .tlbInv a l => Sys2Proof.Machine.execTlbInv a l s
  | .svScrub c => Sys2Proof.Machine.execSvScrub c s
  | .svHalt c => Sys2Proof.Machine.execSvHalt c s
  | .scalarLoad op rd rs1 imm => Sys2Proof.Machine.execScalarLoad op rd rs1 imm s
  | .scalarStore op rs2 rs1 imm => Sys2Proof.Machine.execScalarStore op rs2 rs1 imm s
  | .rv64Compute k => Sys2Proof.Machine.execRv64Compute k s
  | .fence fm pred succ rd rs1 => Sys2Proof.Machine.execFence fm pred succ rd rs1 s
  | .fenceI imm rd rs1 => Sys2Proof.Machine.execFenceI imm rd rs1 s
  | .csrAccess op rd src csr => Sys2Proof.Machine.execCsrAccess op rd src csr s
  | .cpRg o => Sys2Proof.Machine.execCpRg o s
  | .cpGx o => Sys2Proof.Machine.execCpGx o s
  | .cpSx o => Sys2Proof.Machine.execCpSx o s
  | .cpFill o => Sys2Proof.Machine.execCpFill o s
  | .cpReg o => Sys2Proof.Machine.execCpReg o s
  | .cpPf o => Sys2Proof.Machine.execCpPf o s
  | .tileCellArrival core => Sys2Proof.Machine.execTileCellArrival core s
  | .inboxMessagePost core => Sys2Proof.Machine.execInboxMessagePost core s
  | .q1EntryPush core => Sys2Proof.Machine.execQ1EntryPush core s
  | .vAdd o => Sys2Proof.Machine.execVAdd o s
  | .vSub o => Sys2Proof.Machine.execVSub o s
  | .vMul o => Sys2Proof.Machine.execVMul o s
  | .vFma o => Sys2Proof.Machine.execVFma o s
  | .vMin o => Sys2Proof.Machine.execVMin o s
  | .vMax o => Sys2Proof.Machine.execVMax o s
  | .vAnd o => Sys2Proof.Machine.execVAnd o s
  | .vOr o => Sys2Proof.Machine.execVOr o s
  | .vXor o => Sys2Proof.Machine.execVXor o s
  | .vShl o => Sys2Proof.Machine.execVShl o s
  | .vShr o => Sys2Proof.Machine.execVShr o s
  | .vCmpEq o => Sys2Proof.Machine.execVCmpEq o s
  | .vCmpLt o => Sys2Proof.Machine.execVCmpLt o s
  | .vCmpLe o => Sys2Proof.Machine.execVCmpLe o s
  | .vSel o => Sys2Proof.Machine.execVSel o s
  | .vCvt o => Sys2Proof.Machine.execVCvt o s
  | .vExp2 o => Sys2Proof.Machine.execVExp2 o s
  | .vLog2 o => Sys2Proof.Machine.execVLog2 o s
  | .vRcp o => Sys2Proof.Machine.execVRcp o s
  | .vRsq o => Sys2Proof.Machine.execVRsq o s
  | .vSig o => Sys2Proof.Machine.execVSig o s
  | .vRedAdd o => Sys2Proof.Machine.execVRedAdd o s
  | .vRedMax o => Sys2Proof.Machine.execVRedMax o s
  | .vScanAdd o => Sys2Proof.Machine.execVScanAdd o s
  | .vNzs o => Sys2Proof.Machine.execVNzs o s
  | .vScl o => Sys2Proof.Machine.execVScl o s
  | .vFmas o => Sys2Proof.Machine.execVFmas o s
  | .vBcast o => Sys2Proof.Machine.execVBcast o s
  | .vPerm o => Sys2Proof.Machine.execVPerm o s
  | .vMov o => Sys2Proof.Machine.execVMov o s
  | .vFill o => Sys2Proof.Machine.execVFill o s
  | .vTrn o => Sys2Proof.Machine.execVTrn o s
  | .mClr o => Sys2Proof.Machine.execMClr o s
  | .mLd o => Sys2Proof.Machine.execMLd o s
  | .mCvt o => Sys2Proof.Machine.execMCvt o s
  | .mSv o => Sys2Proof.Machine.execMSv o s
  | .mRs o => Sys2Proof.Machine.execMRs o s
  | .ttBind o => Sys2Proof.Machine.execTtBind o s
  | .ttWait o => Sys2Proof.Machine.execTtWait o s
  | .ttRel o => Sys2Proof.Machine.execTtRel o s
  | .ttStat o => Sys2Proof.Machine.execTtStat o s
  | .ibDeq o => Sys2Proof.Machine.execIbDeq o s
  | .ibPeek o => Sys2Proof.Machine.execIbPeek o s
  | .coCfg o => Sys2Proof.Machine.execCoCfg o s
  | .coRed o => Sys2Proof.Machine.execCoRed o s
  | .coBcast o => Sys2Proof.Machine.execCoBcast o s
  | .coAllr o => Sys2Proof.Machine.execCoAllr o s
  | .coMark o => Sys2Proof.Machine.execCoMark o s
  | .spOpen o => Sys2Proof.Machine.execSpOpen o s
  | .spSend o => Sys2Proof.Machine.execSpSend o s
  | .spClose o => Sys2Proof.Machine.execSpClose o s
  | .routerCombine core vsn set => Sys2Proof.Machine.execRouterCombine core vsn set s
  | .entrySetStep core vsn => Sys2Proof.Machine.execEntrySetStep core vsn s
  | .collectiveAbort core vsn => Sys2Proof.Machine.execCollectiveAbort core vsn s
  | .streamDataArrival core => Sys2Proof.Machine.execStreamDataArrival core s
  | .streamCloseArrival core => Sys2Proof.Machine.execStreamCloseArrival core s
  | .linkFlitResend core port => Sys2Proof.Machine.execLinkFlitResend core port s
  | .linkDown core port => Sys2Proof.Machine.execLinkDown core port s
  | .dCfg o => Sys2Proof.Machine.execDCfg o s
  | .dDec o => Sys2Proof.Machine.execDDec o s
  | .trapEntry core => Sys2Proof.Machine.execTrapEntry core s
  | .dispatchDecision p core => Sys2Proof.Machine.execDispatchDecision p core s
  | .deferredCoreReoffer p core => Sys2Proof.Machine.execDeferredCoreReoffer p core s
  | .preemptionDecision p => Sys2Proof.Machine.execPreemptionDecision p s
  | .faultDecision p => Sys2Proof.Machine.execFaultDecision p s
  | .queueDeadlock p => Sys2Proof.Machine.execQueueDeadlock p s
  | .futureOrphan p launch => Sys2Proof.Machine.execFutureOrphan p launch s
  | .launchRecordWrite p record => Sys2Proof.Machine.execLaunchRecordWrite p record s
  | .launchAcceptance p => Sys2Proof.Machine.execLaunchAcceptance p s
  | .launchCompletion p launch => Sys2Proof.Machine.execLaunchCompletion p launch s
  | .switchStop p => Sys2Proof.Machine.execSwitchStop p s
  | .switchQuiet p => Sys2Proof.Machine.execSwitchQuiet p s
  | .switchDrain p => Sys2Proof.Machine.execSwitchDrain p s
  | .switchSave p => Sys2Proof.Machine.execSwitchSave p s
  | .switchClearRestore p => Sys2Proof.Machine.execSwitchClearRestore p s
  | .switchResume p => Sys2Proof.Machine.execSwitchResume p s
  | .ownerClaim m => Sys2Proof.Machine.execOwnerClaim m s
  | .ownerHandover m new => Sys2Proof.Machine.execOwnerHandover m new s
  | .ownerRelease m => Sys2Proof.Machine.execOwnerRelease m s
  | .masterLinkUp m => Sys2Proof.Machine.execMasterLinkUp m s
  | .createPartition m => Sys2Proof.Machine.execCreatePartition m s
  | .destroyPartition m => Sys2Proof.Machine.execDestroyPartition m s
  | .setMode m => Sys2Proof.Machine.execSetMode m s
  | .reStitch m => Sys2Proof.Machine.execReStitch m s
  | .writeGrant m => Sys2Proof.Machine.execWriteGrant m s
  | .releaseParkedDomain m => Sys2Proof.Machine.execReleaseParkedDomain m s
  | .haltOrResume m => Sys2Proof.Machine.execHaltOrResume m s
  | .gangSwitch m => Sys2Proof.Machine.execGangSwitch m s
  | .assignCinch m => Sys2Proof.Machine.execAssignCinch m s
  | .sliceConfiguration m => Sys2Proof.Machine.execSliceConfiguration m s
  | .attest m => Sys2Proof.Machine.execAttest m s
  | .fwgo m len => Sys2Proof.Machine.execFwgo m len s
  | .bootRetry m => Sys2Proof.Machine.execBootRetry m s
  | .managementRegisterWrite m off v => Sys2Proof.Machine.execManagementRegisterWrite m off v s
  | .bridleLi d k => Sys2Proof.Machine.execBridleLi d k s
  | .bridleLdq d q f => Sys2Proof.Machine.execBridleLdq d q f s
  | .bridleLdc d c => Sys2Proof.Machine.execBridleLdc d c s
  | .bridleAdd d a b => Sys2Proof.Machine.execBridleAdd d a b s
  | .bridleSub d a b => Sys2Proof.Machine.execBridleSub d a b s
  | .bridleMin d a b => Sys2Proof.Machine.execBridleMin d a b s
  | .bridleMax d a b => Sys2Proof.Machine.execBridleMax d a b s
  | .bridleAnd d a b => Sys2Proof.Machine.execBridleAnd d a b s
  | .bridleOr d a b => Sys2Proof.Machine.execBridleOr d a b s
  | .bridleShl d a b => Sys2Proof.Machine.execBridleShl d a b s
  | .bridleShr d a b => Sys2Proof.Machine.execBridleShr d a b s
  | .bridleClt d a b => Sys2Proof.Machine.execBridleClt d a b s
  | .bridleCeq d a b => Sys2Proof.Machine.execBridleCeq d a b s
  | .bridleSel d a b => Sys2Proof.Machine.execBridleSel d a b s
  | .bridleJf a o => Sys2Proof.Machine.execBridleJf a o s
  | .bridlePick a => Sys2Proof.Machine.execBridlePick a s
  | .bridleVeto a => Sys2Proof.Machine.execBridleVeto a s
  | .bridleAct a k => Sys2Proof.Machine.execBridleAct a k s
  | .birlinLinkDown ids => Sys2Proof.Machine.execBirlinLinkDown ids s
  | .cxlLinkDown port => Sys2Proof.Machine.execCxlLinkDown port s
  | .spanOrBirlinTraffic t => Sys2Proof.Machine.execSpanOrBirlinTraffic t s
  | .coreFaultInService core => Sys2Proof.Machine.execCoreFaultInService core s
  | .thermalLimit on => Sys2Proof.Machine.execThermalLimit on s
  | .gSplit => Sys2Proof.Machine.execGSplit s
  | .tsExit => Sys2Proof.Machine.execTsExit s
  | .tret => Sys2Proof.Machine.execTret s
  | .ecall => Sys2Proof.Machine.execEcall s
  | .ebreak => Sys2Proof.Machine.execEbreak s
  | .ownerSilenceTimeout => Sys2Proof.Machine.execOwnerSilenceTimeout s
  | .requestDone => Sys2Proof.Machine.execRequestDone s
  | .deviceStart => Sys2Proof.Machine.execDeviceStart s
  | .startTimeout => Sys2Proof.Machine.execStartTimeout s
  | .powerStateEntry => Sys2Proof.Machine.execPowerStateEntry s
  | .powerWake => Sys2Proof.Machine.execPowerWake s
  | .powerRemoval => Sys2Proof.Machine.execPowerRemoval s
  | .bridleEnd => Sys2Proof.Machine.execBridleEnd s
  | .bridleDefer => Sys2Proof.Machine.execBridleDefer s
  | .powerOn => Sys2Proof.Machine.execPowerOn s
  | .reset => Sys2Proof.Machine.execReset s

end Sys2Proof.Machine
end

