-- ==== Sys2Proof/Machine/Schedule.lean ====
section
/-!
DEFINITION. Whose turn it is (log 2): what a turn of a control stream, an engine, the policy program or an event comes to, and the order
that decides when no turn is laid down.
-/

namespace Sys2Proof.Machine

/-! ## Turns of engines (R20 to R25) -/

/-- A command to run, or its fault where its words name no command (R69). -/
def planCommand (s : State) (e : BitVec 3) (cmd : Cmd) (fault : CmdFault → State) : Plan :=
  match decodeCommand e cmd.words with
  | .ok i => .run i s
  | .error _ => .rest (fault (badCommand cmd))

/-- The copy engine: the head of its queue, or a copy in flight. -/
def State.planCopy (s : State) (pick : Nat) : Plan :=
  let s' := s.updCore fun c => { c with eng := { c.eng with pick := pick } }
  match pick with
  | 0 => match s.core.eng.cq with
    | [] => .rest s
    | cmd :: _ => planCommand s' 0 cmd (s.copyFault cmd)
  | k + 1 => match s.core.eng.copies[k]? with
    | none => .rest s
    | some r => planCommand s' 0 r.cmd (s.copyFault r.cmd)

/-- The vector engine. -/
def State.planVector (s : State) : Plan :=
  match s.core.eng.vrun, s.core.eng.vq with
  | some r, _ => planCommand s 1 r.cmd (s.vectorFault r.cmd)
  | none, cmd :: _ => planCommand s 1 cmd (s.vectorFault cmd)
  | none, [] => .rest s

/-- The matrix engine: a product or its posting, or an accumulator command. -/
def State.planMatrix (s : State) : Plan :=
  match s.core.eng.mrun, s.core.eng.mq with
  | some (.product _), _ => .run (.jointProductStart s.cur) s
  | some (.posting ..), _ => .rest s
  | none, cmd :: _ => if cmd.mx.isSome then .run (.jointProductStart s.cur) s else planCommand s 2 cmd (s.matrixFault s.cur cmd)
  | none, [] => .rest s

/-- The collective engine. -/
def State.planCollective (s : State) : Plan :=
  match s.core.eng.krun, s.core.eng.kq with
  | some r, _ => planCommand s 3 r.cmd (s.collectiveFault r.cmd)
  | none, cmd :: _ => planCommand s 3 cmd (s.collectiveFault cmd)
  | none, [] => .rest s

/-- The media engine. -/
def State.planMedia (s : State) : Plan :=
  match s.core.eng.drun, s.core.eng.dq with
  | some _, _ => .rest s
  | none, cmd :: _ => planCommand s 4 cmd (s.mediaFault cmd)
  | none, [] => .rest s

/-- An engine of a core that stops still moves: its wave has to reach the chunk agreed at the stop (R281), or a copy of one step that
has started ends before the core's context is saved (R326). -/
def State.finishing (s : State) (e : BitVec 3) (pick : Nat) : Bool :=
  let c := s.core
  if c.failed then false
  else match e.toNat, pick with
    | 3, _ => (c.held == .no || c.held == .leaving) && c.eng.krun.any fun r => r.limit.isSome
    | 0, k + 1 => (c.held == .leaving || (c.held == .no && c.stopped && (s.partAt c.part).phase == .stop)) &&
        c.eng.copies[k]?.any fun r => r.cmd.oneStep && r.post.isNone
    | _, _ => false

/-- The turn of an engine of the acting core. A task that is leaving goes once its engines have finished what they must (R372). -/
def State.planEngine (s : State) (e : BitVec 3) (pick : Nat) : Plan :=
  if s.core.held == .leaving && !s.core.stopped && !s.core.halted && s.quietAt s.cur then .rest s.completeHandOn
  else if !s.core.enginesRun && !s.finishing e pick then .rest s
  else match e.toNat with
    | 0 => s.planCopy pick
    | 1 => s.planVector
    | 2 => s.planMatrix
    | 3 => s.planCollective
    | 4 => s.planMedia
    | _ => .rest s

/-! ## Other turns -/

/-- A row that stands for a step of the machine or an input: no word or command encodes it. -/
def isEventRow (i : Instr) : Bool :=
  match encode i with
  | .none => true
  | .word _ | .half _ | .command .. => false

/-- An instruction that may wait for its own core's queues, inbox and tiles, and for nothing else (R248). -/
def ownQueue : Instr → Bool
  | .engineIssue .. | .qPush .. | .qPop .. | .mxK8k8 .. | .mxK4k4 .. | .mxK8k4 .. | .mxK4k8 .. | .mxI8i8 .. | .mxI4i4 .. | .mxF16f16 ..
  | .mxB16b16 .. => true
  | _ => false

/-- What a core would wait in at an instruction, if it does nothing but wait there. -/
def State.waitsIn (s : State) (i : Instr) (id : Nat) : Option Wait :=
  let s' := s.act id
  match exec i s' with
  | .next t => let w := t.core.wait
    if w != .none && w != .partway && t == s'.updCore (fun c => { c with wait := w }) then some w else none
  | .fault _ | .refused _ => none

/-- A member of a gang is held at an instruction in which another member waits for its own queues: it retires on all or on none (R247). One
that leaves the gang by a trap does so at once. -/
def State.gangHold? (s : State) (i : Instr) : Option Wait :=
  match s.core.gang with
  | none => none
  | some g =>
    if !ownQueue i then none
    else match exec i s with
      | .next t => if t.core.gang.isNone then none else
          (((List.range g.size).map (g.leader + ·)).filter fun m =>
            m != s.cur && ((s.coreAt m).gang.bind (·.retired)).isNone).findSome? (s.waitsIn i)
      | .fault _ | .refused _ => none

/-- The turn of a control stream, held with its gang. -/
def State.planMember (s : State) : Plan :=
  match s.planStream with
  | .run i s' => match s'.gangHold? i with
    | some w => .rest (s'.updCore fun c => { c with wait := w })
    | none => .run i s'
  | p => p

/-- The turn of the policy program of a partition (R229). -/
def State.planBridle (s : State) (pn : Nat) : Plan :=
  match alGet pn s.parts with
  | none => .rest s
  | some p => match p.decision, p.program with
    | some d, some pol => match (pol.code[d.index]?).map decodeBridle with
      | some (.ok i) => .run i (s.act (p.phys 0))
      | _ => .rest s
    | _, _ => .rest s

/-- What a turn comes to. In a power state below A0 no core moves (R350). A core past the last is no agent. -/
def State.plan (s : State) (t : Turn) : Plan :=
  match t with
  | .stream id =>
    if 4096 ≤ id then .stray id
    else if s.mgmt.pstate ≠ 0 then .rest s
    else (s.act id).planMember
  | .engine id e pick =>
    if 4096 ≤ id then .stray id
    else if s.mgmt.pstate ≠ 0 then .rest s
    else (s.act id).planEngine e pick
  | .event i => if isEventRow i then .run i s else .rest s
  | .bridle p => s.planBridle p

/-! ## Nothing can move (R248) -/

/-- The turns of a core: its stream, its engines, and what is on its way to it or through its router. -/
def Core.turns (c : Core) (id : Nat) : List Turn :=
  [.stream id, .engine id 0 0] ++ (List.range c.eng.copies.length).map (fun k => .engine id 0 (k + 1)) ++
    [.engine id 1 0, .engine id 2 0, .engine id 3 0, .engine id 4 0, .event (.inboxMessagePost id), .event (.tileCellArrival id),
      .event (.q1EntryPush id), .event (.streamDataArrival id), .event (.streamCloseArrival id)] ++
    c.router.entries.flatMap fun e =>
      [0, 1, 2, 3].map (fun k => Turn.event (.routerCombine id e.1 k)) ++
        [.event (.entrySetStep id e.1), .event (.collectiveAbort id e.1)]

/-- Something is bound to a core, or its router has a wave to move, which it does for an idle core too (R273). -/
def Core.busy (c : Core) : Bool := c.bound != .idle || !c.router.chunks.isEmpty || !c.router.aborted.isEmpty

/-- A turn leaves the machine as it was, but for who acted. -/
def State.idles (s : State) (t : Turn) : Bool :=
  match s.plan t with
  | .run i s' => match exec i s' with
    | .next s'' => s''.act s'.cur == s'
    | .fault _ | .refused _ => false
  | .rest s' => s'.act s.cur == s
  | .stray _ => true

/-- The turns of the dispatcher of a partition. -/
def Partition.turns (p : Partition) (pn : Nat) : List Turn :=
  [.bridle pn, .event (.launchAcceptance pn), .event (.faultDecision pn), .event (.preemptionDecision pn)] ++
    p.offers.map (fun o => .event (.dispatchDecision pn o.1)) ++
    p.launches.flatMap (fun l => [.event (.futureOrphan pn l.key), .event (.launchCompletion pn l.key)]) ++
    match p.phase with
    | .none => []
    | .granted => [.event (.switchStop pn)]
    | .stop => [.event (.switchQuiet pn)]
    | .quiet => [.event (.switchDrain pn)]
    | .drain => [.event (.switchSave pn)]
    | .save => [.event (.switchClearRestore pn)]
    | .restored => [.event (.switchResume pn)]

/-- No core of a partition can move, nothing is on its way to one, and its dispatcher has nothing to do. Supervisor code is no task, and
its stream may run (R248, R296). -/
def State.stuck (s : State) (pn : Nat) : Bool :=
  (s.partAt pn).coreIds.all (fun id =>
    (((s.coreAt id).turns id).filter fun t => t != .stream id || (s.coreAt id).bound != .supervisor).all s.idles) &&
    ((s.partAt pn).turns pn).all s.idles

/-- The plan that a step carries out: the deadlock count runs out only where nothing can move (R248). -/
def State.finalPlan (s : State) (t : Turn) : Plan :=
  match t with
  | .event (.queueDeadlock p) => if s.stuck p then s.plan t else .rest s
  | .stream _ | .engine .. | .event _ | .bridle _ => s.plan t

/-! ## The order when no turn is laid down (log 2) -/

/-- The turns that the machine takes of itself, in a fixed order. -/
def State.turns (s : State) : List Turn :=
  (s.parts.flatMap fun e => e.2.turns e.1) ++
    ((s.cores.filter fun e => decide (e.1 < 4096) && e.2.busy).flatMap fun e => e.2.turns e.1) ++
    (match s.mgmt.stage with
      | .starting => [.event .deviceStart]
      | .off | .waiting | .ready | .minimal => []) ++
    (if s.mgmt.reqState = 1 then [.event .requestDone] else [])

/-- The next turn: the first laid down, else one after another in the fixed order. -/
def State.nextTurn? (s : State) : Option Turn :=
  match s.agenda with
  | t :: _ => some t
  | [] => s.turns[s.tick % s.turns.length]?

end Sys2Proof.Machine
end

