-- ==== Sys2Proof/Machine/Step.lean ====
section
/-!
DEFINITION. One step of the device: the next turn is carried out (log 2).
-/

namespace Sys2Proof.Machine

/-- One step. Time advances, the turn leaves the agenda, and what it comes to is carried out. -/
def step (s : State) : Host.Outcome State Fault Refusal :=
  match s.nextTurn? with
  | none => .next s.advance
  | some t => match s.advance.finalPlan t with
    | .run i s' => exec i s'
    | .rest s' => .next s'
    | .stray core => .fault (.noSuchAgent core)

/-- The state with an instruction laid where the next step fetches it (log 38). -/
def State.withFetchWord (s : State) (nbits w : Nat) : State :=
  if nbits ≤ 16 then s.placeHalf (BitVec.ofNat 16 w)
  else if nbits ≤ 32 then s.placeWord (BitVec.ofNat 32 w)
  else s.placeCommand (commandWords w)

end Sys2Proof.Machine
end

