-- ==== Sys2Proof/Laws/Encoding.lean ====
section
/-!
SUPPORT. Lemmas about fields of words: a field cut out of a word put together from fields is that field, and each small code
decodes to what it was made from.
-/

namespace Sys2Proof.Laws

/-! ## Fields of a concatenation -/

/-- A field that lies in the low part of a concatenation. -/
theorem extract_append_low {n m : Nat} (a : BitVec n) (b : BitVec m) (s k : Nat) (h : s + k ≤ m) :
    (a ++ b).extractLsb' s k = b.extractLsb' s k := by
  ext i hi
  simp only [BitVec.getElem_extractLsb', BitVec.getLsbD_append]
  rw [if_pos (by omega)]

/-- A field that lies in the high part of a concatenation. -/
theorem extract_append_high {n m : Nat} (a : BitVec n) (b : BitVec m) (s k : Nat) (h : m ≤ s) :
    (a ++ b).extractLsb' s k = a.extractLsb' (s - m) k := by
  ext i hi
  simp only [BitVec.getElem_extractLsb', BitVec.getLsbD_append]
  rw [if_neg (by omega)]
  congr 1
  omega

/-- The whole of a word. -/
theorem extract_all {n : Nat} (a : BitVec n) (s : Nat) (h : s = 0) : a.extractLsb' s n = a := by subst h; simp

/-- A field of a packed word is that field of what was packed. -/
theorem extract_pack {n w : Nat} (x : BitVec n) (h : n = w) (s k : Nat) :
    (pack x h).extractLsb' s k = x.extractLsb' s k := by subst h; rfl

/-- Two neighbouring fields are one field. -/
theorem join {n : Nat} (v : BitVec n) (s k l t : Nat) (h : t = s + k) :
    v.extractLsb' t l ++ v.extractLsb' s k = v.extractLsb' s (l + k) := by
  subst h
  ext i hi
  simp only [BitVec.getElem_append, BitVec.getElem_extractLsb']
  split
  · rfl
  · congr 1; omega

/-! ## Words split into fields and put together again -/

theorem join_imm12 (v : BitVec 12) : (v.extractLsb' 5 7 ++ v.extractLsb' 0 5 : BitVec 12) = v :=
  (join v 0 5 7 5 rfl).trans (extract_all v 0 rfl)

theorem join_imm20 (v : BitVec 20) :
    (v.extractLsb' 13 7 ++ (v.extractLsb' 8 5 ++ (v.extractLsb' 3 5 ++ v.extractLsb' 0 3)) : BitVec 20) = v := by
  have h1 := join v 0 3 5 3 rfl
  have h2 := join v 0 8 5 8 rfl
  have h3 := join v 0 13 7 13 rfl
  rw [h1, h2, h3]; exact extract_all v 0 rfl

theorem join_branch (v : BitVec 12) :
    (v.extractLsb' 11 1 ++ (v.extractLsb' 10 1 ++ (v.extractLsb' 4 6 ++ v.extractLsb' 0 4)) : BitVec 12) = v := by
  have h1 := join v 0 4 6 4 rfl
  have h2 := join v 0 10 1 10 rfl
  have h3 := join v 0 11 1 11 rfl
  rw [h1, h2, h3]; exact extract_all v 0 rfl

theorem join_jal (v : BitVec 20) :
    (v.extractLsb' 19 1 ++ (v.extractLsb' 14 5 ++ (v.extractLsb' 11 3 ++ (v.extractLsb' 10 1 ++
      (v.extractLsb' 4 6 ++ v.extractLsb' 0 4)))) : BitVec 20) = v := by
  have h1 := join v 0 4 6 4 rfl
  have h2 := join v 0 10 1 10 rfl
  have h3 := join v 0 11 3 11 rfl
  have h4 := join v 0 14 5 14 rfl
  have h5 := join v 0 19 1 19 rfl
  rw [h1, h2, h3, h4, h5]; exact extract_all v 0 rfl

theorem join_shift (v : BitVec 6) : (v.extractLsb' 5 1 ++ v.extractLsb' 0 5 : BitVec 6) = v := by revert v; decide

theorem join_pred (v : BitVec 4) : (v.extractLsb' 1 3 ++ v.extractLsb' 0 1 : BitVec 4) = v := by revert v; decide

/-! ## Small codes -/

theorem reg4_r4 (d : Reg4) : reg4? (r4 d) = some d := by revert d; decide

theorem scope_code (s : Scope) : scope? s.code = some s := by cases s <;> rfl

theorem scope_stream : Scope.stream.code = 0 := rfl

theorem mxMode_code (m : MxMode) : mxMode? m.code = some m := by cases m <;> rfl

theorem fmt_code (f : Option Fmt) : fmt? (fmtCode f) = some f := by
  rcases f with _ | f
  · rfl
  · cases f <;> rfl

theorem rnd_code (r : Rnd) : rnd? r.code = some r := by cases r <;> rfl

theorem patch_code (p : Patch) : patch? p.code = some p := by cases p <;> rfl

theorem region_code (r : Option Reg4) : region? (regionCode r) = some r := by
  rcases r with _ | r
  · rfl
  · revert r; decide

theorem combine_code (o : CombineOp) : combine? o.code = some o := by cases o <;> rfl

theorem codec_code (o : Codec) : codec? o.code = some o := by cases o <;> rfl

theorem flag_code (b : Bool) : flag (flagCode b) = b := by cases b <;> rfl

theorem fInt_code (t : FInt) : fInt? t.code = some t := by cases t <;> rfl

/-! ## Whole words -/

/-- The fields of an R-layout word. -/
theorem decode32_mkR (f7 : BitVec 7) (rs2 rs1 : Reg) (f3 : BitVec 3) (rd : Reg) (maj : BitVec 7) :
    decode32 (mkR f7 rs2 rs1 f3 rd maj) = decodeFields f7 rs2 rs1 f3 rd maj := by
  simp (disch := decide) only [decode32, mkR, extract_pack, extract_append_low, extract_append_high, extract_all, -Nat.reduceAdd]

/-- The fields of a bridle word. -/
theorem decode_mkB (op : BitVec 5) (d : BitVec 3) (r : BitVec 8) : decode (mkB op d r) = decodeBridleFields op d r := by
  simp (disch := decide) only [decode, mkB, decodeBridle, extract_pack, extract_append_low, extract_append_high, extract_all, -Nat.reduceAdd]

/-- The shared fields of w0 come back from it. -/
theorem head_mkW0 (h : CmdHead) (e : BitVec 2) (op : BitVec 12) : head? (mkW0 h e op) = some h := by
  simp (disch := decide) only [head?, mkW0, extract_pack, extract_append_low, extract_append_high, extract_all, patch_code,
    region_code, rnd_code, fmt_code, -Nat.reduceAdd]

/-- The opcode comes back from w0. -/
theorem opcode_mkW0 (h : CmdHead) (e : BitVec 2) (op : BitVec 12) : (mkW0 h e op).extractLsb' 0 12 = op := by
  simp (disch := decide) only [mkW0, extract_pack, extract_append_low, extract_all, -Nat.reduceAdd]

/-- The echo check of w0 is a check of the fields it was made from. -/
theorem echo_mkW0 (g : BitVec 3) (h : CmdHead) (e : BitVec 2) (op : BitVec 12) :
    echoOk g (mkW0 h e op) = (e == g.extractLsb' 0 2 && op.extractLsb' 11 1 == g.extractLsb' 2 1) := by
  simp (disch := decide) only [echoOk, mkW0, extract_pack, extract_append_low, extract_append_high, extract_all, -Nat.reduceAdd]

/-- A port set comes back from its 16 bits. -/
theorem portSet_code (p : PortSet) : portSet? p.code = some p := by
  simp (disch := decide) only [portSet?, PortSet.code, extract_pack, extract_append_low, extract_append_high, extract_all,
    -Nat.reduceAdd]
  rfl

end Sys2Proof.Laws
end

