-- ==== Sys2Proof/Laws/PerInstr.lean ====
section
/-!
SUPPORT. The families of statements about every instruction as syntax. RoundTrip: decoding the words of a well-formed
instruction gives it back, with every operand at every value its encoding admits.
-/

set_option Elab.async false
set_option linter.unusedSimpArgs false

namespace Sys2Proof.Laws

/-- A well-formed instruction that has a word comes back from it; steps and events have none. -/
def RoundTrip.Statement (i : Instr) : Prop := i.wf = true → encode i = .none ∨ decode (encode i) = .ok i

theorem roundTrip_rv (i : RvInstr) : RoundTrip.Statement (.rv64Compute i) := by
  intro h; right
  replace h : i.wf = true := h
  cases i with
  | lui | auipc => simp (disch := decide) [encode, decode, encodeRv, mkU, decode32_mkR, decodeFields, decRv, h,
    join_imm20, -Nat.reduceAdd]
  | jal => simp (disch := decide) [encode, decode, encodeRv, decode32_mkR, decodeFields, decodeJal, decRv, h, join_jal,
    extract_pack, extract_append_low, extract_append_high, extract_all, -Nat.reduceAdd]
  | jalr => simp (disch := decide) [encode, decode, encodeRv, mkI, decode32_mkR, decodeFields, decRv, h, join_imm12,
    -Nat.reduceAdd]
  | branch op => cases op <;> simp (disch := decide) [encode, decode, encodeRv, decode32_mkR, decodeFields,
    decodeBranch, BrOp.f3, decRv, h, join_branch, extract_pack, extract_append_low, extract_append_high, extract_all,
    -Nat.reduceAdd]
  | opImm op => cases op <;> simp (disch := decide) [encode, decode, encodeRv, mkI, decode32_mkR, decodeFields,
    decodeOpImm, ImmOp.f3, decRv, h, join_imm12, -Nat.reduceAdd]
  | shiftImm op => cases op <;> simp (disch := decide) [encode, decode, encodeRv, decode32_mkR, decodeFields,
    decodeOpImm, ShOp.f3, decRv, h, join_shift, extract_pack, extract_append_low, extract_append_high, extract_all,
    -Nat.reduceAdd]
  | addiw => simp (disch := decide) [encode, decode, encodeRv, mkI, decode32_mkR, decodeFields, decodeOpImmW, decRv, h,
    join_imm12, -Nat.reduceAdd]
  | shiftImmW op => cases op <;> simp (disch := decide) [encode, decode, encodeRv, decode32_mkR, decodeFields,
    decodeOpImmW, ShOp.f3, decRv, h, -Nat.reduceAdd]
  | op op => cases op <;> simp (disch := decide) [encode, decode, encodeRv, decode32_mkR, decodeFields, decodeOp,
    AluOp.code, decRv, h, -Nat.reduceAdd]
  | opW op => cases op <;> simp (disch := decide) [encode, decode, encodeRv, decode32_mkR, decodeFields, decodeOpW,
    AluWOp.code, decRv, h, -Nat.reduceAdd]
  | farith op => cases op <;> simp (disch := decide) [encode, decode, encodeRv, decode32_mkR, decodeFields, decodeOpFp,
    FArith.f7, decRv, h, -Nat.reduceAdd]
  | fused op => cases op <;> simp (disch := decide) [encode, decode, encodeRv, decode32_mkR, decodeFields, decodeFused,
    FFused.major, decRv, h, extract_pack, extract_append_low, extract_append_high, extract_all, -Nat.reduceAdd]
  | fpick op => cases op <;> simp (disch := decide) [encode, decode, encodeRv, decode32_mkR, decodeFields, decodeOpFp,
    FPick.code, decRv, h, -Nat.reduceAdd]
  | fcmp op => cases op <;> simp (disch := decide) [encode, decode, encodeRv, decode32_mkR, decodeFields, decodeOpFp,
    FCmp.f3, decRv, h, -Nat.reduceAdd]
  | fsqrt | fclass | fmvXW | fmvWX => simp (disch := decide) [encode, decode, encodeRv, decode32_mkR, decodeFields,
    decodeOpFp, decRv, h, -Nat.reduceAdd]
  | fcvtToInt | fcvtToFloat => simp (disch := decide) [encode, decode, encodeRv, decode32_mkR, decodeFields, decodeOpFp,
    fInt_code, decRv, h, -Nat.reduceAdd]

theorem roundTrip_issue (e : BitVec 3) (index : BitVec 12) (a b : Reg) : RoundTrip.Statement (.engineIssue e index a b)
  := by
  intro h; right
  have he : e ≠ 7#3 := by simpa [Instr.wf] using h
  simp (disch := decide) [encode, decode, decode32_mkR, decodeFields, decodeCustom3, join_imm12, he, -Nat.reduceAdd]

theorem roundTrip_cpGx (o : CpRows) : RoundTrip.Statement (.cpGx o) := by
  intro h; right
  have hr : o.rel = false := by simp [Instr.wf] at h; exact h.2
  obtain ⟨hd, dp, dtd, std, list, rel, tag⟩ := o
  cases hr
  simp (disch := decide) [encode, encRows, decode, decodeCommand, parseCommand, head_mkW0, opcode_mkW0, echo_mkW0,
    copyOp?, cpRows?, flagCode, extract_pack, extract_append_low, extract_append_high, extract_all, h, -Nat.reduceAdd]

theorem roundTrip_vector (op : BitVec 12) (mk : VOps → Instr) (hv : vectorOp? op.toNat = some mk) (he : ∀ o, encode (mk
  o) = encV op o) (hb : (op.extractLsb' 11 1 == 0#1) = true) (o : VOps) (hw : (mk o).wf = true) : decode (encode (mk o))
  = .ok (mk o) := by
  rw [he]
  have hb' : op.extractLsb' 11 1 = 0#1 := by simpa using hb
  simp (disch := decide) [encV, decode, decodeCommand, parseCommand, head_mkW0, opcode_mkW0, echo_mkW0, vops?, hv, hb',
    hw, fmt_code, flag_code, extract_pack, extract_append_low, extract_append_high, extract_all, -Nat.reduceAdd]

theorem RoundTrip.rgAnd (d : Reg4) (a : Reg4) (b : Reg4) : RoundTrip.Statement (.rgAnd d a b) := by
  intro _; right; simp (disch := decide) [encode, decode, decode32_mkR, decodeFields, ifZero, decodeCustom0, dec1, dec2,
    dec3, reg4_r4, decodeRegion, decodePointer, extract_pack, extract_append_low, extract_append_high, extract_all,
    -Nat.reduceAdd]

theorem RoundTrip.rgOr (d : Reg4) (a : Reg4) (b : Reg4) : RoundTrip.Statement (.rgOr d a b) := by
  intro _; right; simp (disch := decide) [encode, decode, decode32_mkR, decodeFields, ifZero, decodeCustom0, dec1, dec2,
    dec3, reg4_r4, decodeRegion, decodePointer, extract_pack, extract_append_low, extract_append_high, extract_all,
    -Nat.reduceAdd]

theorem RoundTrip.rgSub (d : Reg4) (a : Reg4) (b : Reg4) : RoundTrip.Statement (.rgSub d a b) := by
  intro _; right; simp (disch := decide) [encode, decode, decode32_mkR, decodeFields, ifZero, decodeCustom0, dec1, dec2,
    dec3, reg4_r4, decodeRegion, decodePointer, extract_pack, extract_append_low, extract_append_high, extract_all,
    -Nat.reduceAdd]

theorem RoundTrip.rgIn (d : Reg) (a : Reg4) (b : Reg4) : RoundTrip.Statement (.rgIn d a b) := by
  intro _; right; simp (disch := decide) [encode, decode, decode32_mkR, decodeFields, ifZero, decodeCustom0, dec1, dec2,
    dec3, reg4_r4, decodeRegion, decodePointer, extract_pack, extract_append_low, extract_append_high, extract_all,
    -Nat.reduceAdd]

theorem RoundTrip.rgDil (d : Reg4) (a : Reg4) (s : Reg) : RoundTrip.Statement (.rgDil d a s) := by
  intro _; right; simp (disch := decide) [encode, decode, decode32_mkR, decodeFields, ifZero, decodeCustom0, dec1, dec2,
    dec3, reg4_r4, decodeRegion, decodePointer, extract_pack, extract_append_low, extract_append_high, extract_all,
    -Nat.reduceAdd]

theorem RoundTrip.rgShf (d : Reg4) (a : Reg4) (s : Reg) : RoundTrip.Statement (.rgShf d a s) := by
  intro _; right; simp (disch := decide) [encode, decode, decode32_mkR, decodeFields, ifZero, decodeCustom0, dec1, dec2,
    dec3, reg4_r4, decodeRegion, decodePointer, extract_pack, extract_append_low, extract_append_high, extract_all,
    -Nat.reduceAdd]

theorem RoundTrip.rgProj (d : Reg4) (a : Reg4) (m : Reg) : RoundTrip.Statement (.rgProj d a m) := by
  intro _; right; simp (disch := decide) [encode, decode, decode32_mkR, decodeFields, ifZero, decodeCustom0, dec1, dec2,
    dec3, reg4_r4, decodeRegion, decodePointer, extract_pack, extract_append_low, extract_append_high, extract_all,
    -Nat.reduceAdd]

theorem RoundTrip.rgSplitK (d : Reg4) (a : Reg4) (k : Reg) : RoundTrip.Statement (.rgSplitK d a k) := by
  intro _; right; simp (disch := decide) [encode, decode, decode32_mkR, decodeFields, ifZero, decodeCustom0, dec1, dec2,
    dec3, reg4_r4, decodeRegion, decodePointer, extract_pack, extract_append_low, extract_append_high, extract_all,
    -Nat.reduceAdd]

theorem RoundTrip.rgClip (d : Reg4) (a : Reg4) (t : Reg4) : RoundTrip.Statement (.rgClip d a t) := by
  intro _; right; simp (disch := decide) [encode, decode, decode32_mkR, decodeFields, ifZero, decodeCustom0, dec1, dec2,
    dec3, reg4_r4, decodeRegion, decodePointer, extract_pack, extract_append_low, extract_append_high, extract_all,
    -Nat.reduceAdd]

theorem RoundTrip.rgCnt (d : Reg) (a : Reg4) : RoundTrip.Statement (.rgCnt d a) := by
  intro _; right; simp (disch := decide) [encode, decode, decode32_mkR, decodeFields, ifZero, decodeCustom0, dec1, dec2,
    dec3, reg4_r4, decodeRegion, decodePointer, extract_pack, extract_append_low, extract_append_high, extract_all,
    -Nat.reduceAdd]

theorem RoundTrip.rgNbox (d : Reg) (a : Reg4) : RoundTrip.Statement (.rgNbox d a) := by
  intro _; right; simp (disch := decide) [encode, decode, decode32_mkR, decodeFields, ifZero, decodeCustom0, dec1, dec2,
    dec3, reg4_r4, decodeRegion, decodePointer, extract_pack, extract_append_low, extract_append_high, extract_all,
    -Nat.reduceAdd]

theorem RoundTrip.rgGet (d : Reg) (a : Reg4) (i : Reg) : RoundTrip.Statement (.rgGet d a i) := by
  intro _; right; simp (disch := decide) [encode, decode, decode32_mkR, decodeFields, ifZero, decodeCustom0, dec1, dec2,
    dec3, reg4_r4, decodeRegion, decodePointer, extract_pack, extract_append_low, extract_append_high, extract_all,
    -Nat.reduceAdd]

theorem RoundTrip.rgSplit (d : Reg4) (a : Reg4) (n : Reg) : RoundTrip.Statement (.rgSplit d a n) := by
  intro _; right; simp (disch := decide) [encode, decode, decode32_mkR, decodeFields, ifZero, decodeCustom0, dec1, dec2,
    dec3, reg4_r4, decodeRegion, decodePointer, extract_pack, extract_append_low, extract_append_high, extract_all,
    -Nat.reduceAdd]

theorem RoundTrip.rgBox (d : Reg4) (s : Reg) (k : Reg) : RoundTrip.Statement (.rgBox d s k) := by
  intro _; right; simp (disch := decide) [encode, decode, decode32_mkR, decodeFields, ifZero, decodeCustom0, dec1, dec2,
    dec3, reg4_r4, decodeRegion, decodePointer, extract_pack, extract_append_low, extract_append_high, extract_all,
    -Nat.reduceAdd]

theorem RoundTrip.rgBoxs (d : Reg4) (s : Reg) (k : Reg) : RoundTrip.Statement (.rgBoxs d s k) := by
  intro _; right; simp (disch := decide) [encode, decode, decode32_mkR, decodeFields, ifZero, decodeCustom0, dec1, dec2,
    dec3, reg4_r4, decodeRegion, decodePointer, extract_pack, extract_append_low, extract_append_high, extract_all,
    -Nat.reduceAdd]

theorem RoundTrip.rgBoxr (d : Reg4) (s : Reg) (k : Reg) : RoundTrip.Statement (.rgBoxr d s k) := by
  intro _; right; simp (disch := decide) [encode, decode, decode32_mkR, decodeFields, ifZero, decodeCustom0, dec1, dec2,
    dec3, reg4_r4, decodeRegion, decodePointer, extract_pack, extract_append_low, extract_append_high, extract_all,
    -Nat.reduceAdd]

theorem RoundTrip.rgLd (d : Reg4) (s : Reg) (imm : BitVec 12) : RoundTrip.Statement (.rgLd d s imm) := by
  intro _; right; simp (disch := decide) [encode, decode, decode32_mkR, decodeFields, ifZero, decodeCustom0, dec1, dec2,
    dec3, reg4_r4, mkI, join_imm12, extract_pack, extract_append_low, extract_append_high, extract_all,
    -Nat.reduceAdd]

theorem RoundTrip.rgSt (b : Reg4) (s : Reg) (imm : BitVec 12) : RoundTrip.Statement (.rgSt b s imm) := by
  intro _; right; simp (disch := decide) [encode, decode, decode32_mkR, decodeFields, ifZero, decodeCustom0, dec1, dec2,
    dec3, reg4_r4, mkS, join_imm12, extract_pack, extract_append_low, extract_append_high, extract_all,
    -Nat.reduceAdd]

theorem RoundTrip.tdLd (d : Reg4) (s : Reg) (imm : BitVec 12) : RoundTrip.Statement (.tdLd d s imm) := by
  intro _; right; simp (disch := decide) [encode, decode, decode32_mkR, decodeFields, ifZero, decodeCustom0, dec1, dec2,
    dec3, reg4_r4, mkI, join_imm12, extract_pack, extract_append_low, extract_append_high, extract_all,
    -Nat.reduceAdd]

theorem RoundTrip.tdSt (t : Reg4) (s : Reg) (imm : BitVec 12) : RoundTrip.Statement (.tdSt t s imm) := by
  intro _; right; simp (disch := decide) [encode, decode, decode32_mkR, decodeFields, ifZero, decodeCustom0, dec1, dec2,
    dec3, reg4_r4, mkS, join_imm12, extract_pack, extract_append_low, extract_append_high, extract_all,
    -Nat.reduceAdd]

theorem RoundTrip.vPtr (d : Reg4) (s : Reg) : RoundTrip.Statement (.vPtr d s) := by
  intro _; right; simp (disch := decide) [encode, decode, decode32_mkR, decodeFields, ifZero, decodeCustom0, dec1, dec2,
    dec3, reg4_r4, decodeRegion, decodePointer, extract_pack, extract_append_low, extract_append_high, extract_all,
    -Nat.reduceAdd]

theorem RoundTrip.qPush (s : Reg) : RoundTrip.Statement (.qPush s) := by
  intro _; right; simp (disch := decide) [encode, decode, decode32_mkR, decodeFields, ifZero, decodeCustom0, dec1, dec2,
    dec3, reg4_r4, decodeRegion, decodePointer, extract_pack, extract_append_low, extract_append_high, extract_all,
    -Nat.reduceAdd]

theorem RoundTrip.qPop (d : Reg) : RoundTrip.Statement (.qPop d) := by
  intro _; right; simp (disch := decide) [encode, decode, decode32_mkR, decodeFields, ifZero, decodeCustom0, dec1, dec2,
    dec3, reg4_r4, decodeRegion, decodePointer, extract_pack, extract_append_low, extract_append_high, extract_all,
    -Nat.reduceAdd]

theorem RoundTrip.qCnt (d : Reg) (q : Reg) : RoundTrip.Statement (.qCnt d q) := by
  intro _; right; simp (disch := decide) [encode, decode, decode32_mkR, decodeFields, ifZero, decodeCustom0, dec1, dec2,
    dec3, reg4_r4, decodeRegion, decodePointer, extract_pack, extract_append_low, extract_append_high, extract_all,
    -Nat.reduceAdd]

theorem RoundTrip.paPeer (d : Reg) (a : Reg) (o : Reg) : RoundTrip.Statement (.paPeer d a o) := by
  intro _; right; simp (disch := decide) [encode, decode, decode32_mkR, decodeFields, ifZero, decodeCustom0, dec1, dec2,
    dec3, reg4_r4, decodeRegion, decodePointer, extract_pack, extract_append_low, extract_append_high, extract_all,
    -Nat.reduceAdd]

theorem RoundTrip.gFuse (n : Reg) : RoundTrip.Statement (.gFuse n) := by
  intro _; right; simp (disch := decide) [encode, decode, decode32_mkR, decodeFields, ifZero, decodeCustom0, dec1, dec2,
    dec3, reg4_r4, decodeRegion, decodePointer, extract_pack, extract_append_low, extract_append_high, extract_all,
    -Nat.reduceAdd]

theorem RoundTrip.tkTake (d : Reg) (n : Reg) : RoundTrip.Statement (.tkTake d n) := by
  intro _; right; simp (disch := decide) [encode, decode, decode32_mkR, decodeFields, ifZero, decodeCustom0, dec1, dec2,
    dec3, reg4_r4, decodeRegion, decodePointer, extract_pack, extract_append_low, extract_append_high, extract_all,
    -Nat.reduceAdd]

theorem RoundTrip.tkClr (n : Reg) (b : Reg) : RoundTrip.Statement (.tkClr n b) := by
  intro _; right; simp (disch := decide) [encode, decode, decode32_mkR, decodeFields, ifZero, decodeCustom0, dec1, dec2,
    dec3, reg4_r4, decodeRegion, decodePointer, extract_pack, extract_append_low, extract_append_high, extract_all,
    -Nat.reduceAdd]

theorem RoundTrip.tkQs (d : Reg) (n : Reg) : RoundTrip.Statement (.tkQs d n) := by
  intro _; right; simp (disch := decide) [encode, decode, decode32_mkR, decodeFields, ifZero, decodeCustom0, dec1, dec2,
    dec3, reg4_r4, decodeRegion, decodePointer, extract_pack, extract_append_low, extract_append_high, extract_all,
    -Nat.reduceAdd]

theorem RoundTrip.lpSet (a : Reg) (b : Reg) : RoundTrip.Statement (.lpSet a b) := by
  intro _; right; simp (disch := decide) [encode, decode, decode32_mkR, decodeFields, ifZero, decodeCustom0, dec1, dec2,
    dec3, reg4_r4, mkQ, decodeLoop, decodeSkiver, extract_pack, extract_append_low, extract_append_high, extract_all,
    -Nat.reduceAdd]

theorem RoundTrip.lpStep (i : Reg) (f : Reg) (c : Reg) : RoundTrip.Statement (.lpStep i f c) := by
  intro _; right; simp (disch := decide) [encode, decode, decode32_mkR, decodeFields, ifZero, decodeCustom0, dec1, dec2,
    dec3, reg4_r4, mkQ, decodeLoop, decodeSkiver, extract_pack, extract_append_low, extract_append_high, extract_all,
    -Nat.reduceAdd]

theorem RoundTrip.lpCnt (d : Reg) : RoundTrip.Statement (.lpCnt d) := by
  intro _; right; simp (disch := decide) [encode, decode, decode32_mkR, decodeFields, ifZero, decodeCustom0, dec1, dec2,
    dec3, reg4_r4, mkQ, decodeLoop, decodeSkiver, extract_pack, extract_append_low, extract_append_high, extract_all,
    -Nat.reduceAdd]

theorem RoundTrip.ovSet (a : Reg) (b : Reg) (t : Reg4) (c : Reg) : RoundTrip.Statement (.ovSet a b t c) := by
  intro _; right; simp (disch := decide) [encode, decode, decode32_mkR, decodeFields, ifZero, decodeCustom0, dec1, dec2,
    dec3, reg4_r4, mkQ, decodeLoop, decodeSkiver, extract_pack, extract_append_low, extract_append_high, extract_all,
    -Nat.reduceAdd]

theorem RoundTrip.ovDecl (x : Reg4) : RoundTrip.Statement (.ovDecl x) := by
  intro _; right; simp (disch := decide) [encode, decode, decode32_mkR, decodeFields, ifZero, decodeCustom0, dec1, dec2,
    dec3, reg4_r4, mkQ, decodeLoop, decodeSkiver, extract_pack, extract_append_low, extract_append_high, extract_all,
    -Nat.reduceAdd]

theorem RoundTrip.ovStat (d : Reg) : RoundTrip.Statement (.ovStat d) := by
  intro _; right; simp (disch := decide) [encode, decode, decode32_mkR, decodeFields, ifZero, decodeCustom0, dec1, dec2,
    dec3, reg4_r4, mkQ, decodeLoop, decodeSkiver, extract_pack, extract_append_low, extract_append_high, extract_all,
    -Nat.reduceAdd]

theorem RoundTrip.ovCov (d : Reg) (x : Reg4) : RoundTrip.Statement (.ovCov d x) := by
  intro _; right; simp (disch := decide) [encode, decode, decode32_mkR, decodeFields, ifZero, decodeCustom0, dec1, dec2,
    dec3, reg4_r4, mkQ, decodeLoop, decodeSkiver, extract_pack, extract_append_low, extract_append_high, extract_all,
    -Nat.reduceAdd]

theorem RoundTrip.mxK8k8 (acd : AccReg) (a : Reg) (b : Reg) (m : MxMode) (f : Reg) : RoundTrip.Statement (.mxK8k8 acd a
  b m f) := by
  intro _; right; simp (disch := decide) [encode, decode, decode32_mkR, decodeFields, ifZero, mkM, decodeCustom1,
    mxMode_code, extract_pack, extract_append_low, extract_append_high, extract_all, -Nat.reduceAdd]

theorem RoundTrip.mxK4k4 (acd : AccReg) (a : Reg) (b : Reg) (m : MxMode) (f : Reg) : RoundTrip.Statement (.mxK4k4 acd a
  b m f) := by
  intro _; right; simp (disch := decide) [encode, decode, decode32_mkR, decodeFields, ifZero, mkM, decodeCustom1,
    mxMode_code, extract_pack, extract_append_low, extract_append_high, extract_all, -Nat.reduceAdd]

theorem RoundTrip.mxK8k4 (acd : AccReg) (a : Reg) (b : Reg) (m : MxMode) (f : Reg) : RoundTrip.Statement (.mxK8k4 acd a
  b m f) := by
  intro _; right; simp (disch := decide) [encode, decode, decode32_mkR, decodeFields, ifZero, mkM, decodeCustom1,
    mxMode_code, extract_pack, extract_append_low, extract_append_high, extract_all, -Nat.reduceAdd]

theorem RoundTrip.mxK4k8 (acd : AccReg) (a : Reg) (b : Reg) (m : MxMode) (f : Reg) : RoundTrip.Statement (.mxK4k8 acd a
  b m f) := by
  intro _; right; simp (disch := decide) [encode, decode, decode32_mkR, decodeFields, ifZero, mkM, decodeCustom1,
    mxMode_code, extract_pack, extract_append_low, extract_append_high, extract_all, -Nat.reduceAdd]

theorem RoundTrip.mxI8i8 (acd : AccReg) (a : Reg) (b : Reg) (m : MxMode) (f : Reg) : RoundTrip.Statement (.mxI8i8 acd a
  b m f) := by
  intro _; right; simp (disch := decide) [encode, decode, decode32_mkR, decodeFields, ifZero, mkM, decodeCustom1,
    mxMode_code, extract_pack, extract_append_low, extract_append_high, extract_all, -Nat.reduceAdd]

theorem RoundTrip.mxI4i4 (acd : AccReg) (a : Reg) (b : Reg) (m : MxMode) (f : Reg) : RoundTrip.Statement (.mxI4i4 acd a
  b m f) := by
  intro _; right; simp (disch := decide) [encode, decode, decode32_mkR, decodeFields, ifZero, mkM, decodeCustom1,
    mxMode_code, extract_pack, extract_append_low, extract_append_high, extract_all, -Nat.reduceAdd]

theorem RoundTrip.mxF16f16 (acd : AccReg) (a : Reg) (b : Reg) (m : MxMode) (f : Reg) : RoundTrip.Statement (.mxF16f16
  acd a b m f) := by
  intro _; right; simp (disch := decide) [encode, decode, decode32_mkR, decodeFields, ifZero, mkM, decodeCustom1,
    mxMode_code, extract_pack, extract_append_low, extract_append_high, extract_all, -Nat.reduceAdd]

theorem RoundTrip.mxB16b16 (acd : AccReg) (a : Reg) (b : Reg) (m : MxMode) (f : Reg) : RoundTrip.Statement (.mxB16b16
  acd a b m f) := by
  intro _; right; simp (disch := decide) [encode, decode, decode32_mkR, decodeFields, ifZero, mkM, decodeCustom1,
    mxMode_code, extract_pack, extract_append_low, extract_append_high, extract_all, -Nat.reduceAdd]

theorem RoundTrip.jointProductStart (core : Nat) : RoundTrip.Statement (.jointProductStart core) := fun _ => .inl rfl

theorem RoundTrip.lAqB (d : Reg) (a : Reg) (s : Scope) : RoundTrip.Statement (.lAqB d a s) := by
  intro _; right; simp (disch := decide) [encode, decode, decode32_mkR, decodeFields, ifZero, mkC, decodeCustom2,
    decodeAcquire, decScope, scope_code, scope_stream, extract_pack, extract_append_low, extract_append_high,
    extract_all, -Nat.reduceAdd]

theorem RoundTrip.lAqH (d : Reg) (a : Reg) (s : Scope) : RoundTrip.Statement (.lAqH d a s) := by
  intro _; right; simp (disch := decide) [encode, decode, decode32_mkR, decodeFields, ifZero, mkC, decodeCustom2,
    decodeAcquire, decScope, scope_code, scope_stream, extract_pack, extract_append_low, extract_append_high,
    extract_all, -Nat.reduceAdd]

theorem RoundTrip.lAqW (d : Reg) (a : Reg) (s : Scope) : RoundTrip.Statement (.lAqW d a s) := by
  intro _; right; simp (disch := decide) [encode, decode, decode32_mkR, decodeFields, ifZero, mkC, decodeCustom2,
    decodeAcquire, decScope, scope_code, scope_stream, extract_pack, extract_append_low, extract_append_high,
    extract_all, -Nat.reduceAdd]

theorem RoundTrip.lAqD (d : Reg) (a : Reg) (s : Scope) : RoundTrip.Statement (.lAqD d a s) := by
  intro _; right; simp (disch := decide) [encode, decode, decode32_mkR, decodeFields, ifZero, mkC, decodeCustom2,
    decodeAcquire, decScope, scope_code, scope_stream, extract_pack, extract_append_low, extract_append_high,
    extract_all, -Nat.reduceAdd]

theorem RoundTrip.lAqBu (d : Reg) (a : Reg) (s : Scope) : RoundTrip.Statement (.lAqBu d a s) := by
  intro _; right; simp (disch := decide) [encode, decode, decode32_mkR, decodeFields, ifZero, mkC, decodeCustom2,
    decodeAcquire, decScope, scope_code, scope_stream, extract_pack, extract_append_low, extract_append_high,
    extract_all, -Nat.reduceAdd]

theorem RoundTrip.lAqHu (d : Reg) (a : Reg) (s : Scope) : RoundTrip.Statement (.lAqHu d a s) := by
  intro _; right; simp (disch := decide) [encode, decode, decode32_mkR, decodeFields, ifZero, mkC, decodeCustom2,
    decodeAcquire, decScope, scope_code, scope_stream, extract_pack, extract_append_low, extract_append_high,
    extract_all, -Nat.reduceAdd]

theorem RoundTrip.lAqWu (d : Reg) (a : Reg) (s : Scope) : RoundTrip.Statement (.lAqWu d a s) := by
  intro _; right; simp (disch := decide) [encode, decode, decode32_mkR, decodeFields, ifZero, mkC, decodeCustom2,
    decodeAcquire, decScope, scope_code, scope_stream, extract_pack, extract_append_low, extract_append_high,
    extract_all, -Nat.reduceAdd]

theorem RoundTrip.tLd (d : Reg) (t : Reg4) (c : Reg) : RoundTrip.Statement (.tLd d t c) := by
  intro _; right; simp (disch := decide) [encode, decode, decode32_mkR, decodeFields, ifZero, mkC, decodeCustom2,
    decodeAcquire, decScope, scope_code, scope_stream, dec1, reg4_r4, extract_pack, extract_append_low,
    extract_append_high, extract_all, -Nat.reduceAdd]

theorem RoundTrip.sRlB (v : Reg) (a : Reg) (s : Scope) : RoundTrip.Statement (.sRlB v a s) := by
  intro _; right; simp (disch := decide) [encode, decode, decode32_mkR, decodeFields, ifZero, mkC, decodeCustom2,
    decodeRelease, decScope, scope_code, scope_stream, extract_pack, extract_append_low, extract_append_high,
    extract_all, -Nat.reduceAdd]

theorem RoundTrip.sRlH (v : Reg) (a : Reg) (s : Scope) : RoundTrip.Statement (.sRlH v a s) := by
  intro _; right; simp (disch := decide) [encode, decode, decode32_mkR, decodeFields, ifZero, mkC, decodeCustom2,
    decodeRelease, decScope, scope_code, scope_stream, extract_pack, extract_append_low, extract_append_high,
    extract_all, -Nat.reduceAdd]

theorem RoundTrip.sRlW (v : Reg) (a : Reg) (s : Scope) : RoundTrip.Statement (.sRlW v a s) := by
  intro _; right; simp (disch := decide) [encode, decode, decode32_mkR, decodeFields, ifZero, mkC, decodeCustom2,
    decodeRelease, decScope, scope_code, scope_stream, extract_pack, extract_append_low, extract_append_high,
    extract_all, -Nat.reduceAdd]

theorem RoundTrip.sRlD (v : Reg) (a : Reg) (s : Scope) : RoundTrip.Statement (.sRlD v a s) := by
  intro _; right; simp (disch := decide) [encode, decode, decode32_mkR, decodeFields, ifZero, mkC, decodeCustom2,
    decodeRelease, decScope, scope_code, scope_stream, extract_pack, extract_append_low, extract_append_high,
    extract_all, -Nat.reduceAdd]

theorem RoundTrip.tSt (v : Reg) (t : Reg4) (c : Reg) : RoundTrip.Statement (.tSt v t c) := by
  intro _; right; simp (disch := decide) [encode, decode, decode32_mkR, decodeFields, ifZero, mkC, decodeCustom2,
    decodeRelease, decScope, scope_code, scope_stream, dec1, reg4_r4, extract_pack, extract_append_low,
    extract_append_high, extract_all, -Nat.reduceAdd]

theorem RoundTrip.feFull (s : Scope) : RoundTrip.Statement (.feFull s) := by
  intro _; right; simp (disch := decide) [encode, decode, decode32_mkR, decodeFields, ifZero, mkC, decodeCustom2,
    decodeFence, decScope, scope_code, scope_stream, extract_pack, extract_append_low, extract_append_high,
    extract_all, -Nat.reduceAdd]

theorem RoundTrip.feAcq (s : Scope) : RoundTrip.Statement (.feAcq s) := by
  intro _; right; simp (disch := decide) [encode, decode, decode32_mkR, decodeFields, ifZero, mkC, decodeCustom2,
    decodeFence, decScope, scope_code, scope_stream, extract_pack, extract_append_low, extract_append_high,
    extract_all, -Nat.reduceAdd]

theorem RoundTrip.feRel (s : Scope) : RoundTrip.Statement (.feRel s) := by
  intro _; right; simp (disch := decide) [encode, decode, decode32_mkR, decodeFields, ifZero, mkC, decodeCustom2,
    decodeFence, decScope, scope_code, scope_stream, extract_pack, extract_append_low, extract_append_high,
    extract_all, -Nat.reduceAdd]

theorem RoundTrip.amAdd (d : Reg) (v : Reg) (a : Reg) (s : Scope) : RoundTrip.Statement (.amAdd d v a s) := by
  intro _; right; simp (disch := decide) [encode, decode, decode32_mkR, decodeFields, ifZero, mkC, decodeCustom2,
    decodeAtomic, decScope, scope_code, scope_stream, extract_pack, extract_append_low, extract_append_high,
    extract_all, -Nat.reduceAdd]

theorem RoundTrip.amMin (d : Reg) (v : Reg) (a : Reg) (s : Scope) : RoundTrip.Statement (.amMin d v a s) := by
  intro _; right; simp (disch := decide) [encode, decode, decode32_mkR, decodeFields, ifZero, mkC, decodeCustom2,
    decodeAtomic, decScope, scope_code, scope_stream, extract_pack, extract_append_low, extract_append_high,
    extract_all, -Nat.reduceAdd]

theorem RoundTrip.amMax (d : Reg) (v : Reg) (a : Reg) (s : Scope) : RoundTrip.Statement (.amMax d v a s) := by
  intro _; right; simp (disch := decide) [encode, decode, decode32_mkR, decodeFields, ifZero, mkC, decodeCustom2,
    decodeAtomic, decScope, scope_code, scope_stream, extract_pack, extract_append_low, extract_append_high,
    extract_all, -Nat.reduceAdd]

theorem RoundTrip.amAnd (d : Reg) (v : Reg) (a : Reg) (s : Scope) : RoundTrip.Statement (.amAnd d v a s) := by
  intro _; right; simp (disch := decide) [encode, decode, decode32_mkR, decodeFields, ifZero, mkC, decodeCustom2,
    decodeAtomic, decScope, scope_code, scope_stream, extract_pack, extract_append_low, extract_append_high,
    extract_all, -Nat.reduceAdd]

theorem RoundTrip.amOr (d : Reg) (v : Reg) (a : Reg) (s : Scope) : RoundTrip.Statement (.amOr d v a s) := by
  intro _; right; simp (disch := decide) [encode, decode, decode32_mkR, decodeFields, ifZero, mkC, decodeCustom2,
    decodeAtomic, decScope, scope_code, scope_stream, extract_pack, extract_append_low, extract_append_high,
    extract_all, -Nat.reduceAdd]

theorem RoundTrip.amXor (d : Reg) (v : Reg) (a : Reg) (s : Scope) : RoundTrip.Statement (.amXor d v a s) := by
  intro _; right; simp (disch := decide) [encode, decode, decode32_mkR, decodeFields, ifZero, mkC, decodeCustom2,
    decodeAtomic, decScope, scope_code, scope_stream, extract_pack, extract_append_low, extract_append_high,
    extract_all, -Nat.reduceAdd]

theorem RoundTrip.amSwp (d : Reg) (v : Reg) (a : Reg) (s : Scope) : RoundTrip.Statement (.amSwp d v a s) := by
  intro _; right; simp (disch := decide) [encode, decode, decode32_mkR, decodeFields, ifZero, mkC, decodeCustom2,
    decodeAtomic, decScope, scope_code, scope_stream, extract_pack, extract_append_low, extract_append_high,
    extract_all, -Nat.reduceAdd]

theorem RoundTrip.amCas (d : Reg) (e : Reg) (a : Reg) (s : Scope) : RoundTrip.Statement (.amCas d e a s) := by
  intro _; right; simp (disch := decide) [encode, decode, decode32_mkR, decodeFields, ifZero, mkC, decodeCustom2,
    decodeAtomic, decScope, scope_code, scope_stream, extract_pack, extract_append_low, extract_append_high,
    extract_all, -Nat.reduceAdd]

theorem RoundTrip.amAddn (v : Reg) (a : Reg) (s : Scope) : RoundTrip.Statement (.amAddn v a s) := by
  intro _; right; simp (disch := decide) [encode, decode, decode32_mkR, decodeFields, ifZero, mkC, decodeCustom2,
    decodeAtomicN, decScope, scope_code, scope_stream, extract_pack, extract_append_low, extract_append_high,
    extract_all, -Nat.reduceAdd]

theorem RoundTrip.amMinn (v : Reg) (a : Reg) (s : Scope) : RoundTrip.Statement (.amMinn v a s) := by
  intro _; right; simp (disch := decide) [encode, decode, decode32_mkR, decodeFields, ifZero, mkC, decodeCustom2,
    decodeAtomicN, decScope, scope_code, scope_stream, extract_pack, extract_append_low, extract_append_high,
    extract_all, -Nat.reduceAdd]

theorem RoundTrip.amMaxn (v : Reg) (a : Reg) (s : Scope) : RoundTrip.Statement (.amMaxn v a s) := by
  intro _; right; simp (disch := decide) [encode, decode, decode32_mkR, decodeFields, ifZero, mkC, decodeCustom2,
    decodeAtomicN, decScope, scope_code, scope_stream, extract_pack, extract_append_low, extract_append_high,
    extract_all, -Nat.reduceAdd]

theorem RoundTrip.amAndn (v : Reg) (a : Reg) (s : Scope) : RoundTrip.Statement (.amAndn v a s) := by
  intro _; right; simp (disch := decide) [encode, decode, decode32_mkR, decodeFields, ifZero, mkC, decodeCustom2,
    decodeAtomicN, decScope, scope_code, scope_stream, extract_pack, extract_append_low, extract_append_high,
    extract_all, -Nat.reduceAdd]

theorem RoundTrip.amOrn (v : Reg) (a : Reg) (s : Scope) : RoundTrip.Statement (.amOrn v a s) := by
  intro _; right; simp (disch := decide) [encode, decode, decode32_mkR, decodeFields, ifZero, mkC, decodeCustom2,
    decodeAtomicN, decScope, scope_code, scope_stream, extract_pack, extract_append_low, extract_append_high,
    extract_all, -Nat.reduceAdd]

theorem RoundTrip.amXorn (v : Reg) (a : Reg) (s : Scope) : RoundTrip.Statement (.amXorn v a s) := by
  intro _; right; simp (disch := decide) [encode, decode, decode32_mkR, decodeFields, ifZero, mkC, decodeCustom2,
    decodeAtomicN, decScope, scope_code, scope_stream, extract_pack, extract_append_low, extract_append_high,
    extract_all, -Nat.reduceAdd]

theorem RoundTrip.amFadd (d : Reg) (v : Reg) (a : Reg) (s : Scope) : RoundTrip.Statement (.amFadd d v a s) := by
  intro _; right; simp (disch := decide) [encode, decode, decode32_mkR, decodeFields, ifZero, mkC, decodeCustom2,
    decodeAtomicN, decScope, scope_code, scope_stream, extract_pack, extract_append_low, extract_append_high,
    extract_all, -Nat.reduceAdd]

theorem RoundTrip.amFaddn (v : Reg) (a : Reg) (s : Scope) : RoundTrip.Statement (.amFaddn v a s) := by
  intro _; right; simp (disch := decide) [encode, decode, decode32_mkR, decodeFields, ifZero, mkC, decodeCustom2,
    decodeAtomicN, decScope, scope_code, scope_stream, extract_pack, extract_append_low, extract_append_high,
    extract_all, -Nat.reduceAdd]

theorem RoundTrip.wtCh (d : Reg) (v : Reg) (a : Reg) (s : Scope) : RoundTrip.Statement (.wtCh d v a s) := by
  intro _; right; simp (disch := decide) [encode, decode, decode32_mkR, decodeFields, ifZero, mkC, decodeCustom2,
    decodeWait, decScope, scope_code, scope_stream, extract_pack, extract_append_low, extract_append_high,
    extract_all, -Nat.reduceAdd]

theorem RoundTrip.monitorWake (core : Nat) : RoundTrip.Statement (.monitorWake core) := fun _ => .inl rfl

theorem RoundTrip.mvBlk (d : Reg) (s : Reg) (n : Reg) : RoundTrip.Statement (.mvBlk d s n) := by
  intro _; right; simp (disch := decide) [encode, decode, decode32_mkR, decodeFields, ifZero, mkC, decodeCustom2,
    decodeWait, decScope, scope_code, scope_stream, extract_pack, extract_append_low, extract_append_high,
    extract_all, -Nat.reduceAdd]

theorem RoundTrip.rep (c : Reg) (a : Reg) : RoundTrip.Statement (.rep c a) := by
  intro _; right; simp (disch := decide) [encode, decode, decode32_mkR, decodeFields, ifZero, mkC, decodeCustom2,
    decodeWait, decScope, scope_code, scope_stream, extract_pack, extract_append_low, extract_append_high,
    extract_all, -Nat.reduceAdd]

theorem RoundTrip.icPf (l : Reg) (s : Reg) (n : Reg) : RoundTrip.Statement (.icPf l s n) := by
  intro _; right; simp (disch := decide) [encode, decode, decode32_mkR, decodeFields, ifZero, mkC, decodeCustom2,
    decodeWait, decScope, scope_code, scope_stream, extract_pack, extract_append_low, extract_append_high,
    extract_all, -Nat.reduceAdd]

theorem RoundTrip.icPin (l : Reg) (s : Reg) (n : Reg) : RoundTrip.Statement (.icPin l s n) := by
  intro _; right; simp (disch := decide) [encode, decode, decode32_mkR, decodeFields, ifZero, mkC, decodeCustom2,
    decodeWait, decScope, scope_code, scope_stream, extract_pack, extract_append_low, extract_append_high,
    extract_all, -Nat.reduceAdd]

theorem RoundTrip.icUnpin (l : Reg) (s : Reg) (n : Reg) : RoundTrip.Statement (.icUnpin l s n) := by
  intro _; right; simp (disch := decide) [encode, decode, decode32_mkR, decodeFields, ifZero, mkC, decodeCustom2,
    decodeWait, decScope, scope_code, scope_stream, extract_pack, extract_append_low, extract_append_high,
    extract_all, -Nat.reduceAdd]

theorem RoundTrip.evWait (d : Reg) (s : Reg) : RoundTrip.Statement (.evWait d s) := by
  intro _; right; simp (disch := decide) [encode, decode, decode32_mkR, decodeFields, ifZero, mkC, decodeCustom2,
    decodeEvent, decScope, scope_code, scope_stream, extract_pack, extract_append_low, extract_append_high,
    extract_all, -Nat.reduceAdd]

theorem RoundTrip.evFire (s : Reg) : RoundTrip.Statement (.evFire s) := by
  intro _; right; simp (disch := decide) [encode, decode, decode32_mkR, decodeFields, ifZero, mkC, decodeCustom2,
    decodeEvent, decScope, scope_code, scope_stream, extract_pack, extract_append_low, extract_append_high,
    extract_all, -Nat.reduceAdd]

theorem RoundTrip.evBar (d : Reg) (s : Reg) : RoundTrip.Statement (.evBar d s) := by
  intro _; right; simp (disch := decide) [encode, decode, decode32_mkR, decodeFields, ifZero, mkC, decodeCustom2,
    decodeEvent, decScope, scope_code, scope_stream, extract_pack, extract_append_low, extract_append_high,
    extract_all, -Nat.reduceAdd]

theorem RoundTrip.evLock (s : Reg) : RoundTrip.Statement (.evLock s) := by
  intro _; right; simp (disch := decide) [encode, decode, decode32_mkR, decodeFields, ifZero, mkC, decodeCustom2,
    decodeEvent, decScope, scope_code, scope_stream, extract_pack, extract_append_low, extract_append_high,
    extract_all, -Nat.reduceAdd]

theorem RoundTrip.evUnlock (s : Reg) : RoundTrip.Statement (.evUnlock s) := by
  intro _; right; simp (disch := decide) [encode, decode, decode32_mkR, decodeFields, ifZero, mkC, decodeCustom2,
    decodeEvent, decScope, scope_code, scope_stream, extract_pack, extract_append_low, extract_append_high,
    extract_all, -Nat.reduceAdd]

theorem RoundTrip.evCadd (d : Reg) (c : Reg) (v : Reg) : RoundTrip.Statement (.evCadd d c v) := by
  intro _; right; simp (disch := decide) [encode, decode, decode32_mkR, decodeFields, ifZero, mkC, decodeCustom2,
    decodeEvent, decScope, scope_code, scope_stream, extract_pack, extract_append_low, extract_append_high,
    extract_all, -Nat.reduceAdd]

theorem RoundTrip.evArm (c : Reg) (t : Reg) : RoundTrip.Statement (.evArm c t) := by
  intro _; right; simp (disch := decide) [encode, decode, decode32_mkR, decodeFields, ifZero, mkC, decodeCustom2,
    decodeEvent, decScope, scope_code, scope_stream, extract_pack, extract_append_low, extract_append_high,
    extract_all, -Nat.reduceAdd]

theorem RoundTrip.evMsg (t : Reg) (w : Reg) : RoundTrip.Statement (.evMsg t w) := by
  intro _; right; simp (disch := decide) [encode, decode, decode32_mkR, decodeFields, ifZero, mkC, decodeCustom2,
    decodeEvent, decScope, scope_code, scope_stream, extract_pack, extract_append_low, extract_append_high,
    extract_all, -Nat.reduceAdd]

theorem RoundTrip.eventLineWordLoad (d : Reg) (line : Reg) : RoundTrip.Statement (.eventLineWordLoad d line) := fun _ =>
  .inl rfl

theorem RoundTrip.eventLineWordStore (line : Reg) : RoundTrip.Statement (.eventLineWordStore line) := fun _ => .inl rfl

theorem RoundTrip.tsSpawn (d : Reg) (a : Reg) (b : Reg) (c : Reg) : RoundTrip.Statement (.tsSpawn d a b c) := by
  intro _; right; simp (disch := decide) [encode, decode, decode32_mkR, decodeFields, ifZero, mkQ, decodeCustom2,
    decodeTask, extract_pack, extract_append_low, extract_append_high, extract_all, -Nat.reduceAdd]

theorem RoundTrip.tsWeight (d : Reg) : RoundTrip.Statement (.tsWeight d) := by
  intro _; right; simp (disch := decide) [encode, decode, decode32_mkR, decodeFields, ifZero, mkQ, decodeCustom2,
    decodeTask, extract_pack, extract_append_low, extract_append_high, extract_all, -Nat.reduceAdd]

theorem RoundTrip.fuNew (d : Reg) : RoundTrip.Statement (.fuNew d) := by
  intro _; right; simp (disch := decide) [encode, decode, decode32_mkR, decodeFields, ifZero, mkQ, decodeCustom2,
    decodeTask, extract_pack, extract_append_low, extract_append_high, extract_all, -Nat.reduceAdd]

theorem RoundTrip.fuSet (h : Reg) (v : Reg) : RoundTrip.Statement (.fuSet h v) := by
  intro _; right; simp (disch := decide) [encode, decode, decode32_mkR, decodeFields, ifZero, mkQ, decodeCustom2,
    decodeTask, extract_pack, extract_append_low, extract_append_high, extract_all, -Nat.reduceAdd]

theorem RoundTrip.fuGet (d : Reg) (h : Reg) : RoundTrip.Statement (.fuGet d h) := by
  intro _; right; simp (disch := decide) [encode, decode, decode32_mkR, decodeFields, ifZero, mkQ, decodeCustom2,
    decodeTask, extract_pack, extract_append_low, extract_append_high, extract_all, -Nat.reduceAdd]

theorem RoundTrip.fuPoll (d : Reg) (h : Reg) : RoundTrip.Statement (.fuPoll d h) := by
  intro _; right; simp (disch := decide) [encode, decode, decode32_mkR, decodeFields, ifZero, mkQ, decodeCustom2,
    decodeTask, extract_pack, extract_append_low, extract_append_high, extract_all, -Nat.reduceAdd]

theorem RoundTrip.fuDrop (h : Reg) : RoundTrip.Statement (.fuDrop h) := by
  intro _; right; simp (disch := decide) [encode, decode, decode32_mkR, decodeFields, ifZero, mkQ, decodeCustom2,
    decodeTask, extract_pack, extract_append_low, extract_append_high, extract_all, -Nat.reduceAdd]

theorem RoundTrip.engineIssue (e : BitVec 3) (index : BitVec 12) (a : Reg) (b : Reg) : RoundTrip.Statement (.engineIssue
  e index a b) := roundTrip_issue e index a b

theorem RoundTrip.sqRd (d : Reg) (i : Reg) : RoundTrip.Statement (.sqRd d i) := by
  intro _; right; simp (disch := decide) [encode, decode, decode32_mkR, decodeFields, ifZero, decodeCustom3, join_imm12,
    extract_pack, extract_append_low, extract_append_high, extract_all, -Nat.reduceAdd]

theorem RoundTrip.polSwap (a : Reg) : RoundTrip.Statement (.polSwap a) := by
  intro _; right; simp (disch := decide) [encode, decode, decode32_mkR, decodeFields, ifZero, decodeCustom3, join_imm12,
    extract_pack, extract_append_low, extract_append_high, extract_all, -Nat.reduceAdd]

theorem RoundTrip.migBegin (a : Reg) (l : Reg) : RoundTrip.Statement (.migBegin a l) := by
  intro _; right; simp (disch := decide) [encode, decode, decode32_mkR, decodeFields, ifZero, decodeCustom3, join_imm12,
    extract_pack, extract_append_low, extract_append_high, extract_all, -Nat.reduceAdd]

theorem RoundTrip.migEnd (a : Reg) (l : Reg) : RoundTrip.Statement (.migEnd a l) := by
  intro _; right; simp (disch := decide) [encode, decode, decode32_mkR, decodeFields, ifZero, decodeCustom3, join_imm12,
    extract_pack, extract_append_low, extract_append_high, extract_all, -Nat.reduceAdd]

theorem RoundTrip.tlbInv (a : Reg) (l : Reg) : RoundTrip.Statement (.tlbInv a l) := by
  intro _; right; simp (disch := decide) [encode, decode, decode32_mkR, decodeFields, ifZero, decodeCustom3, join_imm12,
    extract_pack, extract_append_low, extract_append_high, extract_all, -Nat.reduceAdd]

theorem RoundTrip.svScrub (c : Reg) : RoundTrip.Statement (.svScrub c) := by
  intro _; right; simp (disch := decide) [encode, decode, decode32_mkR, decodeFields, ifZero, decodeCustom3, join_imm12,
    extract_pack, extract_append_low, extract_append_high, extract_all, -Nat.reduceAdd]

theorem RoundTrip.svHalt (c : Reg) : RoundTrip.Statement (.svHalt c) := by
  intro _; right; simp (disch := decide) [encode, decode, decode32_mkR, decodeFields, ifZero, decodeCustom3, join_imm12,
    extract_pack, extract_append_low, extract_append_high, extract_all, -Nat.reduceAdd]

theorem RoundTrip.scalarLoad (op : LoadOp) (rd : Reg) (rs1 : Reg) (imm : BitVec 12) : RoundTrip.Statement (.scalarLoad
  op rd rs1 imm) := by
  intro _; right; cases op <;> simp (disch := decide) [encode, decode, decode32_mkR, decodeFields, ifZero, mkI, mkS,
    join_imm12, join_pred, decodeLoad, decodeStore, decodeMiscMem, decodeSystem, LoadOp.code, extract_pack,
    extract_append_low, extract_append_high, extract_all, -Nat.reduceAdd]

theorem RoundTrip.scalarStore (op : StoreOp) (rs2 : Reg) (rs1 : Reg) (imm : BitVec 12) : RoundTrip.Statement
  (.scalarStore op rs2 rs1 imm) := by
  intro _; right; cases op <;> simp (disch := decide) [encode, decode, decode32_mkR, decodeFields, ifZero, mkI, mkS,
    join_imm12, join_pred, decodeLoad, decodeStore, decodeMiscMem, decodeSystem, StoreOp.code, extract_pack,
    extract_append_low, extract_append_high, extract_all, -Nat.reduceAdd]

theorem RoundTrip.rv64Compute (i : RvInstr) : RoundTrip.Statement (.rv64Compute i) := roundTrip_rv i

theorem RoundTrip.fence (fm : BitVec 4) (pred : BitVec 4) (succ : BitVec 4) (rd : Reg) (rs1 : Reg) : RoundTrip.Statement
  (.fence fm pred succ rd rs1) := by
  intro _; right; simp (disch := decide) [encode, decode, decode32_mkR, decodeFields, ifZero, mkI, mkS, join_imm12,
    join_pred, decodeLoad, decodeStore, decodeMiscMem, decodeSystem, extract_pack, extract_append_low,
    extract_append_high, extract_all, -Nat.reduceAdd]

theorem RoundTrip.fenceI (imm : BitVec 12) (rd : Reg) (rs1 : Reg) : RoundTrip.Statement (.fenceI imm rd rs1) := by
  intro _; right; simp (disch := decide) [encode, decode, decode32_mkR, decodeFields, ifZero, mkI, mkS, join_imm12,
    join_pred, decodeLoad, decodeStore, decodeMiscMem, decodeSystem, extract_pack, extract_append_low,
    extract_append_high, extract_all, -Nat.reduceAdd]

theorem RoundTrip.csrAccess (op : CsrOp) (rd : Reg) (src : CsrSrc) (csr : BitVec 12) : RoundTrip.Statement (.csrAccess
  op rd src csr) := by
  intro _; right; cases op <;> cases src <;> simp (disch := decide) [encode, decode, decode32_mkR, decodeFields, ifZero,
    mkI, mkS, join_imm12, join_pred, decodeLoad, decodeStore, decodeMiscMem, decodeSystem, csrF3, CsrSrc.field,
    extract_pack, extract_append_low, extract_append_high, extract_all, -Nat.reduceAdd]

theorem RoundTrip.cpRg (o : CpRg) : RoundTrip.Statement (.cpRg o) := by
  intro h; right; simp (disch := decide) [encode, encRows, encMove, encTile, encInbox, encImage, decode, decodeCommand,
    parseCommand, head_mkW0, opcode_mkW0, echo_mkW0, copyOp?, cpRows?, matrixOp?, collectiveOp?, coMove?, mediaOp?,
    tileOp?, inboxOp?, flag_code, portSet_code, combine_code, codec_code, extract_pack, extract_append_low,
    extract_append_high, extract_all, h, -Nat.reduceAdd]

theorem RoundTrip.cpGx (o : CpRows) : RoundTrip.Statement (.cpGx o) := roundTrip_cpGx o

theorem RoundTrip.cpSx (o : CpRows) : RoundTrip.Statement (.cpSx o) := by
  intro h; right; simp (disch := decide) [encode, encRows, encMove, encTile, encInbox, encImage, decode, decodeCommand,
    parseCommand, head_mkW0, opcode_mkW0, echo_mkW0, copyOp?, cpRows?, matrixOp?, collectiveOp?, coMove?, mediaOp?,
    tileOp?, inboxOp?, flag_code, portSet_code, combine_code, codec_code, extract_pack, extract_append_low,
    extract_append_high, extract_all, h, -Nat.reduceAdd]

theorem RoundTrip.cpFill (o : CpFill) : RoundTrip.Statement (.cpFill o) := by
  intro h; right; simp (disch := decide) [encode, encRows, encMove, encTile, encInbox, encImage, decode, decodeCommand,
    parseCommand, head_mkW0, opcode_mkW0, echo_mkW0, copyOp?, cpRows?, matrixOp?, collectiveOp?, coMove?, mediaOp?,
    tileOp?, inboxOp?, flag_code, portSet_code, combine_code, codec_code, extract_pack, extract_append_low,
    extract_append_high, extract_all, h, -Nat.reduceAdd]

theorem RoundTrip.cpReg (o : CpReg) : RoundTrip.Statement (.cpReg o) := by
  intro h; right; simp (disch := decide) [encode, encRows, encMove, encTile, encInbox, encImage, decode, decodeCommand,
    parseCommand, head_mkW0, opcode_mkW0, echo_mkW0, copyOp?, cpRows?, matrixOp?, collectiveOp?, coMove?, mediaOp?,
    tileOp?, inboxOp?, flag_code, portSet_code, combine_code, codec_code, extract_pack, extract_append_low,
    extract_append_high, extract_all, h, -Nat.reduceAdd]

theorem RoundTrip.cpPf (o : CpPf) : RoundTrip.Statement (.cpPf o) := by
  intro h; right; simp (disch := decide) [encode, encRows, encMove, encTile, encInbox, encImage, decode, decodeCommand,
    parseCommand, head_mkW0, opcode_mkW0, echo_mkW0, copyOp?, cpRows?, matrixOp?, collectiveOp?, coMove?, mediaOp?,
    tileOp?, inboxOp?, flag_code, portSet_code, combine_code, codec_code, extract_pack, extract_append_low,
    extract_append_high, extract_all, h, -Nat.reduceAdd]

theorem RoundTrip.tileCellArrival (core : Nat) : RoundTrip.Statement (.tileCellArrival core) := fun _ => .inl rfl

theorem RoundTrip.inboxMessagePost (core : Nat) : RoundTrip.Statement (.inboxMessagePost core) := fun _ => .inl rfl

theorem RoundTrip.q1EntryPush (core : Nat) : RoundTrip.Statement (.q1EntryPush core) := fun _ => .inl rfl

theorem RoundTrip.vAdd (o : VOps) : RoundTrip.Statement (.vAdd o) := fun h => .inr (roundTrip_vector 0x001 .vAdd rfl
  (fun _ => rfl) rfl o h)

theorem RoundTrip.vSub (o : VOps) : RoundTrip.Statement (.vSub o) := fun h => .inr (roundTrip_vector 0x002 .vSub rfl
  (fun _ => rfl) rfl o h)

theorem RoundTrip.vMul (o : VOps) : RoundTrip.Statement (.vMul o) := fun h => .inr (roundTrip_vector 0x003 .vMul rfl
  (fun _ => rfl) rfl o h)

theorem RoundTrip.vFma (o : VOps) : RoundTrip.Statement (.vFma o) := fun h => .inr (roundTrip_vector 0x004 .vFma rfl
  (fun _ => rfl) rfl o h)

theorem RoundTrip.vMin (o : VOps) : RoundTrip.Statement (.vMin o) := fun h => .inr (roundTrip_vector 0x005 .vMin rfl
  (fun _ => rfl) rfl o h)

theorem RoundTrip.vMax (o : VOps) : RoundTrip.Statement (.vMax o) := fun h => .inr (roundTrip_vector 0x006 .vMax rfl
  (fun _ => rfl) rfl o h)

theorem RoundTrip.vAnd (o : VOps) : RoundTrip.Statement (.vAnd o) := fun h => .inr (roundTrip_vector 0x008 .vAnd rfl
  (fun _ => rfl) rfl o h)

theorem RoundTrip.vOr (o : VOps) : RoundTrip.Statement (.vOr o) := fun h => .inr (roundTrip_vector 0x009 .vOr rfl (fun _
  => rfl) rfl o h)

theorem RoundTrip.vXor (o : VOps) : RoundTrip.Statement (.vXor o) := fun h => .inr (roundTrip_vector 0x00A .vXor rfl
  (fun _ => rfl) rfl o h)

theorem RoundTrip.vShl (o : VOps) : RoundTrip.Statement (.vShl o) := fun h => .inr (roundTrip_vector 0x00B .vShl rfl
  (fun _ => rfl) rfl o h)

theorem RoundTrip.vShr (o : VOps) : RoundTrip.Statement (.vShr o) := fun h => .inr (roundTrip_vector 0x00C .vShr rfl
  (fun _ => rfl) rfl o h)

theorem RoundTrip.vCmpEq (o : VOps) : RoundTrip.Statement (.vCmpEq o) := fun h => .inr (roundTrip_vector 0x010 .vCmpEq
  rfl (fun _ => rfl) rfl o h)

theorem RoundTrip.vCmpLt (o : VOps) : RoundTrip.Statement (.vCmpLt o) := fun h => .inr (roundTrip_vector 0x011 .vCmpLt
  rfl (fun _ => rfl) rfl o h)

theorem RoundTrip.vCmpLe (o : VOps) : RoundTrip.Statement (.vCmpLe o) := fun h => .inr (roundTrip_vector 0x012 .vCmpLe
  rfl (fun _ => rfl) rfl o h)

theorem RoundTrip.vSel (o : VOps) : RoundTrip.Statement (.vSel o) := fun h => .inr (roundTrip_vector 0x013 .vSel rfl
  (fun _ => rfl) rfl o h)

theorem RoundTrip.vCvt (o : VOps) : RoundTrip.Statement (.vCvt o) := fun h => .inr (roundTrip_vector 0x018 .vCvt rfl
  (fun _ => rfl) rfl o h)

theorem RoundTrip.vExp2 (o : VOps) : RoundTrip.Statement (.vExp2 o) := fun h => .inr (roundTrip_vector 0x020 .vExp2 rfl
  (fun _ => rfl) rfl o h)

theorem RoundTrip.vLog2 (o : VOps) : RoundTrip.Statement (.vLog2 o) := fun h => .inr (roundTrip_vector 0x021 .vLog2 rfl
  (fun _ => rfl) rfl o h)

theorem RoundTrip.vRcp (o : VOps) : RoundTrip.Statement (.vRcp o) := fun h => .inr (roundTrip_vector 0x022 .vRcp rfl
  (fun _ => rfl) rfl o h)

theorem RoundTrip.vRsq (o : VOps) : RoundTrip.Statement (.vRsq o) := fun h => .inr (roundTrip_vector 0x023 .vRsq rfl
  (fun _ => rfl) rfl o h)

theorem RoundTrip.vSig (o : VOps) : RoundTrip.Statement (.vSig o) := fun h => .inr (roundTrip_vector 0x024 .vSig rfl
  (fun _ => rfl) rfl o h)

theorem RoundTrip.vRedAdd (o : VOps) : RoundTrip.Statement (.vRedAdd o) := fun h => .inr (roundTrip_vector 0x028
  .vRedAdd rfl (fun _ => rfl) rfl o h)

theorem RoundTrip.vRedMax (o : VOps) : RoundTrip.Statement (.vRedMax o) := fun h => .inr (roundTrip_vector 0x029
  .vRedMax rfl (fun _ => rfl) rfl o h)

theorem RoundTrip.vScanAdd (o : VOps) : RoundTrip.Statement (.vScanAdd o) := fun h => .inr (roundTrip_vector 0x02A
  .vScanAdd rfl (fun _ => rfl) rfl o h)

theorem RoundTrip.vNzs (o : VOps) : RoundTrip.Statement (.vNzs o) := fun h => .inr (roundTrip_vector 0x02B .vNzs rfl
  (fun _ => rfl) rfl o h)

theorem RoundTrip.vScl (o : VOps) : RoundTrip.Statement (.vScl o) := fun h => .inr (roundTrip_vector 0x030 .vScl rfl
  (fun _ => rfl) rfl o h)

theorem RoundTrip.vFmas (o : VOps) : RoundTrip.Statement (.vFmas o) := fun h => .inr (roundTrip_vector 0x031 .vFmas rfl
  (fun _ => rfl) rfl o h)

theorem RoundTrip.vBcast (o : VOps) : RoundTrip.Statement (.vBcast o) := fun h => .inr (roundTrip_vector 0x032 .vBcast
  rfl (fun _ => rfl) rfl o h)

theorem RoundTrip.vPerm (o : VOps) : RoundTrip.Statement (.vPerm o) := fun h => .inr (roundTrip_vector 0x038 .vPerm rfl
  (fun _ => rfl) rfl o h)

theorem RoundTrip.vMov (o : VOps) : RoundTrip.Statement (.vMov o) := fun h => .inr (roundTrip_vector 0x039 .vMov rfl
  (fun _ => rfl) rfl o h)

theorem RoundTrip.vFill (o : VOps) : RoundTrip.Statement (.vFill o) := fun h => .inr (roundTrip_vector 0x03A .vFill rfl
  (fun _ => rfl) rfl o h)

theorem RoundTrip.vTrn (o : VOps) : RoundTrip.Statement (.vTrn o) := fun h => .inr (roundTrip_vector 0x03B .vTrn rfl
  (fun _ => rfl) rfl o h)

theorem RoundTrip.mClr (o : MClr) : RoundTrip.Statement (.mClr o) := by
  intro h; right; simp (disch := decide) [encode, encRows, encMove, encTile, encInbox, encImage, decode, decodeCommand,
    parseCommand, head_mkW0, opcode_mkW0, echo_mkW0, copyOp?, cpRows?, matrixOp?, collectiveOp?, coMove?, mediaOp?,
    tileOp?, inboxOp?, flag_code, portSet_code, combine_code, codec_code, extract_pack, extract_append_low,
    extract_append_high, extract_all, h, -Nat.reduceAdd]

theorem RoundTrip.mLd (o : MLd) : RoundTrip.Statement (.mLd o) := by
  intro h; right; simp (disch := decide) [encode, encRows, encMove, encTile, encInbox, encImage, decode, decodeCommand,
    parseCommand, head_mkW0, opcode_mkW0, echo_mkW0, copyOp?, cpRows?, matrixOp?, collectiveOp?, coMove?, mediaOp?,
    tileOp?, inboxOp?, flag_code, portSet_code, combine_code, codec_code, extract_pack, extract_append_low,
    extract_append_high, extract_all, h, -Nat.reduceAdd]

theorem RoundTrip.mCvt (o : MCvt) : RoundTrip.Statement (.mCvt o) := by
  intro h; right; simp (disch := decide) [encode, encRows, encMove, encTile, encInbox, encImage, decode, decodeCommand,
    parseCommand, head_mkW0, opcode_mkW0, echo_mkW0, copyOp?, cpRows?, matrixOp?, collectiveOp?, coMove?, mediaOp?,
    tileOp?, inboxOp?, flag_code, portSet_code, combine_code, codec_code, extract_pack, extract_append_low,
    extract_append_high, extract_all, h, -Nat.reduceAdd]

theorem RoundTrip.mSv (o : MImg) : RoundTrip.Statement (.mSv o) := by
  intro h; right; simp (disch := decide) [encode, encRows, encMove, encTile, encInbox, encImage, decode, decodeCommand,
    parseCommand, head_mkW0, opcode_mkW0, echo_mkW0, copyOp?, cpRows?, matrixOp?, collectiveOp?, coMove?, mediaOp?,
    tileOp?, inboxOp?, flag_code, portSet_code, combine_code, codec_code, extract_pack, extract_append_low,
    extract_append_high, extract_all, h, -Nat.reduceAdd]

theorem RoundTrip.mRs (o : MImg) : RoundTrip.Statement (.mRs o) := by
  intro h; right; simp (disch := decide) [encode, encRows, encMove, encTile, encInbox, encImage, decode, decodeCommand,
    parseCommand, head_mkW0, opcode_mkW0, echo_mkW0, copyOp?, cpRows?, matrixOp?, collectiveOp?, coMove?, mediaOp?,
    tileOp?, inboxOp?, flag_code, portSet_code, combine_code, codec_code, extract_pack, extract_append_low,
    extract_append_high, extract_all, h, -Nat.reduceAdd]

theorem RoundTrip.ttBind (o : TtBind) : RoundTrip.Statement (.ttBind o) := by
  intro h; right; simp (disch := decide) [encode, encRows, encMove, encTile, encInbox, encImage, decode, decodeCommand,
    parseCommand, head_mkW0, opcode_mkW0, echo_mkW0, copyOp?, cpRows?, matrixOp?, collectiveOp?, coMove?, mediaOp?,
    tileOp?, inboxOp?, flag_code, portSet_code, combine_code, codec_code, extract_pack, extract_append_low,
    extract_append_high, extract_all, h, -Nat.reduceAdd]

theorem RoundTrip.ttWait (o : TtWait) : RoundTrip.Statement (.ttWait o) := by
  intro h; right; simp (disch := decide) [encode, encRows, encMove, encTile, encInbox, encImage, decode, decodeCommand,
    parseCommand, head_mkW0, opcode_mkW0, echo_mkW0, copyOp?, cpRows?, matrixOp?, collectiveOp?, coMove?, mediaOp?,
    tileOp?, inboxOp?, flag_code, portSet_code, combine_code, codec_code, extract_pack, extract_append_low,
    extract_append_high, extract_all, h, -Nat.reduceAdd]

theorem RoundTrip.ttRel (o : TtTile) : RoundTrip.Statement (.ttRel o) := by
  intro h; right; simp (disch := decide) [encode, encRows, encMove, encTile, encInbox, encImage, decode, decodeCommand,
    parseCommand, head_mkW0, opcode_mkW0, echo_mkW0, copyOp?, cpRows?, matrixOp?, collectiveOp?, coMove?, mediaOp?,
    tileOp?, inboxOp?, flag_code, portSet_code, combine_code, codec_code, extract_pack, extract_append_low,
    extract_append_high, extract_all, h, -Nat.reduceAdd]

theorem RoundTrip.ttStat (o : TtTile) : RoundTrip.Statement (.ttStat o) := by
  intro h; right; simp (disch := decide) [encode, encRows, encMove, encTile, encInbox, encImage, decode, decodeCommand,
    parseCommand, head_mkW0, opcode_mkW0, echo_mkW0, copyOp?, cpRows?, matrixOp?, collectiveOp?, coMove?, mediaOp?,
    tileOp?, inboxOp?, flag_code, portSet_code, combine_code, codec_code, extract_pack, extract_append_low,
    extract_append_high, extract_all, h, -Nat.reduceAdd]

theorem RoundTrip.ibDeq (o : IbOps) : RoundTrip.Statement (.ibDeq o) := by
  intro h; right; simp (disch := decide) [encode, encRows, encMove, encTile, encInbox, encImage, decode, decodeCommand,
    parseCommand, head_mkW0, opcode_mkW0, echo_mkW0, copyOp?, cpRows?, matrixOp?, collectiveOp?, coMove?, mediaOp?,
    tileOp?, inboxOp?, flag_code, portSet_code, combine_code, codec_code, extract_pack, extract_append_low,
    extract_append_high, extract_all, h, -Nat.reduceAdd]

theorem RoundTrip.ibPeek (o : IbOps) : RoundTrip.Statement (.ibPeek o) := by
  intro h; right; simp (disch := decide) [encode, encRows, encMove, encTile, encInbox, encImage, decode, decodeCommand,
    parseCommand, head_mkW0, opcode_mkW0, echo_mkW0, copyOp?, cpRows?, matrixOp?, collectiveOp?, coMove?, mediaOp?,
    tileOp?, inboxOp?, flag_code, portSet_code, combine_code, codec_code, extract_pack, extract_append_low,
    extract_append_high, extract_all, h, -Nat.reduceAdd]

theorem RoundTrip.coCfg (o : CoCfg) : RoundTrip.Statement (.coCfg o) := by
  intro h; right; simp (disch := decide) [encode, encRows, encMove, encTile, encInbox, encImage, decode, decodeCommand,
    parseCommand, head_mkW0, opcode_mkW0, echo_mkW0, copyOp?, cpRows?, matrixOp?, collectiveOp?, coMove?, mediaOp?,
    tileOp?, inboxOp?, flag_code, portSet_code, combine_code, codec_code, extract_pack, extract_append_low,
    extract_append_high, extract_all, h, -Nat.reduceAdd]

theorem RoundTrip.coRed (o : CoMove) : RoundTrip.Statement (.coRed o) := by
  intro h; right; simp (disch := decide) [encode, encRows, encMove, encTile, encInbox, encImage, decode, decodeCommand,
    parseCommand, head_mkW0, opcode_mkW0, echo_mkW0, copyOp?, cpRows?, matrixOp?, collectiveOp?, coMove?, mediaOp?,
    tileOp?, inboxOp?, flag_code, portSet_code, combine_code, codec_code, extract_pack, extract_append_low,
    extract_append_high, extract_all, h, -Nat.reduceAdd]

theorem RoundTrip.coBcast (o : CoMove) : RoundTrip.Statement (.coBcast o) := by
  intro h; right; simp (disch := decide) [encode, encRows, encMove, encTile, encInbox, encImage, decode, decodeCommand,
    parseCommand, head_mkW0, opcode_mkW0, echo_mkW0, copyOp?, cpRows?, matrixOp?, collectiveOp?, coMove?, mediaOp?,
    tileOp?, inboxOp?, flag_code, portSet_code, combine_code, codec_code, extract_pack, extract_append_low,
    extract_append_high, extract_all, h, -Nat.reduceAdd]

theorem RoundTrip.coAllr (o : CoAllr) : RoundTrip.Statement (.coAllr o) := by
  intro h; right; simp (disch := decide) [encode, encRows, encMove, encTile, encInbox, encImage, decode, decodeCommand,
    parseCommand, head_mkW0, opcode_mkW0, echo_mkW0, copyOp?, cpRows?, matrixOp?, collectiveOp?, coMove?, mediaOp?,
    tileOp?, inboxOp?, flag_code, portSet_code, combine_code, codec_code, extract_pack, extract_append_low,
    extract_append_high, extract_all, h, -Nat.reduceAdd]

theorem RoundTrip.coMark (o : CoMark) : RoundTrip.Statement (.coMark o) := by
  intro h; right; simp (disch := decide) [encode, encRows, encMove, encTile, encInbox, encImage, decode, decodeCommand,
    parseCommand, head_mkW0, opcode_mkW0, echo_mkW0, copyOp?, cpRows?, matrixOp?, collectiveOp?, coMove?, mediaOp?,
    tileOp?, inboxOp?, flag_code, portSet_code, combine_code, codec_code, extract_pack, extract_append_low,
    extract_append_high, extract_all, h, -Nat.reduceAdd]

theorem RoundTrip.spOpen (o : SpOpen) : RoundTrip.Statement (.spOpen o) := by
  intro h; right; simp (disch := decide) [encode, encRows, encMove, encTile, encInbox, encImage, decode, decodeCommand,
    parseCommand, head_mkW0, opcode_mkW0, echo_mkW0, copyOp?, cpRows?, matrixOp?, collectiveOp?, coMove?, mediaOp?,
    tileOp?, inboxOp?, flag_code, portSet_code, combine_code, codec_code, extract_pack, extract_append_low,
    extract_append_high, extract_all, h, -Nat.reduceAdd]

theorem RoundTrip.spSend (o : SpSend) : RoundTrip.Statement (.spSend o) := by
  intro h; right; simp (disch := decide) [encode, encRows, encMove, encTile, encInbox, encImage, decode, decodeCommand,
    parseCommand, head_mkW0, opcode_mkW0, echo_mkW0, copyOp?, cpRows?, matrixOp?, collectiveOp?, coMove?, mediaOp?,
    tileOp?, inboxOp?, flag_code, portSet_code, combine_code, codec_code, extract_pack, extract_append_low,
    extract_append_high, extract_all, h, -Nat.reduceAdd]

theorem RoundTrip.spClose (o : SpClose) : RoundTrip.Statement (.spClose o) := by
  intro h; right; simp (disch := decide) [encode, encRows, encMove, encTile, encInbox, encImage, decode, decodeCommand,
    parseCommand, head_mkW0, opcode_mkW0, echo_mkW0, copyOp?, cpRows?, matrixOp?, collectiveOp?, coMove?, mediaOp?,
    tileOp?, inboxOp?, flag_code, portSet_code, combine_code, codec_code, extract_pack, extract_append_low,
    extract_append_high, extract_all, h, -Nat.reduceAdd]

theorem RoundTrip.routerCombine (core : Nat) (vsn : Nat) (set : Nat) : RoundTrip.Statement (.routerCombine core vsn set)
  := fun _ => .inl rfl

theorem RoundTrip.entrySetStep (core : Nat) (vsn : Nat) : RoundTrip.Statement (.entrySetStep core vsn) := fun _ => .inl
  rfl

theorem RoundTrip.collectiveAbort (core : Nat) (vsn : Nat) : RoundTrip.Statement (.collectiveAbort core vsn) := fun _ =>
  .inl rfl

theorem RoundTrip.streamDataArrival (core : Nat) : RoundTrip.Statement (.streamDataArrival core) := fun _ => .inl rfl

theorem RoundTrip.streamCloseArrival (core : Nat) : RoundTrip.Statement (.streamCloseArrival core) := fun _ => .inl rfl

theorem RoundTrip.linkFlitResend (core : Nat) (port : Nat) : RoundTrip.Statement (.linkFlitResend core port) := fun _ =>
  .inl rfl

theorem RoundTrip.linkDown (core : Nat) (port : Nat) : RoundTrip.Statement (.linkDown core port) := fun _ => .inl rfl

theorem RoundTrip.dCfg (o : DCfg) : RoundTrip.Statement (.dCfg o) := by
  intro h; right; simp (disch := decide) [encode, encRows, encMove, encTile, encInbox, encImage, decode, decodeCommand,
    parseCommand, head_mkW0, opcode_mkW0, echo_mkW0, copyOp?, cpRows?, matrixOp?, collectiveOp?, coMove?, mediaOp?,
    tileOp?, inboxOp?, flag_code, portSet_code, combine_code, codec_code, extract_pack, extract_append_low,
    extract_append_high, extract_all, h, -Nat.reduceAdd]

theorem RoundTrip.dDec (o : DDec) : RoundTrip.Statement (.dDec o) := by
  intro h; right; simp (disch := decide) [encode, encRows, encMove, encTile, encInbox, encImage, decode, decodeCommand,
    parseCommand, head_mkW0, opcode_mkW0, echo_mkW0, copyOp?, cpRows?, matrixOp?, collectiveOp?, coMove?, mediaOp?,
    tileOp?, inboxOp?, flag_code, portSet_code, combine_code, codec_code, extract_pack, extract_append_low,
    extract_append_high, extract_all, h, -Nat.reduceAdd]

theorem RoundTrip.trapEntry (core : Nat) : RoundTrip.Statement (.trapEntry core) := fun _ => .inl rfl

theorem RoundTrip.dispatchDecision (p : Nat) (core : Nat) : RoundTrip.Statement (.dispatchDecision p core) := fun _ =>
  .inl rfl

theorem RoundTrip.deferredCoreReoffer (p : Nat) (core : Nat) : RoundTrip.Statement (.deferredCoreReoffer p core) := fun
  _ => .inl rfl

theorem RoundTrip.preemptionDecision (p : Nat) : RoundTrip.Statement (.preemptionDecision p) := fun _ => .inl rfl

theorem RoundTrip.faultDecision (p : Nat) : RoundTrip.Statement (.faultDecision p) := fun _ => .inl rfl

theorem RoundTrip.queueDeadlock (p : Nat) : RoundTrip.Statement (.queueDeadlock p) := fun _ => .inl rfl

theorem RoundTrip.futureOrphan (p : Nat) (launch : Nat) : RoundTrip.Statement (.futureOrphan p launch) := fun _ => .inl
  rfl

theorem RoundTrip.launchRecordWrite (p : Nat) (record : BitVec 512) : RoundTrip.Statement (.launchRecordWrite p record)
  := fun _ => .inl rfl

theorem RoundTrip.launchAcceptance (p : Nat) : RoundTrip.Statement (.launchAcceptance p) := fun _ => .inl rfl

theorem RoundTrip.launchCompletion (p : Nat) (launch : Nat) : RoundTrip.Statement (.launchCompletion p launch) := fun _
  => .inl rfl

theorem RoundTrip.switchStop (p : Nat) : RoundTrip.Statement (.switchStop p) := fun _ => .inl rfl

theorem RoundTrip.switchQuiet (p : Nat) : RoundTrip.Statement (.switchQuiet p) := fun _ => .inl rfl

theorem RoundTrip.switchDrain (p : Nat) : RoundTrip.Statement (.switchDrain p) := fun _ => .inl rfl

theorem RoundTrip.switchSave (p : Nat) : RoundTrip.Statement (.switchSave p) := fun _ => .inl rfl

theorem RoundTrip.switchClearRestore (p : Nat) : RoundTrip.Statement (.switchClearRestore p) := fun _ => .inl rfl

theorem RoundTrip.switchResume (p : Nat) : RoundTrip.Statement (.switchResume p) := fun _ => .inl rfl

theorem RoundTrip.ownerClaim (m : Nat) : RoundTrip.Statement (.ownerClaim m) := fun _ => .inl rfl

theorem RoundTrip.ownerHandover (m : Nat) (new : Nat) : RoundTrip.Statement (.ownerHandover m new) := fun _ => .inl rfl

theorem RoundTrip.ownerRelease (m : Nat) : RoundTrip.Statement (.ownerRelease m) := fun _ => .inl rfl

theorem RoundTrip.masterLinkUp (m : Nat) : RoundTrip.Statement (.masterLinkUp m) := fun _ => .inl rfl

theorem RoundTrip.createPartition (m : Nat) : RoundTrip.Statement (.createPartition m) := fun _ => .inl rfl

theorem RoundTrip.destroyPartition (m : Nat) : RoundTrip.Statement (.destroyPartition m) := fun _ => .inl rfl

theorem RoundTrip.setMode (m : Nat) : RoundTrip.Statement (.setMode m) := fun _ => .inl rfl

theorem RoundTrip.reStitch (m : Nat) : RoundTrip.Statement (.reStitch m) := fun _ => .inl rfl

theorem RoundTrip.writeGrant (m : Nat) : RoundTrip.Statement (.writeGrant m) := fun _ => .inl rfl

theorem RoundTrip.releaseParkedDomain (m : Nat) : RoundTrip.Statement (.releaseParkedDomain m) := fun _ => .inl rfl

theorem RoundTrip.haltOrResume (m : Nat) : RoundTrip.Statement (.haltOrResume m) := fun _ => .inl rfl

theorem RoundTrip.gangSwitch (m : Nat) : RoundTrip.Statement (.gangSwitch m) := fun _ => .inl rfl

theorem RoundTrip.assignCinch (m : Nat) : RoundTrip.Statement (.assignCinch m) := fun _ => .inl rfl

theorem RoundTrip.sliceConfiguration (m : Nat) : RoundTrip.Statement (.sliceConfiguration m) := fun _ => .inl rfl

theorem RoundTrip.attest (m : Nat) : RoundTrip.Statement (.attest m) := fun _ => .inl rfl

theorem RoundTrip.fwgo (m : Nat) (len : BitVec 64) : RoundTrip.Statement (.fwgo m len) := fun _ => .inl rfl

theorem RoundTrip.bootRetry (m : Nat) : RoundTrip.Statement (.bootRetry m) := fun _ => .inl rfl

theorem RoundTrip.managementRegisterWrite (m : Nat) (off : Nat) (v : BitVec 64) : RoundTrip.Statement
  (.managementRegisterWrite m off v) := fun _ => .inl rfl

theorem RoundTrip.bridleLi (d : BitVec 3) (i : BitVec 8) : RoundTrip.Statement (.bridleLi d i) := by
  intro _; right; simp (disch := decide) [encode, mkB3, decode_mkB, decodeBridleFields, dec16, ifZero, extract_pack,
    extract_append_low, extract_append_high, extract_all, -Nat.reduceAdd]

theorem RoundTrip.bridleLdq (d : BitVec 3) (q : BitVec 3) (f : BitVec 3) : RoundTrip.Statement (.bridleLdq d q f) := by
  intro _; right; simp (disch := decide) [encode, mkB3, decode_mkB, decodeBridleFields, dec16, ifZero, extract_pack,
    extract_append_low, extract_append_high, extract_all, -Nat.reduceAdd]

theorem RoundTrip.bridleLdc (d : BitVec 3) (c : BitVec 3) : RoundTrip.Statement (.bridleLdc d c) := by
  intro _; right; simp (disch := decide) [encode, mkB3, decode_mkB, decodeBridleFields, dec16, ifZero, extract_pack,
    extract_append_low, extract_append_high, extract_all, -Nat.reduceAdd]

theorem RoundTrip.bridleAdd (d : BitVec 3) (a : BitVec 3) (b : BitVec 3) : RoundTrip.Statement (.bridleAdd d a b) := by
  intro _; right; simp (disch := decide) [encode, mkB3, decode_mkB, decodeBridleFields, dec16, ifZero, extract_pack,
    extract_append_low, extract_append_high, extract_all, -Nat.reduceAdd]

theorem RoundTrip.bridleSub (d : BitVec 3) (a : BitVec 3) (b : BitVec 3) : RoundTrip.Statement (.bridleSub d a b) := by
  intro _; right; simp (disch := decide) [encode, mkB3, decode_mkB, decodeBridleFields, dec16, ifZero, extract_pack,
    extract_append_low, extract_append_high, extract_all, -Nat.reduceAdd]

theorem RoundTrip.bridleMin (d : BitVec 3) (a : BitVec 3) (b : BitVec 3) : RoundTrip.Statement (.bridleMin d a b) := by
  intro _; right; simp (disch := decide) [encode, mkB3, decode_mkB, decodeBridleFields, dec16, ifZero, extract_pack,
    extract_append_low, extract_append_high, extract_all, -Nat.reduceAdd]

theorem RoundTrip.bridleMax (d : BitVec 3) (a : BitVec 3) (b : BitVec 3) : RoundTrip.Statement (.bridleMax d a b) := by
  intro _; right; simp (disch := decide) [encode, mkB3, decode_mkB, decodeBridleFields, dec16, ifZero, extract_pack,
    extract_append_low, extract_append_high, extract_all, -Nat.reduceAdd]

theorem RoundTrip.bridleAnd (d : BitVec 3) (a : BitVec 3) (b : BitVec 3) : RoundTrip.Statement (.bridleAnd d a b) := by
  intro _; right; simp (disch := decide) [encode, mkB3, decode_mkB, decodeBridleFields, dec16, ifZero, extract_pack,
    extract_append_low, extract_append_high, extract_all, -Nat.reduceAdd]

theorem RoundTrip.bridleOr (d : BitVec 3) (a : BitVec 3) (b : BitVec 3) : RoundTrip.Statement (.bridleOr d a b) := by
  intro _; right; simp (disch := decide) [encode, mkB3, decode_mkB, decodeBridleFields, dec16, ifZero, extract_pack,
    extract_append_low, extract_append_high, extract_all, -Nat.reduceAdd]

theorem RoundTrip.bridleShl (d : BitVec 3) (a : BitVec 3) (b : BitVec 3) : RoundTrip.Statement (.bridleShl d a b) := by
  intro _; right; simp (disch := decide) [encode, mkB3, decode_mkB, decodeBridleFields, dec16, ifZero, extract_pack,
    extract_append_low, extract_append_high, extract_all, -Nat.reduceAdd]

theorem RoundTrip.bridleShr (d : BitVec 3) (a : BitVec 3) (b : BitVec 3) : RoundTrip.Statement (.bridleShr d a b) := by
  intro _; right; simp (disch := decide) [encode, mkB3, decode_mkB, decodeBridleFields, dec16, ifZero, extract_pack,
    extract_append_low, extract_append_high, extract_all, -Nat.reduceAdd]

theorem RoundTrip.bridleClt (d : BitVec 3) (a : BitVec 3) (b : BitVec 3) : RoundTrip.Statement (.bridleClt d a b) := by
  intro _; right; simp (disch := decide) [encode, mkB3, decode_mkB, decodeBridleFields, dec16, ifZero, extract_pack,
    extract_append_low, extract_append_high, extract_all, -Nat.reduceAdd]

theorem RoundTrip.bridleCeq (d : BitVec 3) (a : BitVec 3) (b : BitVec 3) : RoundTrip.Statement (.bridleCeq d a b) := by
  intro _; right; simp (disch := decide) [encode, mkB3, decode_mkB, decodeBridleFields, dec16, ifZero, extract_pack,
    extract_append_low, extract_append_high, extract_all, -Nat.reduceAdd]

theorem RoundTrip.bridleSel (d : BitVec 3) (a : BitVec 3) (b : BitVec 3) : RoundTrip.Statement (.bridleSel d a b) := by
  intro _; right; simp (disch := decide) [encode, mkB3, decode_mkB, decodeBridleFields, dec16, ifZero, extract_pack,
    extract_append_low, extract_append_high, extract_all, -Nat.reduceAdd]

theorem RoundTrip.bridleJf (a : BitVec 3) (o : BitVec 8) : RoundTrip.Statement (.bridleJf a o) := by
  intro h; right; simp (disch := decide) [h, encode, mkB3, decode_mkB, decodeBridleFields, dec16, ifZero, extract_pack,
    extract_append_low, extract_append_high, extract_all, -Nat.reduceAdd]

theorem RoundTrip.bridlePick (a : BitVec 3) : RoundTrip.Statement (.bridlePick a) := by
  intro _; right; simp (disch := decide) [encode, mkB3, decode_mkB, decodeBridleFields, dec16, ifZero, extract_pack,
    extract_append_low, extract_append_high, extract_all, -Nat.reduceAdd]

theorem RoundTrip.bridleVeto (a : BitVec 3) : RoundTrip.Statement (.bridleVeto a) := by
  intro _; right; simp (disch := decide) [encode, mkB3, decode_mkB, decodeBridleFields, dec16, ifZero, extract_pack,
    extract_append_low, extract_append_high, extract_all, -Nat.reduceAdd]

theorem RoundTrip.bridleAct (a : BitVec 3) (k : BitVec 2) : RoundTrip.Statement (.bridleAct a k) := by
  intro h; right; simp (disch := decide) [h, encode, mkB3, decode_mkB, decodeBridleFields, dec16, ifZero, extract_pack,
    extract_append_low, extract_append_high, extract_all, -Nat.reduceAdd]

theorem RoundTrip.birlinLinkDown (ids : List Nat) : RoundTrip.Statement (.birlinLinkDown ids) := fun _ => .inl rfl

theorem RoundTrip.cxlLinkDown (port : Nat) : RoundTrip.Statement (.cxlLinkDown port) := fun _ => .inl rfl

theorem RoundTrip.spanOrBirlinTraffic (t : Traffic) : RoundTrip.Statement (.spanOrBirlinTraffic t) := fun _ => .inl rfl

theorem RoundTrip.coreFaultInService (core : Nat) : RoundTrip.Statement (.coreFaultInService core) := fun _ => .inl rfl

theorem RoundTrip.thermalLimit (on : Bool) : RoundTrip.Statement (.thermalLimit on) := fun _ => .inl rfl

theorem RoundTrip.gSplit : RoundTrip.Statement .gSplit := by
  intro _; right; simp (disch := decide) [encode, decode, decode32_mkR, decodeFields, ifZero, decodeCustom0, dec1, dec2,
    dec3, reg4_r4, decodeRegion, decodePointer, extract_pack, extract_append_low, extract_append_high, extract_all,
    -Nat.reduceAdd]

theorem RoundTrip.tsExit : RoundTrip.Statement .tsExit := by
  intro _; right; simp (disch := decide) [encode, decode, decode32_mkR, decodeFields, ifZero, mkQ, decodeCustom2,
    decodeTask, extract_pack, extract_append_low, extract_append_high, extract_all, -Nat.reduceAdd]

theorem RoundTrip.tret : RoundTrip.Statement .tret := by
  intro _; right; simp (disch := decide) [encode, decode, decode32_mkR, decodeFields, ifZero, decodeCustom3, join_imm12,
    extract_pack, extract_append_low, extract_append_high, extract_all, -Nat.reduceAdd]

theorem RoundTrip.ecall : RoundTrip.Statement .ecall := by
  intro _; right; simp (disch := decide) [encode, decode, decode32_mkR, decodeFields, ifZero, mkI, mkS, join_imm12,
    join_pred, decodeLoad, decodeStore, decodeMiscMem, decodeSystem, extract_pack, extract_append_low,
    extract_append_high, extract_all, -Nat.reduceAdd]

theorem RoundTrip.ebreak : RoundTrip.Statement .ebreak := by
  intro _; right; simp (disch := decide) [encode, decode, decode32_mkR, decodeFields, ifZero, mkI, mkS, join_imm12,
    join_pred, decodeLoad, decodeStore, decodeMiscMem, decodeSystem, extract_pack, extract_append_low,
    extract_append_high, extract_all, -Nat.reduceAdd]

theorem RoundTrip.ownerSilenceTimeout : RoundTrip.Statement .ownerSilenceTimeout := fun _ => .inl rfl

theorem RoundTrip.requestDone : RoundTrip.Statement .requestDone := fun _ => .inl rfl

theorem RoundTrip.deviceStart : RoundTrip.Statement .deviceStart := fun _ => .inl rfl

theorem RoundTrip.startTimeout : RoundTrip.Statement .startTimeout := fun _ => .inl rfl

theorem RoundTrip.powerStateEntry : RoundTrip.Statement .powerStateEntry := fun _ => .inl rfl

theorem RoundTrip.powerWake : RoundTrip.Statement .powerWake := fun _ => .inl rfl

theorem RoundTrip.powerRemoval : RoundTrip.Statement .powerRemoval := fun _ => .inl rfl

theorem RoundTrip.bridleEnd : RoundTrip.Statement .bridleEnd := by
  intro _; right; simp (disch := decide) [encode, mkB3, decode_mkB, decodeBridleFields, dec16, ifZero, extract_pack,
    extract_append_low, extract_append_high, extract_all, -Nat.reduceAdd]

theorem RoundTrip.bridleDefer : RoundTrip.Statement .bridleDefer := by
  intro _; right; simp (disch := decide) [encode, mkB3, decode_mkB, decodeBridleFields, dec16, ifZero, extract_pack,
    extract_append_low, extract_append_high, extract_all, -Nat.reduceAdd]

theorem RoundTrip.powerOn : RoundTrip.Statement .powerOn := fun _ => .inl rfl

theorem RoundTrip.reset : RoundTrip.Statement .reset := fun _ => .inl rfl

end Sys2Proof.Laws
end

