-- ==== Sys2Proof/Safety.lean ====
section
/-!
DEFINITION. The terms that claims are stated in: memories in canonical form, an instruction that completes, and what a step leaves
unchanged.
-/

namespace Sys2Proof

/-! ## Destinations -/

/-- The x register that an RV64 computation or control-flow instruction writes. -/
def RvInstr.destX? : RvInstr → Option Reg
  | .lui d _ | .auipc d _ | .jal d _ | .jalr d .. | .opImm _ d .. | .shiftImm _ d .. | .addiw d .. | .shiftImmW _ d .. | .op _ d ..
  | .opW _ d .. | .fcmp _ d .. | .fclass d _ | .fmvXW d _ | .fcvtToInt _ d .. => some d
  | .branch .. | .farith .. | .fsqrt .. | .fused .. | .fpick .. | .fmvWX .. | .fcvtToFloat .. => none

/-- The f register that it writes. -/
def RvInstr.destF? : RvInstr → Option Reg
  | .farith _ d .. | .fsqrt d .. | .fused _ d .. | .fpick _ d .. | .fmvWX d _ | .fcvtToFloat _ d .. => some d
  | .lui .. | .auipc .. | .jal .. | .jalr .. | .branch .. | .opImm .. | .shiftImm .. | .addiw .. | .shiftImmW .. | .op .. | .opW ..
  | .fcmp .. | .fclass .. | .fmvXW .. | .fcvtToInt .. => none

/-- Instructions that write one register, and flags or counts, and nothing else. -/
def Instr.registerOnly : Instr → Bool
  | .rv64Compute _ | .rgAnd .. | .rgOr .. | .rgSub .. | .rgIn .. | .rgDil .. | .rgShf .. | .rgProj .. | .rgClip .. | .rgCnt ..
  | .rgNbox .. | .rgBox .. | .rgBoxs .. | .rgBoxr .. | .qCnt .. | .paPeer .. | .lpCnt .. | .ovStat .. | .ovCov .. => true
  | _ => false

/-- The x register such an instruction writes. -/
def Instr.destX? : Instr → Option Reg
  | .rv64Compute i => i.destX?
  | .rgIn d .. | .rgCnt d _ | .rgNbox d _ | .qCnt d _ | .paPeer d .. | .lpCnt d | .ovStat d | .ovCov d _ => some d
  | _ => none

/-- The f register such an instruction writes. -/
def Instr.destF? : Instr → Option Reg
  | .rv64Compute i => i.destF?
  | _ => none

/-- The region register such an instruction writes. -/
def Instr.destBx? : Instr → Option Reg4
  | .rgAnd d .. | .rgOr d .. | .rgSub d .. | .rgDil d .. | .rgShf d .. | .rgProj d .. | .rgClip d .. | .rgBox d .. | .rgBoxs d ..
  | .rgBoxr d .. => some d
  | _ => none

end Sys2Proof

namespace Sys2Proof.Machine

/-! ## Memories in canonical form (log 4) -/

/-- Scratchpad and accumulators of a core are in canonical form. -/
def Core.memoriesWf (c : Core) : Bool := Memory.wf c.spad && Memory.wf c.acc

/-- The kept context of a task, if it has one. -/
def Task.memoriesWf (t : Task) : Bool := t.ctx.all Core.memoriesWf

/-- The cores of a saved context. -/
def Context.memoriesWf (k : Context) : Bool := k.cores.all fun e => e.2.memoriesWf

/-- Every core that a partition keeps: of its tasks off their cores, and of its saved contexts. -/
def Partition.memoriesWf (p : Partition) : Bool :=
  p.ready.all Task.memoriesWf && p.waiting.all Task.memoriesWf && p.parkedTasks.all Task.memoriesWf &&
    p.stoppedTasks.all Task.memoriesWf && p.contexts.all Context.memoriesWf

/-- The memories of the management side. -/
def Mgmt.memoriesWf (g : Mgmt) : Bool := Memory.wf g.payload && Memory.wf g.window && Memory.wf g.attest

/-- Every memory that the device holds is in canonical form: addresses rise, and no entry is zero. -/
def State.memoriesWf (s : State) : Bool :=
  Memory.wf s.mem && s.cores.all (fun e => e.2.memoriesWf) && s.parts.all (fun e => e.2.memoriesWf) && s.mgmt.memoriesWf

/-! ## Completion -/

/-- The instruction may stand where it is: outside an overwriting loop, or not a word that R256 keeps out of its body. -/
def Allowed (i : Instr) (s : State) : Prop := (s.core.overwriting && overForbids i) = false

/-- The instruction completes with an effect, and control goes on at the next word. -/
def Completes (i : Instr) (s s' : State) : Prop := exec i s = .next (s'.retire (s.core.pc + 4))

/-- The instruction raises a precise fault of a cause and value at its own address. -/
def Raises (i : Instr) (s : State) (cause : Cause) (tval : Word) : Prop := exec i s = .next (s.raiseTrap i (.of cause tval))

/-- The acting core runs by itself: in no gang, and no loop replays. -/
def Alone (s : State) : Prop := s.core.gang = none ∧ s.core.loop.running = false

/-- A control-stream instruction without a word to go on to, or an event, ends in a state. -/
def Ends (i : Instr) (s s' : State) : Prop := exec i s = .next s'

/-! ## Accesses -/

/-- A scalar load of n bytes at an address reads a place and goes through (R185): it is no event word, it is aligned, it does not
meet the target of a running overwriting loop, it resolves with read permission, no matrix command holds it up, and no byte is
uncorrectable. `s1` is `s` with the translation noted. -/
def Reads (s : State) (va : Word) (n : Nat) (pl : Place) (s1 : State) : Prop :=
  isEvent s.cur va.toNat = false ∧ va.toNat % n = 0 ∧ (s.core.overwriting && s.core.loop.td.meets s.cur va.toNat n) = false ∧
    s.resolve s.core.sup .read va.toNat n 5 = .ok (pl, s1) ∧ s.accHold pl = false ∧ s.poisoned pl.phys n = false

/-- No write of the core's own engines that its stream may still miss meets n bytes at a place (R9, R177). -/
def Settled (s : State) (pl : Place) (n : Nat) : Prop :=
  ∀ u ∈ s.core.unseen, u.meets pl.phys n = true → u.met = true ∨ u.isStore = true

/-- A state in which something has been read: it differs only in what the model keeps of writes that an agent of a core may miss, of which
reading makes none, and of the operands that are pending at a home (log 7). -/
def Looked (s t : State) : Prop :=
  { t with cores := [], adds := [] } = { s with cores := [], adds := [] } ∧ (∀ e ∈ t.adds, e ∈ s.adds) ∧
    ∀ id, { t.coreAt id with unseen := [] } = { s.coreAt id with unseen := [] } ∧
      (t.coreAt id).unseen.map (fun u => (u.key, u.pa)) ⊆ (s.coreAt id).unseen.map (fun u => (u.key, u.pa))

/-- A scalar store of n bytes at an address reaches a place and goes through (R185, R262). -/
def Writes (s : State) (va : Word) (n : Nat) (pl : Place) (s1 : State) : Prop :=
  isEvent s.cur va.toNat = false ∧ va.toNat % n = 0 ∧ s.core.overwriting = false ∧
    s.resolve s.core.sup .write va.toNat n 5 = .ok (pl, s1) ∧ s.accHold pl = false

/-- An atomic of n bytes at an address reaches its home and goes through (R190). -/
def Swaps (s : State) (va : Word) (n : Nat) (pl : Place) (s1 : State) : Prop :=
  isEvent s.cur va.toNat = false ∧ va.toNat % n = 0 ∧ s.resolve s.core.sup .write va.toNat n 5 = .ok (pl, s1) ∧
    atomicHome pl = true ∧ s.poisoned pl.phys n = false

/-- The instruction retired on a core that still runs its task: it raised nothing and does not wait. -/
def Retired (s t : State) : Prop := t.core.csr.instret = s.core.csr.instret + 1 ∧ t.core.bound = s.core.bound

/-! ## Engine steps -/

/-- A vector command of the acting core runs, its next step's reads and the writes of some roles go through at offsets, and it reads no
uncorrectable element (R151, R153). -/
def VectorAt (s : State) (i : Instr) (k : VOp) (o : VOps) (r : VRun) (off : VRole → Nat) (dests : List VRole) : Prop :=
  vectorParts i = some (k, o) ∧ s.core.eng.vrun = some r ∧ r.cmd.is 1 i = true ∧ r.done = false ∧
    (∀ role ∈ k.reads o ++ dests, s.roleOffset r k o role (r.stepCount k o) = .ok (off role)) ∧
    ∀ role ∈ k.reads o, s.spadPoisoned s.cur (off role) (match k.shape o role with
      | none => (r.stepCount k o + 7) / 8
      | some w => runBytes w (k.roleCount role (r.stepCount k o))) = false

/-- The random word of an element of the next step (R123). -/
def VRun.random (s : State) (r : VRun) (k : VOp) (o : VOps) (j : Nat) : Nat :=
  if o.head.round = .sr then randomWord s.core.csr.jobseed r.cmd.lcore r.cmd.ctr0 (r.step * k.perStep o + j) else 0

/-- A row of cells moves one after another through the states σ: each is read, filled or out of the source's bounds, and is written, or
suppressed where it is out of the destination's bounds (R99, R104). -/
def MovesCells (s : State) (cmd : Cmd) (t : Transfer) (cells : List (List Int × List Int)) (σ : Nat → State)
    (written clipped bad : Nat → Bool) : Prop :=
  σ 0 = s ∧ ∀ j c, cells[j]? = some c → ∃ (v : Nat) (out : Bool) (τ : State),
    (σ j).cellValue cmd t c.1 0 = .ok (v, out, bad j, τ) ∧
      ((written j = true ∧ clipped j = out ∧ τ.writeCell 0 cmd t.dst t.disp c.2 v 0 = .ok (some (σ (j + 1)))) ∨
       (written j = false ∧ clipped j = true ∧ τ.writeCell 0 cmd t.dst t.disp c.2 v 0 = .ok none ∧ σ (j + 1) = τ))

/-- The copy in flight that a row of n cells leaves (R99, R104, R107): its progress, and its message once the row was its last. -/
def CopyRun.moved (r : CopyRun) (n : Nat) (written clipped bad : Nat → Bool) (last : Bool) (tag : BitVec 8) : CopyRun :=
  let w := r.written + ((List.range n).filter written).length
  let c := r.clipped || (List.range n).any clipped
  let d := r.dataErr || (List.range n).any bad
  { r with
    pos := r.pos + n, written := w, clipped := c, dataErr := d, entry := none
    post := if last then some (r.cmd.message 0 (max r.status (if d then 2 else if c then 1 else 0)) tag w) else r.post }

/-! ## Cells -/

/-- A cell lies in one of some dense boxes (R75). -/
def inBoxes (bs : List Box) (c : List Int) : Bool :=
  bs.any fun b => b.length == c.length && (List.zip b c).all fun p => decide (p.1.lo ≤ p.2) && decide (p.2 < p.1.lo + p.1.ext)

/-- A dense exact region of a rank, as R71 holds one: boxes of its rank and no empty extent. -/
def Region.plain (r : Region) (n : Nat) : Prop :=
  1 ≤ n ∧ n ≤ 7 ∧ r.rank = n ∧ r.kind = .dense ∧ r.inexact = false ∧ r.strides = List.replicate n 1 ∧
    ∀ b ∈ r.boxes, b.length = n ∧ ∀ sp ∈ b, 1 ≤ sp.ext

/-! ## What stays -/

/-- Every byte off the chip reads as before. -/
def SameMemory (s t : State) : Prop := ∀ a, readByte t.mem a = readByte s.mem a

/-- Every byte of every scratchpad and accumulator reads as before. -/
def SameWindows (s t : State) : Prop :=
  ∀ id a, readByte (t.coreAt id).spad a = readByte (s.coreAt id).spad a ∧ readByte (t.coreAt id).acc a = readByte (s.coreAt id).acc a

/-- Every core but the acting one is as before, save that its agents may have to see a write of an engine that they could miss (log 7). -/
def SameOthers (s t : State) : Prop := ∀ id, id ≠ s.cur →
  { t.coreAt id with unseen := [] } = { s.coreAt id with unseen := [] } ∧ ∀ u ∈ (t.coreAt id).unseen, u ∈ (s.coreAt id).unseen

/-- Clusters, partitions but for their TLBs, cinches, slots and the management side are as before. -/
def SameUncore (s t : State) : Prop :=
  t.clusters = s.clusters ∧ t.cinches = s.cinches ∧ t.slots = s.slots ∧ t.mgmt = s.mgmt ∧ t.cur = s.cur ∧ t.tick = s.tick ∧
    t.agenda = s.agenda ∧ t.poison = s.poison ∧ t.parts.map (fun e => (e.1, { e.2 with tlb := [] })) =
      s.parts.map (fun e => (e.1, { e.2 with tlb := [] }))

/-- The registers of a class that R38 gives a core, but for x, and its accumulators. -/
def SameVectors (c d : Core) : Prop :=
  d.regs.td = c.regs.td ∧ d.regs.vp = c.regs.vp ∧ d.regs.vpIssue = c.regs.vpIssue ∧ d.regs.q0 = c.regs.q0 ∧ d.regs.q1 = c.regs.q1 ∧
    d.acc = c.acc ∧ d.actype = c.actype

/-- The CSRs of a core but for `instret`, `fflags`, `clipc` and `rgovf`; its trap CSRs and mode; engines, tiles and inbox. -/
def SameControl (c d : Core) : Prop :=
  { d.csr with instret := 0, fflags := 0, clipc := 0, rgovf := 0 } = { c.csr with instret := 0, fflags := 0, clipc := 0, rgovf := 0 } ∧
    d.trap = c.trap ∧ d.sup = c.sup ∧ d.eng = c.eng ∧ d.tiles = c.tiles ∧ d.inbox = c.inbox ∧ d.router = c.router ∧
    d.seqctr = c.seqctr ∧ d.ring = c.ring ∧ d.bound = c.bound

/-- An engine's turn changes neither registers but q0, q1 and vector pointers, nor other cores, nor memory off the chip. -/
def EngineFrame (s t : State) : Prop :=
  t.core.regs.x = s.core.regs.x ∧ t.core.regs.f = s.core.regs.f ∧ t.core.regs.bx = s.core.regs.bx ∧ t.core.regs.td = s.core.regs.td ∧
    t.core.pc = s.core.pc ∧ t.core.sup = s.core.sup ∧ t.core.trap = s.core.trap ∧ t.core.tiles = s.core.tiles ∧ SameMemory s t ∧
    SameOthers s t

end Sys2Proof.Machine
end

