-- ==== Sys2Proof/Certificates/Slice0/Obligations.lean ====
section
/-!
DEFINITION. The statements about the machine, each a proposition; none is proved here.
-/

open Sys2Proof Sys2Proof.Machine

/-! ## Reset and the step -/

/-- R341, R346, R350, R335: the device right after power-on has no owner, no partition, no request, no failure counted, and waits
for firmware in power state A0. R41 and log 4, log 5 (the model's choices): every core is idle with the registers R41 gives at bind,
`mxrow` naming the core's own column (R44), and every byte of memory reads zero. -/
def Obligations.ResetState : Prop :=
  State.reset.mgmt.owner = 0xF ∧ State.reset.mgmt.epoch = 0 ∧ State.reset.mgmt.reqState = 0 ∧ State.reset.mgmt.reqStatus = 0 ∧
    State.reset.mgmt.pstate = 0 ∧ State.reset.mgmt.fails = 0 ∧ State.reset.mgmt.minimal = false ∧ State.reset.mgmt.up = [] ∧
    State.reset.mgmt.stage = .waiting ∧ State.reset.parts = [] ∧ State.reset.mgmt.signals = [] ∧
    (∀ a, readByte State.reset.mem a = 0) ∧
    ∀ id, id < 4096 → ∀ (r : Reg) (r4 : Reg4),
      let c := State.reset.coreAt id
      c.x r = 0 ∧ c.f r = 0 ∧ c.bx r4 = Region.null ∧ c.td r4 = Td.zero ∧ c.vp r4 = VPtr.zero ∧ c.regs.q0 = [] ∧ c.regs.q1 = [] ∧
        c.csr.mxrow = 1#4 <<< (id % 4) ∧ c.csr.vflags = 0 ∧ c.csr.fflags = 0 ∧ c.csr.frm = 0 ∧ c.csr.instret = 0 ∧ c.seqctr = 0 ∧
        c.tiles = [] ∧ c.inbox = [] ∧ c.bound = .idle ∧ c.sup = false ∧ c.trap.ih = false ∧ c.gang = none ∧ c.loop.mode = .none ∧
        ∀ a, readByte c.spad a = 0 ∧ readByte c.acc a = 0

/-- The memories of the device after reset are canonical (log 4): addresses rise and no listed byte is zero. -/
def Obligations.ResetMemoriesCanonical : Prop := State.reset.memoriesWf = true

/-- Every memory the device holds (off-chip memory, every scratchpad and accumulator window, the contexts of tasks that are off
their cores, the memories of the management side) stays canonical over every step (log 4), so that two equal memories are the
same data. -/
def Obligations.StepKeepsMemoriesCanonical : Prop :=
  ∀ s s' : State, s.memoriesWf = true → step s = .next s' → s'.memoriesWf = true

/-- R53, R247, R311 and log 2: a turn of a control stream whose core may run, with no engine fault to take, executes exactly the
instruction that the word fetched at its pc decodes to; a member of a gang is held at an instruction in which another member waits for its
own queues, and changes nothing but its wait. Outside a loop body a core in no gang fetches from the place that its pc
resolves to, and, with no store of its own since its last `fence.i` to that line, the word is the four bytes there, little-endian.
R20 to R25 and log 2: a turn of an engine that may run executes the command that the words of its head, or of the command in flight,
decode to: of the copy engine's queue or any of its copies in flight, of the vector engine, of an accumulator command at the head of the
matrix engine, of the collective engine, and of the media engine; at a matrix instruction, and while a joint product runs, the matrix
engine takes a step of the product. An engine with nothing at hand, or with a finished command whose message is still to post, does
nothing. A turn of the policy program executes the half-word of the program at the decision's index (R229); an event laid down executes
itself. A turn of a core number that no device has is the one stop of the step, and no step is refused. -/
def Obligations.StepRunsTheTurn : Prop :=
  ((∀ (s s' : State) (id : Nat) (rest : List Turn) (w : Word32) (i : Instr),
    s.agenda = .stream id :: rest → id < 4096 → s.mgmt.pstate = 0 → (s.coreAt id).runnable = true →
    ((s.coreAt id).faults = [] ∨ (s.coreAt id).trap.ih = true) →
    (s.advance.act id).fetchWord = .ok (w, s') → decode32 w = .ok i →
      (s'.gangHold? i = none → step s = exec i s') ∧ (s'.core.gang = none → s'.gangHold? i = none) ∧
      ∀ h, s'.gangHold? i = some h → step s = .next (s'.updCore fun c => { c with wait := h })) ∧
  ∀ (s s' : State) (pl : Place), s.core.gang = none → s.core.loop.running = false → s.core.pc.toNat % 4 = 0 →
    s.resolve s.core.sup .exec s.core.pc.toNat 4 6 = .ok (pl, s') → s.poisoned pl.phys 4 = false →
    (∀ e ∈ s.core.stale, e.1 ≠ pl.phys / 64) →
    ∃ t : State, s.fetchWord = .ok (BitVec.ofNat 32 (s.readPlace pl 4), t) ∧ t = s'.act s.cur) ∧
  (∀ (s : State) (id pick : Nat) (e : BitVec 3) (rest : List Turn),
    s.agenda = .engine id e pick :: rest → id < 4096 → s.mgmt.pstate = 0 → (s.coreAt id).enginesRun = true →
    let g := (s.coreAt id).eng
    let t := s.advance.act id
    let picked := t.updCore fun c => { c with eng := { c.eng with pick := pick } }
    (∀ (cmd : Cmd) (i : Instr), decodeCommand e cmd.words = .ok i →
      (e = 0 → pick = 0 → g.cq.head? = some cmd → step s = exec i picked) ∧
      (e = 0 → ∀ k r, pick = k + 1 → g.copies[k]? = some r → r.cmd = cmd → step s = exec i picked) ∧
      (e = 1 → g.vrun = none → g.vq.head? = some cmd → step s = exec i t) ∧
      (e = 1 → ∀ r, g.vrun = some r → r.cmd = cmd → step s = exec i t) ∧
      (e = 2 → g.mrun = none → g.mq.head? = some cmd → cmd.mx = none → step s = exec i t) ∧
      (e = 3 → g.krun = none → g.kq.head? = some cmd → step s = exec i t) ∧
      (e = 3 → ∀ r, g.krun = some r → r.cmd = cmd → step s = exec i t) ∧
      (e = 4 → g.drun = none → g.dq.head? = some cmd → step s = exec i t)) ∧
    (e = 2 → (∃ cmd, g.mrun = none ∧ g.mq.head? = some cmd ∧ cmd.mx.isSome = true) ∨ (∃ p, g.mrun = some (.product p)) →
      step s = exec (.jointProductStart id) t) ∧
    ((e = 0 ∧ pick = 0 ∧ g.cq = []) ∨ (e = 1 ∧ g.vrun = none ∧ g.vq = []) ∨ (e = 2 ∧ g.mrun = none ∧ g.mq = []) ∨
      (e = 2 ∧ ∃ c l m, g.mrun = some (.posting c l m)) ∨ (e = 3 ∧ g.krun = none ∧ g.kq = []) ∨
      (e = 4 ∧ (g.drun.isSome = true ∨ g.dq = [])) → step s = .next t)) ∧
  ((∀ (s : State) (pn : Nat) (rest : List Turn) (p : Partition) (d : Decision) (pol : Policy) (w : BitVec 16) (i : Instr),
    s.agenda = .bridle pn :: rest → alGet pn s.parts = some p → p.decision = some d → p.program = some pol →
    pol.code[d.index]? = some w → decodeBridle w = .ok i → step s = exec i (s.advance.act (p.phys 0))) ∧
  (∀ (s : State) (rest : List Turn) (i : Instr), encode i = .none → (∀ p, i ≠ .queueDeadlock p) →
    s.agenda = .event i :: rest → step s = exec i s.advance)) ∧
  (∀ (s : State) (rest : List Turn) (id pick : Nat) (e : BitVec 3), 4096 ≤ id →
    s.agenda = .stream id :: rest ∨ s.agenda = .engine id e pick :: rest → step s = .fault (.noSuchAgent id)) ∧
  (∀ (s : State) (f : Fault), step s = .fault f → ∃ (id pick : Nat) (e : BitVec 3), f = .noSuchAgent id ∧ 4096 ≤ id ∧
    (s.nextTurn? = some (.stream id) ∨ s.nextTurn? = some (.engine id e pick))) ∧
  ∀ (s : State) (r : Refusal), step s ≠ .refused r

/-! ## Encodings -/

/-- R54 to R67, R229: decoding the words of a well-formed instruction gives it back, for every instruction, every command and every
bridle step, with every operand at every value its encoding admits; a row that no word encodes is an event. -/
def Obligations.EncodeDecodeAgree : Prop := ∀ i : Instr, Laws.RoundTrip.Statement i

/-- R54, R56 to R62, R65 to R69, R229: decoding is sound. A 32-bit word, a 16-bit bridle word and the 256 bits of a command for an engine
that decode at all decode to a well-formed instruction whose encoding is those very bits: no bit is ignored, no reserved word falls
through to a neighbour, and no two words mean one instruction. -/
def Obligations.WordsHaveOneMeaning : Prop :=
  (∀ (w : Word32) (i : Instr), decode32 w = .ok i → i.wf = true ∧ encode i = .word w) ∧
  (∀ (w : BitVec 16) (i : Instr), decodeBridle w = .ok i → i.wf = true ∧ encode i = .half w) ∧
  ∀ (e : BitVec 3) (w : CmdWords) (i : Instr), decodeCommand e w = .ok i → i.wf = true ∧ encode i = .command e w

/-- The manual's own worked encodings decode to the instructions it writes beside them (R157, R188, R195, R216, R231, R246,
R250, R306, R307, R317). -/
def Obligations.SpecWordsDecode : Prop :=
  decode32 0x1002D00B = .ok (.qPush 5) ∧ decode32 0x1200558B = .ok (.qPop 11) ∧ decode32 0x1410530B = .ok (.qCnt 6 1) ∧
    decode32 0x0EE102DB = .ok (.tLd 5 2 14) ∧ decode32 0x20C5D28B = .ok (.paPeer 5 11 12) ∧
    decode32 0x1005707B = .ok (.polSwap 10) ∧ decode32 0x3001500B = .ok (.gFuse 2) ∧ decode32 0x3200500B = .ok .gSplit ∧
    decode32 0x4005528B = .ok (.tkTake 5 10) ∧ decode32 0x42B5500B = .ok (.tkClr 10 11) ∧
    decode32 0x4405530B = .ok (.tkQs 6 10) ∧ decode32 0x16B5707B = .ok (.tlbInv 10 11) ∧
    decode32 0x12B5707B = .ok (.migBegin 10 11) ∧ decode32 0x14B5707B = .ok (.migEnd 10 11) ∧ decode32 0x0000707B = .ok .tret ∧
    decode32 0x0092F35B = .ok (.tsSpawn 6 5 9 0) ∧ decode32 0x0200705B = .ok .tsExit ∧ decode32 0x0A00755B = .ok (.tsWeight 10) ∧
    decode32 0x120074DB = .ok (.fuNew 9) ∧ decode32 0x1A74F05B = .ok (.fuSet 9 7) ∧ decode32 0x220575DB = .ok (.fuGet 11 10) ∧
    decode32 0x2A04F2DB = .ok (.fuPoll 5 9) ∧ decode32 0x3204F05B = .ok (.fuDrop 9)

/-! ## The standard part -/

/-- R43, R247, R255: an instruction that retires adds one to `instret` and ends any wait. Alone, the core goes on at the next address; at
the end of a pass of a loop body it goes back to the body's start while passes are left, and on past it after the last one; in a gang it
waits, at its old pc, until every member has retired, and then each member goes on where the leader goes. R54, R247, R254, R256: jumps and
branches. A taken target that is not a multiple of 4 raises MISALIGNED at the jump, with the target, but on a gang's follower, which goes
where the leader goes; a branch or `jal` that would leave a running body is ILLEGAL_INSTRUCTION there; `jalr` clears bit 0 of its target.
A follower whose own target is misaligned waits until its leader has jumped. Log 17 (the model's reading): the jump itself traps. -/
def Obligations.RetireAndControlFlow : Prop :=
  ((∀ (s : State) (npc : Word), Alone s → s.retire npc = s.updCore fun c =>
    { c with pc := npc, wait := .none, csr := { c.csr with instret := c.csr.instret + 1 } }) ∧
  (∀ (s : State) (npc : Word), s.core.gang = none → s.core.loop.mode = .loop → s.core.loop.suspended = false →
    npc = s.core.loop.bodyEnd → s.core.loop.left ≠ 0 → s.retire npc = s.updCore fun c =>
      { c with
        pc := s.core.loop.start, wait := .none, csr := { c.csr with instret := c.csr.instret + 1 }
        loop := { c.loop with pass := s.core.loop.pass + 1, left := s.core.loop.left - 1 } }) ∧
  (∀ (s : State) (npc : Word), s.core.gang = none → s.core.loop.mode = .loop → s.core.loop.suspended = false →
    npc = s.core.loop.bodyEnd → s.core.loop.left = 0 → s.retire npc = s.updCore fun c =>
      { c with
        pc := npc, wait := .none, csr := { c.csr with instret := c.csr.instret + 1 }, loop := { c.loop with mode := .none } }) ∧
  (∀ (s : State) (npc : Word) (g : Gang) (m : Nat), s.core.gang = some g → m < g.size → g.leader + m ≠ s.cur →
    ((s.coreAt (g.leader + m)).gang.bind (·.retired)) = none → s.retire npc = s.updCore fun c =>
      { c with wait := .none, csr := { c.csr with instret := c.csr.instret + 1 }, gang := some { g with retired := some npc } }) ∧
  ∀ (s : State) (npc lpc : Word) (g : Gang), s.core.gang = some g → s.cur = g.leader + (g.size - 1) → 2 ≤ g.size →
    (∀ m, m + 1 < g.size → (s.coreAt (g.leader + m)).gang = some { g with retired := some lpc }) →
    (s.coreAt g.leader).loop.running = false →
    ∀ m, m < g.size → ((s.retire npc).coreAt (g.leader + m)).pc = lpc ∧
      ((s.retire npc).coreAt (g.leader + m)).gang = some { g with retired := none }) ∧
  (∀ (s : State) (d a b : Reg) (j : BitVec 20) (imm : BitVec 12) (op : BrOp),
    let x := s.x a
    let y := s.x b
    let pc := s.core.pc
    let tj := pc + (j ++ 0#1).signExtend 64
    let tb := pc + (imm ++ 0#1).signExtend 64
    let tr := (x + imm.signExtend 64) &&& ~~~1
    let stays (t : Word) : Prop := s.bodyIndex? = none ∨ inBody s.loop.start s.loop.body.length t = true
    let follows : Prop := ∃ g, s.core.gang = some g ∧ g.leader ≠ s.cur
    let led : Prop := ∃ g, s.core.gang = some g ∧ g.leader ≠ s.cur ∧ ((s.coreAt g.leader).gang.bind (·.retired)).isSome = true
    let waits (i : RvInstr) : Prop := exec (.rv64Compute i) s = .next (s.updCore fun c => { c with wait := .asleep })
    let taken : Bool := match op with
      | .beq => x == y | .bne => x != y | .blt => x.slt y | .bge => !x.slt y | .bltu => x.ult y | .bgeu => !x.ult y
    (stays tj → tj.toNat % 4 = 0 ∨ led → exec (.rv64Compute (.jal d j)) s = .next ((s.setX d (pc + 4)).retire tj)) ∧
    (stays tj → tj.toNat % 4 ≠ 0 → ¬ follows → Raises (.rv64Compute (.jal d j)) s 2 tj) ∧
    (stays tj → tj.toNat % 4 ≠ 0 → follows → ¬ led → waits (.jal d j)) ∧
    (¬ stays tj → Raises (.rv64Compute (.jal d j)) s 1 0) ∧
    (tr.toNat % 4 = 0 ∨ led → exec (.rv64Compute (.jalr d a imm)) s = .next ((s.setX d (pc + 4)).retire tr)) ∧
    (tr.toNat % 4 ≠ 0 → ¬ follows → Raises (.rv64Compute (.jalr d a imm)) s 2 tr) ∧
    (tr.toNat % 4 ≠ 0 → follows → ¬ led → waits (.jalr d a imm)) ∧
    (stays tb → taken = false → Completes (.rv64Compute (.branch op a b imm)) s s) ∧
    (stays tb → taken = true → tb.toNat % 4 ≠ 0 → follows → ¬ led → waits (.branch op a b imm)) ∧
    (stays tb → taken = true → tb.toNat % 4 = 0 ∨ led → exec (.rv64Compute (.branch op a b imm)) s = .next (s.retire tb)) ∧
    (stays tb → taken = true → tb.toNat % 4 ≠ 0 → ¬ follows → Raises (.rv64Compute (.branch op a b imm)) s 2 tb) ∧
    (¬ stays tb → Raises (.rv64Compute (.branch op a b imm)) s 1 0))

/-- R54: the integer arithmetic of RV64I and M as the RISC-V standard defines it, every form: the destination takes the value, x0
takes none, and control goes on at the next word. Division by zero gives all ones and the dividend; the one overflow wraps. -/
def Obligations.IntegerResults : Prop :=
  ∀ (s : State) (d a b : Reg) (imm : BitVec 12) (sh : BitVec 6) (sw : BitVec 5) (u : BitVec 20),
    let x := s.x a
    let y := s.x b
    let k := imm.signExtend 64
    let lo (v : Word) : Word32 := v.extractLsb' 0 32
    let gives (i : RvInstr) (v : Word) : Prop := Completes (.rv64Compute i) s (s.setX d v)
    let givesW (i : RvInstr) (v : Word32) : Prop := gives i (v.signExtend 64)
    (gives (.lui d u) ((u ++ 0#12).signExtend 64) ∧ gives (.auipc d u) (s.core.pc + (u ++ 0#12).signExtend 64)) ∧
    (gives (.opImm .addi d a imm) (x + k) ∧ gives (.opImm .slti d a imm) (if x.slt k then 1 else 0) ∧
      gives (.opImm .sltiu d a imm) (if x.ult k then 1 else 0) ∧ gives (.opImm .xori d a imm) (x ^^^ k) ∧
      gives (.opImm .ori d a imm) (x ||| k) ∧ gives (.opImm .andi d a imm) (x &&& k)) ∧
    (gives (.shiftImm .sll d a sh) (x <<< sh.toNat) ∧ gives (.shiftImm .srl d a sh) (x >>> sh.toNat) ∧
      gives (.shiftImm .sra d a sh) (x.sshiftRight sh.toNat) ∧ givesW (.addiw d a imm) (lo x + imm.signExtend 32) ∧
      givesW (.shiftImmW .sll d a sw) (lo x <<< sw.toNat) ∧ givesW (.shiftImmW .srl d a sw) (lo x >>> sw.toNat) ∧
      givesW (.shiftImmW .sra d a sw) ((lo x).sshiftRight sw.toNat)) ∧
    (gives (.op .add d a b) (x + y) ∧ gives (.op .sub d a b) (x - y) ∧ gives (.op .sll d a b) (x <<< (y.toNat % 64)) ∧
      gives (.op .slt d a b) (if x.slt y then 1 else 0) ∧ gives (.op .sltu d a b) (if x.ult y then 1 else 0) ∧
      gives (.op .xor d a b) (x ^^^ y) ∧ gives (.op .srl d a b) (x >>> (y.toNat % 64)) ∧
      gives (.op .sra d a b) (x.sshiftRight (y.toNat % 64)) ∧ gives (.op .or d a b) (x ||| y) ∧ gives (.op .and d a b) (x &&& y)) ∧
    (gives (.op .mul d a b) (x * y) ∧ gives (.op .mulh d a b) (BitVec.ofInt 64 (x.toInt * y.toInt / 2 ^ 64)) ∧
      gives (.op .mulhsu d a b) (BitVec.ofInt 64 (x.toInt * (y.toNat : Int) / 2 ^ 64)) ∧
      gives (.op .mulhu d a b) (BitVec.ofNat 64 (x.toNat * y.toNat / 2 ^ 64)) ∧
      gives (.op .div d a b) (if y = 0 then BitVec.allOnes 64 else x.sdiv y) ∧ gives (.op .rem d a b) (x.srem y) ∧
      gives (.op .divu d a b) (if y = 0 then BitVec.allOnes 64 else x / y) ∧ gives (.op .remu d a b) (x % y)) ∧
    (givesW (.opW .addw d a b) (lo x + lo y) ∧ givesW (.opW .subw d a b) (lo x - lo y) ∧
      givesW (.opW .sllw d a b) (lo x <<< ((lo y).toNat % 32)) ∧ givesW (.opW .srlw d a b) (lo x >>> ((lo y).toNat % 32)) ∧
      givesW (.opW .sraw d a b) ((lo x).sshiftRight ((lo y).toNat % 32)) ∧ givesW (.opW .mulw d a b) (lo x * lo y) ∧
      givesW (.opW .divw d a b) (if lo y = 0 then BitVec.allOnes 32 else (lo x).sdiv (lo y)) ∧
      givesW (.opW .remw d a b) ((lo x).srem (lo y)) ∧
      givesW (.opW .divuw d a b) (if lo y = 0 then BitVec.allOnes 32 else lo x / lo y) ∧
      givesW (.opW .remuw d a b) (lo x % lo y))

/-- R54, R114 to R117, R127: the F extension. Arithmetic rounds the exact result once, in the instruction's own mode or, for code 111, the
mode in `frm`, and accrues `fflags`, NV among them where an operand is a signalling NaN; a reserved mode is ILLEGAL_INSTRUCTION. A NaN
result is 0x7FC0_0000, of a sign injection too. A minimum or maximum takes -0 below +0 and the number beside a NaN; a comparison takes
-0 and +0 as equal and is false with a NaN, which sets NV only where it is signalling. A conversion to an integer that is out of range
sets NV and gives the end of the range, and the upper end for a NaN. Classes and moves are those of the RISC-V standard. Log 42 (the
model's choice): tininess is detected after rounding. -/
def Obligations.FloatResults : Prop :=
  ∀ (s : State) (d a b c : Reg) (rm : BitVec 3) (t : FInt),
    let x := s.f a
    let y := s.f b
    let vx := fval x
    let vy := fval y
    let vz := fval (s.f c)
    let nan : Word32 := 0x7FC00000
    let nv (z : Bool) : BitVec 5 := if z then 0x10 else 0
    let snan := isSnan32 x || isSnan32 y
    let sets (i : RvInstr) (v : Word32) (fl : BitVec 5) : Prop := Completes (.rv64Compute i) s (s.setFlagged d (v, fl))
    let setsX (i : RvInstr) (v : Word) (fl : BitVec 5) : Prop := Completes (.rv64Compute i) s (s.setXFlagged d v fl)
    (∀ m, s.core.frmOf rm = some m →
      let rounds (i : RvInstr) (r : Val × VFlags) (l : List Word32) : Prop :=
        Completes (.rv64Compute i) s (s.setFlagged d (finish32 m r (VFlags.when (l.any isSnan32) VFlags.nv)))
      (rounds (.farith .fadd d a b rm) (vx.add m vy) [x, y] ∧ rounds (.farith .fsub d a b rm) (vx.add m vy.neg) [x, y] ∧
        rounds (.farith .fmul d a b rm) (vx.mul vy) [x, y] ∧ rounds (.farith .fdiv d a b rm) (vx.div vy) [x, y] ∧
        rounds (.fsqrt d a rm) vx.sqrt [x]) ∧
      (rounds (.fused .fmadd d a b c rm) (Val.fma m vx vy vz) [x, y, s.f c] ∧
        rounds (.fused .fmsub d a b c rm) (Val.fma m vx vy vz.neg) [x, y, s.f c] ∧
        rounds (.fused .fnmsub d a b c rm) (Val.fma m vx.neg vy vz) [x, y, s.f c] ∧
        rounds (.fused .fnmadd d a b c rm) (Val.fma m vx.neg vy vz.neg) [x, y, s.f c]) ∧
      rounds (.fcvtToFloat t d a rm) (.ofInt (match t with
        | .w => ((s.x a).extractLsb' 0 32).toInt | .wu => ((s.x a).extractLsb' 0 32).toNat | .l => (s.x a).toInt
        | .lu => (s.x a).toNat), 0) [] ∧
      (isNan32 x = true ∨ isNan32 y = true → ∀ op, ∃ fl, Completes (.rv64Compute (.farith op d a b rm)) s (s.setFlagged d (nan, fl))) ∧
      (
        let lo : Int := match t with | .w => -(2 ^ 31) | .l => -(2 ^ 63) | .wu | .lu => 0
        let hi : Int := match t with | .w => 2 ^ 31 - 1 | .wu => 2 ^ 32 - 1 | .l => 2 ^ 63 - 1 | .lu => 2 ^ 64 - 1
        let reg (i : Int) : Word := match t with | .w | .wu => (BitVec.ofInt 32 i).signExtend 64 | .l | .lu => BitVec.ofInt 64 i
        let gives (i : Int) (fl : BitVec 5) : Prop := setsX (.fcvtToInt t d a rm) (reg i) fl
        (vx = .nan → gives hi 0x10) ∧ (vx = .inf true → gives lo 0x10) ∧ (vx = .inf false → gives hi 0x10) ∧
        ∀ n k e, vx = .fin n k e →
          let q := roundTo n k e 0 m 0
          let i : Int := signed n q.1
          (i < lo → gives lo 0x10) ∧ (hi < i → gives hi 0x10) ∧ (lo ≤ i → i ≤ hi → gives i (if q.2 then 1 else 0)))) ∧
    (s.core.frmOf rm = none → ∀ (op : FArith) (fu : FFused),
      Raises (.rv64Compute (.farith op d a b rm)) s 1 0 ∧ Raises (.rv64Compute (.fused fu d a b c rm)) s 1 0 ∧
        Raises (.rv64Compute (.fsqrt d a rm)) s 1 0 ∧ Raises (.rv64Compute (.fcvtToInt t d a rm)) s 1 0 ∧
        Raises (.rv64Compute (.fcvtToFloat t d a rm)) s 1 0) ∧
    (s.core.frmOf rm = (if rm = 7 then rmCode s.core.csr.frm else rmCode rm) ∧ rmCode 0 = some .rne ∧ rmCode 1 = some .rz ∧
      rmCode 2 = some .rdn ∧ rmCode 3 = some .rup ∧ rmCode 4 = some .rmm ∧ rmCode 5 = none ∧ rmCode 6 = none ∧ rmCode 7 = none) ∧
    (
      let signed (z : Bool) : Word32 := if isNan32 x then nan else BitVec.ofBool z ++ x.extractLsb' 0 31
      sets (.fpick .fsgnj d a b) (signed (y.getLsbD 31)) 0 ∧ sets (.fpick .fsgnjn d a b) (signed (!y.getLsbD 31)) 0 ∧
      sets (.fpick .fsgnjx d a b) (signed (x.getLsbD 31 != y.getLsbD 31)) 0) ∧
    (
      let picks (lo hi : Word32) : Prop := sets (.fpick .fmin d a b) lo (nv snan) ∧ sets (.fpick .fmax d a b) hi (nv snan)
      let orders (eq lt : Bool) : Prop := setsX (.fcmp .feq d a b) (if eq then 1 else 0) (nv snan) ∧
        setsX (.fcmp .flt d a b) (if lt then 1 else 0) (nv snan) ∧ setsX (.fcmp .fle d a b) (if eq || lt then 1 else 0) (nv snan)
      (isNan32 x = true → isNan32 y = true → picks nan nan) ∧ (isNan32 x = true → isNan32 y = false → picks y y) ∧
      (isNan32 x = false → isNan32 y = true → picks x x) ∧ (isNan32 x = true ∨ isNan32 y = true → orders false false) ∧
      (isNan32 x = false → isNan32 y = false →
        (vx.cmp vy = some .lt → picks x y ∧ orders false true) ∧ (vx.cmp vy = some .gt → picks y x ∧ orders false false) ∧
        (vx.cmp vy = some .eq → orders true false ∧ (x.getLsbD 31 = true → picks x y) ∧ (x.getLsbD 31 = false → picks y x)) ∧
        vx.cmp vy ≠ none)) ∧
    (
      let e := x.extractLsb' 23 8
      let f := x.extractLsb' 0 23
      let is (k : Nat) : Prop := Completes (.rv64Compute (.fclass d a)) s (s.setX d (BitVec.ofNat 64 (2 ^ k)))
      (x.getLsbD 31 = true → (e = 0xFF → f = 0 → is 0) ∧ (e ≠ 0 → e ≠ 0xFF → is 1) ∧ (e = 0 → f ≠ 0 → is 2) ∧ (e = 0 → f = 0 → is 3)) ∧
      (x.getLsbD 31 = false → (e = 0 → f = 0 → is 4) ∧ (e = 0 → f ≠ 0 → is 5) ∧ (e ≠ 0 → e ≠ 0xFF → is 6) ∧ (e = 0xFF → f = 0 → is 7)) ∧
      (e = 0xFF → f ≠ 0 → x.getLsbD 22 = false → is 8) ∧ (e = 0xFF → f ≠ 0 → x.getLsbD 22 = true → is 9)) ∧
    Completes (.rv64Compute (.fmvXW d a)) s (s.setX d (x.signExtend 64)) ∧
    Completes (.rv64Compute (.fmvWX d a)) s (s.setF d ((s.x a).extractLsb' 0 32))


/-- R54, R185, R186, R243: a load or store that passes the checks of R185 completes, sign- or zero-extended, at every scope; a load leaves
memory as it was. R9, R172, R177: a load of bytes that a write of the core's own engines has changed, one cell or element, and that no
dequeue has acquired, reads them as before or as after that write. A misaligned address raises MISALIGNED with the address, and an address
that resolves to nothing raises what its resolution raises. Through the own-core alias every address up to 0xB_FFFF is the core's own
scratchpad. R4, R243: the word of a line through the event-unit alias claims the line, sleeps until the line's next firing and then reads
the new phase; storing to it fires the line, and storing to a state word does nothing. Log 7 (the model's choice): a scope tells only
whether the core's own engines are in it. Log 14 (the model's choice): the mark of the sleep. -/
def Obligations.LoadsAndStores : Prop :=
  (∀ (s s1 : State) (d a : Reg) (imm : BitVec 12) (op : LoadOp) (pl : Place),
    Reads s (s.x a + imm.signExtend 64) (loadSize op) pl s1 → Settled s pl (loadSize op) →
      let v := s.readPlace pl (loadSize op)
      ∃ t, Looked s1 t ∧ Completes (.scalarLoad op d a imm) s (match op with
        | .lb => t.setX d ((BitVec.ofNat 8 v).signExtend 64) | .lh => t.setX d ((BitVec.ofNat 16 v).signExtend 64)
        | .lw => t.setX d ((BitVec.ofNat 32 v).signExtend 64) | .flw => t.setF d (BitVec.ofNat 32 v)
        | .ld | .lbu | .lhu | .lwu => t.setX d (BitVec.ofNat 64 v))) ∧
  (∀ (s s1 : State) (d a : Reg) (pl : Place), Reads s (s.x a) 8 pl s1 →
    ∃ (t : State) (v : Nat), Looked s1 t ∧ Completes (.scalarLoad .ld d a 0) s (t.setX d (BitVec.ofNat 64 v)) ∧
      ∀ (u : Unseen) (i n : Nat), u ∈ s.core.unseen → u.pa = pl.phys + i → u.old.length = n → i + n ≤ 8 → u.mask = 0xFF →
        u.new = ((leBytes (s.readPlace pl 8) 8).drop i).take n →
        (∀ w ∈ s.core.unseen, w.meets (pl.phys + i) n = true → w = u) →
        ((leBytes v 8).drop i).take n = u.new ∨ ((leBytes v 8).drop i).take n = u.old) ∧
  (∀ (s s1 : State) (d a : Reg) (sc : Scope) (pl : Place) (n : Nat), Reads s (s.x a) n pl s1 → Settled s pl n →
    let v := s.readPlace pl n
    let gives (i : Instr) (w : Word) : Prop := ∃ t, Looked s1 t ∧ Completes i s (t.setX d w)
    (n = 1 → gives (.lAqB d a sc) ((BitVec.ofNat 8 v).signExtend 64) ∧ gives (.lAqBu d a sc) (BitVec.ofNat 64 v)) ∧
    (n = 2 → gives (.lAqH d a sc) ((BitVec.ofNat 16 v).signExtend 64) ∧ gives (.lAqHu d a sc) (BitVec.ofNat 64 v)) ∧
    (n = 4 → gives (.lAqW d a sc) ((BitVec.ofNat 32 v).signExtend 64) ∧ gives (.lAqWu d a sc) (BitVec.ofNat 64 v)) ∧
    (n = 8 → gives (.lAqD d a sc) (BitVec.ofNat 64 v))) ∧
  (∀ (s s1 : State) (r a : Reg) (imm : BitVec 12) (op : StoreOp) (pl : Place),
    Writes s (s.x a + imm.signExtend 64) (storeSize op) pl s1 →
      Completes (.scalarStore op r a imm) s (match op with
        | .sb => s1.storePlace pl 1 ((s.x r).toNat % 2 ^ 8) | .sh => s1.storePlace pl 2 ((s.x r).toNat % 2 ^ 16)
        | .sw => s1.storePlace pl 4 ((s.x r).toNat % 2 ^ 32) | .sd => s1.storePlace pl 8 (s.x r).toNat
        | .fsw => s1.storePlace pl 4 (s.f r).toNat)) ∧
  (∀ (s s1 : State) (v a : Reg) (sc : Scope) (pl : Place) (n : Nat), Writes s (s.x a) n pl s1 →
    let t := s1.storePlace pl n ((s.x v).toNat % 2 ^ (8 * n)) (sc != .stream)
    (n = 1 → Completes (.sRlB v a sc) s t) ∧ (n = 2 → Completes (.sRlH v a sc) s t) ∧
      (n = 4 → Completes (.sRlW v a sc) s t) ∧ (n = 8 → Completes (.sRlD v a sc) s t)) ∧
  (∀ (s : State) (d a : Reg) (imm : BitVec 12) (op : LoadOp) (sop : StoreOp),
    let va := s.x a + imm.signExtend 64
    isEvent s.cur va.toNat = false →
      (va.toNat % loadSize op ≠ 0 → Raises (.scalarLoad op d a imm) s 2 va) ∧
      (va.toNat % storeSize sop ≠ 0 → Raises (.scalarStore sop d a imm) s 2 va) ∧
      (∀ f, va.toNat % loadSize op = 0 → s.core.overwriting = false →
        s.resolve s.core.sup .read va.toNat (loadSize op) 5 = .error (.fault f) →
        exec (.scalarLoad op d a imm) s = .next (s.raiseTrap (.scalarLoad op d a imm) f))) ∧
  (∀ (s : State) (d line : Reg) (ph : BitVec 16), heldByOther (s.clusterAt (clusterOf s.cur)).lines s.owner line.toNat = false →
    s.cur < 4096 → s.core.overwriting = false → s.core.wait = .lineWord line.toNat ph →
    (ph ≠ (resOf (s.clusterAt (clusterOf s.cur)).lines s.owner line.toNat).phase →
      Completes (.eventLineWordLoad d line) s (s.setX d (BitVec.zeroExtend 64 (ph + 1)))) ∧
    (ph = (resOf (s.clusterAt (clusterOf s.cur)).lines s.owner line.toNat).phase →
      exec (.eventLineWordLoad d line) s = .next ((s.updCluster (clusterOf s.cur) fun c => { c with
        lines := alSet (resKey s.owner line.toNat) (resOf c.lines s.owner line.toNat) c.lines }).updCore fun c =>
          { c with wait := .lineWord line.toNat ph }))) ∧
  (∀ (s : State) (line : Reg), heldByOther (s.clusterAt (clusterOf s.cur)).lines s.owner line.toNat = false → s.cur < 4096 →
    s.core.overwriting = false →
    Completes (.eventLineWordStore line) s (s.updCluster (clusterOf s.cur) fun c => c.fire s.owner line.toNat false)) ∧
  (∀ (s : State) (v a : Reg) (imm : BitVec 12) (off : Nat), s.core.overwriting = false → 0x100 ≤ off → off < 0x1C0 → off % 8 = 0 →
    s.x a + imm.signExtend 64 = BitVec.ofNat 64 (0xF1000F0000 + off) → Completes (.scalarStore .sd v a imm) s s) ∧
  ∀ (s : State) (sup : Bool) (r : Right) (off n src : Nat), 0 < n → off + n ≤ 0xC0000 →
    s.resolve sup r (0xF100000000 + off) n src = .ok (.spad s.cur off, s)

/-- R3, R54, R49 to R52, R186: what a core stores into its own scratchpad through the own-core alias, by a store or an `s.rl.*` of 1, 2, 4
or 8 bytes at any scope, it loads back by every load and `l.aq.*` of the same width at any scope, signed, unsigned and `flw`, and by the
`lw` of a stored 8-byte word's low half, for every aligned offset up to the end of the scratchpad; and nothing else in the scratchpad
changes. -/
def Obligations.ScratchpadStoreThenLoad : Prop :=
  ∀ (s t : State) (d r a b : Reg) (off n v : Nat) (st : Instr) (sc sd : Scope), Alone s → s.core.overwriting = false →
    off % n = 0 → off + n ≤ 0xC0000 → s.x a = BitVec.ofNat 64 (0xF100000000 + off) → b ≠ 0 → d ≠ 0 →
    s.poisoned (0xF000000000 + s.cur * 0x100000 + off) n = false → s.x b = s.x a →
    (∃ op, st = .scalarStore op r a 0 ∧ n = storeSize op ∧ v = if op = .fsw then (s.f r).toNat else (s.x r).toNat % 2 ^ (8 * n)) ∨
      (v = (s.x r).toNat % 2 ^ (8 * n) ∧
        (n = 1 ∧ st = .sRlB r a sc ∨ n = 2 ∧ st = .sRlH r a sc ∨ n = 4 ∧ st = .sRlW r a sc ∨ n = 8 ∧ st = .sRlD r a sc)) →
    exec st s = .next t →
    let loads (i : Instr) (w : Word) : Prop := ∃ u, exec i t = .next u ∧ u.x d = w ∧
      ∀ k, (k < off ∨ off + n ≤ k) → readByte u.core.spad k = readByte s.core.spad k
    let zero : Word := BitVec.ofNat 64 v
    (n = 1 → loads (.scalarLoad .lb d b 0) ((BitVec.ofNat 8 v).signExtend 64) ∧ loads (.scalarLoad .lbu d b 0) zero ∧
      loads (.lAqB d b sd) ((BitVec.ofNat 8 v).signExtend 64) ∧ loads (.lAqBu d b sd) zero) ∧
    (n = 2 → loads (.scalarLoad .lh d b 0) ((BitVec.ofNat 16 v).signExtend 64) ∧ loads (.scalarLoad .lhu d b 0) zero ∧
      loads (.lAqH d b sd) ((BitVec.ofNat 16 v).signExtend 64) ∧ loads (.lAqHu d b sd) zero) ∧
    (n = 4 → loads (.scalarLoad .lw d b 0) ((BitVec.ofNat 32 v).signExtend 64) ∧ loads (.scalarLoad .lwu d b 0) zero ∧
      loads (.lAqW d b sd) ((BitVec.ofNat 32 v).signExtend 64) ∧ loads (.lAqWu d b sd) zero ∧
      ∃ u, exec (.scalarLoad .flw d b 0) t = .next u ∧ u.f d = BitVec.ofNat 32 v) ∧
    (n = 8 → loads (.scalarLoad .ld d b 0) zero ∧ loads (.lAqD d b sd) zero ∧
      loads (.scalarLoad .lw d b 0) ((BitVec.ofNat 32 v).signExtend 64))

/-- The frame of a store that goes through (R54, R49, R50): it completes, every byte outside the stored ones reads as before in every
memory, and no register or control state of the core changes but its pc, `instret` and the note of R53 on stale lines. A store to an
accumulator residue word may also clear bits 31 to 17 of the words it touches (R49). A supervisor store into another core's
register window changes no memory. -/
def Obligations.StoreFrame : Prop :=
  ∀ (s s1 : State) (r a : Reg) (imm : BitVec 12) (op : StoreOp) (pl : Place), Alone s →
    Writes s (s.x a + imm.signExtend 64) (storeSize op) pl s1 →
    ∃ t, exec (.scalarStore op r a imm) s = .next t ∧
      (∀ b, (∀ pa, pl = .mem pa → b < pa ∨ pa + storeSize op ≤ b) → readByte t.mem b = readByte s.mem b) ∧
      (∀ id b, (∀ k off, pl = .spad k off → id = k → b < off ∨ off + storeSize op ≤ b) →
        readByte (t.coreAt id).spad b = readByte (s.coreAt id).spad b) ∧
      (∀ id b, (∀ k off, pl = .acc k off → id = k → b < off / 4 * 4 ∨ (off + storeSize op + 3) / 4 * 4 ≤ b) →
        readByte (t.coreAt id).acc b = readByte (s.coreAt id).acc b) ∧
      (∀ id, (∀ k off, pl = .regwin k off → id ≠ k) → (t.coreAt id).regs = (s.coreAt id).regs) ∧
      (∀ id, (t.coreAt id).csr = (s.coreAt id).csr ∨ id = s.cur) ∧
      SameControl s.core t.core ∧ t.clusters = s.clusters ∧ t.cinches = s.cinches ∧ t.slots = s.slots ∧ t.mgmt = s.mgmt

/-- The frame of the instructions that write registers only (R54, R83 to R93, R157, R195, R252): one that retires changes no memory,
no other core, no partition, and of its own core no x register but its destination, no f register but its destination, no region
register but its destination, and no pointer, descriptor, queue, trap CSR or engine. Of the task CSRs only `fflags` (F instructions)
and `rgovf` (region instructions) may change, beside `instret`. -/
def Obligations.RegisterFrame : Prop :=
  ∀ (i : Instr) (s t : State), i.registerOnly = true → Alone s → exec i s = .next t → Retired s t →
    SameMemory s t ∧ SameWindows s t ∧ SameOthers s t ∧ SameVectors s.core t.core ∧ SameControl s.core t.core ∧
      t.parts = s.parts ∧ t.clusters = s.clusters ∧ t.cinches = s.cinches ∧ t.slots = s.slots ∧ t.mgmt = s.mgmt ∧
      t.monitors = s.monitors ∧ t.poison = s.poison ∧ t.cur = s.cur ∧
      (∀ r, i.destX? ≠ some r → t.x r = s.x r) ∧ (∀ r, i.destF? ≠ some r → t.f r = s.f r) ∧
      (∀ r, i.destBx? ≠ some r → t.bx r = s.bx r) ∧ t.core.csr.clipc = s.core.csr.clipc ∧
      ((∀ j, i ≠ .rv64Compute j) → t.core.csr.fflags = s.core.csr.fflags) ∧
      (i.destBx? = none → t.core.csr.rgovf = s.core.csr.rgovf) ∧ t.x 0 = 0

/-! ## CSRs and ordering forms -/

/-- R43, R44, R45: a Zicsr instruction on a listed CSR reads its old value into the destination and writes the new one, the set and
clear forms only when their source is not x0 or zero; in task mode every supervisor CSR, and in either mode an address that is not
listed, a write to a read-only range and a mask that `mxrow` does not take, raise ILLEGAL_INSTRUCTION.
R23, R43, R44, R31, R314: what each CSR reads, the free slots of `qfree` and the fields of `tcause` and `tstat` among them. Log 3 (the
model's choice): `time` is the time base and `cycle` a free value. -/
def Obligations.CsrAccessAndValues : Prop :=
  (∀ (s : State) (op : CsrOp) (d : Reg) (src : CsrSrc) (a : BitVec 12), Allowed (.csrAccess op d src a) s →
    let v : Word := match src with | .reg r => s.x r | .imm u => u.zeroExtend 64
    let writes : Prop := op = .rw ∨ (match src with | .reg r => r ≠ 0 | .imm u => u ≠ 0)
    let priv : Prop := (0x5C0 ≤ a.toNat ∧ a.toNat ≤ 0x5FF) ∨ (0xDC0 ≤ a.toNat ∧ a.toNat ≤ 0xDFF)
    let ro : Prop := 0xC00 ≤ a.toNat ∧ a.toNat ≤ 0xDFF
    (∀ old, s.csrValue s.cur a.toNat = some old → (priv → s.core.sup = true) →
      (¬ writes → Completes (.csrAccess op d src a) s (s.setX d old)) ∧
      (writes → ro → Raises (.csrAccess op d src a) s 1 0) ∧
      (writes → ¬ ro →
        let new := match op with | .rw => v | .rs => old ||| v | .rc => old &&& ~~~v
        (a = 0x001 → Completes (.csrAccess op d src a) s
          ((s.updCore fun c => { c with csr := { c.csr with fflags := new.extractLsb' 0 5 } }).setX d old)) ∧
        (a = 0x002 → Completes (.csrAccess op d src a) s
          ((s.updCore fun c => { c with csr := { c.csr with frm := new.extractLsb' 0 3 } }).setX d old)) ∧
        (a = 0x003 → Completes (.csrAccess op d src a) s ((s.updCore fun c =>
          { c with csr := { c.csr with fflags := new.extractLsb' 0 5, frm := new.extractLsb' 5 3 } }).setX d old)) ∧
        (a = 0x800 → Completes (.csrAccess op d src a) s
          ((s.updCore fun c => { c with csr := { c.csr with cpb := new.extractLsb' 5 50 } }).setX d old)) ∧
        (a = 0x801 → new.toNat % 16 ∈ [1, 2, 3, 4, 8, 12, 15] → Completes (.csrAccess op d src a) s
          ((s.updCore fun c => { c with csr := { c.csr with mxrow := new.extractLsb' 0 4 } }).setX d old)) ∧
        (a = 0x801 → new.toNat % 16 ∉ [1, 2, 3, 4, 8, 12, 15] → Raises (.csrAccess op d src a) s 1 0) ∧
        (a = 0x802 → Completes (.csrAccess op d src a) s
          ((s.updCore fun c => { c with csr := { c.csr with vflags := new.extractLsb' 0 8 } }).setX d old)) ∧
        (a = 0x803 → Completes (.csrAccess op d src a) s
          ((s.updCore fun c => { c with csr := { c.csr with clipc := new.extractLsb' 0 32 } }).setX d old)) ∧
        (a = 0x804 → Completes (.csrAccess op d src a) s
          ((s.updCore fun c => { c with csr := { c.csr with rgovf := new.extractLsb' 0 32 } }).setX d old)) ∧
        (a = 0x5C0 → Completes (.csrAccess op d src a) s
          ((s.updCore fun c => { c with trap := { c.trap with tvec := new.extractLsb' 2 53 } }).setX d old)) ∧
        (a = 0x5C1 → Completes (.csrAccess op d src a) s
          ((s.updCore fun c => { c with trap := { c.trap with tepc := new.extractLsb' 2 62 } }).setX d old)) ∧
        (a = 0x5C2 ∨ a = 0x5C3 → Completes (.csrAccess op d src a) s (s.setX d old)) ∧
        (a = 0x5C4 → Completes (.csrAccess op d src a) s ((s.updCore fun c =>
          { c with trap := { c.trap with pm := new.getLsbD 1, rk := new.extractLsb' 2 2 } }).setX d old)) ∧
        (a = 0x5C5 → Completes (.csrAccess op d src a) s
          ((s.updCore fun c => { c with trap := { c.trap with tscratch := new } }).setX d old)))) ∧
    (priv → s.core.sup = false → Raises (.csrAccess op d src a) s 1 0) ∧
    (s.csrValue s.cur a.toNat = none → Raises (.csrAccess op d src a) s 1 0)) ∧
  (∀ s : State,
    let c := s.core
    let p := s.part
    let r (a : Nat) (v : Word) : Prop := s.csrValue s.cur a = some v
    r 0x001 (c.csr.fflags.zeroExtend 64) ∧ r 0x002 (c.csr.frm.zeroExtend 64) ∧ r 0x003 ((c.csr.frm ++ c.csr.fflags).zeroExtend 64) ∧
    r 0xC02 c.csr.instret ∧ r 0x800 ((c.csr.cpb ++ 0#5).zeroExtend 64) ∧ r 0x801 (c.csr.mxrow.zeroExtend 64) ∧
    r 0x802 (c.csr.vflags.zeroExtend 64) ∧ r 0x803 (c.csr.clipc.zeroExtend 64) ∧ r 0x804 (c.csr.rgovf.zeroExtend 64) ∧
    r 0xCC0 c.csr.tile0 ∧ r 0xCC1 c.csr.tile1 ∧ r 0xCC2 c.csr.tile2 ∧ r 0xCC3 (BitVec.ofNat 64 (s.cur % 16)) ∧
    r 0xCC4 (BitVec.ofNat 64 ((coreY s.cur - 4 * p.y0) * (4 * p.w) + (coreX s.cur - 4 * p.x0))) ∧
    r 0xCC5 (BitVec.ofNat 64 (4 * p.w ||| (4 * p.h) <<< 8)) ∧ r 0xCC7 c.csr.rngctr ∧ r 0xCC8 c.csr.jobseed ∧ r 0xCC9 c.csr.taskno ∧
    r 0xCCA (c.csr.launchid.zeroExtend 64) ∧ r 0xCCB (c.seqctr.zeroExtend 64) ∧ r 0x5C0 ((c.trap.tvec ++ 0#2).zeroExtend 64) ∧
    r 0x5C1 (c.trap.tepc ++ 0#2) ∧ r 0x5C3 c.trap.tval ∧ r 0x5C5 c.trap.tscratch ∧ r 0xDC0 (BitVec.ofNat 64 s.cur) ∧
    r 0xDC1 (c.csr.fdom.zeroExtend 64) ∧ r 0xDC2 (BitVec.ofNat 64 c.part) ∧ (∃ v, r 0xC00 v) ∧ r 0xC01 s.clock ∧
    r 0x5C2 ((c.trap.detail ++ c.trap.cause).zeroExtend 64) ∧
    r 0x5C4 ((c.trap.seq ++ 0#7 ++ BitVec.ofBool c.trap.more ++ c.trap.eng ++ BitVec.ofBool c.trap.imp ++ c.trap.rk ++
      BitVec.ofBool c.trap.pm ++ BitVec.ofBool c.trap.ih).zeroExtend 64) ∧
    (
      let g := c.eng
      let n (depth queued : Nat) (runs : Bool) : Nat := depth - (queued + if runs then 1 else 0)
      r 0xCC6 (BitVec.ofNat 64 (n 16 g.vq.length g.vrun.isSome + 2 ^ 8 * n 16 g.cq.length false +
        2 ^ 16 * n 8 g.mq.length g.mrun.isSome + 2 ^ 20 * n 8 g.kq.length g.krun.isSome + 2 ^ 24 * n 4 g.dq.length g.drun.isSome +
        2 ^ 32 * (32 - c.regs.q0.length) + 2 ^ 40 * c.regs.q1.length))) ∧
    (∀ a, a < 4096 → a ∉ [0x001, 0x002, 0x003, 0xC00, 0xC01, 0xC02, 0x800, 0x801, 0x802, 0x803, 0x804, 0xCC0, 0xCC1, 0xCC2, 0xCC3,
      0xCC4, 0xCC5, 0xCC6, 0xCC7, 0xCC8, 0xCC9, 0xCCA, 0xCCB, 0x5C0, 0x5C1, 0x5C2, 0x5C3, 0x5C4, 0x5C5, 0xDC0, 0xDC1, 0xDC2] →
      s.csrValue s.cur a = none))

/-- R53, R54, R187, R196 and log 7: memory is one order in this model, so a fence at stream scope and an instruction prefetch only go on
at the next word; a fence at a wider scope leaves nothing but a note that the writes which the stream has seen, and for a release its own
stores, come before its later ones; `fence.i` also makes every earlier store visible to later fetches. Pinning adds the lines of the range
that translate with execute permission, a line of the second level for each launch that pins it; unpinning removes every line that
translates; log 47 (the model's choice): a line of the first level has its set by its
number modulo 128. A level that is none of 1, 2, 3 is ILLEGAL_INSTRUCTION.
R54, R313: `ecall` takes ENV_CALL with a value of 0 and `ebreak` takes BREAKPOINT with the pc, both at their own address. A precise
fault is taken at the instruction's own address, with the word as the value of an ILLEGAL_INSTRUCTION. -/
def Obligations.OrderingFormsAndEnvironmentCall : Prop :=
  ((∀ (s : State) (sc : Scope), sc = .stream → Completes (.feFull sc) s s ∧ Completes (.feAcq sc) s s ∧ Completes (.feRel sc) s s) ∧
  (∀ (s : State) (fm pr su : BitVec 4) (d a : Reg) (sc : Scope), sc ≠ .stream →
    (∀ i, i = .fence fm pr su d a ∨ i = .feFull sc ∨ i = .feAcq sc ∨ i = .feRel sc → ∃ c, Completes i s (s.updCore fun _ => c) ∧
      { c with unseen := [] } = { s.core with unseen := [] } ∧
      ∀ u ∈ c.unseen, ∃ v ∈ s.core.unseen, { u with met := false } = { v with met := false } ∧
        (v.since.isSome = true → (i = .feAcq sc → v.isStore = false) → u.met = true))) ∧
  (∀ (s : State) (imm : BitVec 12) (d a : Reg), Completes (.fenceI imm d a) s (s.updCore fun c => { c with stale := [] })) ∧
  (∀ (s : State) (l x n : Reg), 1 ≤ l.toNat → l.toNat ≤ 3 → Completes (.icPf l x n) s s) ∧
  (∀ (s : State) (l x n : Reg), l.toNat = 0 ∨ 4 ≤ l.toNat →
    Raises (.icPf l x n) s 1 0 ∧ Raises (.icPin l x n) s 1 0 ∧ Raises (.icUnpin l x n) s 1 0) ∧
  ∀ (s : State) (x n : Reg) (line : Nat),
    (s.x n).toNat ≠ 0 → (s.x x).toNat / 64 = line → ((s.x x).toNat + (s.x n).toNat - 1) / 64 = line →
    (s.execLine line = none → Completes (.icPin 1 x n) s (s.updCore fun c => c)) ∧
    (s.pinLine line = none → Completes (.icUnpin 1 x n) s (s.updCore fun c => c)) ∧
    (∀ p, s.pinLine line = some p →
      Completes (.icUnpin 1 x n) s (s.updCore fun c => { c with pins := s.core.pins.filter fun q => q ≠ p }) ∧
      Completes (.icUnpin 2 x n) s (s.updCluster (s.cur / 16) fun c => { c with pins := c.pins.filter fun q => q.1 ≠ p })) ∧
    ∀ p, s.execLine line = some p →
      (p ∉ s.core.pins → (s.core.pins.filter fun q => q % 128 == p % 128).length < 2 →
        Completes (.icPin 1 x n) s (s.updCore fun c => { c with pins := s.core.pins ++ [p] })) ∧
      (let pins := (s.clusterAt (s.cur / 16)).pins
      (p, s.owner) ∉ pins → p ∈ pins.map (·.1) ∨ (pins.map (·.1)).eraseDups.length < 4096 →
        Completes (.icPin 2 x n) s (s.updCluster (s.cur / 16) fun c => { c with pins := c.pins ++ [(p, s.owner)] }))) ∧
  ((∀ s : State, exec .ecall s = .next (s.takeTrap ⟨7, 0, 0, false, 0, 0⟩ s.core.pc) ∧
    exec .ebreak s = .next (s.takeTrap ⟨8, s.core.pc, 0, false, 0, 0⟩ s.core.pc)) ∧
  (∀ (s : State) (i : Instr) (w : Word32), encode i = .word w →
    s.raiseTrap i (.of 1 0) = s.takeTrap ⟨1, w.zeroExtend 64, 0, false, 0, 0⟩ s.core.pc) ∧
  ∀ (s : State) (i : Instr) (cause : Cause) (v : Word), cause ≠ 1 →
    s.raiseTrap i (.of cause v) = s.takeTrap ⟨cause, v, 0, false, 0, 0⟩ s.core.pc)

/-! ## Exceptions -/


/-- R311, R312, R315, R320: a trap that is not nested, on a core with a handler and in no gang, saves the address, cause, value and
mode, sets ih, clears rk, goes to the handler in supervisor mode, suspends a running loop, leaves every register class and task CSR
alone, and has written its record into the partition's log, at its place modulo the log's size, before the handler's first
instruction; the log's count and the core's record number advance. -/
def Obligations.TrapEntrySavesAndRedirects : Prop :=
  ∀ (s : State) (t : Trap) (pc : Word), s.core.gang = none → s.core.trap.ih = false → s.core.trap.tvec ≠ 0 → pc.toNat % 4 = 0 →
    (alGet s.core.part s.parts).isSome = true →
    let u := s.takeTrap t pc
    let p := s.part
    let at' := p.logBase + 64 + 64 * (p.records % 2 ^ p.logK)
    (u.core.pc = (s.core.trap.tvec ++ 0#2).zeroExtend 64 ∧ u.core.sup = true ∧ u.core.trap.tepc ++ 0#2 = pc ∧
      u.core.trap.cause = BitVec.ofNat 16 t.cause ∧ u.core.trap.detail = t.detail ∧ u.core.trap.tval = t.tval ∧
      u.core.trap.ih = true ∧ u.core.trap.pm = s.core.sup ∧ u.core.trap.rk = 0 ∧ u.core.trap.imp = t.imp ∧
      u.core.trap.eng = t.eng ∧ u.core.trap.seq = t.seq ∧ u.core.trap.more = !s.core.faults.isEmpty) ∧
    (u.core.trap.tvec = s.core.trap.tvec ∧ u.core.trap.tscratch = s.core.trap.tscratch ∧ u.core.regs = s.core.regs ∧
      u.core.csr = s.core.csr ∧ u.core.wait = .none ∧ u.core.bound = s.core.bound ∧ u.core.spad = s.core.spad ∧
      u.core.eng = s.core.eng ∧ (s.core.loop.mode = .none → u.core.loop = s.core.loop) ∧
      (s.core.loop.mode ≠ .none → u.core.loop = { s.core.loop with suspended := true })) ∧
    readLE u.mem at' 64 = (s.trapRecord t pc).image s.clock s.core.recseq % 2 ^ 512 ∧
    readLE u.mem p.logBase 8 = (p.records + 1) % 2 ^ 64 ∧ u.core.recseq = s.core.recseq + 1 ∧ u.part.records = p.records + 1 ∧
    (∀ b, b < p.logBase ∨ (p.logBase + 64 ≤ b ∧ (b < at' ∨ at' + 64 ≤ b)) → readByte u.mem b = readByte s.mem b)

/-- R311, R312: at a boundary with no handler running, the pending engine fault whose issue is the oldest, counted back from `sqnext`, is
taken before the instruction there, wherever it stands among the pending ones, at the address of that instruction, as an engine fault with
its sequence number. R247, R255, R311: a member of a gang that has executed the instruction takes a trap at the address it goes on at, and
past the end of a pass at the start of the next one. R316, R320: a trap taken while a handler runs
halts the core where it is, keeps the outer trap's CSRs and its mode, and appends a CORE_DOUBLE record of 64 bytes whose value is the nested
cause and whose pc is where it was raised; it asks the dispatcher for a fault decision with cause CORE_DOUBLE if a task is bound, and puts
the partition of a supervisor core into recovery mode. Log 96 (the model's reading): the order of pending faults. Log 105 (the model's
reading): the record's engine, imprecise bit and sequence number are those of the outer trap. -/
def Obligations.EngineFaultsAndNestedTraps : Prop :=
  (∀ (s : State) (f : EngineFault) (pre post : List EngineFault), s.core.enginesRun = true → s.core.trap.ih = false →
    s.core.wait ≠ .token → s.core.faults = pre ++ f :: post → (∀ g ∈ pre, s.core.ageOf g.seq < s.core.ageOf f.seq) →
    (∀ g ∈ post, s.core.ageOf g.seq ≤ s.core.ageOf f.seq) →
    exec (.trapEntry s.cur) s = .next ((s.updCore fun c => { c with faults := pre ++ post }).takeTrap
      ⟨f.cause, f.tval, 0, true, f.eng, f.seq⟩ s.core.pc)) ∧
  (∀ (s : State) (t : Trap) (pc npc : Word) (g : Gang) (m : Nat), s.core.gang = some g → g.retired = some npc → m < g.size →
    s.cur = g.leader + m → s.core.trap.ih = false → s.core.trap.tvec ≠ 0 →
    let l := (s.coreAt g.leader).loop
    (l.running = false ∨ npc ≠ l.bodyEnd → (s.takeTrap t pc).core.trap.tepc = npc.extractLsb' 2 62) ∧
    (l.mode = .loop → l.suspended = false → npc = l.bodyEnd → l.left ≠ 0 →
      (s.takeTrap t pc).core.trap.tepc = l.start.extractLsb' 2 62)) ∧
  (∀ (s : State) (t : Trap) (pc : Word) (p : Partition), s.core.gang = none → s.core.trap.ih = true →
    alGet s.core.part s.parts = some p →
    let u := s.takeTrap t pc
    let k := s.core.trap
    let record : TrapRecord := ⟨s.lcore, 49, s.core.csr.fdom.toNat, k.seq.toNat, k.eng.toNat, k.imp, s.core.csr.launchid.toNat,
      BitVec.ofNat 64 t.cause, pc⟩
    (u.core.held = .double ∧ u.core.pc = s.core.pc ∧ u.core.sup = s.core.sup ∧ u.core.trap = s.core.trap ∧ u.core.regs = s.core.regs ∧
      u.core.runnable = false ∧ u.part.records = p.records + 1 ∧ u.core.recseq = s.core.recseq + 1) ∧
    readLE u.mem (p.logBase + 64 + 64 * (p.records % 2 ^ p.logK)) 64 = record.image s.clock s.core.recseq % 2 ^ 512 ∧
    (∀ l n k w r, s.core.bound = .task l n k w r →
      u.part.faults = p.faults ++ [⟨s.core.csr.fdom.toNat, 49, 0, some (l, k), some s.cur, false⟩]) ∧
    (s.core.bound = .supervisor → u.part.mode = .recovery ∧ u.part.faults = p.faults))

/-- R317, R266, R333: `tret` in a handler resumes at `tepc` in the mode before the trap with ih clear, or, with resume kind 01, hands
the task on; a reserved kind, task mode, or no handler running is ILLEGAL_INSTRUCTION. A loop that the trap suspended goes on if
`tepc` lies in its body, and is abandoned if it does not. On a halted launch the core stops at the boundary that `tret` reaches.
R315, R317: a trap and the `tret` of its handler, with nothing between, leave the core where it was: the same pc, mode and
registers of every class, the same task CSRs but for the one instruction retired, and no trap in progress. -/
def Obligations.TrapReturnRestores : Prop :=
  ((∀ s : State, s.core.sup = true → s.core.trap.ih = true → s.core.trap.rk = 0 →
    (s.core.loop.mode = .none ∨ s.core.loop.suspended = false) → s.launchHalted = false →
    exec .tret s = .next (s.updCore fun c => { c with
      pc := s.core.trap.tepc ++ 0#2, sup := s.core.trap.pm, wait := .none
      trap := { c.trap with ih := false }, csr := { c.csr with instret := c.csr.instret + 1 } })) ∧
  (∀ s : State, s.core.sup = true → s.core.trap.ih = true → s.core.trap.rk = 0 → s.core.loop.mode = .loop →
    s.core.loop.suspended = true →
    let pc := s.core.trap.tepc ++ 0#2
    ∃ t, exec .tret s = .next t ∧ t.core.pc = pc ∧ t.core.halted = (s.core.halted || s.launchHalted) ∧
      (s.core.loop.start.toNat ≤ pc.toNat → pc.toNat < s.core.loop.bodyEnd.toNat →
        t.core.loop = { s.core.loop with suspended := false }) ∧
      (pc.toNat < s.core.loop.start.toNat ∨ s.core.loop.bodyEnd.toNat ≤ pc.toNat → t.core.loop.mode = .none)) ∧
  (∀ s : State, s.core.sup = true → s.core.trap.ih = true → s.core.trap.rk = 1 →
    exec .tret s = .next (s.updCore fun c => { c with
      trap := { c.trap with ih := false }, csr := { c.csr with instret := c.csr.instret + 1 } }).handOn) ∧
  ∀ s : State, s.core.sup = false ∨ s.core.trap.ih = false ∨ 2 ≤ s.core.trap.rk.toNat → Raises .tret s 1 0) ∧
  (∀ (s : State) (t : Trap) (pc : Word), s.core.gang = none → s.core.trap.ih = false → s.core.trap.tvec ≠ 0 → pc.toNat % 4 = 0 →
    (s.core.loop.mode = .none ∨ (s.core.loop.mode = .loop ∧ s.core.loop.suspended = false ∧
      s.core.loop.start.toNat ≤ pc.toNat ∧ pc.toNat < s.core.loop.bodyEnd.toNat)) →
    s.launchHalted = false →
    ∃ v, exec .tret (s.takeTrap t pc) = .next v ∧ v.core.pc = pc ∧ v.core.sup = s.core.sup ∧ v.core.regs = s.core.regs ∧
      v.core.trap.ih = false ∧ v.core.csr = { s.core.csr with instret := s.core.csr.instret + 1 } ∧ v.core.loop = s.core.loop ∧
      v.core.spad = s.core.spad ∧ v.core.bound = s.core.bound ∧ v.core.eng = s.core.eng)

/-! ## Modes -/

/-- R306 to R308, R318, R319, R231: the system forms in the mode that may run them. `sq.rd` reads the issue ring or the data-error log,
all ones where there is no entry; `tlb.inv` drops every translation that meets its range; `mig.begin` and `mig.end` open and close a
migration over a mapped range; `sv.scrub` clears an idle core; `sv.halt` halts and resumes a launch; `pol.swap` installs a valid image once
no decision runs, and one of 0 takes the built-in policy back; an image whose header is wrong raises POLICY_INVALID.
R43, R65, R296, R317: in task mode no instruction reaches what belongs to supervisor code: every supervisor system form and every
access to a supervisor CSR raises ILLEGAL_INSTRUCTION, with the word as its value, and has none of its effects. -/
def Obligations.SupervisorFormsAndPrivilege : Prop :=
  ((∀ (s : State) (d i : Reg) (e : Issue), (s.x i).toNat < 2 ^ 16 → s.core.ring.find? (fun e => e.seq == (s.x i).extractLsb' 0 16) = some e →
    Completes (.sqRd d i) s (s.setX d (BitVec.ofNat 64 e.image))) ∧
  (∀ (s : State) (d i : Reg), (s.x i).toNat < 2 ^ 16 → (∀ e ∈ s.core.ring, e.seq ≠ (s.x i).extractLsb' 0 16) →
    Completes (.sqRd d i) s (s.setX d (BitVec.allOnes 64))) ∧
  (∀ (s : State) (d i : Reg) (k : Nat), k < 32 → (s.x i = BitVec.ofNat 64 (0x10000 + k) →
      Completes (.sqRd d i) s (s.setX d ((s.core.errlog[k]?.map (·.word0)).getD (BitVec.allOnes 64)))) ∧
    (s.x i = BitVec.ofNat 64 (0x20000 + k) →
      Completes (.sqRd d i) s (s.setX d ((s.core.errlog[k]?.map (·.word1)).getD (BitVec.allOnes 64))))) ∧
  (∀ (s : State) (d i : Reg), s.x i = 0x70000 → s.core.sup = true → Completes (.sqRd d i) s ((s.setX d
    (BitVec.ofNat 64 (s.core.errlog.length ||| s.core.errlost.toNat <<< 16))).updCore fun c => { c with errlog := [], errlost := 0 })) ∧
  (∀ (s : State) (a l : Reg), s.core.sup = true → Completes (.tlbInv a l) s (s.updPart fun p => { p with tlb := p.tlb.filter fun e =>
    !(decide (0 < (s.x l).toNat) && decide (e.va < (s.x a).toNat + (s.x l).toNat) && decide ((s.x a).toNat < e.va + e.size)) })) ∧
  (∀ (s : State) (a l : Reg) (pages : List Nat), s.core.sup = true → s.x a ≠ 0 → (s.x a).toNat % 65536 = 0 → s.x l ≠ 0 →
    (s.x l).toNat % 65536 = 0 → s.mappedPages (s.x a).toNat (s.x l).toNat = some pages →
    (s.part.migration = none → Allowed (.migBegin a l) s → Completes (.migBegin a l) s (({ s with adds := s.adds.filter fun e =>
        !(pages.any fun b => decide (e.pa / 64 * 64 < b + 65536) && decide (b < e.pa / 64 * 64 + 64)) } : State).updPart fun p =>
      { p.dropTlb (s.x a).toNat (s.x l).toNat with migration := some ⟨s.cur, (s.x a).toNat, (s.x l).toNat, pages⟩ })) ∧
    (∀ old, s.part.migration = some ⟨s.cur, (s.x a).toNat, (s.x l).toNat, old⟩ → Completes (.migEnd a l) s ((s.updPart fun p =>
      { p.dropTlb (s.x a).toNat (s.x l).toNat with migration := none }).retryConds s.core.part))) ∧
  (∀ (s : State) (r : Reg), s.core.sup = true → s.core.overwriting = false → (s.x r).toNat < s.part.size →
    s.part.isSuper (s.part.phys (s.x r).toNat) = false →
    ((s.coreAt (s.part.phys (s.x r).toNat)).bound = .idle → Completes (.svScrub r) s (s.updCoreAt (s.part.phys (s.x r).toNat) fun c =>
      { c with spad := [], acc := [], actype := 0, tiles := [], pins := [], stale := [], dom := none })) ∧
    ((s.coreAt (s.part.phys (s.x r).toNat)).bound ≠ .idle → exec (.svScrub r) s = .next (s.updCore fun c =>
      { c with wait := .scrub (s.part.phys (s.x r).toNat) }))) ∧
  (∀ (s : State) (r : Reg) (l : Launch), s.core.sup = true → s.core.overwriting = false → (s.x r).toNat < 2 ^ 33 →
    s.part.launches.find? (fun l => l.id == (s.x r).extractLsb' 0 32) = some l →
    (l.halted = false → (s.x r).getLsbD 32 = false → Completes (.svHalt r) s (s.haltLaunch s.core.part l.key (some s.cur))) ∧
    (l.halted = true → (s.x r).getLsbD 32 = true → Completes (.svHalt r) s (s.resumeLaunch s.core.part l.key)) ∧
    (l.halted ≠ (s.x r).getLsbD 32 → Raises (.svHalt r) s 1 0)) ∧
  (∀ (s : State) (a : Reg), s.core.sup = true → s.core.overwriting = false → s.x a = 0 →
    (s.part.decision = none → Completes (.polSwap a) s (s.updPart fun p => { p with program := none })) ∧
    (s.part.decision.isSome = true → exec (.polSwap a) s = .next (s.updCore fun c => { c with wait := .asleep }))) ∧
  ∀ (s s1 : State) (a : Reg) (h : Nat), s.core.sup = true → s.core.overwriting = false → s.x a ≠ 0 →
    let n := h % 256
    let budget := h / 256 % 512
    let legal : Prop := 1 ≤ n ∧ n ≤ 128 ∧ 8 ≤ budget ∧ budget ≤ 256 ∧ h < 2 ^ 17
    ((s.x a).toNat % 8 ≠ 0 → Raises (.polSwap a) s 2 (s.x a)) ∧
    ((s.x a).toNat % 8 = 0 → s.load (s.x a) 8 = .ok (h, s1) →
      (∀ f, s1.loadHalves (s.x a + 8) n = .error (.fault f) → exec (.polSwap a) s = .next (s.raiseTrap (.polSwap a) f)) ∧
      ∀ (code : List (BitVec 16)) (s2 : State), s1.loadHalves (s.x a + 8) n = .ok (code, s2) →
        (¬ (1 ≤ n ∧ n ≤ 128) → Raises (.polSwap a) s 48 0) ∧
        (1 ≤ n → n ≤ 128 → ¬ (8 ≤ budget ∧ budget ≤ 256) → Raises (.polSwap a) s 48 1) ∧
        (legal → ∀ (i : Nat) (w : BitVec 16), code[i]? = some w → policyWordOk n i w = false → (∀ j v, j < i → code[j]? = some v →
          policyWordOk n j v = true) → Raises (.polSwap a) s 48 (BitVec.ofNat 64 (8 + 2 * i))) ∧
        (legal → (∀ (i : Nat) (w : BitVec 16), code[i]? = some w → policyWordOk n i w = true) →
          (s.part.decision = none → Completes (.polSwap a) s (s2.updPart fun p => { p with program := some ⟨budget, code⟩ })) ∧
          (s.part.decision.isSome = true → exec (.polSwap a) s = .next (s.updCore fun c => { c with wait := .asleep }))))) ∧
  (∀ (s : State) (i : Instr) (w : Word32), s.core.sup = false → encode i = .word w →
    ((∃ a l, i = .migBegin a l ∨ i = .migEnd a l ∨ i = .tlbInv a l) ∨ (∃ r, i = .polSwap r ∨ i = .svScrub r ∨ i = .svHalt r) ∨
      i = .tret ∨ ∃ op d src a, i = .csrAccess op d src a ∧
        ((0x5C0 ≤ a.toNat ∧ a.toNat ≤ 0x5FF) ∨ (0xDC0 ≤ a.toNat ∧ a.toNat ≤ 0xDFF))) →
    exec i s = .next (s.takeTrap ⟨1, w.zeroExtend 64, 0, false, 0, 0⟩ s.core.pc))

/-- R256, R262: while an overwriting loop runs its body, every instruction that its body may not hold (engine issues, queue operations,
pointer and descriptor writes, region stores, atomics, waits, synchronisation, tasks, system forms and CSR writes other than the
floating-point ones) raises ILLEGAL_INSTRUCTION at its own address and has none of its effects; R26: a refused issue reports `sqnext`. -/
def Obligations.OverwriteBodyForbids : Prop :=
  ∀ (s : State) (i : Instr) (w : Word32), s.core.overwriting = true → overForbids i = true → encode i = .word w →
    exec i s = .next (s.takeTrap ⟨1, w.zeroExtend 64, 0, false, 0, match i with | .engineIssue .. => s.core.seqctr | _ => 0⟩ s.core.pc)

/-! ## Tensor accesses, atomics, waits and repeats (custom-2) -/

/-- R188, R39, R42, R44, R47, R97: an access through a descriptor reads as many coordinates from consecutive registers as its rank,
takes wrapped dimensions modulo their extents, and, in bounds, loads or stores one element at its swizzled address; out of bounds it
is clipped: a load reads 0, a store stores nothing, and `clipc` counts it, stopping at its top. An invalid descriptor and a run past
x31 are ILLEGAL_INSTRUCTION; a base that is not aligned to the element raises MISALIGNED at the element. -/
def Obligations.TensorAccesses : Prop :=
  (∀ (s s1 : State) (d : Reg) (t : Reg4) (c : Reg) (pl : Place),
    let td := s.core.td t
    let cs := td.wrapped ((List.range td.rank.toNat).map fun k => (s.x (BitVec.ofNat 5 (c.toNat + k))).toInt)
    let e := td.elem 0 cs
    let clipped := s.updCore fun k => { k with csr := { k.csr with
      clipc := if k.csr.clipc = BitVec.allOnes 32 then k.csr.clipc else k.csr.clipc + 1 } }
    s.core.overwriting = false → td.valid = true → c.toNat + td.rank.toNat ≤ 32 →
    (td.inBounds cs = false → Completes (.tLd d t c) s (clipped.setX d 0) ∧ Completes (.tSt d t c) s clipped) ∧
    (td.inBounds cs = true → td.base.toNat % elemBytes td.format ≠ 0 →
      Raises (.tLd d t c) s 2 e.addr ∧ Raises (.tSt d t c) s 2 e.addr) ∧
    (td.inBounds cs = true → td.base.toNat % elemBytes td.format = 0 → Reads s e.addr (elemBytes td.format) pl s1 →
      Settled s pl (elemBytes td.format) → ∃ u, Looked s1 u ∧ Completes (.tLd d t c) s (u.setX d (extendElem td.format
        (pickElem td.format e.odd (s.readPlace pl (elemBytes td.format)))))) ∧
    (td.inBounds cs = true → td.base.toNat % elemBytes td.format = 0 → Writes s e.addr (elemBytes td.format) pl s1 →
      (td.format.width ≠ 4 → Completes (.tSt d t c) s
        (s1.storePlace pl (elemBytes td.format) ((s.x d).toNat % 2 ^ td.format.width))) ∧
      (td.format.width = 4 → (∀ id, pl.core? = some id → id = s.cur ∨ (s.coreAt id).halted = false) → Completes (.tSt d t c) s
        (s1.storePlace pl 1 (if e.odd then s.readPlace pl 1 % 16 + (s.x d).toNat % 16 * 16
          else s.readPlace pl 1 / 16 % 16 * 16 + (s.x d).toNat % 16))))) ∧
  (∀ (s : State) (d : Reg) (t : Reg4) (c : Reg), s.core.overwriting = false →
    (s.core.td t).valid = false ∨ 32 < c.toNat + (s.core.td t).rank.toNat →
    Raises (.tLd d t c) s 1 0 ∧ Raises (.tSt d t c) s 1 0) ∧
  (∀ (td : Td) (x y : Int), td.swizzle = 0 → td.rank = 2 → td.format.width ≠ 4 →
    (td.elem 0 [x, y]).addr = td.base + BitVec.ofInt 64 ((x * td.stride 0 + y * td.stride 1) * (td.format.width / 8 : Nat))) ∧
  ∀ (f : Fmt) (v : Nat), extendElem f v = match f with
    | .i32 => (BitVec.ofNat 32 v).signExtend 64 | .i16 => (BitVec.ofNat 16 v).signExtend 64
    | .i8 => (BitVec.ofNat 8 v).signExtend 64 | .i4 => (BitVec.ofNat 4 v).signExtend 64
    | .f32 | .f16 | .b16 | .k8 | .k4 | .n32 | .n16 | .n8 | .e8 => BitVec.ofNat 64 v

/-- R189 to R191, R172, R179: an atomic that reaches its home writes the new word there in the same step that reads the old one; the forms
with a destination return the old word (an F32 word zero-extended), and their core has seen the word as it stands; the others are writes
only and change no register. A compare that fails writes nothing; the run of `am.cas` may not pass x31. Minimum and maximum are signed. A
contribution of `am.faddn` is added to the word, or, where the one before it to that word is still pending in the entry of its line and
the word is what that one gives, may first be added to that one's operand, which keeps the line's other operands pending. R192, R28:
`wt.ch` reads its word; while the word has the value given, the core sleeps on a monitor of its line, which any write that meets the line
marks; a marked monitor wakes the core, which frees it, reads the word at its home once more and completes with what it reads. Log 11, log
48 (the model's choices): home ports are open, and an atomic needs the write right. -/
def Obligations.AtomicResultsAndMonitors : Prop :=
  ((∀ (s s1 : State) (d v a : Reg) (sc : Scope) (pl : Place), s.core.overwriting = false → Swaps s (s.x a) 8 pl s1 →
    let old := BitVec.ofNat 64 (s.readPlace pl 8)
    let x := s.x v
    let returns (i : Instr) (put : State → State) : Prop := ∃ u, Looked s1 u ∧ Settled u pl 8 ∧ Completes i s ((put u).setX d old)
    let puts (n : Word) (u : State) : State := u.atomicWrite pl 8 n.toNat
    let both (i j : Instr) (n : Word) : Prop := returns i (puts n) ∧ Completes j s (puts n s1)
    both (.amAdd d v a sc) (.amAddn v a sc) (old + x) ∧ both (.amMin d v a sc) (.amMinn v a sc) (if x.slt old then x else old) ∧
    both (.amMax d v a sc) (.amMaxn v a sc) (if old.slt x then x else old) ∧
    both (.amAnd d v a sc) (.amAndn v a sc) (old &&& x) ∧ both (.amOr d v a sc) (.amOrn v a sc) (old ||| x) ∧
    both (.amXor d v a sc) (.amXorn v a sc) (old ^^^ x) ∧ returns (.amSwp d v a sc) (puts x) ∧
    (∀ e1 : Reg, e1.toNat = v.toNat + 1 →
      (old = x → returns (.amCas d v a sc) (puts (s.x e1))) ∧ (old ≠ x → returns (.amCas d v a sc) id))) ∧
  (∀ (s s1 : State) (d v a : Reg) (sc : Scope) (pl : Place), s.core.overwriting = false → Swaps s (s.x a) 4 pl s1 →
    let old := BitVec.ofNat 32 (s.readPlace pl 4)
    let x := (s.x v).extractLsb' 0 32
    let put (u : State) (n : Word32) : State := u.atomicWrite pl 4 n.toNat
    let line := s.adds.filter fun o => o.pa / 64 == pl.phys / 64
    let others := line.filter fun o => o.pa != pl.phys
    let pends (base operand : Word32) (kept : List PendingAdd) : State :=
      let t := put s1 (amoFadd base operand)
      { t with adds := ⟨pl.phys, base, operand⟩ :: kept ++ t.adds }
    let adds (t : State) : Prop := Completes (.amFaddn v a sc) s t
    let mine (o : PendingAdd) : Bool := o.pa == pl.phys && amoFadd o.base o.operand == old
    (∃ u, Looked s1 u ∧ Settled u pl 4 ∧
      Completes (.amFadd d v a sc) s ((put u (amoFadd old x)).setX d (BitVec.ofNat 64 (s.readPlace pl 4)))) ∧
    (line = [] → adds (pends old x [])) ∧ (line.find? mine = none → adds (pends old x []) ∨ adds (pends old x others)) ∧
    (∀ e, line.find? mine = some e → adds (pends old x []) ∨ adds (pends e.base (amoFadd e.operand x) others))) ∧
  (∀ (s : State) (pl : Place) (n v : Nat), atomicHome pl = true → (s.atomicWrite pl n v).readPlace pl n = v % 2 ^ (8 * n)) ∧
  (∀ (s : State) (d a : Reg) (sc : Scope), Raises (.amCas d 31 a sc) s 1 0) ∧
  ∀ (s : State) (d v a : Reg) (sc : Scope), s.core.overwriting = false →
    ((s.x a).toNat % 8 ≠ 0 → Raises (.amAdd d v a sc) s 2 (s.x a)) ∧ ((s.x a).toNat % 4 ≠ 0 → Raises (.amFadd d v a sc) s 2 (s.x a))) ∧
  ((∀ (s s1 : State) (d v a : Reg) (sc : Scope) (pa : Nat), s.core.overwriting = false → isEvent s.cur (s.x a).toNat = false →
    (s.x a).toNat % 8 = 0 → s.resolve s.core.sup .read (s.x a).toNat 8 5 = .ok (.mem pa, s1) → isHost pa = false →
    s.poisoned pa 8 = false →
    let w := BitVec.ofNat 64 (s.readPlace (.mem pa) 8)
    (s.core.wait = .partway ∨ (∃ l, s.monitorOf s.cur = some (l, true)) →
      ∃ u, Looked (s1.freeMonitor s.cur) u ∧ Settled u (.mem pa) 8 ∧ Completes (.wtCh d v a sc) s (u.setX d w)) ∧
    (s.core.wait ≠ .partway → s.monitorOf s.cur = none → w ≠ s.x v →
      ∃ u, Looked (s1.freeMonitor s.cur) u ∧ Settled u (.mem pa) 8 ∧ Completes (.wtCh d v a sc) s (u.setX d w)) ∧
    (s.core.wait ≠ .partway → s.monitorOf s.cur = none → w = s.x v →
      (s.portMonitors (Config.homePort (pa / 64))).length < 64 → ∃ u, Looked s1 u ∧
        exec (.wtCh d v a sc) s = .next ({ u with monitors := s1.monitors ++ [(pa / 64, s.cur, false)] }.updCore fun c =>
          { c with wait := .asleep })) ∧
    (s.core.wait ≠ .partway → (∃ l, s.monitorOf s.cur = some (l, false)) →
      exec (.wtCh d v a sc) s = .next (s.updCore fun c => { c with wait := .asleep }))) ∧
  (∀ (s : State) (pa n v line core : Nat), (line, core, false) ∈ s.monitors → line * 64 < pa + n → pa < line * 64 + 64 → 0 < n →
    (line, core, true) ∈ (s.storePlace (.mem pa) n v).monitors) ∧
  ∀ (s : State) (core line : Nat), s.monitorOf core = some (line, true) →
    ∃ t, exec (.monitorWake core) s = .next t ∧ (t.coreAt core).wait = .partway ∧ t.monitorOf core = none ∧
      (∀ a, readByte t.mem a = readByte s.mem a) ∧ ∀ id, id ≠ core → t.coreAt id = s.coreAt id)


/-- R193, R194: `mv.blk` moves one word, steps its three registers and stays where it is until the count is 0, so that what it has moved
stands when it is interrupted; `rep` runs the one store or atomic behind it once, steps the address and the count, and with a count of 0
goes on past its target. Registers that are not distinct or are x0, and a target `rep` does not take, are ILLEGAL_INSTRUCTION. Log 18, log
19 (the model's readings): what counts in `instret`, and the order of the alignment checks. -/
def Obligations.BlockMoveAndRepeat : Prop :=
  (∀ (s s1 : State) (d x n : Reg) (pl : Place), s.core.overwriting = false → d ≠ x → d ≠ n → x ≠ n → d ≠ 0 → x ≠ 0 → n ≠ 0 →
    (s.x n).toNat % 8 = 0 →
    (s.x n = 0 → (s.x d).toNat % 8 = 0 → (s.x x).toNat % 8 = 0 → Completes (.mvBlk d x n) s s) ∧
    (s.x n ≠ 0 → (s.x d).toNat % 8 = 0 → Reads s (s.x x) 8 pl s1 → Settled s pl 8 → ∃ u, Looked s1 u ∧
      ∀ (pm : Place) (s2 : State), Writes u (s.x d) 8 pm s2 → exec (.mvBlk d x n) s = .next (((s2.storePlace pm 8 (s.readPlace pl 8)).updCore fun c =>
        ((c.setX x (c.x x + 8)).setX d (c.x d + 8)).setX n (c.x n - 8)).updCore fun c => { c with
          wait := .partway, boundary := if s.core.wait = .partway then s.core.boundary else s.core.regs.x }))) ∧
  (∀ (s : State) (d x n : Reg), d = x ∨ d = n ∨ x = n ∨ d = 0 ∨ x = 0 ∨ n = 0 → Raises (.mvBlk d x n) s 1 0) ∧
  (∀ (s s1 s2 : State) (c a v : Reg) (w : Nat) (imm : BitVec 12) (pl : Place), c ≠ a → c ≠ 0 → a ≠ 0 →
    s.fetch (s.core.pc + 4).toNat 4 = .ok (w, s1) →
    (decode32 (BitVec.ofNat 32 w) = .ok (.scalarStore .sd v a imm) → v ≠ c → v ≠ a →
      (s.x c = 0 → exec (.rep c a) s = .next (s1.retire (s.core.pc + 8))) ∧
      (s.x c ≠ 0 → Writes s1 (s1.x a + imm.signExtend 64) 8 pl s2 →
        exec (.rep c a) s = .next (((s2.storePlace pl 8 (s1.x v).toNat).updCore fun k =>
          (k.setX a (k.x a + 8)).setX c (k.x c - 1)).updCore fun k => { k with
            wait := .partway, boundary := if s.core.wait = .partway then s.core.boundary else s.core.regs.x }))) ∧
    (∀ i, decode32 (BitVec.ofNat 32 w) = .ok i → repTarget i c a = none → Raises (.rep c a) s 1 0)) ∧
  ∀ (s : State) (c a : Reg), c = a ∨ c = 0 ∨ a = 0 → Raises (.rep c a) s 1 0

/-! ## Regions -/

/-- R79, R81, R83, R87, R88, R89: a set operation or subset test on operands of one rank, with the line lengths of ragged operands read
that it depends on (two bytes each, from the table in the own scratchpad; of a difference those of the first operand, of a union those of
an operand beside a ragged or empty one), writes the result of the region algebra and counts an INEXACT hull in `rgovf`; operands of
different ranks are ILLEGAL_INSTRUCTION, a result out of range raises REGION_RANGE with the destination's number, and an INEXACT operand
of `rg.in` raises REGION_INEXACT with its number. The null region takes the other operand's rank, and a descriptor's in `rg.clip`. Log 97,
log 98, log 99, log 100, log 119 (the model's choices): lines without a cell, INEXACT and ragged at once, `rg.clip` of the null region,
the lattice of one cell. R83, R90 to R92: the reshaping and splitting forms write what the region algebra gives. For one dense box:
`rg.shf` moves each corner by its register, `rg.dil` widens it on both sides, `rg.proj` keeps the dimensions its mask names. `rg.split`
and `rg.split.k` write two registers; a written run that passes bx15 or holds the operand, a run past x31, and a mask, index or rank out
of range, are ILLEGAL_INSTRUCTION. -/
def Obligations.RegionFormResults : Prop :=
  ((∀ (s u v : State) (op : SetOp) (d a b : Reg4) (la lb : List Nat),
    s.linesOf (s.bx a) (setLines op true (s.bx a) (s.bx b)) = .ok (la, u) →
    u.linesOf (s.bx b) (setLines op false (s.bx b) (s.bx a)) = .ok (lb, v) →
    let i : Instr := match op with | .and => .rgAnd d a b | .or => .rgOr d a b | .sub => .rgSub d a b
    (∀ r counts, setOp op (s.bx a) (s.bx b) la lb = .ok r counts →
      Completes i s (v.updCore fun c => (c.setBx d r).countInexactIf counts)) ∧
    (setOp op (s.bx a) (s.bx b) la lb = .range → Raises i s 22 (d.zeroExtend 64))) ∧
  (∀ (s : State) (r : Region) (lo : Int) (e : Nat) (rest : Box), r.kind = .ragged → r.boxes = [⟨lo, e⟩ :: rest] → r.base = lo →
    r.lenptr + 2 * e ≤ 0xC0000 → (∀ k, k < e → s.poisoned (windowAddr s.cur (r.lenptr + 2 * k)) 2 = false ∧
      Settled s (.spad s.cur (r.lenptr + 2 * k)) 2) →
    ∃ u, s.lengthsOf r = .ok ((List.range e).map fun k => readLE s.core.spad (r.lenptr + 2 * k) 2, u)) ∧
  (∀ (s : State) (r : Region) (want : Int → Bool), (∀ c, want c = false) →
    s.linesOf r want = .ok (List.replicate r.lineCount 0, s)) ∧
  (∀ (s u : State) (r : Region) (want : Int → Bool) (l : List Nat), s.linesOf r want = .ok (l, u) → Looked s u) ∧
  (∀ (x y : Region) (c : Int), setLines .sub true x y c = true ∧ setLines .sub false x y c = false ∧
    (y.kind ≠ .ragged → y.boxes ≠ [] → setLines .or true x y c = false)) ∧
  (∀ (s : State) (d a b : Reg4), (s.bx a).rank ≠ 0 → (s.bx b).rank ≠ 0 → (s.bx a).rank ≠ (s.bx b).rank →
    Raises (.rgAnd d a b) s 1 0 ∧ Raises (.rgOr d a b) s 1 0 ∧ Raises (.rgSub d a b) s 1 0 ∧
      ∀ x : Reg, Raises (.rgIn x a b) s 1 0) ∧
  (∀ (s u v : State) (d : Reg) (a b : Reg4) (la lb : List Nat),
    ((s.bx a).rank = 0 ∨ (s.bx b).rank = 0 ∨ (s.bx a).rank = (s.bx b).rank) → (s.bx a).inexact = false →
    (s.bx b).inexact = false → s.lengthsOf (s.bx a) = .ok (la, u) → u.linesOf (s.bx b) (inRows (s.bx a).hull) = .ok (lb, v) →
    Completes (.rgIn d a b) s (v.setX d (if covers ((s.bx a).withRank (s.bx b).rank |>.exact la)
      ((s.bx b).withRank (s.bx a).rank |>.exact lb) then 1 else 0))) ∧
  (∀ (s : State) (d : Reg) (a b : Reg4), (s.bx a).rank = 0 ∨ (s.bx b).rank = 0 ∨ (s.bx a).rank = (s.bx b).rank →
    ((s.bx a).inexact = true → Raises (.rgIn d a b) s 21 (a.zeroExtend 64)) ∧
    ((s.bx a).inexact = false → (s.bx b).inexact = true → Raises (.rgIn d a b) s 21 (b.zeroExtend 64))) ∧
  ∀ (s : State) (d a : Reg4), s.bx a = Region.null → Completes (.rgOr d a a) s (s.setBx d Region.null)) ∧
  ((∀ (s u : State) (d a : Reg4) (x : Reg) (l : List Nat) (r : Region) (counts : Bool) (v : List Word),
    s.xRun x (s.bx a).rank = some v →
    let puts (t : State) : State := t.updCore fun c => (c.setBx d r).countInexactIf counts
    (s.lengthsOf (s.bx a) = .ok (l, u) → (∀ h ∈ v, h.toNat ≤ 65535) → dilate (s.bx a) (v.map BitVec.toNat) l = .ok r counts →
      Completes (.rgDil d a x) s (puts u)) ∧
    (shift (s.bx a) (v.map BitVec.toInt) = .ok r counts → Completes (.rgShf d a x) s (puts s)) ∧
    (shift (s.bx a) (v.map BitVec.toInt) = .range → Raises (.rgShf d a x) s 22 (d.zeroExtend 64)) ∧
    ((∃ h ∈ v, 65535 < h.toNat) → Raises (.rgDil d a x) s 1 0)) ∧
  (∀ (s : State) (d a : Reg4) (x : Reg), 32 < x.toNat + (s.bx a).rank → Raises (.rgDil d a x) s 1 0 ∧ Raises (.rgShf d a x) s 1 0) ∧
  (∀ (s : State) (d a : Reg4) (m : Reg),
    let mask := (s.x m).toNat
    let bad : Prop := mask = 0 ∨ 128 ≤ mask ∨ ((s.bx a).rank ≠ 0 ∧ 2 ^ (s.bx a).rank ≤ mask)
    (bad → Raises (.rgProj d a m) s 1 0) ∧
    ∀ (u : State) (l : List Nat) (r : Region) (counts : Bool), ¬ bad → s.lengthsOf (s.bx a) = .ok (l, u) →
      project (s.bx a) mask l = .ok r counts → Completes (.rgProj d a m) s (u.updCore fun c => (c.setBx d r).countInexactIf counts)) ∧
  (∀ (s : State) (d a t : Reg4),
    let rank := (s.core.td t).rank.toNat
    let n := (s.bx a).rank
    (rank = 0 ∨ (n ≠ 0 ∧ n ≠ rank) → Raises (.rgClip d a t) s 1 0) ∧
    (rank ≠ 0 → n = 0 → Completes (.rgClip d a t) s (s.setBx d (Region.empty rank))) ∧
    ∀ (r : Region) (counts : Bool), rank ≠ 0 → n = rank → clip (s.bx a) (s.core.td t) [] = .ok r counts →
      Completes (.rgClip d a t) s (s.updCore fun c => (c.setBx d r).countInexactIf counts)) ∧
  (∀ (s u : State) (d a : Reg4) (n : Reg) (l : List Nat) (r1 r2 : Region) (c1 c2 : Bool), d ≠ 15 → a ≠ d → a ≠ d + 1 →
    s.lengthsOf (s.bx a) = .ok (l, u) → splitCells (s.bx a) (s.x n).toNat l = (.ok r1 c1, .ok r2 c2) →
    Completes (.rgSplit d a n) s (u.updCore fun c => ((c.setBx d r1).setBx (d + 1) r2).countInexactIf (c1 || c2))) ∧
  (∀ (s u : State) (d a : Reg4) (x : Reg) (dim k j : Nat) (l : List Nat) (r1 r2 : Region) (c1 c2 : Bool), d ≠ 15 → a ≠ d → a ≠ d + 1 →
    s.lengthsOf (s.bx a) = .ok (l, u) → dim < 8 → ((s.bx a).rank = 0 ∨ dim < (s.bx a).rank) → 1 ≤ k → k < 65536 → j < k →
    s.x x = BitVec.ofNat 64 (dim + 256 * k + 2 ^ 32 * j) →
    splitSlabs (s.bx a) dim k j l = (.ok r1 c1, .ok r2 c2) →
    Completes (.rgSplitK d a x) s (u.updCore fun c => ((c.setBx d r1).setBx (d + 1) r2).countInexactIf (c1 || c2))) ∧
  (∀ (s : State) (d a : Reg4) (x : Reg),
    let f (lo n : Nat) : Nat := ((s.x x).extractLsb' lo n).toNat
    f 3 5 ≠ 0 ∨ f 24 8 ≠ 0 ∨ f 48 16 ≠ 0 ∨ f 8 16 ≤ f 32 16 ∨ ((s.bx a).rank ≠ 0 ∧ (s.bx a).rank ≤ f 0 3) → Raises (.rgSplitK d a x) s 1 0) ∧
  (∀ (s : State) (d a : Reg4) (n : Reg), d = 15 ∨ a = d ∨ a = d + 1 → Raises (.rgSplit d a n) s 1 0 ∧ Raises (.rgSplitK d a n) s 1 0) ∧
  (∀ (lo d0 : Int) (ext h : Nat), -(2 ^ 29) ≤ lo → lo < 2 ^ 29 → -(2 ^ 29) ≤ d0 → d0 < 2 ^ 29 → 1 ≤ ext → ext ≤ 2 ^ 20 → h ≤ 65535 →
    shift (Region.dense 1 [[⟨lo, ext⟩]]) [d0] = .ok (Region.dense 1 [[⟨lo + d0, ext⟩]]) false ∧
    dilate (Region.dense 1 [[⟨lo, ext⟩]]) [h] [] = .ok (Region.dense 1 [[⟨lo - h, ext + 2 * h⟩]]) false) ∧
  ∀ (a b : Span1), 1 ≤ a.ext → 1 ≤ b.ext → boxInRange [1, 1] [a, b] = true →
    project (Region.dense 2 [[a, b]]) 1 [] = .ok (Region.dense 1 [[a]]) false ∧
    project (Region.dense 2 [[a, b]]) 2 [] = .ok (Region.dense 1 [[b]]) false ∧
    splitCells (Region.dense 1 [[a]]) 0 [] = (.ok (Region.empty 1) false, .ok (Region.dense 1 [[a]]) false))

/-- R75 to R78, R80, R88, R89: on dense exact regions of one rank the set operations mean what they say of cells. A result that is exact
holds exactly the cells of the operation; one that is INEXACT, counted, is one dense box that holds them all; and the subset test is
true exactly if every cell of the first is a cell of the second. -/
def Obligations.SetOperationCells : Prop :=
  (∀ (op : SetOp) (n : Nat) (a b r : Region) (counts : Bool), a.plain n → b.plain n → setOp op a b [] [] = .ok r counts →
    r.rank = n ∧ r.inexact = counts ∧ (counts = true → r.kind = .dense ∧ r.boxes.length = 1) ∧
    ∀ c : List Int, c.length = n →
      (op.fn (inBoxes a.boxes c) (inBoxes b.boxes c) = true → inBoxes r.boxes c = true) ∧
      (counts = false → inBoxes r.boxes c = op.fn (inBoxes a.boxes c) (inBoxes b.boxes c))) ∧
  ∀ (n : Nat) (a b : Region), a.plain n → b.plain n →
    (subset a b [] [] = some true ↔ ∀ c : List Int, c.length = n → inBoxes a.boxes c = true → inBoxes b.boxes c = true)


/-- R72, R73, R74, R86, R93: building one box from corners, extents and strides in consecutive registers, with no cell if an extent is
0; reading out the number of cells (stopping at 2^64 - 1), the number of boxes, and one box's corners and extents, zero beyond the last.
A rank outside 1 to 7 (of `rg.boxr` 2 to 7), a run past x31 and values out of their ranges are ILLEGAL_INSTRUCTION, and a box that ends
beyond the range of coordinates raises REGION_RANGE. Log 101 (the model's choice): strides of a ragged image.
R39, R71, R83, R94, R95: loading a region register or a descriptor takes its little-endian image of 256 or 64 bytes from memory and
writes the register if the image is one that the manual allows, in canonical form; storing writes the image. An address that is not
aligned raises MISALIGNED, and an image that is not allowed is ILLEGAL_INSTRUCTION and leaves the register alone. -/
def Obligations.RegionBuildAndImages : Prop :=
  ((∀ (s : State) (d : Reg4) (x k : Reg) (v : List Word), 1 ≤ k.toNat → k.toNat ≤ 7 →
    let n := k.toNat
    let los := (v.take n).map BitVec.toInt
    let exts := ((v.drop n).take n).map BitVec.toNat
    let sts := ((v.drop (2 * n)).take n).map BitVec.toNat
    (∀ l ∈ los, -(2 ^ 31) ≤ l ∧ l < 2 ^ 31) → (∀ e ∈ exts, e ≤ 16777215) →
    (s.xRun x (2 * n) = some v →
      ((∃ e ∈ exts, e = 0) → Completes (.rgBox d x k) s (s.setBx d (Region.empty n))) ∧
      ((∀ e ∈ exts, e ≠ 0) → (∀ p ∈ List.zip los exts, p.1 + (p.2 : Int) ≤ 2 ^ 31) →
        Completes (.rgBox d x k) s (s.setBx d (Region.dense n [List.zipWith Span1.mk los exts])))) ∧
    (s.xRun x (3 * n) = some v → (∀ t ∈ sts, 1 ≤ t ∧ t ≤ 65535) → (∀ e ∈ exts, e ≠ 0) → (∃ t ∈ sts, t ≠ 1) →
      (∀ p ∈ List.zip (List.zip los exts) sts, p.1.1 + ((p.1.2 : Int) - 1) * (p.2 : Int) < 2 ^ 31) →
      Completes (.rgBoxs d x k) s (s.setBx d ⟨n, .strided, false, 0, sts, 0, 0, [List.zipWith Span1.mk los exts]⟩)) ∧
    (s.xRun x (2 * n + 1) = some v → 2 ≤ n → (∀ e ∈ exts, e ≠ 0) → (∀ p ∈ List.zip los exts, p.1 + (p.2 : Int) ≤ 2 ^ 31) →
      (v.getD (2 * n) 0).toNat % 2 = 0 → (v.getD (2 * n) 0).toNat + 2 * exts.headD 0 ≤ 0xC0000 →
      Completes (.rgBoxr d x k) s (s.setBx d ⟨n, .ragged, false, (v.getD (2 * n) 0).toNat, List.replicate n 1, los.getLastD 0,
        los.headD 0, [List.zipWith Span1.mk los exts]⟩))) ∧
  (∀ (s : State) (d : Reg4) (x k : Reg), k.toNat = 0 ∨ 8 ≤ k.toNat ∨ 32 < x.toNat + 2 * k.toNat →
    Raises (.rgBox d x k) s 1 0 ∧ Raises (.rgBoxs d x k) s 1 0 ∧ Raises (.rgBoxr d x k) s 1 0) ∧
  (∀ (s : State) (d : Reg4) (x k : Reg), (32 < x.toNat + 3 * k.toNat → Raises (.rgBoxs d x k) s 1 0) ∧
    (k.toNat = 1 ∨ 31 < x.toNat + 2 * k.toNat → Raises (.rgBoxr d x k) s 1 0)) ∧
  (∀ (s : State) (d : Reg4) (x k : Reg) (v : List Word), 1 ≤ k.toNat → k.toNat ≤ 7 →
    let n := k.toNat
    let los := (v.take n).map BitVec.toInt
    let exts := ((v.drop n).take n).map BitVec.toNat
    let table := (v.getD (2 * n) 0).toNat
    let bad : Prop := (∃ l ∈ los, l < -(2 ^ 31) ∨ 2 ^ 31 ≤ l) ∨ ∃ e ∈ exts, 16777215 < e
    (s.xRun x (2 * n) = some v → (bad → Raises (.rgBox d x k) s 1 0) ∧
      (¬ bad → (∀ e ∈ exts, e ≠ 0) → (∃ p ∈ List.zip los exts, 2 ^ 31 < p.1 + (p.2 : Int)) →
        Raises (.rgBox d x k) s 22 (d.zeroExtend 64))) ∧
    (s.xRun x (3 * n) = some v → bad ∨ (∃ t ∈ v.drop (2 * n), t = 0 ∨ 65535 < t.toNat) → Raises (.rgBoxs d x k) s 1 0) ∧
    (s.xRun x (2 * n + 1) = some v → 2 ≤ n → bad ∨ table % 2 ≠ 0 ∨ 0xC0000 < table + 2 * exts.headD 0 → Raises (.rgBoxr d x k) s 1 0)) ∧
  (∀ (s u : State) (d : Reg) (a : Reg4) (l : List Nat), s.lengthsOf (s.bx a) = .ok (l, u) →
    Completes (.rgCnt d a) s (u.setX d (BitVec.ofNat 64 (min (boxesCells ((s.bx a).exact l).boxes) (2 ^ 64 - 1))))) ∧
  (∀ (s : State) (d : Reg) (a : Reg4), Completes (.rgNbox d a) s (s.setX d (BitVec.ofNat 64 (s.bx a).boxes.length))) ∧
  (∀ (s : State) (d : Reg) (a : Reg4) (i : Reg), d.toNat + 2 * (s.bx a).rank ≤ 32 →
    (i.toNat < d.toNat ∨ d.toNat + 2 * (s.bx a).rank ≤ i.toNat) →
    (∀ sp, (s.bx a).rank = 1 → (s.bx a).boxes[(s.x i).toNat]? = some [sp] →
      Completes (.rgGet d a i) s (s.updCore fun c =>
        (c.setX d (BitVec.ofInt 64 sp.lo)).setX (BitVec.ofNat 5 (d.toNat + 1)) (BitVec.ofNat 64 sp.ext))) ∧
    Completes (.rgGet d a i) s (s.updCore fun c => c.setRun d.toNat (boxValues (s.bx a) (s.x i).toNat))) ∧
  (∀ (s : State) (d : Reg) (a : Reg4) (i : Reg), 32 < d.toNat + 2 * (s.bx a).rank → Raises (.rgGet d a i) s 1 0) ∧
  (∀ n, n ∈ [1, 2, 3, 4, 5, 6, 7] → capacity n = if n ≤ 3 then 8 else 28 / n)) ∧
  ((∀ (s s1 : State) (d : Reg4) (x : Reg) (imm : BitVec 12) (v : Nat) (r : Region) (counts : Bool),
    let va := s.x x + imm.signExtend 64
    va.toNat % 32 = 0 → s.loadWords va 32 = .ok (v, s1) →
    (Region.load v = .ok r counts →
      Completes (.rgLd d x imm) s (s1.updCore fun c => (c.setBx d r).countInexactIf counts)) ∧
    (Region.load v = .illegal → Raises (.rgLd d x imm) s 1 0)) ∧
  (∀ (s s1 : State) (d : Reg4) (x : Reg) (imm : BitVec 12) (v : Nat) (t : Td),
    let va := s.x x + imm.signExtend 64
    va.toNat % 64 = 0 → s.loadWords va 8 = .ok (v, s1) → s.core.overwriting = false →
    (Td.parse v = some t → Completes (.tdLd d x imm) s (s1.updCore fun c => c.setTd d t)) ∧
    (Td.parse v = none → Raises (.tdLd d x imm) s 1 0)) ∧
  (∀ (s s1 : State) (b : Reg4) (x : Reg) (imm : BitVec 12), s.core.overwriting = false →
    let va := s.x x + imm.signExtend 64
    (va.toNat % 32 = 0 → s.storeWords va (s.bx b).image 32 = .ok s1 → Completes (.rgSt b x imm) s s1) ∧
    (va.toNat % 64 = 0 → s.storeWords va (s.core.td b).image 8 = .ok s1 → Completes (.tdSt b x imm) s s1)) ∧
  (∀ (s : State) (b : Reg4) (x : Reg) (imm : BitVec 12), s.core.overwriting = false →
    let va := s.x x + imm.signExtend 64
    (va.toNat % 32 ≠ 0 → Raises (.rgLd b x imm) s 2 va ∧ Raises (.rgSt b x imm) s 2 va) ∧
    (va.toNat % 64 ≠ 0 → Raises (.tdLd b x imm) s 2 va ∧ Raises (.tdSt b x imm) s 2 va)) ∧
  (∀ v, Td.parse v = none ↔ (fmt? (BitVec.ofNat 8 (v / 2 ^ 64)) = none ∨ 4 < v / 2 ^ 82 % 16 ∨ v / 2 ^ 494 % 2 ^ 18 ≠ 0)) ∧
  Region.load 0 = .ok Region.null false ∧
  ∀ (n : Nat) (r : Region) (counts : Bool), Region.load n = .ok r counts → r.rank ≤ 7 ∧ r.boxes.length ≤ 8 ∧
    (r.rank ≠ 0 → r.boxes.length ≤ capacity r.rank) ∧ (r.inexact = true → r.kind = .dense ∧ r.boxes.length = 1))


/-! ## Places, pointers, queues, gangs and cinches -/

/-- R16, R17: the die, cluster and core numbers, the 12-bit id made of them, the global coordinates, east and south, and the place of
the core's window in the on-chip physical map, with the manual's example, the core at (45, 38). -/
def Obligations.MeshNumbering : Prop :=
  (∀ d cx cy col row : Nat, d < 4 → cx < 8 → cy < 8 → col < 4 → row < 4 →
    let id := d * 1024 + (8 * cy + cx) * 16 + (4 * row + col)
    let x := 32 * (d % 2) + 4 * cx + col
    let y := 32 * (d / 2) + 4 * cy + row
    id < 4096 ∧ coreX id = x ∧ coreY id = y ∧ dieOf id = d ∧ clusterOf id % 64 = 8 * cy + cx ∧ clusterOf id / 64 = d ∧
      coreNo id = 4 * row + col ∧ colOf id = col ∧ idAt x y = id ∧
      (∀ cur off, off < 0x100000 → windowOf cur (0xF000000000 + id * 2 ^ 20 + off) = (id, off) ∧
        windowAddr id off = 0xF000000000 + id * 2 ^ 20 + off) ∧
      ∀ p : Partition, p.holds id = true →
        (p.holds (idAt (x + 1) y) = true → x < 63 → p.neighbour id 3 = some (idAt (x + 1) y)) ∧
        (p.holds (idAt x (y + 1)) = true → y < 63 → p.neighbour id 4 = some (idAt x (y + 1))) ∧
        (x = 0 → p.stitching = .mesh → p.neighbour id 1 = none) ∧ (y = 0 → p.stitching = .mesh → p.neighbour id 2 = none)) ∧
  idAt 45 38 = 0xCB9 ∧ clusterOf 0xCB9 = 3 * 64 + 11 ∧ coreNo 0xCB9 = 9 ∧ windowAddr 0xCB9 0 = 0xF0CB900000

/-- R257: `lp.cnt xd` writes the pass number of the active or suspended loop to xd, which in an overwrite loop is the iteration
number, and all ones with no loop active or suspended. A loop starts at pass 0 and counts up; an overwrite loop of n iterations starts
at n - 1 and counts down. -/
def Obligations.LoopCount : Prop :=
  (∀ (s : State) (d : Reg), s.loop.mode ≠ .none → Completes (.lpCnt d) s (s.setX d (BitVec.ofNat 64 s.loop.pass))) ∧
  (∀ (s : State) (d : Reg), s.loop.mode = .none → Completes (.lpCnt d) s (s.setX d 0xFFFFFFFFFFFFFFFF)) ∧
  (∀ (c : Core), c.loop.mode = .loop → c.loop.suspended = false → c.loop.left ≠ 0 →
    (c.goTo c.loop.bodyEnd).loop.pass = c.loop.pass + 1 ∧ (c.goTo c.loop.bodyEnd).loop.left = c.loop.left - 1) ∧
  (∀ (c : Core), c.loop.mode = .overwrite → c.loop.suspended = false → c.loop.left ≠ 0 →
    (c.goTo c.loop.bodyEnd).loop.pass = c.loop.pass - 1 ∧ (c.goTo c.loop.bodyEnd).loop.left = c.loop.left - 1) ∧
  ∀ (l : LoopState) (b : Body), (l.bind b .loop 0).pass = 0 ∧ (l.bind b .overwrite (b.count - 1)).pass = b.count - 1 ∧
    (l.bind b .loop 0).left = b.count - 1

/-- R10, R152, R157, R195: `v.ptr` writes a pointer and its issue value from four registers in range; `q.push` appends to q0 while it
holds fewer than 32 entries and waits when it is full, `q.pop` takes the oldest entry of q1, acquiring what the command that pushed it has
written (R155, R159), and waits when there is none, `q.cnt` counts; `pa.peer` names a place in a scratchpad of the own cluster, the own
alias for no offset. -/
def Obligations.PointersQueuesPeers : Prop :=
  (∀ (s : State) (d : Reg4) (x : Reg) (tile off wrap : Nat) (st : Int), s.core.overwriting = false → x.toNat ≤ 28 → tile ≤ 255 →
    off < 0xC0000 → wrap ≤ 0xC0000 → -32768 ≤ st → st ≤ 32767 →
    s.xRun x 4 = some [BitVec.ofNat 64 tile, BitVec.ofNat 64 off, BitVec.ofInt 64 st, BitVec.ofNat 64 wrap] →
    let p : VPtr := ⟨BitVec.ofNat 8 tile, BitVec.ofNat 20 off, BitVec.ofInt 16 st, BitVec.ofNat 20 wrap⟩
    Completes (.vPtr d x) s (s.updCore fun c => c.setVp d p) ∧ (s.core.setVp d p).vp d = p ∧
      (s.core.setVp d p).regs.vpIssue[d.toNat]'d.isLt = p) ∧
  (∀ (s : State) (d : Reg4) (x : Reg), 28 < x.toNat → Raises (.vPtr d x) s 1 0) ∧
  (∀ (s : State) (d : Reg4) (x : Reg) (v : List Word), s.xRun x 4 = some v →
    (255 < (v.getD 0 0).toNat ∨ 0xC0000 ≤ (v.getD 1 0).toNat ∨ (v.getD 2 0).toInt < -32768 ∨ 32767 < (v.getD 2 0).toInt ∨
      0xC0000 < (v.getD 3 0).toNat) → Raises (.vPtr d x) s 1 0) ∧
  (∀ (s : State) (x : Reg), s.core.overwriting = false →
    (s.core.regs.q0.length < 32 → Completes (.qPush x) s (s.updCore fun c =>
      { c with regs := { c.regs with q0 := s.core.regs.q0 ++ [s.x x] } })) ∧
    (32 ≤ s.core.regs.q0.length → exec (.qPush x) s = .next (s.updCore fun c => { c with wait := .counted }))) ∧
  (∀ (s : State) (d : Reg) (v : Word) (t : List Word), s.core.overwriting = false →
    (s.core.regs.q1 = v :: t → Completes (.qPop d) s (((s.updCore fun c =>
      { c with regs := { c.regs with q1 := t }, pushers := c.pushers.tail }).dequeued (s.core.pushers.headD ⟨1, 0, 0⟩)).setX d v)) ∧
    (s.core.regs.q1 = [] → exec (.qPop d) s = .next (s.updCore fun c => { c with wait := .counted }))) ∧
  (∀ (s : State) (d q : Reg), (q = 0 → Completes (.qCnt d q) s (s.setX d (BitVec.ofNat 64 s.core.regs.q0.length))) ∧
    (q = 1 → Completes (.qCnt d q) s (s.setX d (BitVec.ofNat 64 s.core.regs.q1.length))) ∧
    (2 ≤ q.toNat → Raises (.qCnt d q) s 1 0)) ∧
  (∀ (s : State) (d a o : Reg) (off : Nat) (dcol drow : BitVec 4), off < 0xC0000 → s.x a = BitVec.ofNat 64 off →
    s.x o = (drow ++ dcol).zeroExtend 64 →
    let col := ((s.cur % 4 : Nat) : Int) + dcol.toInt
    let row := ((s.cur / 4 % 4 : Nat) : Int) + drow.toInt
    (dcol = 0 → drow = 0 → Completes (.paPeer d a o) s (s.setX d (BitVec.ofNat 64 (0xF100000000 + off)))) ∧
    (dcol ≠ 0 ∨ drow ≠ 0 → 0 ≤ col → col ≤ 3 → 0 ≤ row → row ≤ 3 → Completes (.paPeer d a o) s (s.setX d
      (BitVec.ofNat 64 (0xF000000000 + (s.cur / 16 * 16 + 4 * row.toNat + col.toNat) * 2 ^ 20 + off)))) ∧
    (col < 0 ∨ 3 < col ∨ row < 0 ∨ 3 < row → Raises (.paPeer d a o) s 1 0)) ∧
  ∀ (s : State) (d a o : Reg), 0xC0000 ≤ (s.x a).toNat ∨ 256 ≤ (s.x o).toNat → Raises (.paPeer d a o) s 1 0

/-- R19, R246, R247: the last member of a row's gang to reach `g.fuse` forms it, and every member goes on after the leader's `g.fuse`;
one that is not the last sleeps; a member that cannot join raises GANG_MISMATCH, and where the sizes of `g.fuse` differ every core of the
row whose pending one is involved raises it too. The last member to execute `g.split` dissolves it, and
each goes on after its own; outside a gang it is ILLEGAL_INSTRUCTION. -/
def Obligations.GangsFormAndDissolve : Prop :=
  (∀ (s : State) (r : Reg), (r.toNat = 2 ∨ r.toNat = 4) → s.core.gang = none →
    (∀ m ∈ gangMembers s.cur r.toNat, s.unfit m = false) →
    ((∀ m ∈ gangMembers s.cur r.toNat, m ≠ s.cur → (s.coreAt m).wait = .fuse r.toNat) → (∀ k, s.core.wait = .fuse k → k = r.toNat) →
      ∃ t, exec (.gFuse r) s = .next t ∧
        let leader := s.cur / r.toNat * r.toNat
        (∀ m, m < r.toNat → (t.coreAt (leader + m)).gang = some ⟨r.toNat, leader, none⟩ ∧ (t.coreAt (leader + m)).wait = .none ∧
          (t.coreAt (leader + m)).pc = (s.coreAt leader).pc + 4 ∧ (t.coreAt (leader + m)).regs = (s.coreAt (leader + m)).regs) ∧
        (∀ k, k < leader ∨ leader + r.toNat ≤ k → t.coreAt k = s.coreAt k) ∧ t.mem = s.mem) ∧
    ((∀ m ∈ gangMembers s.cur r.toNat, ∀ k, (s.coreAt m).wait = .fuse k → k = r.toNat) →
      (∃ m ∈ gangMembers s.cur r.toNat, m ≠ s.cur ∧ (s.coreAt m).wait ≠ .fuse r.toNat) →
      exec (.gFuse r) s = .next (s.updCore fun c => { c with wait := .fuse r.toNat }))) ∧
  (∀ (s : State) (r : Reg), (r.toNat = 2 ∨ r.toNat = 4) → s.core.gang = none →
    (∃ m ∈ gangMembers s.cur r.toNat, s.unfit m = true) → (∀ m ∈ rowCores s.cur, ∀ k, (s.coreAt m).wait ≠ .fuse k) →
    exec (.gFuse r) s = .next ((s.takeTrap ⟨35, 0, 0, false, 0, 0⟩ s.core.pc).act s.cur)) ∧
  (∀ (s : State) (r : Reg) (o k : Nat), (r.toNat = 2 ∨ r.toNat = 4) → (∀ j, s.core.wait ≠ .fuse j) →
    (∀ q ∈ rowCores s.cur, (s.coreAt q).gang = none ∧ (s.coreAt q).trap.ih = false ∧ (s.coreAt q).trap.tvec ≠ 0) →
    o ∈ gangMembers s.cur r.toNat → o ≠ s.cur → (s.coreAt o).wait = .fuse k → k ≠ r.toNat →
    ∃ t, exec (.gFuse r) s = .next t ∧ t.core.trap.cause = 35 ∧
      ∀ q j, q ∈ rowCores s.cur → (s.coreAt q).wait = .fuse j →
        q ∈ gangMembers s.cur r.toNat ∨ (j ≠ r.toNat ∧ s.cur ∈ gangMembers q j) →
        (t.coreAt q).trap.cause = 35 ∧ (t.coreAt q).trap.ih = true ∧
          (t.coreAt q).pc = ((s.coreAt q).trap.tvec ++ 0#2).zeroExtend 64) ∧
  (∀ (s : State) (r : Reg), r.toNat ≠ 2 → r.toNat ≠ 4 → Raises (.gFuse r) s 1 0) ∧
  (∀ s : State, s.core.gang = none → Raises .gSplit s 1 0) ∧
  ∀ (s : State) (g : Gang) (n : Nat → Word), s.core.gang = some g → s.core.pc + 4 = n s.cur → g.leader ≤ s.cur →
    s.cur < g.leader + g.size → (s.coreAt g.leader).loop.mode = .none →
    (∀ m, m < g.size → g.leader + m ≠ s.cur → (s.coreAt (g.leader + m)).gang = some { g with retired := some (n (g.leader + m)) }) →
    ∃ t, exec .gSplit s = .next t ∧ ∀ m, m < g.size →
      (t.coreAt (g.leader + m)).gang = none ∧ (t.coreAt (g.leader + m)).pc = n (g.leader + m) ∧
      (t.coreAt (g.leader + m)).regs = (s.coreAt (g.leader + m)).regs

/-- R249 to R251: `tk.take` sends one token into an open network of the own partition, where it passes one balancer in a step, which
toggles, and sleeps until it leaves; it returns base + 32 * c + i, i being the output wire and c the tokens that left by it before. At a
closed entry, or behind other takes there, it waits in order. `tk.clr` clears the network and sets the base once no token is in flight, and
until then closes the entry; `tk.qs` writes 1 while the entry is open and no token is in flight. Tokens that go in one after another on one
wire leave with rising values from the base on (33 of them here). Log 13 (the model's choice): how the 240 balancers are wired. A number
above 63 is ILLEGAL_INSTRUCTION and a network of no or another partition ACCESS_FAULT. Log 41: the value of that fault is free. -/
def Obligations.CinchValues : Prop :=
  (∀ (s : State) (d n b : Reg) (k : Nat), s.core.overwriting = false → k < 64 → s.x n = BitVec.ofNat 64 k →
    (s.cinchAt k).part = some s.core.part →
    let c := s.cinchAt k
    let put (c : Cinch) : State := { s with cinches := alSet k c s.cinches }
    let sleeps (i : Instr) (c : Cinch) (w : Wait) : Prop := exec i s = .next ((put c).updCore fun e => { e with wait := w })
    let none' : Prop := ∀ t ∈ c.tokens, t.core ≠ s.cur
    (none' → c.shut = false → c.closers = [] → c.queue = [] ∨ c.queue.head? = some s.cur →
      sleeps (.tkTake d n) { c with
        tokens := c.tokens ++ [⟨s.cur, s.lcore % 32, []⟩], queue := c.queue.filter (· != s.cur) } .token) ∧
    (none' → c.shut = true ∨ c.closers ≠ [] ∨ (c.queue ≠ [] ∧ c.queue.head? ≠ some s.cur) →
      (s.cur ∉ c.queue → sleeps (.tkTake d n) { c with queue := c.queue ++ [s.cur] } .asleep) ∧
      (s.cur ∈ c.queue → sleeps (.tkTake d n) c .asleep)) ∧
    (∀ t, c.tokenOf? s.cur = some t →
      (∀ h i, tokenPath t.wire t.bits = (some h, i) → sleeps (.tkTake d n) { c with
        toggles := c.toggles ^^^ (1#240 <<< h)
        tokens := c.tokens.map fun u => if u = t then { t with bits := t.bits ++ [c.toggles.getLsbD h] } else u } .token) ∧
      (∀ i, tokenPath t.wire t.bits = (none, i) → Completes (.tkTake d n) s ((put { c with
        counts := c.counts.set i (c.counts.getD i 0 + 1), tokens := c.tokens.filter (· != t) }).setX d
          (c.base + 32 * c.counts.getD i 0 + BitVec.ofNat 64 i)))) ∧
    (c.tokens = [] → Completes (.tkClr n b) s (put { c with
      toggles := 0, counts := List.replicate 32 0, base := s.x b, closers := c.closers.filter (· != s.cur) })) ∧
    (c.tokens ≠ [] → s.cur ∉ c.closers → sleeps (.tkClr n b) { c with closers := c.closers ++ [s.cur] } .asleep) ∧
    Completes (.tkQs d n) s (s.setX d (if c.shut = false ∧ c.closers = [] ∧ c.tokens = [] then 1 else 0))) ∧
  (∀ (s : State) (d n b : Reg), 64 ≤ (s.x n).toNat →
    Raises (.tkTake d n) s 1 0 ∧ Raises (.tkClr n b) s 1 0 ∧ Raises (.tkQs d n) s 1 0) ∧
  (∀ (s : State) (d n b : Reg), s.core.overwriting = false → (s.x n).toNat < 64 →
    (s.cinchAt (s.x n).toNat).part ≠ some s.core.part →
    ∃ v, Raises (.tkTake d n) s 3 v ∧ Raises (.tkClr n b) s 3 v ∧ Raises (.tkQs d n) s 3 v) ∧
  ∀ w, w < 32 →
    let through (c : Cinch) : Cinch × Option Word := (List.range 16).foldl (fun r _ => match r.1.tokenOf? 0 with
      | some t => ((r.1.pass t).1, (r.1.pass t).2)
      | none => r) (c.enter 0 w, none)
    ((List.range 33).foldl (fun (a : Cinch × List Word) _ => ((through a.1).1, a.2 ++ [(through a.1).2.getD 0])) (Cinch.zero, [])).2 =
      (List.range 33).map (BitVec.ofNat 64)

/-! ## The loop buffer and the skiver -/

/-- R252 to R256: `lp.set` captures the words after it, binds the steps, and runs them as often as its count says; a count of 0 goes
past the body. `lp.step` adds an entry to the table, at most eight of them, or replaces the one for the same word and field. A body word
is executed from the buffer, with each stepped field changed by the pass number times its increment, wrapped to its width, and every
other bit as captured. Counts, lengths, fields and increments out of range, a step of a word that the body does not hold or that lacks the
field, and a word that no body may hold are ILLEGAL_INSTRUCTION. -/
def Obligations.LoopBufferRuns : Prop :=
  (∀ (s s1 : State) (a b : Reg) (ws : List Word32), s.core.gang = none → s.core.loop.mode = .none → (s.x a).toNat < 2 ^ 32 →
    1 ≤ (s.x b).toNat → (s.x b).toNat ≤ 32 → (∀ e ∈ s.core.loop.table, e.i < (s.x b).toNat ∧ stepApplies e.f (ws.getD e.i 0) = true) →
    s.fetchBody (s.core.pc + 4) (s.x b).toNat = .ok (ws, s1) →
    (∀ k, k < (s.x b).toNat → bodyWordOk (s.core.pc + 4) (s.x b).toNat false k (ws.getD k 0) = true) →
    ((s.x a).toNat ≠ 0 → exec (.lpSet a b) s = .next ((s1.updCore fun c => { c with loop := { c.loop with
      table := [], steps := s.core.loop.table, body := ws, start := s.core.pc + 4, mode := .loop, pass := 0
      left := (s.x a).toNat - 1, suspended := false } }).retire (s.core.pc + 4))) ∧
    ((s.x a).toNat = 0 → ∃ t : State, exec (.lpSet a b) s = .next (t.retire (s.core.pc + 4 + BitVec.ofNat 64 (4 * (s.x b).toNat))) ∧
      t.core.loop.mode = .none ∧ t.core.regs = s1.core.regs)) ∧
  (∀ (s : State) (a b : Reg), s.core.gang = none → (2 ^ 32 ≤ (s.x a).toNat ∨ (s.x b).toNat = 0 ∨ 32 < (s.x b).toNat ∨
    s.core.loop.mode ≠ .none ∨ ∃ e ∈ s.core.loop.table, (s.x b).toNat ≤ e.i) → Raises (.lpSet a b) s 1 0) ∧
  (∀ (s s1 : State) (a b : Reg) (ws : List Word32), s.core.gang = none →
    s.fetchBody (s.core.pc + 4) (s.x b).toNat = .ok (ws, s1) →
    ((∃ k w, ws[k]? = some w ∧ bodyWordOk (s.core.pc + 4) (s.x b).toNat false k w = false) ∨
      ∃ e ∈ s.core.loop.table, stepApplies e.f (ws.getD e.i 0) = false) → Raises (.lpSet a b) s 1 0) ∧
  (∀ (s : State) (i f c : Reg), s.core.gang = none →
    let e : StepEntry := ⟨i.toNat, f.toNat, (s.x c).toInt⟩
    let inRange : Prop := (f.toNat ≤ 3 ∧ -31 ≤ e.inc ∧ e.inc ≤ 31) ∨ (f.toNat = 4 ∧ -2048 ≤ e.inc ∧ e.inc ≤ 2047) ∨
      (f.toNat = 5 ∧ -(2 ^ 39) ≤ e.inc ∧ e.inc < 2 ^ 39) ∨ (f.toNat = 6 ∧ -255 ≤ e.inc ∧ e.inc ≤ 255) ∨
      (f.toNat = 7 ∧ -4095 ≤ e.inc ∧ e.inc ≤ 4095)
    let same (o : StepEntry) : Prop := o.i = e.i ∧ o.f = e.f
    (inRange → (∀ o ∈ s.core.loop.table, ¬ same o) → s.core.loop.table.length < 8 → Completes (.lpStep i f c) s
      (s.updCore fun k => { k with loop := { k.loop with table := s.core.loop.table ++ [e] } })) ∧
    (inRange → (∀ o ∈ s.core.loop.table, ¬ same o) → 8 ≤ s.core.loop.table.length → Raises (.lpStep i f c) s 1 0) ∧
    (∀ o, inRange → s.core.loop.table = [o] → same o → Completes (.lpStep i f c) s
      (s.updCore fun k => { k with loop := { k.loop with table := [e] } })) ∧
    (¬ inRange → Raises (.lpStep i f c) s 1 0)) ∧
  (∀ (s : State) (i : Nat) (w : Word32), s.bodyIndex? = some i → s.loop.word i = some w → s.fetchWord = .ok (w, s)) ∧
  (∀ (l : LoopState) (i : Nat) (w : Word32), l.body[i]? = some w →
    ((∀ e ∈ l.steps, e.i ≠ i) → l.word i = some w) ∧
    (∀ e, l.steps = [e] → e.i = i → l.word i = some (stepField w e.f (l.pass * e.inc)))) ∧
  ∀ (w : Word32) (f lo : Nat) (add : Int), (f, lo) ∈ [(0, 7), (1, 15), (2, 20), (3, 27)] →
    (stepField w f add).extractLsb' lo 5 = BitVec.ofInt 5 ((w.extractLsb' lo 5).toNat + add) ∧
    ∀ j, (j < lo ∨ lo + 5 ≤ j) → (stepField w f add).getLsbD j = w.getLsbD j

/-- R259 to R265: `ov.set` waits for the core's engines, refuses a cover map that meets the target under either name of the own
window, clears its cover map and starts the last iteration, each iteration from a
checkpoint; `ov.decl` skips the iteration, uncounted as run, if every element of its footprint is covered, and opens it if not;
`ov.stat` reads the counts of suppressed stores and skipped iterations, `ov.cov` how many cells of a region are not covered yet. At
the end of an iteration the cover map takes its footprint. Outside an overwrite body, or twice in one iteration, `ov.decl` is
ILLEGAL_INSTRUCTION; a footprint outside the target raises OV_ESCAPE. Log 46 (the model's reading): the fault value of a store before
`ov.decl`. -/
def Obligations.SkiverRuns : Prop :=
  (∀ (s s1 : State) (a b : Reg) (t : Reg4) (c : Reg) (ws : List Word32), s.core.gang = none → s.core.loop.mode = .none →
    1 ≤ (s.x a).toNat → (s.x a).toNat < 2 ^ 32 → 1 ≤ (s.x b).toNat → (s.x b).toNat ≤ 32 → s.core.loop.table = [] →
    (s.core.td t).rank ≠ 0 → 1 ≤ (s.core.td t).elements → (s.core.td t).elements ≤ 2 ^ 20 →
    (s.x c).toNat + ((s.core.td t).elements + 7) / 8 ≤ 0xC0000 →
    coverMeets s.cur (s.core.td t) (s.x c).toNat (((s.core.td t).elements + 7) / 8) = false →
    s.fetchBody (s.core.pc + 4) (s.x b).toNat = .ok (ws, s1) →
    (∀ k, k < (s.x b).toNat → bodyWordOk (s.core.pc + 4) (s.x b).toNat true k (ws.getD k 0) = true) →
    (s.core.eng.idle = false → exec (.ovSet a b t c) s = .next (s.updCore fun k => { k with wait := .asleep })) ∧
    (s.core.eng.idle = true → ∃ u : State, Completes (.ovSet a b t c) s u ∧ u.core.loop.mode = .overwrite ∧ u.core.loop.body = ws ∧
      u.core.loop.start = s.core.pc + 4 ∧ u.core.loop.pass = (s.x a).toNat - 1 ∧ u.core.loop.left = (s.x a).toNat - 1 ∧
      u.core.loop.td = s.core.td t ∧ u.core.loop.skipped = 0 ∧ u.core.loop.suppressed = 0 ∧ u.core.loop.declared = false ∧
      u.core.regs = s1.core.regs ∧ u.core.loop.check.isSome = true ∧
      (∀ k, k < (s.core.td t).elements → coverBit u.core.spad (s.x c).toNat k = false) ∧
      ∀ o, (o < (s.x c).toNat ∨ (s.x c).toNat + ((s.core.td t).elements + 7) / 8 ≤ o) →
        readByte u.core.spad o = readByte s1.core.spad o)) ∧
  (∀ (s : State) (a b : Reg) (t : Reg4) (c : Reg), s.core.gang = none → s.core.loop.mode = .none → (s.x a).toNat < 2 ^ 32 →
    1 ≤ (s.x b).toNat → (s.x b).toNat ≤ 32 → s.core.loop.table = [] → s.core.eng.idle = true →
    coverMeets s.cur (s.core.td t) (s.x c).toNat (((s.core.td t).elements + 7) / 8) = true → Raises (.ovSet a b t c) s 1 0) ∧
  (∀ (id cover n : Nat) (t : Td), id < 4096 → cover + n ≤ 0xC0000 → 0 < n → t.span = (0, 0) →
    (coverMeets id t cover n = true ↔ (0xF100000000 + cover ≤ t.base.toNat ∧ t.base.toNat < 0xF100000000 + cover + n) ∨
      (0xF000000000 + id * 2 ^ 20 + cover ≤ t.base.toNat ∧ t.base.toNat < 0xF000000000 + id * 2 ^ 20 + cover + n))) ∧
  (∀ (s u : State) (b : Reg4) (lens : List Nat), s.core.overwriting = true → s.core.loop.declared = false →
    (s.bx b).inexact = false → (s.bx b).rank = s.core.loop.td.rank.toNat → (s.bx b).rank ≠ 0 → s.lengthsOf (s.bx b) = .ok (lens, u) →
    let l := s.core.loop
    let marked := u.updCore fun c => { c with loop := { c.loop with check := some c.checkpoint, resume := c.pc } }
    let cells := footprintOf l.td (s.bx b) lens
    (l.td.holdsRegion (s.bx b) lens = false → Raises (.ovDecl b) s 24 (b.zeroExtend 64)) ∧
    (l.td.holdsRegion (s.bx b) lens = true → (∀ k ∈ cells, coverBit u.core.spad l.cover k = true) →
      exec (.ovDecl b) s = .next ((marked.updCore fun c => { c with loop := { c.loop with
        skipped := if l.skipped = BitVec.allOnes 32 then l.skipped else l.skipped + 1 } }).retire l.bodyEnd)) ∧
    (l.td.holdsRegion (s.bx b) lens = true → (∃ k ∈ cells, coverBit u.core.spad l.cover k = false) →
      Completes (.ovDecl b) s (marked.updCore fun c => { c with loop := { c.loop with
        declared := true, footprint := s.bx b, lens := lens } }))) ∧
  (∀ (s : State) (b : Reg4), s.core.overwriting = false ∨ s.core.loop.declared = true → Raises (.ovDecl b) s 1 0) ∧
  (∀ (s : State) (d : Reg), (s.core.loop.everSet = true →
      Completes (.ovStat d) s (s.setX d (s.core.loop.suppressed ++ s.core.loop.skipped))) ∧
    (s.core.loop.everSet = false → Raises (.ovStat d) s 1 0)) ∧
  (∀ (s u : State) (d : Reg) (b : Reg4) (lens : List Nat), s.core.loop.everSet = true → (s.bx b).inexact = false →
    (s.bx b).rank = s.core.loop.td.rank.toNat → (s.bx b).rank ≠ 0 → s.lengthsOf (s.bx b) = .ok (lens, u) →
    Completes (.ovCov d b) s (u.setX d (BitVec.ofNat 64 (min (boxesCells ((s.bx b).exact lens).boxes -
      coveredCells s.core.loop u.core.spad ((s.bx b).moveBoxes lens)) (2 ^ 64 - 1))))) ∧
  (∀ (c : Core) (k : Nat), c.loop.declared = true →
    coverBit c.coverFootprint.spad c.loop.cover k =
      (coverBit c.spad c.loop.cover k || (footprintOf c.loop.td c.loop.footprint c.loop.lens).contains k)) ∧
  ∀ (s : State) (v : Reg) (t : Reg4) (c : Reg),
    let td := s.core.loop.td
    let cs := td.wrapped ((List.range td.rank.toNat).map fun k => (s.x (BitVec.ofNat 5 (c.toNat + k))).toInt)
    s.core.overwriting = true → s.core.loop.tdReg = t → td.valid = true → c.toNat + td.rank.toNat ≤ 32 →
    Raises (.tLd v t c) s 23 (td.elem 0 cs).addr ∧
    (td.inBounds cs = true → s.core.loop.declared = false → Raises (.tSt v t c) s 24 (td.elem 0 cs).addr) ∧
    (td.inBounds cs = true → s.core.loop.declared = true → s.core.loop.inFootprint cs = true →
      coverBit s.core.spad s.core.loop.cover (td.index cs).toNat = true →
      Completes (.tSt v t c) s (s.updCore fun k => { k with loop := { k.loop with
        suppressed := if k.loop.suppressed = BitVec.allOnes 32 then k.loop.suppressed else k.loop.suppressed + 1 } }))

/-! ## The event unit -/

/-- R233, R234, R236 to R239: `ev.fire` advances its line's phase by 1; `ev.wait` and `ev.bar` compare a token with the phase: an equal
one sleeps until the next firing, whose phase it then returns, one that is 1 behind returns the phase at once, one further behind
returns it with STALE, one ahead raises SYNC_TOKEN. `ev.bar` with an equal token first arrives, once per core; the arrival that makes
the count full advances the phase and empties the set, and a count other than the barrier's raises SYNC_MISMATCH. Log 14 holds how a
sleeper is marked. -/
def Obligations.EventLinesAndBarriers : Prop :=
  (∀ (s : State) (d x : Reg) (n : Nat) (token : BitVec 16), s.core.overwriting = false → n < 32 →
    s.x x = BitVec.ofNat 64 (n + 2 ^ 16 * token.toNat) → heldByOther s.unit.lines s.owner n = false →
    let line := resOf s.unit.lines s.owner n
    let k := (line.phase - token).toNat
    let claimed := s.updUnit fun c => c.setLine s.owner n line
    (s.core.wait = .none → k = 1 → Completes (.evWait d x) s (claimed.setX d (line.phase.zeroExtend 64))) ∧
    (s.core.wait = .none → 2 ≤ k → k < 32768 → Completes (.evWait d x) s (claimed.setX d ((1#1 ++ line.phase).zeroExtend 64))) ∧
    (s.core.wait = .none → 32768 ≤ k → Raises (.evWait d x) s 33 (token.zeroExtend 64)) ∧
    (k = 0 → exec (.evWait d x) s = .next (claimed.updCore fun c => { c with wait := .lineWord n token })) ∧
    (s.core.wait = .lineWord n token → k ≠ 0 → Completes (.evWait d x) s (s.setX d (BitVec.zeroExtend 64 (token + 1))))) ∧
  (∀ (s : State) (x : Reg), s.core.overwriting = false →
    (∀ n, n < 32 → s.x x = BitVec.ofNat 64 n → heldByOther s.unit.lines s.owner n = false →
      Completes (.evFire x) s (s.updUnit fun c => c.fire s.owner n false)) ∧
    (32 ≤ (s.x x).toNat → Raises (.evFire x) s 1 0)) ∧
  (∀ (c : Cluster) (owner n m : Nat) (byMsg : Bool),
    (resOf (c.fire owner n byMsg).lines owner n).phase = (resOf c.lines owner n).phase + 1 ∧
    (m ≠ n → resOf (c.fire owner n byMsg).lines owner m = resOf c.lines owner m) ∧
    (c.fire owner n byMsg).barriers = c.barriers ∧ (c.fire owner n byMsg).counters = c.counters) ∧
  (∀ (s : State) (d x : Reg) (n count : Nat) (token : BitVec 16), s.core.overwriting = false → n < 8 → 1 ≤ count → count ≤ 16 →
    s.x x = BitVec.ofNat 64 (n + 16 * count + 2 ^ 16 * token.toNat) → heldByOther s.unit.barriers s.owner n = false →
    let b := resOf s.unit.barriers s.owner n
    let k := (b.phase - token).toNat
    let a := b.arrivals ||| (1#16 <<< (s.cur % 16))
    let claimed := s.updUnit fun c => c.setBarrier s.owner n b
    (s.core.wait = .none → k = 1 → Completes (.evBar d x) s (claimed.setX d (b.phase.zeroExtend 64))) ∧
    (s.core.wait = .none → 2 ≤ k → k < 32768 → Completes (.evBar d x) s (claimed.setX d ((1#1 ++ b.phase).zeroExtend 64))) ∧
    (s.core.wait = .none → 32768 ≤ k → Raises (.evBar d x) s 33 (token.zeroExtend 64)) ∧
    (k = 0 → b.arrivals ≠ 0 → b.count ≠ count → Raises (.evBar d x) s 34 (BitVec.ofNat 64 n)) ∧
    (k = 0 → (b.arrivals = 0 ∨ b.count = count) → arrived a = count → Completes (.evBar d x) s
      ((s.updUnit fun c => c.setBarrier s.owner n ⟨b.phase + 1, count, 0⟩).setX d (BitVec.zeroExtend 64 (b.phase + 1)))) ∧
    (k = 0 → (b.arrivals = 0 ∨ b.count = count) → arrived a ≠ count → exec (.evBar d x) s = .next
      ((s.updUnit fun c => c.setBarrier s.owner n ⟨b.phase, count, a⟩).updCore fun c => { c with wait := .lineWord (32 + n) token }))) ∧
  ∀ (s : State) (d x : Reg) (n : Nat), s.core.overwriting = false → n < 32 → s.x x = BitVec.ofNat 64 n →
    heldByOther s.unit.lines s.owner n = true → (alGet (resKey s.owner n) s.unit.lines).isNone = true → s.part.mode = .service →
    Raises (.evWait d x) s 32 (BitVec.ofNat 64 (1 + n * 256)) ∧ Raises (.evFire x) s 32 (BitVec.ofNat 64 (1 + n * 256))

/-- R233, R235, R240 to R242: `ev.lock` takes a free mutex and otherwise sleeps at the tail of its list; `ev.unlock` by the holder passes
it to the head of the list or frees it; the wrong core raises SYNC_MISMATCH. `ev.cadd` adds, stopping at 0xFFFF_FFFF, returns the new
value, and fires each armed threshold that it reaches once, which is then armed no more; `ev.arm` arms, fires at once a threshold already
reached, or resets. `ev.msg` fires a line or adds 1 to a counter in the cluster of a core of the partition; from supervisor mode it
reaches a line that the partition's supervisor code holds (R296). Log 25, log 43, log 113 (the model's choices): a link that is down,
what `ev.arm` claims, and whose line such a message reaches otherwise. -/
def Obligations.MutexesCountersMessages : Prop :=
  (∀ (s : State) (x : Reg) (n : Nat), s.core.overwriting = false → n < 8 → s.x x = BitVec.ofNat 64 n →
    heldByOther s.unit.mutexes s.owner n = false →
    let m := resOf s.unit.mutexes s.owner n
    let me := s.cur % 16
    let put (v : EvMutex) : State := s.updUnit fun c => c.setMutex s.owner n v
    (m.holder = none → Completes (.evLock x) s (put ⟨some me, m.waiters⟩)) ∧
    (∀ h, m.holder = some h → h ≠ me → me ∉ m.waiters → exec (.evLock x) s = .next ((put ⟨some h, m.waiters ++ [me]⟩).updCore fun c =>
      { c with wait := .lineWord (64 + n) 0 })) ∧
    (m.holder = some me → s.core.wait = .none → Raises (.evLock x) s 34 (BitVec.ofNat 64 n)) ∧
    (m.holder = some me → s.core.wait = .lineWord (64 + n) 0 → Completes (.evLock x) s s) ∧
    (m.holder = some me → m.waiters = [] → Completes (.evUnlock x) s (put ⟨none, []⟩)) ∧
    (∀ h t, m.holder = some me → m.waiters = h :: t → Completes (.evUnlock x) s (put ⟨some h, t⟩)) ∧
    (m.holder ≠ some me → Raises (.evUnlock x) s 34 (BitVec.ofNat 64 n))) ∧
  (∀ (s : State) (d c v : Reg) (n add : Nat), s.core.overwriting = false → n < 8 → s.x c = BitVec.ofNat 64 n → add < 2 ^ 32 →
    s.x v = BitVec.ofNat 64 add → heldByOther s.unit.counters s.owner n = false →
    let k := resOf s.unit.counters s.owner n
    let value := min (k.value.toNat + add) (2 ^ 32 - 1)
    ∃ u : Cluster, Completes (.evCadd d c v) s ((s.updUnit fun _ => u).setX d (BitVec.ofNat 64 value)) ∧
      (resOf u.counters s.owner n).value.toNat = value ∧
      (resOf u.counters s.owner n).armed = k.armed.filter (fun t => decide (value < t.1.toNat)) ∧
      ∀ line, (resOf u.lines s.owner line).phase = (resOf s.unit.lines s.owner line).phase +
        BitVec.ofNat 16 (k.armed.filter fun t => decide (t.1.toNat ≤ value) && t.2 == line).length) ∧
  (∀ (s : State) (c t : Reg) (n line : Nat) (th : BitVec 32), s.core.overwriting = false → n < 8 → line < 32 →
    heldByOther s.unit.counters s.owner n = false → heldByOther s.unit.lines s.owner line = false →
    let k := resOf s.unit.counters s.owner n
    (s.x c = BitVec.ofNat 64 (n + 256) → s.x t = 0 → Completes (.evArm c t) s (s.updUnit fun u => u.setCounter s.owner n ⟨0, []⟩)) ∧
    (s.x c = BitVec.ofNat 64 n → s.x t = BitVec.ofNat 64 (th.toNat + 2 ^ 32 * line) →
      (th ≤ k.value → Completes (.evArm c t) s (s.updUnit fun u => (u.setCounter s.owner n k).fire s.owner line false)) ∧
      (k.value < th → k.armed.length < 4 ∨ s.exhausts s.part = false → Completes (.evArm c t) s (s.updUnit fun u =>
        (u.setLine s.owner line (resOf u.lines s.owner line)).setCounter s.owner n ⟨k.value, k.armed ++ [(th, line)]⟩)) ∧
      (k.value < th → 4 ≤ k.armed.length → s.part.mode = .service →
        Raises (.evArm c t) s 32 (BitVec.ofNat 64 (5 + n * 256))))) ∧
  ∀ (s : State) (t w : Reg) (l n : Nat), s.core.overwriting = false → s.x t = BitVec.ofNat 64 l → l < s.part.size → l < 4096 →
    s.cutOff s.part s.cur (s.part.phys l) = false →
    let id := s.part.phys l
    let cl := id / 16
    let o (n : Nat) : Nat := s.msgOwner id (s.clusterAt cl).lines n
    let p (n : Nat) : Nat := s.msgOwner id (s.clusterAt cl).counters n
    (∀ n, s.core.sup = false → o n = s.owner ∧ p n = s.owner) ∧
    (∀ n, s.core.sup = true → (alGet (resKey 0 n) (s.clusterAt cl).lines).isSome = true → o n = 0) ∧
    (n < 32 → s.x w = BitVec.ofNat 64 n → heldByOther (s.clusterAt cl).lines (o n) n = false →
      Completes (.evMsg t w) s (s.updCluster cl fun u => u.fire (o n) n true)) ∧
    (n < 8 → s.x w = BitVec.ofNat 64 (32 + n) → heldByOther (s.clusterAt cl).counters (p n) n = false →
      Completes (.evMsg t w) s (s.updCluster cl fun u => (u.addCounter (p n) n 1 true).1))

/-! ## Futures and tasks -/

/-- R213 to R218: a future goes from pending to full by `fu.set`, from full to empty by `fu.get`, which returns its value, and from
pending or full by `fu.drop`; setting a dropped one empties it; `fu.poll` tells the state, 0 for a handle that is not live. A handle that
is not live raises FUTURE_HANDLE, a state that the form does not take FUTURE_STATE. `fu.new` gives a live handle, not zero, to a pending
future with the next generation of its slot. R13, R14, R208 to R211, R216 to R218, R223: `ts.spawn` splits the task's weight with a child
of its launch, after a borrow if the weight is below 2, and returns the child's number; the child takes the entry, the four arguments and
the tile coordinates; it is ready at once if every named future is full, waits for each pending one once, and is cancelled by a dropped
one. A misaligned entry raises MISALIGNED, a dead handle FUTURE_HANDLE, a full pool SPAWN_FULL, a borrow that is refused WEIGHT_EXHAUSTED.
`ts.weight` reads the weight. `ts.exit` of a task in no gang waits for its commands, then the task ends: its weight goes to its launch's
accumulator, its pool slot is free, and its node completes with its last task; the core is idle and offered to the dispatcher, and its
registers stand until the next bind (R309). Log 44, log 45, log 86, log 89 (the model's readings and free choices): the child's `cpb`, the
budgets, the first generation, the slot taken. -/
def Obligations.FuturesAndTasks : Prop :=
  ((∀ (s : State) (d h v : Reg) (k : Nat) (f : Future), s.core.overwriting = false → s.liveFuture (s.x h) = some (k, f) →
    let put (g : Future) : State := s.setFuture s.core.part k g
    (f.state = .pending → Completes (.fuSet h v) s ((put { f with state := .full, value := s.x v }).wakeWaiters s.core.part k)) ∧
    (f.state = .dropped → Completes (.fuSet h v) s (put { f with state := .empty, value := 0 })) ∧
    (f.state = .full → Raises (.fuSet h v) s 41 (s.x h)) ∧
    (f.state = .full → Completes (.fuGet d h) s ((put { f with state := .empty, value := 0 }).setX d f.value)) ∧
    (f.state ≠ .full → Raises (.fuGet d h) s 41 (s.x h)) ∧
    (f.state = .pending → Completes (.fuDrop h) s (s.dropFuture s.core.part k f)) ∧
    (f.state = .full → Completes (.fuDrop h) s (put { f with state := .empty, value := 0 })) ∧
    (f.state = .dropped → Raises (.fuDrop h) s 41 (s.x h)) ∧
    Completes (.fuPoll d h) s (s.setX d (match f.state with | .empty => 0 | .pending => 1 | .full => 2 | .dropped => 3))) ∧
  (∀ (s : State) (d h v : Reg), s.core.overwriting = false → s.liveFuture (s.x h) = none →
    Raises (.fuSet h v) s 40 (s.x h) ∧ Raises (.fuGet d h) s 40 (s.x h) ∧ Raises (.fuDrop h) s 40 (s.x h) ∧
      Completes (.fuPoll d h) s (s.setX d 0)) ∧
  (∀ (s : State) (h : Word) (k : Nat) (f : Future), s.liveFuture h = some (k, f) →
    alGet k s.part.futures = some f ∧ k = h.toNat % 65536 ∧ k ≠ 0 ∧ f.gen.toNat = h.toNat / 65536 ∧ f.state ≠ .empty ∧
      ∃ n m w r, s.core.bound = .task f.launch n m w r) ∧
  ∀ (s : State) (d : Reg) (key n m w : Nat) (r : Option Nat) (l : Launch), s.core.overwriting = false →
    s.core.bound = .task key n m w r → s.part.launch? key = some l → l.key = key → (alGet s.core.part s.parts).isSome = true →
    s.part.budgetFull l n = false → (s.part.futures.filter fun e => e.2.state != .empty).length < 4096 → s.part.freeSlots ≠ [] →
    ∃ (k : Nat) (g : BitVec 16), k ∈ s.part.freeSlots ∧ g = nextGen (((alGet k s.part.futures).map (·.gen)).getD 0) ∧ g ≠ 0 ∧
      Completes (.fuNew d) s ((s.setFuture s.core.part k ⟨0, .pending, g, key, n⟩).setX d
        (BitVec.ofNat 64 (k + 2 ^ 16 * g.toNat)))) ∧
  ((∀ (s : State) (d a b c : Reg) (key n m w : Nat) (r : Option Nat) (l : Launch), s.core.overwriting = false →
    (s.x a).toNat % 4 = 0 → s.core.bound = .task key n m w r → s.part.launch? key = some l → l.pool.length < l.poolSize →
    (∀ x ∈ [b, c], x ≠ 0 → (s.liveFuture (s.x x)).isSome = true) → (2 ≤ w ∨ l.loans + 1 < 2 ^ 23) →
    let named (st : FutState) (k : Nat) : Prop := ∃ x ∈ [b, c], x ≠ 0 ∧ ∃ f, s.liveFuture (s.x x) = some (k, f) ∧ f.state = st
    let lent := if 2 ≤ w then 0 else 2 ^ 40
    ∃ (l' : Launch) (t : Task) (pending : List Nat),
      let spawned := (((s.updLaunch s.core.part key fun _ => l').updCore fun c =>
        { c with bound := .task key n m (w + lent - (w + lent) / 2) r }).setX d (BitVec.ofNat 64 t.number))
      (pending.Nodup ∧ ∀ k, k ∈ pending ↔ named .pending k) ∧
      t.number = l.counter ∧ l'.counter = l.counter + 1 ∧ l'.pool = l.pool ++ [t.number] ∧ t.weight = (w + lent) / 2 ∧
      l'.target = l.target + lent ∧ l'.loans = (if 2 ≤ w then l.loans else l.loans + 1) ∧ l'.acc = l.acc ∧ t.entry = s.x a ∧
      t.node = n ∧ t.args = [s.x 14, s.x 15, s.x 16, s.x 17] ∧ t.tile0 = s.core.csr.tile0 ∧ t.tile1 = s.core.csr.tile1 ∧
      t.tile2 = s.core.csr.tile2 ∧ t.cpb = s.core.csr.cpb ∧ t.waits = [] ∧
      ((∃ k, named .dropped k) → Completes (.tsSpawn d a b c) s (spawned.cancelTask s.core.part t)) ∧
      ((∀ k, ¬ named .dropped k) → pending ≠ [] → Completes (.tsSpawn d a b c) s
        (spawned.updPartAt s.core.part fun p => { p with waiting := p.waiting ++ [{ t with waits := pending }] })) ∧
      ((∀ k, ¬ named .dropped k) → pending = [] → Completes (.tsSpawn d a b c) s (spawned.readyTask s.core.part t))) ∧
  (∀ (s : State) (d a b c : Reg), s.core.overwriting = false → (s.x a).toNat % 4 ≠ 0 → Raises (.tsSpawn d a b c) s 2 (s.x a)) ∧
  (∀ (s : State) (d a b c : Reg), s.core.overwriting = false → (s.x a).toNat % 4 = 0 →
    (b ≠ 0 → s.liveFuture (s.x b) = none → Raises (.tsSpawn d a b c) s 40 (s.x b)) ∧
    (b = 0 ∨ (s.liveFuture (s.x b)).isSome = true → c ≠ 0 → s.liveFuture (s.x c) = none → Raises (.tsSpawn d a b c) s 40 (s.x c))) ∧
  (∀ (s : State) (d a b c : Reg) (key n m w : Nat) (r : Option Nat) (l : Launch), s.core.overwriting = false →
    (s.x a).toNat % 4 = 0 → s.core.bound = .task key n m w r → s.part.launch? key = some l →
    (∀ x ∈ [b, c], x ≠ 0 → (s.liveFuture (s.x x)).isSome = true) →
    (l.poolSize ≤ l.pool.length → Raises (.tsSpawn d a b c) s 44 0) ∧
    (l.pool.length < l.poolSize → w < 2 → 2 ^ 23 ≤ l.loans + 1 → Raises (.tsSpawn d a b c) s 45 0)) ∧
  (∀ (s : State) (d : Reg) (key n m w : Nat) (r : Option Nat), s.core.bound = .task key n m w r →
    Completes (.tsWeight d) s (s.setX d (BitVec.ofNat 64 w))) ∧
  (∀ s : State, s.core.gang = none → s.core.exiting = false → s.core.eng.idle = false →
    exec .tsExit s = .next (s.updCore fun c => { c with
      inbox := [], posts := [], exiting := true, pushers := [], regs := { c.regs with q1 := [] }, wait := .exit })) ∧
  ∀ (s : State) (key n m w : Nat) (r : Option Nat) (l : Launch), s.core.gang = none → s.core.bound = .task key n m w r →
    s.core.eng.idle = true → (s.core.exiting = false ∨ s.core.posts = []) → (alGet s.core.part s.parts).isSome = true →
    s.part.launch? key = some l →
    ∃ (u : State) (l' : Launch),
      let lastOf (l : Launch) (n : Nat) : Bool := l.nodes[n]?.any fun x => x.live == 0 && x.state == .ready
      let ended := if lastOf l' n then u.runNodes s.core.part key l'.nodeSteps [.complete n] else u
      exec .tsExit s = .next ended ∧
      (u.partAt s.core.part).launch? key = some l' ∧ l'.acc = l.acc + w ∧ l'.target = l.target ∧ l'.tasks = l.tasks + 1 ∧
      l'.pool = l.pool.filter (· != m) ∧ (∀ k x, l.nodes[k]? = some x → l'.nodes[k]? =
        some (if k = n then { x with live := x.live - 1 } else x)) ∧
      (s.part.isSuper s.cur = false → (u.partAt s.core.part).offers.any (·.1 == s.cur) = true) ∧
      ∀ t ∈ [u, ended], t.core.bound = .idle ∧ (∀ x, t.x x = s.x x) ∧ t.core.inbox = [] ∧ t.core.spad = s.core.spad ∧
        t.core.sup = false)

/-! ## Issue -/

/-- R8, R22, R23, R26, R65, R96: an issue instruction to a queueing engine fetches 32 bytes at its pool index, patches the words, and puts
the command at the tail of the engine's queue with the next sequence number; the ring takes the number, and control goes on. With x0 for
both registers outside a loop the command is as the pool holds it; the displacement takes the first register (64-fold in mode 2), the
count the second. A full queue holds the instruction up. A command whose fetch fails raises its fault, and an issue in a body of an
overwriting loop ILLEGAL_INSTRUCTION, each with the number that would have come next. R11, R12, R23, R26, R143: each of
the eight matrix instructions puts a product of its pair of formats at the tail of the matrix queue, with the values of its registers and
of `mxrow` at that moment and the next sequence number; a full queue holds it up. Log 22, log 54 (the model's readings): uncorrectable
lengths, and `rngctr` of a command that will fail. -/
def Obligations.IssueCapturesOperands : Prop :=
  ((∀ (s s1 : State) (e : BitVec 3) (index : BitVec 12) (a b : Reg) (raw : Nat), e.toNat ≤ 4 → s.core.overwriting = false →
    s.fetch (w64 (s.core.csr.cpb.toNat * 32) + w64 (32 * index.toNat)).toNat 32 = .ok (raw, s1) → s.core.dead e = false →
    let w := patchWords (commandWords raw) (s.x a) (if b = 0 then none else some (s.x b)) (s.loop.addend s.core.pc 5)
      (s.loop.addend s.core.pc 6)
    (s.core.eng.free e = 0 → exec (.engineIssue e index a b) s = .next (s.updCore fun c => { c with wait := .counted })) ∧
    (s.core.eng.free e ≠ 0 → ∃ (t : State) (cmd : Cmd), Completes (.engineIssue e index a b) s t ∧
      t.core.eng.queue e = s.core.eng.queue e ++ [cmd] ∧ cmd.words = w.1 ∧ cmd.bad = w.2 ∧ cmd.seq = s.core.seqctr ∧ cmd.mx = none ∧
      cmd.pool = w64 (s.core.csr.cpb.toNat * 32) + w64 (32 * index.toNat) ∧ cmd.sup = s.core.sup ∧
      cmd.td1 = s.core.td (w.1.w1.extractLsb' 40 4) ∧ cmd.td2 = s.core.td (w.1.w1.extractLsb' 44 4) ∧
      (w.1.w0.getLsbD 20 = true → cmd.region = s.core.bx (w.1.w0.extractLsb' 16 4)) ∧
      t.core.seqctr = s.core.seqctr + 1 ∧ t.core.ring = ⟨s.core.seqctr, e, index, false, .queued⟩ :: s.core.ring.take 63 ∧
      (∀ f : BitVec 3, f.toNat ≤ 4 → f ≠ e → t.core.eng.queue f = s.core.eng.queue f) ∧ (∀ r, t.x r = s.x r) ∧
      t.core.spad = s.core.spad ∧ t.core.regs.td = s.core.regs.td ∧ t.core.regs.bx = s.core.regs.bx ∧
      t.core.regs.vp = s.core.regs.vp ∧ SameMemory s t ∧ SameOthers s t)) ∧
  (∀ (s s1 : State) (e : BitVec 3) (index : BitVec 12) (a b : Reg) (raw : Nat), e.toNat ≤ 4 → s.core.overwriting = false →
    s.fetch (w64 (s.core.csr.cpb.toNat * 32) + w64 (32 * index.toNat)).toNat 32 = .ok (raw, s1) → s.core.dead e = true →
    ∃ t, Completes (.engineIssue e index a b) s t ∧ t.core.eng = s.core.eng ∧ t.core.seqctr = s.core.seqctr + 1 ∧
      t.core.ring = ⟨s.core.seqctr, e, index, false, .discarded⟩ :: s.core.ring.take 63) ∧
  (∀ (s : State) (e : BitVec 3) (index : BitVec 12) (a b : Reg) (f : Fail), e.toNat ≤ 6 → s.core.overwriting = false →
    s.fetch (w64 (s.core.csr.cpb.toNat * 32) + w64 (32 * index.toNat)).toNat 32 = .error (.fault f) →
    exec (.engineIssue e index a b) s = .next (s.raiseTrap (.engineIssue e index a b) { f with numbered := true })) ∧
  (∀ (s : State) (e : BitVec 3) (index : BitVec 12) (a b : Reg), e.toNat ≤ 4 → s.core.overwriting = true →
    exec (.engineIssue e index a b) s =
      .next (s.raiseTrap (.engineIssue e index a b) { Fail.of Cause.illegal 0 with numbered := true })) ∧
  (∀ w : CmdWords, patchWords w 0 none 0 0 = (w, false)) ∧
  ∀ (w : CmdWords) (r : Word) (n : Option Word),
    let p := patchWords w r n 0 0
    let mode := (w.w0.extractLsb' 14 2).toNat
    let d := if mode = 2 then r * 64 else r
    p.1.w2 = w.w2 ∧ p.1.w3 = w.w3 ∧ p.1.w0.extractLsb' 0 32 = w.w0.extractLsb' 0 32 ∧
      p.1.w1.extractLsb' 40 24 = w.w1.extractLsb' 40 24 ∧
      p.1.w1.extractLsb' 0 40 = w.w1.extractLsb' 0 40 + d.extractLsb' 0 40 ∧
      (∀ v, n = some v → v.toNat < 2 ^ 32 → p.1.w0.extractLsb' 32 32 = v.extractLsb' 0 32) ∧
      (∀ v, n = some v → 2 ^ 32 ≤ v.toNat → p.2 = true) ∧
      (mode = 1 → (w.w1.extractLsb' 0 40).toNat + r.toInt < 0 ∨ 2 ^ 40 ≤ (w.w1.extractLsb' 0 40).toNat + r.toInt → p.2 = true)) ∧
  (∀ (s : State) (acd : AccReg) (a b : Reg) (m : MxMode) (f : Reg),
    let goes (i : Instr) (pair : Pair) : Prop :=
      (s.core.dead 2 = false → s.core.eng.free 2 = 0 → exec i s = .next (s.updCore fun c => { c with wait := .counted })) ∧
      (s.core.dead 2 = false → s.core.eng.free 2 ≠ 0 → ∃ (t : State) (cmd : Cmd), Completes i s t ∧
        t.core.eng = { s.core.eng with mq := s.core.eng.mq ++ [cmd] } ∧
        (∃ u : BitVec 2, cmd.mx = some ⟨pair, m, acd, s.x a, s.x b, s.f f, s.core.csr.mxrow, u⟩ ∧
          u.getLsbD 0 = ((s.handleTile s.cur (s.x a)).state == .empty) ∧
          u.getLsbD 1 = ((s.handleTile s.cur (s.x b)).state == .empty)) ∧ cmd.seq = s.core.seqctr ∧
        t.core.seqctr = s.core.seqctr + 1 ∧ t.core.ring = ⟨s.core.seqctr, 2, 0, true, .queued⟩ :: s.core.ring.take 63 ∧
        t.core.regs = s.core.regs ∧ t.core.acc = s.core.acc ∧ t.core.spad = s.core.spad ∧ t.core.csr = s.core.csr ∧
        SameMemory s t ∧ SameOthers s t)
    goes (.mxK8k8 acd a b m f) .k8k8 ∧ goes (.mxK4k4 acd a b m f) .k4k4 ∧ goes (.mxK8k4 acd a b m f) .k8k4 ∧
      goes (.mxK4k8 acd a b m f) .k4k8 ∧ goes (.mxI8i8 acd a b m f) .i8i8 ∧ goes (.mxI4i4 acd a b m f) .i4i4 ∧
      goes (.mxF16f16 acd a b m f) .f16f16 ∧ goes (.mxB16b16 acd a b m f) .b16b16)


/-- R25, R26, R105, R107, R108, R111: tile and inbox commands execute at their issue and take a number that is complete. `tt.bind` binds
an empty tile whose range no allocation overlaps, and it is ready; `tt.wait` waits for the tiles that a region's rows touch; `tt.rel`
waits for a ready tile that nothing names and empties it; `tt.stat` reads a tile's entry; `ib.deq` waits for a message and removes the
oldest, so that the stream sees what its operation wrote and where its words landed, `ib.peek` reads one, or all ones. A tile in the
wrong state is BAD_COMMAND; an overwriting body holds neither `tt.bind`, `tt.rel` nor `ib.deq` (R256). Log 21, log 116 (the model's
choices): a command given by itself stands for pool entry 0, and every field of a released tile is zero. -/
def Obligations.TileAndInboxCommands : Prop :=
  let pool (s : State) : Word := w64 (s.core.csr.cpb.toNat * 32)
  let numbered (e : BitVec 3) (s : State) : State := s.updCore fun c => { c with
    seqctr := c.seqctr + 1, ring := ⟨c.seqctr, e, 0, false, .complete⟩ :: c.ring.take 63 }
  let bad (i : Instr) (s : State) : Prop := exec i s = .next (s.raiseTrap i ⟨16, pool s, 0, 5, true, none⟩)
  let waits (i : Instr) (s : State) : Prop := exec i s = .next (s.updCore fun c => { c with wait := .counted })
  (∀ (s : State) (o : TtBind), s.core.overwriting = false →
    let clash := ∃ k, k < 256 ∧ (s.core.tile k).state ≠ .empty ∧ (s.core.tile k).off.toNat < o.off.toNat + o.len.toNat ∧
      o.off.toNat < (s.core.tile k).off.toNat + (s.core.tile k).len.toNat
    ((s.core.tile o.tile.toNat).state = .empty → ¬ clash → Completes (.ttBind o) s
      (numbered 5 (s.updCore fun c => c.setTile o.tile.toNat ⟨.ready, false, o.off, o.len, o.rows, o.lo0, 0⟩))) ∧
    ((s.core.tile o.tile.toNat).state ≠ .empty ∨ clash → bad (.ttBind o) s)) ∧
  (∀ (s u : State) (o : TtWait) (lens : List Nat), s.lengthsOf (s.headRegion o.head) = .ok (lens, u) →
    ((s.headRegion o.head).rowRange lens = none → Completes (.ttWait o) s (numbered 5 u)) ∧
    ∀ lo hi, (s.headRegion o.head).rowRange lens = some (lo, hi) →
      let held := ∃ k, k < o.n.toNat ∧ (s.core.tile (o.tile.toNat + k)).touched lo hi = true ∧
        (s.core.tile (o.tile.toNat + k)).state ≠ .ready
      (¬ held → Completes (.ttWait o) s (numbered 5 u)) ∧ (held → waits (.ttWait o) s)) ∧
  (∀ (s : State) (o : TtWait) (f : Fail), s.lengthsOf (s.headRegion o.head) = .error (.fault f) →
    exec (.ttWait o) s = .next (s.raiseTrap (.ttWait o) { f with eng := 5, numbered := true })) ∧
  (∀ (s : State) (o : TtTile), s.core.overwriting = false →
    let t := s.core.tile o.tile.toNat
    (t.state = .empty → bad (.ttRel o) s) ∧
    (t.state = .ready → s.productReads s.cur o.tile = false → s.core.eng.commands = [] →
      Completes (.ttRel o) s (numbered 5 (s.updCore fun c => c.setTile o.tile.toNat Tile.empty))) ∧
    (t.state = .filling ∨ t.state = .draining → waits (.ttRel o) s) ∧
    Completes (.ttStat o) s (numbered 5 (s.setX o.rd (BitVec.ofNat 64 t.image)))) ∧
  (∀ (s : State) (o : IbOps), s.core.overwriting = false →
    (s.core.inbox = [] → waits (.ibDeq o) s ∧ Completes (.ibPeek o) s (numbered 6 (s.setX o.rd (BitVec.allOnes 64)))) ∧
    (∀ m t, s.core.inbox = m :: t →
      Completes (.ibDeq o) s (numbered 6 (((s.updCore fun c => { c with inbox := t }.takeLanding m).dequeued m.key).setX o.rd
        (BitVec.ofNat 64 m.image)))) ∧
    ∀ m, s.core.inbox[o.i.toNat]? = some m →
      Completes (.ibPeek o) s (numbered 6 (s.setX o.rd (BitVec.ofNat 64 m.image)))) ∧
  (∀ (s : State) (b : TtBind) (t : TtTile) (i : IbOps), s.core.overwriting = true →
    let bars (j : Instr) (e : BitVec 3) : Prop := exec j s = .next (s.raiseTrap j ⟨Cause.illegal, 0, 0, e, true, none⟩)
    bars (.ttBind b) 5 ∧ bars (.ttRel t) 5 ∧ bars (.ibDeq i) 6) ∧
  (∀ (c : Core) (n m : Nat) (t : Tile), (c.setTile n t).tile n = t ∧ (m ≠ n → (c.setTile n t).tile m = c.tile m)) ∧
  ∀ t : Tile, (BitVec.ofNat 64 t.image).extractLsb' 0 2 = (match t.state with
      | .empty => 0#2 | .filling => 1#2 | .ready => 2#2 | .draining => 3#2) ∧
    (BitVec.ofNat 64 t.image).extractLsb' 4 20 = t.off ∧ (BitVec.ofNat 64 t.image).extractLsb' 24 20 = t.len ∧
    (BitVec.ofNat 64 t.image).extractLsb' 44 16 = t.rows

/-! ## Vector commands -/

/-- R150, R151, R160 to R167: one step of a vector command whose accesses go through writes one run of elements, element by element:
`v.add`, `v.sub`, `v.mul`, `v.fma`, `v.scl` and `v.fmas` round the exact result once (integers wrap, or clamp with sat); `v.min`, `v.max`,
`v.and`, `v.or`, `v.xor`, `v.shl`, `v.shr`, `v.sel`, `v.exp2`, `v.log2`, `v.rcp`, `v.rsq`, `v.sig`, `v.bcast`, `v.perm`, `v.mov`, `v.fill`
and `v.cvt` between formats without blocks as their rules say. It writes nothing else in the scratchpad. It reads what the engine sees of
other engines' writes (R155). Log 49, log 7 (the model's readings): pointer width, and which unordered
writes an engine sees. -/
def Obligations.VectorElements : Prop :=
  ∀ (s : State) (i : Instr) (k : VOp) (o : VOps) (r : VRun) (off : VRole → Nat) (dst : VRole), VectorAt s i k o r off [dst] →
    let f := vFmt o
    let w := f.width
    let m := r.stepCount k o
    let mode := rmodeOf o.head.round
    let sp := (s.seenAs (r.cmd.key 1)).core.spad
    let a (j : Nat) : Nat := runElem sp (off .a) w j
    let b (j : Nat) : Nat := runElem sp (off .b) w j
    let c (j : Nat) : Nat := runElem sp (off .c) w j
    let d (j : Nat) : Nat := runElem sp (off .d) w j
    let sc := r.scalar.toNat % 2 ^ w
    let int (n : Int) : Nat :=
      ((if o.sat then max (intRange f).1 (min (intRange f).2 n) else n) % 2 ^ w).toNat
    let flt (j : Nat) (v : Val) : Nat := (roundVal f mode (VRun.random s r k o j) v).1
    let writes (want : Nat → Nat) : Prop := ∃ t, exec i s = .next t ∧ EngineFrame s t ∧
      t.core.spad = putRun s.core.spad (off dst) w ((List.range m).map want)
    (dst = .d → f.isInt = true →
      (k = .add → writes fun j => int (intOf f (a j) + intOf f (b j))) ∧
      (k = .sub → writes fun j => int (intOf f (a j) - intOf f (b j))) ∧
      (k = .mul → writes fun j => int (intOf f (a j) * intOf f (b j))) ∧
      (k = .fma → writes fun j => int (intOf f (a j) * intOf f (b j) + intOf f (c j))) ∧
      (k = .scl → writes fun j => int (intOf f (a j) * intOf f sc)) ∧
      (k = .fmas → writes fun j => int (intOf f (a j) * intOf f sc + intOf f (d j))) ∧
      (k = .min → writes fun j => if intOf f (b j) < intOf f (a j) then b j else a j) ∧
      (k = .max → writes fun j => if intOf f (a j) < intOf f (b j) then b j else a j)) ∧
    (dst = .d → f.isInt = false →
      (k = .add → writes fun j => flt j ((valOf f (a j)).add mode (valOf f (b j))).1) ∧
      (k = .sub → writes fun j => flt j ((valOf f (a j)).add mode (valOf f (b j)).neg).1) ∧
      (k = .mul → writes fun j => flt j ((valOf f (a j)).mul (valOf f (b j))).1) ∧
      (k = .fma → writes fun j => flt j (Val.fma mode (valOf f (a j)) (valOf f (b j)) (valOf f (c j))).1) ∧
      (k = .scl → writes fun j => flt j ((valOf f (a j)).mul (valOf f sc)).1) ∧
      (k = .fmas → writes fun j => flt j (Val.fma mode (valOf f (a j)) (valOf f sc) (valOf f (d j))).1) ∧
      (k = .min → writes fun j => vPick false f (a j) (b j)) ∧ (k = .max → writes fun j => vPick true f (a j) (b j)) ∧
      (k = .exp2 → writes fun j => flt j (valOf f (a j)).exp2.1) ∧ (k = .log2 → writes fun j => flt j (valOf f (a j)).log2.1) ∧
      (k = .rcp → writes fun j => flt j (valOf f (a j)).rcp.1) ∧ (k = .rsq → writes fun j => flt j (valOf f (a j)).rsq.1) ∧
      (k = .sig → writes fun j => flt j (valOf f (a j)).sig.1)) ∧
    (dst = .d →
      (k = .and → writes fun j => a j &&& b j) ∧ (k = .or → writes fun j => a j ||| b j) ∧
      (k = .xor → writes fun j => a j ^^^ b j) ∧ (k = .shl → writes fun j => a j * 2 ^ (b j % w) % 2 ^ w) ∧
      (k = .shr → writes fun j => (intOf f (a j) / (2 ^ (b j % w) : Int) % (2 ^ w : Int)).toNat) ∧
      (k = .sel → writes fun j => if (readByte sp (off .c + j / 8)).getLsbD (j % 8) then a j else b j) ∧
      (k = .perm → writes fun j => a (runElem sp (off .b) 8 j % m)) ∧ (k = .mov → writes a) ∧
      (k = .cvt → (vSrcFmt k o).isBlock = false → f.isBlock = false → writes fun j =>
        flt j (valOf (vSrcFmt k o) (runElem sp (off .a) (vSrcFmt k o).width j)))) ∧
    (dst = .a → (k = .bcast → writes fun _ => sc) ∧ (k = .fill → writes fun _ => o.imm.toNat % 2 ^ w))

/-- R162, R163, R165, R167: a comparison writes one mask bit an element, false with a NaN, and zero beyond the last; a block conversion
writes 32 elements and their scale code, or reads them through it; `v.scan.add` writes exact prefix sums rounded once; `v.red.add` and
`v.red.max` write nothing and push their result at their last step; `v.nzs` writes the nonzero elements and their indexes one after
another through pointers that do not advance, and pushes their number; `v.trn` writes a block transposed. Log 52, log 55 (the model's
readings): the step of `v.nzs`, and an uncorrectable scale code. -/
def Obligations.VectorReductions : Prop :=
  ∀ (s : State) (i : Instr) (k : VOp) (o : VOps) (r : VRun) (off : VRole → Nat),
    let f := vFmt o
    let w := f.width
    let m := r.stepCount k o
    let mode := rmodeOf o.head.round
    let sp := (s.seenAs (r.cmd.key 1)).core.spad
    let a (j : Nat) : Nat := runElem sp (off .a) w j
    let b (j : Nat) : Nat := runElem sp (off .b) w j
    let last : Prop := k.steps o ≤ r.step + 1
    let sums (n : Nat) : ExactSum := (List.range n).foldl (fun t j => t.add (valOf f (a j))) r.sum
    let after (P : State → VRun → Prop) : Prop := ∃ (t : State) (r' : VRun), exec i s = .next t ∧ EngineFrame s t ∧
      (r'.done = false → t.core.eng.vrun = some r') ∧ (r'.push ≠ none → t.core.eng.vrun = some r') ∧ P t r'
    ((k = .cmpEq ∨ k = .cmpLt ∨ k = .cmpLe) → VectorAt s i k o r off [.c] → ∃ t, exec i s = .next t ∧ EngineFrame s t ∧
      (∀ x, x < off .c ∨ off .c + (m + 7) / 8 ≤ x → readByte t.core.spad x = readByte s.core.spad x) ∧
      ∀ j, j < (m + 7) / 8 * 8 → (readByte t.core.spad (off .c + j / 8)).getLsbD (j % 8) = (decide (j < m) &&
        match (valOf f (a j)).cmp (valOf f (b j)) with
        | some .lt => k != .cmpEq
        | some .eq => k != .cmpLt
        | some .gt | none => false)) ∧
    (k = .cvt → (vSrcFmt k o).isBlock = true → f.isBlock = false → VectorAt s i k o r off [.d] → ∃ t, exec i s = .next t ∧
      EngineFrame s t ∧ t.core.spad = putRun s.core.spad (off .d) w ((List.range m).map fun j =>
        (roundVal f mode (VRun.random s r k o j) (scaledVal (vSrcFmt k o)
          (runElem sp (off .a) (vSrcFmt k o).width j) (readByte sp (off .c)).toNat)).1)) ∧
    (k = .cvt → (vSrcFmt k o).isBlock = false → f.isBlock = true → VectorAt s i k o r off [.d, .c] → ∃ t, exec i s = .next t ∧
      EngineFrame s t ∧
      let block := convertBlock f mode ((List.range m).map fun j =>
        (valOf (vSrcFmt k o) (runElem sp (off .a) (vSrcFmt k o).width j), VRun.random s r k o j))
      t.core.spad = putRun (putRun s.core.spad (off .d) w block.2.1) (off .c) 8 [block.1]) ∧
    (k = .scanAdd → VectorAt s i k o r off [.d] → ∃ t, exec i s = .next t ∧ EngineFrame s t ∧
      t.core.spad = putRun s.core.spad (off .d) w ((List.range m).map fun j =>
        let v := sums (j + 1)
        if f.isInt then (finInt f o.sat (v.num * 2 ^ v.ex.toNat)).1 else (roundVal f mode (VRun.random s r k o j) v.val.1).1)) ∧
    (k = .redAdd → VectorAt s i k o r off [] → after fun t r' => t.core.spad = s.core.spad ∧ r'.sum = sums m ∧
      (¬ last → r'.done = false ∧ r'.push = r.push) ∧
      (last → r'.done = true ∧ r'.push = some (if f.isInt then BitVec.ofInt 64 ((sums m).num * 2 ^ (sums m).ex.toNat)
        else if vCount o = 0 then 0
        else BitVec.ofNat 64 (roundVal f mode (if o.head.round = .sr then
          randomWord s.core.csr.jobseed r.cmd.lcore r.cmd.ctr0 0 else 0) (sums m).val.1).1))) ∧
    (k = .redMax → VectorAt s i k o r off [] → after fun t r' => t.core.spad = s.core.spad ∧
      r'.scalar = BitVec.ofNat 64 ((List.range m).foldl (fun x j => vPick true f x (a j)) (r.scalar.toNat % 2 ^ w)) ∧
      (¬ last → r'.done = false) ∧ (last → r'.done = true ∧
        r'.push = some (if f.isInt then BitVec.ofInt 64 (intOf f r'.scalar.toNat) else r'.scalar))) ∧
    (k = .nzs → w ≠ 4 → VectorAt s i k o r off [] →
      let ks := (List.range m).filter fun j => !(valOf f (a j)).isZero
      ∀ dv iv : Nat → Nat,
        (∀ n, n < ks.length →
          s.core.vectorAccess (r.pointer o.vpd) (vDisp o o.vpd + ((r.outCount + n) * (w / 8) : Nat) : Int) (w / 8) (w / 8) = .ok (dv n) ∧
          s.core.vectorAccess (r.pointer o.vpc) (vDisp o o.vpc + (4 * (r.outCount + n) : Nat) : Int) 4 4 = .ok (iv n)) →
        after fun t r' => r'.outCount = r.outCount + ks.length ∧
          r'.ptrs = (r.ptrs.map fun p => if p.1 = o.vpd ∨ p.1 = o.vpc then p else (p.1, p.2.1.advance 1, p.2.2)) ∧
          (¬ last → r'.done = false) ∧
          (last → r'.done = true ∧ r'.push = some (BitVec.ofNat 64 (r.outCount + ks.length))) ∧
          t.core.spad = (List.range ks.length).foldl (fun sp n =>
            writeLE (writeLE sp (dv n) (w / 8) (a (ks.getD n 0))) (iv n) 4
              ((o.imm.toNat + (r.step * k.perStep o + ks.getD n 0)) % 2 ^ 32)) s.core.spad) ∧
    (k = .trn → vectorParts i = some (k, o) → s.core.eng.vrun = some r → r.cmd.is 1 i = true → r.done = false →
      let e := 512 / w
      ∀ src dst : Nat → Nat,
        (∀ n, n < e → s.trnRow r o true n = .ok (src n) ∧ s.trnRow r o false n = .ok (dst n) ∧
          s.spadPoisoned s.cur (src n) 64 = false) →
        ∃ t, exec i s = .next t ∧ EngineFrame s t ∧ t.core.spad = (List.range e).foldl (fun sp n =>
          putRun sp (dst n) w ((List.range e).map fun j => runElem sp (src j) w n)) s.core.spad)

/-- R24, R151, R152, R153, R156, R158, R312: the head of the vector queue starts once its tiles are ready and, for `v.scl`, `v.fmas` and
`v.bcast`, q0 holds a scalar, which it pops; a command that could not be accepted raises BAD_COMMAND, one that names a tile empty at issue
or at its start VECTOR_OPERAND, and a fault discards the queue and resets the issue values. The last step of a command that pushes and
posts nothing completes it: its flags accrue and its pointers are written, but for those `v.ptr` has written since. Log 56, log 126 (the
model's readings): when an empty tile is found, and that it takes no scalar. -/
def Obligations.VectorStartsAndEnds : Prop :=
  (∀ (s : State) (i : Instr) (k : VOp) (o : VOps) (cmd : Cmd) (q : List Cmd), vectorParts i = some (k, o) →
    s.core.eng.vrun = none → s.core.eng.vq = cmd :: q → cmd.is 1 i = true →
    let pops := k = .scl ∨ k = .fmas ∨ k = .bcast
    (cmd.bad = true → exec i s = .next (s.updCore fun c => c.dropVector.pendFault 1 cmd.seq (16, cmd.pool))) ∧
    (∀ off, cmd.bad = false → cmd.emptyTile = some off →
      exec i s = .next (s.updCore fun c => c.dropVector.pendFault 1 cmd.seq (19, off.zeroExtend 64))) ∧
    (cmd.bad = false → cmd.emptyTile = none →
      let waits : Prop := (∃ p ∈ cmd.ptrs, (s.core.tile p.2.1.tile.toNat).state = .filling ∨
        (s.core.tile p.2.1.tile.toNat).state = .draining) ∨ (pops ∧ s.core.regs.q0 = [])
      (waits → exec i s = .next s) ∧
      (∀ off, ¬ waits → s.core.emptyPointer? cmd.ptrs = some off →
        exec i s = .next (s.updCore fun c => c.dropVector.pendFault 1 cmd.seq (19, off.zeroExtend 64))) ∧
      ((∀ p ∈ cmd.ptrs, (s.core.tile p.2.1.tile.toNat).state = .ready) → k.steps o ≠ 0 →
        (∀ v t, pops → s.core.regs.q0 = v :: t → ∃ u r, exec i s = .next u ∧ EngineFrame s u ∧ u.core.regs.q0 = t ∧
          u.core.eng.vq = q ∧ u.core.eng.vrun = some r ∧ r.cmd = cmd ∧ r.scalar = v ∧ r.step = 0 ∧ r.ptrs = cmd.ptrs ∧
          u.core.spad = s.core.spad) ∧
        (¬ pops → ∃ u r, exec i s = .next u ∧ EngineFrame s u ∧ u.core.regs.q0 = s.core.regs.q0 ∧ u.core.eng.vq = q ∧
          u.core.eng.vrun = some r ∧ r.cmd = cmd ∧ r.step = 0 ∧ r.ptrs = cmd.ptrs ∧ r.sum = ExactSum.empty ∧ r.outCount = 0 ∧
          (k = .redMax → r.scalar = vLeast (vFmt o)) ∧ u.core.spad = s.core.spad)))) ∧
  (∀ (s : State) (i : Instr) (k : VOp) (o : VOps) (r : VRun) (x : CmdFault), vectorParts i = some (k, o) → k ≠ .trn →
    VRole.a ∈ k.reads o → s.core.eng.vrun = some r → r.cmd.is 1 i = true → r.done = false →
    s.roleOffset r k o .a (r.stepCount k o) = .error x →
    exec i s = .next (s.updCore fun c => c.dropVector.pendFault 1 r.cmd.seq x)) ∧
  (∀ (c : Core) (p : VPtr) (x : Int) (al n : Nat), p.wrap = 0 →
    let o : Int := p.offset.toNat + x
    let t := c.tile p.tile.toNat
    (t.off.toNat ≤ o ∧ o + n ≤ t.off.toNat + t.len.toNat ∧ o % al = 0 → c.vectorAccess p x al n = .ok o.toNat) ∧
    (o < t.off.toNat ∨ t.off.toNat + t.len.toNat < o + n ∨ o % al ≠ 0 →
      c.vectorAccess p x al n = .error (19, BitVec.ofInt 64 o))) ∧
  (∀ (c : Core) (seq : BitVec 16) (x : CmdFault),
    let d := c.dropVector.pendFault 1 seq x
    d.eng.vq = [] ∧ d.eng.vrun = none ∧ d.regs.vpIssue = c.regs.vp ∧ d.regs.vp = c.regs.vp ∧ d.spad = c.spad ∧
      d.csr.vflags = c.csr.vflags ∧ d.faults = c.faults ++ [⟨x.1, x.2, 1, seq⟩]) ∧
  ∀ (s : State) (i : Instr) (k : VOp) (o : VOps) (r : VRun) (off : VRole → Nat) (dst : VRole), VectorAt s i k o r off [dst] →
    (k = .mov ∨ k = .and ∨ k = .or ∨ k = .xor) → dst = .d → o.msg = false → k.steps o ≤ r.step + 1 →
    ∃ t : State, exec i s = .next t ∧ t.core.eng.vrun = none ∧ t.core.csr.vflags = s.core.csr.vflags ||| r.flags ∧
      ∀ p ∈ r.ptrs, (r.ptrs.filter fun q => q.1 == p.1) = [p] →
        t.core.vp p.1 = if s.core.regs.vpGen[p.1.toNat]'p.1.isLt = p.2.2 then p.2.1.advance 1 else s.core.vp p.1

/-! ## The matrix engine -/

/-- R131 to R137, R132: a core's matrix head posts to the row barrier; when it is the last of its mask to post, and the heads agree on
pair, mode and A and each one's operands pass with the same K, the product starts on every core of the mask and on no other. A head
whose mask leaves its own core out raises MATRIX_MISMATCH; a head that names a tile still filling or draining does not post; a head
that is not the last posts and waits; heads that disagree in pair, mode or A all raise MATRIX_MISMATCH, whatever their operands; a head
alone in its mask whose operands fail raises the cause found. A tile bound to its core's
scratchpad whose length is that of 32 lines of K elements with their scale codes passes. -/
def Obligations.MatrixBarrier : Prop :=
  (∀ (s : State) (id : Nat) (cmd : Cmd) (m : MxCmd), (s.coreAt id).enginesRun = true →
    (s.coreAt id).matrixHead? = some (cmd, m) →
    let posted : State := s.updCoreAt id fun c => { c with eng := { c.eng with posted := true } }
    (m.mask.getLsbD (colOf id) = false → exec (.jointProductStart id) s = .next (s.matrixFault id cmd (17, 0))) ∧
    (m.mask.getLsbD (colOf id) = true → s.operandWaits id m = true → exec (.jointProductStart id) s = .next s) ∧
    (m.mask.getLsbD (colOf id) = true → s.operandWaits id m = false →
      (∀ k ∈ rowCores id, k ≠ id → (s.coreAt k).eng.posted = false) → (∃ k ∈ rowCores id, k ≠ id ∧ m.mask.getLsbD (colOf k) = true) →
      exec (.jointProductStart id) s = .next posted) ∧
    (∀ f, maskCores id m.mask = [id] → s.operandWaits id m = false →
      (∀ k ∈ rowCores id, k ≠ id → (s.coreAt k).eng.posted = false) → s.checkOperands id m = .error f →
      exec (.jointProductStart id) s = .next (posted.matrixFault id cmd f)) ∧
    ∀ (head : Nat → Cmd × MxCmd) (K : Nat), head id = (cmd, m) → m.mask.getLsbD (colOf id) = true → s.operandWaits id m = false →
      (∀ k ∈ maskCores id m.mask, k ≠ id → s.posted? k = some (head k)) →
      (∀ k ∈ rowCores id, k ∉ maskCores id m.mask → (s.coreAt k).eng.posted = false) →
      (∀ k ∈ maskCores id m.mask, (head k).2.mask = m.mask ∧ s.operandWaits k (head k).2 = false) →
      let agree (k : Nat) : Prop := (head k).2.pair = m.pair ∧ (head k).2.mode = m.mode ∧ (head k).2.a = m.a
      ((∃ k ∈ maskCores id m.mask, ¬ agree k) → ∃ t, exec (.jointProductStart id) s = .next t ∧ SameMemory s t ∧
        ∀ k ∈ maskCores id m.mask, (⟨17, 0, 2, (head k).1.seq⟩ : EngineFault) ∈ (t.coreAt k).faults) ∧
      ((∀ k ∈ maskCores id m.mask, agree k ∧ s.checkOperands k (head k).2 = .ok K) → ∃ t,
        exec (.jointProductStart id) s = .next t ∧ SameMemory s t ∧
        (∀ k ∈ maskCores id m.mask, (t.coreAt k).product? = some ⟨(head k).1, K, 0, 0⟩ ∧
          (t.coreAt k).eng.mq = (s.coreAt k).eng.mq.tail ∧ (t.coreAt k).acc = (s.coreAt k).acc) ∧
        ∀ k, k ∉ maskCores id m.mask → t.coreAt k = s.coreAt k)) ∧
  ∀ (s : State) (id : Nat) (m : MxCmd) (K : Nat), id < 4096 → m.a.extractLsb' 12 52 = 0 → m.b.extractLsb' 12 52 = 0 →
    handleOwner id m.a = id → handleOwner id m.b = id → (s.handleTile id m.a).state ≠ .empty → (s.handleTile id m.b).state ≠ .empty →
    32 ≤ K → K ≤ 1024 → K % 32 = 0 →
    (s.handleTile id m.a).len.toNat = K * (4 * m.pair.fmts.1.width + if m.pair.fmts.1.isBlock then 1 else 0) →
    (s.handleTile id m.b).len.toNat = K * (4 * m.pair.fmts.2.width + if m.pair.fmts.2.isBlock then 1 else 0) →
    ((s.coreAt id).actype.getLsbD m.acd.toNat = false ∨ m.pair.isInt = true) → s.checkOperands id m = .ok K

/-- R135, R137, R140 to R146: the participants of a product go through a K-block together. In each element (i, j) of each one's
accumulator: a block-scaled pair adds fs times the block's sum, recovered from the residues and scaled by both codes, rounded once, and
clears the residues, a code of 0xFF making the sum zero; an integer pair keeps residues until its last block and then adds their sum,
clamped in an I32 tile and rounded in an F32 tile; a binary pair adds two groups of 16 products, each rounded once. Overwriting starts
from zero, subtracting adds the negative. The last block ends the command. No other core changes, but for which writes of its engines its
agents may still miss, and no memory. Log 7 (the model's reading)
holds which unordered writes of its core's other engines a product sees. -/
def Obligations.MatrixBlocks : Prop :=
  (∀ (s : State) (id : Nat) (mask : BitVec 4) (b : Nat) (R : Nat → MxRun) (M : Nat → MxCmd), id ∈ maskCores id mask →
    (∀ k ∈ maskCores id mask, (s.coreAt k).enginesRun = true ∧ (s.coreAt k).product? = some (R k) ∧ (R k).cmd.mx = some (M k) ∧
      (M k).mask = mask ∧ (R k).block = b) →
    ∃ t, exec (.jointProductStart id) s = .next t ∧ SameMemory s t ∧
      (∀ k, k ∉ maskCores id mask → { t.coreAt k with unseen := [] } = { s.coreAt k with unseen := [] } ∧
        ∀ u ∈ (t.coreAt k).unseen, u ∈ (s.coreAt k).unseen) ∧
      ∀ k ∈ maskCores id mask,
        let r := R k
        let m := M k
        let n := m.acd.toNat
        let c := s.coreAt k
        let fmts := m.pair.fmts
        let last : Prop := (b + 1) * 32 = r.k
        let fresh : Prop := m.mode = .ow ∧ b = 0
        let seen := ((s.act k).seenAs (r.cmd.key 2)).act s.cur
        let A := seen.readBlock k m.a fmts.1 r.k b
        let B := seen.readBlock k m.b fmts.2 r.k b
        (t.coreAt k).spad = c.spad ∧ (t.coreAt k).regs = c.regs ∧ (t.coreAt k).actype = c.actype ∧
        (last → (t.coreAt k).eng.mrun = none) ∧
        (¬ last → ∃ q, (t.coreAt k).product? = some q ∧ q.cmd = r.cmd ∧ q.k = r.k ∧ q.block = b + 1) ∧
        (∀ x, x < n * 0x4000 ∨ n * 0x4000 + 0x4000 ≤ x → readByte (t.coreAt k).acc x = readByte c.acc x) ∧
        ∀ e, e < 1024 →
          let word (acc : Memory) (p : Nat) : Nat := readLE acc (n * 0x4000 + p * 0x1000 + 4 * e) 4
          let v := if fresh then 0 else word c.acc 0
          let ps := if fresh then [0, 0, 0] else [word c.acc 1, word c.acc 2, word c.acc 3]
          let x := A.lines.getD (e / 32) []
          let y := B.lines.getD (e % 32) []
          let q := addResidues ps ((x.zip y).map fun z => imageOf fmts.1 z.1 * imageOf fmts.2 z.2).sum
          let fs := valOf .f32 m.fs.toNat
          let plus (v : Nat) (z : Val) : Nat :=
            (roundVal .f32 .rne 0 ((valOf .f32 v).add .rne (if m.mode = .sub then z.neg else z)).1).1
          let group (x y : List Nat) : Val := (fs.mul (exactTotal ((x.zip y).map fun z =>
            ((valOf fmts.1 z.1).mul (valOf fmts.1 z.2)).1)).1).1
          let planes (l : List Nat) : Prop := word (t.coreAt k).acc 1 = l.getD 0 0 ∧ word (t.coreAt k).acc 2 = l.getD 1 0 ∧
            word (t.coreAt k).acc 3 = l.getD 2 0
          let value := word (t.coreAt k).acc 0
          (m.pair.isBlock = true → planes [0, 0, 0] ∧
            let sa := A.scales.getD (e / 32) 0
            let sb := B.scales.getD (e % 32) 0
            value = plus v (fs.mul (if sa = 255 ∨ sb = 255 then .zero else match Val.ofInt (crt q) with
              | .fin g u z => .fin g u (z + ((sa : Int) - 127 + ((sb : Int) - 127) + unitExp fmts.1 + unitExp fmts.2))
              | z => z)).1) ∧
          (m.pair.isInt = true → ¬ last → value = v ∧ planes q) ∧
          (m.pair.isInt = true → last → planes [0, 0, 0] ∧ value =
            if c.actype.getLsbD n then (clampInt .i32 (intOf .i32 v + if m.mode = .sub then -crt q else crt q)).1
            else plus v (fs.mul (.ofInt (crt q))).1) ∧
          (m.pair.isBlock = false → m.pair.isInt = false → planes ps ∧
            value = plus (plus v (group (x.take 16) (y.take 16))) (group (x.drop 16) (y.drop 16)))) ∧
  ∀ (s : State) (id : Nat) (h : Word) (f : Fmt) (k b i x : Nat), i < 32 → x < 32 →
    let owner := handleOwner id h
    let off := (s.handleTile id h).off.toNat
    let e := i * k + (32 * b + x)
    let o := off + e * f.width / 8
    (s.spadPoisoned owner o (elemBytes f) = false → (((s.readBlock id h f k b).lines.getD i []).getD x 0) =
      pickElem f (e % 2 == 1) (readLE (s.coreAt owner).spad o (elemBytes f))) ∧
    (s.spadPoisoned owner o (elemBytes f) = true → (((s.readBlock id h f k b).lines.getD i []).getD x 0) = 0) ∧
    (f.isBlock = true → s.spadPoisoned owner (off + 32 * k * f.width / 8 + i * (k / 32) + b) 1 = false →
      (s.readBlock id h f k b).scales.getD i 0 =
        (readByte (s.coreAt owner).spad (off + 32 * k * f.width / 8 + i * (k / 32) + b)).toNat)

/-- R139: every sum that the residue path forms, of up to 32 products of the block-scaled pairs and up to 1,024 of the integer pairs,
is at most the table's magnitude, lies from -M/2 to M/2 - 1, and is recovered exactly from its three residues by the Chinese remainder
theorem with the fixed constants; residues add channel by channel. -/
def Obligations.ResiduesRecoverSums : Prop :=
  let M : Nat := 2 ^ 48 - 2 ^ 16
  (∀ e ∈ [(Fmt.k8, Fmt.k8, 32, 1932735283200), (.k8, .k4, 32, 94371840), (.k4, .k8, 32, 94371840), (.k4, .k4, 32, 4608),
      (.i8, .i8, 1024, 16777216), (.i4, .i4, 1024, 65536)],
    ∀ a b : List Nat, (∀ x ∈ a, x < 2 ^ e.1.width) → (∀ x ∈ b, x < 2 ^ e.2.1.width) → a.length ≤ e.2.2.1 →
      (imageSum e.1 e.2.1 a b).natAbs ≤ e.2.2.2 ∧ -(140737488322560 : Int) ≤ imageSum e.1 e.2.1 a b ∧
        imageSum e.1 e.2.1 a b ≤ 140737488322559 ∧ crt (addResidues [0, 0, 0] (imageSum e.1 e.2.1 a b)) = imageSum e.1 e.2.1 a b) ∧
  (∀ raw : Nat, raw < 256 → (imageOf .k8 raw).natAbs ≤ 245760 ∧ (imageOf .i8 raw).natAbs ≤ 128) ∧
  (∀ raw : Nat, raw < 16 → (imageOf .k4 raw).natAbs ≤ 12 ∧ (imageOf .i4 raw).natAbs ≤ 8) ∧
  (∀ x : Int, -(140737488322560 : Int) ≤ x → x ≤ 140737488322559 →
    addResidues [0, 0, 0] x = [(x % 65535).toNat, (x % 65536).toNat, (x % 65537).toNat] ∧ crt (addResidues [0, 0, 0] x) = x) ∧
  (∀ x y : Int, addResidues (addResidues [0, 0, 0] x) y = addResidues [0, 0, 0] (x + y)) ∧
  ∀ r1 r2 r3 : Nat, r1 < 65535 → r2 < 65536 → r3 < 65537 →
    let y1 := r1 * 32768 % 65535
    let y2 := r2 * 65535 % 65536
    let y3 := r3 * 32769 % 65537
    let x := (y1 * (2 ^ 32 + 2 ^ 16) + y2 * (2 ^ 32 - 1) + y3 * (2 ^ 32 - 2 ^ 16)) % M
    crt [r1, r2, r3] = if M / 2 ≤ x then (x : Int) - M else x

/-- R20, R24, R148: at the head of the matrix queue, with nothing running and its tiles free, `m.clr` zeroes an accumulator and sets its
type; `m.ld` puts the elements its cells widen to, zero out of bounds and beyond its rows, and clears the planes, and does nothing for a
count of 0; `m.cvt` converts rows and writes them, then waits to post the number written, and its flags with it; `m.sv` writes a header
and the image; `m.rs` takes an image whose header and residues are legal, or raises BAD_COMMAND and changes nothing. A command that could
not be accepted raises BAD_COMMAND. Log 24, log 67 (the model's readings): uncorrectable words, and counts above the range. -/
def Obligations.AccumulatorCommands : Prop :=
  let head (s : State) (i : Instr) (cmd : Cmd) (q : List Cmd) : Prop :=
    s.core.eng.mrun = none ∧ s.core.eng.mq = cmd :: q ∧ cmd.is 2 i = true ∧ s.copyHeld cmd = false
  let word (t : State) (n p k : Nat) : Nat := readLE t.core.acc (n * 0x4000 + p * 0x1000 + 4 * k) 4
  let elsewhere (s t : State) (n : Nat) : Prop :=
    ∀ x, x < n * 0x4000 ∨ n * 0x4000 + 0x4000 ≤ x → readByte t.core.acc x = readByte s.core.acc x
  let posts (s t : State) (cmd : Cmd) (status : Nat) (tag : BitVec 8) (cells : Nat) : Prop :=
    (∃ fl, t.core.eng.mrun = some (.posting cmd (cmd.message 2 status tag cells) fl)) ∧ t.core.csr.vflags = s.core.csr.vflags ∧
      t.core.acc = s.core.acc ∧ t.core.actype = s.core.actype
  let begun (s : State) (cmd : Cmd) : State := s.updCore fun c => c.startsMatrix (cmd.key 5) cmd.from?.toList
  (∀ (s : State) (o : MClr) (cmd : Cmd) (q : List Cmd), head s (.mClr o) cmd q → cmd.bad = false →
    ∃ t, exec (.mClr o) s = .next t ∧ SameMemory s t ∧ SameOthers s t ∧ t.core.eng = { s.core.eng with mq := q } ∧
      t.core.spad = s.core.spad ∧ t.core.regs = s.core.regs ∧ elsewhere s t o.acd.toNat ∧
      (∀ x, o.acd.toNat * 0x4000 ≤ x → x < o.acd.toNat * 0x4000 + 0x4000 → readByte t.core.acc x = 0) ∧
      ∀ k, k < 8 → t.core.actype.getLsbD k = if k = o.acd.toNat then o.head.fmt == some Fmt.i32 else s.core.actype.getLsbD k) ∧
  (∀ (s s1 : State) (o : MLd) (cmd : Cmd) (q : List Cmd) (vs : List Nat), head s (.mLd o) cmd q → cmd.bad = false →
    s.checkMLd o cmd = .ok () → 1 ≤ o.head.count.toNat → o.head.count.toNat ≤ 32 →
    (begun s cmd).loadCells o cmd ((List.range (32 * o.head.count.toNat)).map fun k =>
      [o.row0.toInt + (k / 32 : Nat), o.col0.toInt + (k % 32 : Nat)]) = .ok (vs, false, s1) →
    ∃ t, exec (.mLd o) s = .next t ∧ SameMemory s1 t ∧ t.core.eng.mq = s1.core.eng.mq.tail ∧ t.core.spad = s1.core.spad ∧
      elsewhere s1 t o.acd.toNat ∧
      (∀ k, k < 1024 → word t o.acd.toNat 0 k = vs.getD k 0 % 2 ^ 32 ∧ word t o.acd.toNat 1 k = 0 ∧ word t o.acd.toNat 2 k = 0 ∧
        word t o.acd.toNat 3 k = 0) ∧
      t.core.actype.getLsbD o.acd.toNat = !cmd.td1.format.isFloat) ∧
  (∀ (s : State) (o : MLd) (cmd : Cmd) (q : List Cmd), head s (.mLd o) cmd q → cmd.bad = false → s.checkMLd o cmd = .ok () →
    o.head.count = 0 → ∃ t, exec (.mLd o) s = .next t ∧ SameMemory s t ∧ t.core.eng.mq = q ∧ t.core.spad = s.core.spad ∧
      t.core.acc = s.core.acc ∧ t.core.actype = s.core.actype) ∧
  (∀ (s : State) (o : MLd) (cmd : Cmd) (c : List Int),
    let td := cmd.td1
    let e := td.elem (dispOf o.disp) (td.wrapped c)
    (td.inBounds (td.wrapped c) = false → s.loadCell o cmd c = .ok (0, false, s)) ∧
    ∀ (pl : Place) (s1 : State), td.inBounds (td.wrapped c) = true → s.elemPlace cmd.sup .read td.format e 2 = .ok (pl, s1) →
      s1.poisoned pl.phys (elemBytes td.format) = false →
      let raw := pickElem td.format e.odd ((s1.seenAs (cmd.key 5)).readPlace pl (elemBytes td.format))
      s.loadCell o cmd c = .ok (if td.format.isFloat then (roundVal .f32 .rne 0 (valOf td.format raw)).1
        else (BitVec.ofInt 32 (intOf td.format raw)).toNat, false, s1.notes (cmd.key 5) pl.phys (elemBytes td.format))) ∧
  (∀ (s : State) (o : MCvt) (cmd : Cmd) (q : List Cmd) (σ τ : Nat → State) (w w' : Nat → Nat) (cl cl' : Nat → Bool),
    head s (.mCvt o) cmd q → cmd.bad = false → s.checkMCvt o cmd = .ok () → σ 0 = begun s cmd →
    (∀ i, i < o.head.count.toNat →
      let row := (σ i).convertRow o cmd i
      (σ i).writeRow 5 cmd cmd.td1 (dispOf o.disp)
        (((List.range 32).zip row.2.1).map fun e => ([o.row0.toInt + i, o.col0.toInt + (e.1 : Nat)], e.2)) = .ok (w i, cl i, τ i) ∧
      (τ i).writeRow 5 cmd cmd.td2 0 (row.1.toList.map fun v => ([o.row0.toInt + i, o.col0.toInt / 32], v)) =
        .ok (w' i, cl' i, σ (i + 1))) →
    let n := o.head.count.toNat
    ∃ t, exec (.mCvt o) s = .next t ∧ SameMemory (σ n) t ∧ t.core.spad = (σ n).core.spad ∧
      posts (σ n) t cmd (if (List.range n).any fun i => cl i || cl' i then 1 else 0) o.tag ((List.range n).map w).sum) ∧
  (∀ (s : State) (o : MCvt) (cmd : Cmd) (i j : Nat), j < 32 → cmd.td1.format.isBlock = false →
    ((s.convertRow o cmd i).2.1.getD j 0) = (roundVal cmd.td1.format (rmodeOf o.head.round)
      (if o.head.round = .sr then randomWord s.core.csr.jobseed cmd.lcore cmd.ctr0 (32 * i + j) else 0)
      (valOf (if s.core.actype.getLsbD o.acs.toNat then .i32 else .f32) (word s o.acs.toNat 0 (32 * i + j)))).1) ∧
  (∀ (s s1 : State) (o : MImg) (cmd : Cmd) (q : List Cmd), head s (.mSv o) cmd q → cmd.bad = false →
    (begun s cmd).writePieces cmd o.addr.toNat (accHeader (s.core.actype.getLsbD o.ac.toNat) ::
      (List.range 256).map fun k => readBytes s.core.acc (o.ac.toNat * 0x4000 + 64 * k) 64) = (s1, none) →
    ∃ t, exec (.mSv o) s = .next t ∧ SameMemory s1 t ∧ t.core.spad = s1.core.spad ∧ posts s1 t cmd 0 o.tag 16448) ∧
  (∀ (s s1 : State) (o : MImg) (cmd : Cmd) (q : List Cmd) (bs : List Byte), head s (.mRs o) cmd q → cmd.bad = false →
    (begun s cmd).readPieces cmd o.addr.toNat 257 = .ok (bs, false, s1) →
    let legal : Prop := leNat (bs.take 64) ≤ 1 ∧ imageLegal (bs.drop 64) = true
    (legal → ∃ t, exec (.mRs o) s = .next t ∧ SameMemory s1 t ∧ elsewhere s1 t o.ac.toNat ∧
      (∀ x, x < 0x4000 → readByte t.core.acc (o.ac.toNat * 0x4000 + x) = bs.getD (64 + x) 0) ∧
      t.core.actype.getLsbD o.ac.toNat = (leNat (bs.take 64) == 1)) ∧
    (¬ legal → ∃ t, exec (.mRs o) s = .next t ∧ t.core.acc = s1.core.acc ∧ t.core.actype = s1.core.actype ∧
      (⟨16, cmd.pool, 2, cmd.seq⟩ : EngineFault) ∈ t.core.faults)) ∧
  ∀ (s : State) (i : Instr) (cmd : Cmd) (q : List Cmd),
    (match i with | .mClr _ | .mLd _ | .mCvt _ | .mSv _ | .mRs _ => True | _ => False) → head s i cmd q → cmd.bad = true →
    exec i s = .next (s.matrixFault s.cur cmd (16, cmd.pool))

/-! ## The copy engine -/

/-- R20, R23, R24, R66, R69, R97, R302: the head of the copy queue starts while fewer than 128 copies are in flight and its tiles allow
it: it leaves the queue, is in flight at its first cell, and a ready source tile drains. A command that could not be accepted raises
BAD_COMMAND, one that fails a check its fault. Each of `cp.rg`, `cp.fill`, `cp.gx`, `cp.sx`, `cp.reg` and `cp.pf` starts so. Log 12, log
57, log 106 (the model's readings): an unreadable length table, the order of checks, and a copy out of the tile that it fills. -/
def Obligations.CopyStarts : Prop :=
  ∀ (s : State) (i : Instr) (check : Cmd → Except CmdFault Unit) (rel : Bool) (cmd : Cmd) (q : List Cmd),
    (match i with
      | .cpRg o => check = s.checkCpRg o ∧ rel = o.rel
      | .cpFill o => check = s.checkCpFill o ∧ rel = false
      | .cpGx o => check = s.checkRows o ∧ rel = false
      | .cpSx o => check = s.checkRows o ∧ rel = o.rel
      | .cpReg o => check = s.checkCpReg o ∧ rel = false
      | .cpPf _ => (∀ k, check k = .ok ()) ∧ rel = false
      | _ => False) →
    s.core.eng.pick = 0 → s.core.eng.cq = cmd :: q → cmd.is 0 i = true →
    (128 ≤ s.core.eng.copies.length ∨ s.copyHeld cmd = true ∨ s.drainHeld cmd rel = true → exec i s = .next s) ∧
    (s.core.eng.copies.length < 128 → s.copyHeld cmd = false → s.drainHeld cmd rel = false →
      (cmd.bad = true → exec i s = .next (s.copyFault cmd (16, cmd.pool))) ∧
      (∀ f, cmd.bad = false → check cmd = .error f → exec i s = .next (s.copyFault cmd f)) ∧
      (cmd.bad = false → check cmd = .ok () → ∃ t, exec i s = .next t ∧
        t.core.eng = { s.core.eng with cq := q, copies := s.core.eng.copies ++
          [⟨{ cmd with from? := cmd.from?.filter fun n => (s.core.tile n.toNat).state == .ready }, 0, none, 0, false, false, 0, false,
            none⟩] } ∧
        t.core.spad = s.core.spad ∧ t.core.regs = s.core.regs ∧ SameMemory s t ∧ SameOthers s t ∧
        (∀ n tl, cmd.from? = some n → tl = s.core.tile n.toNat → tl.state = .ready →
          t.core.tile n.toNat = { tl with state := .draining, rel := rel }) ∧
        (∀ n, cmd.from? ≠ some n ∨ (s.core.tile n.toNat).state ≠ .ready → t.core.tile n.toNat = s.core.tile n.toNat)))

/-- R27, R97, R99, R100, R104, R107: a turn of a copy in flight moves one row: for `cp.rg` and `cp.fill` the cells of its region's boxes
in canonical order from where it stands to the end of a row, up to its count; for `cp.gx` and `cp.sx` the row that the index list names,
as source or as destination. Cells out of the source's bounds are zero, out of the destination's suppressed. The cells moved arrive at its
fill tile, and after the last the copy has its message to post. An index is read once, also where its row takes several turns. A cell
that is read is the element at its swizzled address, and a cell that is written changes that element alone. Log 7, log 22, log 23 (the
model's readings): which unordered writes of other engines a copy sees, uncorrectable indexes, and misaligned elements. -/
def Obligations.CopyRows : Prop :=
  let goes (s : State) (i : Instr) (k : Nat) (r : CopyRun) : Prop :=
    s.core.eng.pick = k + 1 ∧ s.core.eng.copies[k]? = some r ∧ r.cmd.is 0 i = true ∧ r.post = none
  let after (i : Instr) (s u : State) (r r' : CopyRun) (n : Nat) : Prop := ∃ t, exec i s = .next t ∧ SameMemory u t ∧
    (∀ id, (t.coreAt id).spad = (u.coreAt id).spad) ∧
    t.core.eng = { u.core.eng with copies := u.core.eng.copies.map fun q => if q.cmd.seq = r.cmd.seq then r' else q } ∧
    t.core.arrivals = u.core.arrivals ++ (match r.cmd.fill with | some (tl, _) => if n = 0 then [] else [(tl, n)] | none => [])
  let row (s : State) (i : Instr) (T : Transfer) (count : Nat) (tag : BitVec 8) : Prop :=
    ∀ (k : Nat) (r : CopyRun) (σ : Nat → State) (w c b : Nat → Bool), goes s i k r →
      T = (match i with
        | .cpRg o => ⟨some (r.cmd.td2, dispOf o.sdisp), r.cmd.td1, dispOf o.disp, 0⟩
        | .cpFill o => ⟨none, r.cmd.td1, dispOf o.disp, o.value.toNat⟩
        | _ => T) →
      let boxes := r.cmd.boxes r.cmd.td1.rank.toNat
      let total := r.cmd.cells count r.cmd.td1.rank.toNat
      let n := min (rowRest boxes r.pos) (total - r.pos)
      let cells := (List.range n).filterMap fun j => cellOf boxes (r.pos + j)
      cells.length = n → MovesCells s r.cmd T (cells.map fun x => (x, x)) σ w c b →
      after i s (σ n) r (r.moved n w c b (r.pos + n == total) tag) n
  let indexed (s : State) (i : Instr) (o : CpRows) (scatter : Bool) : Prop :=
    ∀ (k : Nat) (r : CopyRun) (σ : Nat → State) (w c b : Nat → Bool), goes s i k r →
      let inner := innerCoords ((List.range (r.cmd.td1.rank.toNat - 1)).map fun d => r.cmd.td1.ext (d + 1))
      let j := r.pos / inner.length
      let (idx, s1) := match r.entry with
        | some v => (v, s)
        | none => s.listEntry r.cmd o.list.toNat j
      let cells := (inner.drop (r.pos % inner.length)).map fun x =>
        if scatter then ((j : Int) :: x, (idx : Int) :: x) else ((idx : Int) :: x, (j : Int) :: x)
      inner ≠ [] → 0 < o.head.count.toNat → MovesCells s1 r.cmd ⟨some (r.cmd.td2, 0), r.cmd.td1, dispOf o.disp, 0⟩ cells σ w c b →
      after i s (σ cells.length) r (r.moved cells.length w c b (j + 1 == o.head.count.toNat) o.tag) cells.length
  (∀ (s : State) (o : CpRg) (T : Transfer), row s (.cpRg o) T o.head.count.toNat o.tag) ∧
  (∀ (s : State) (o : CpFill) (T : Transfer), row s (.cpFill o) T o.head.count.toNat o.tag) ∧
  (∀ (s : State) (o : CpRows), indexed s (.cpGx o) o false ∧ indexed s (.cpSx o) o true) ∧
  (∀ (s : State) (cmd : Cmd) (T : Transfer) (td : Td) (disp : Word) (c : List Int), T.src = some (td, disp) →
    let e := td.elem disp (td.wrapped c)
    (td.inBounds (td.wrapped c) = false → s.cellValue cmd T c 0 = .ok (0, true, false, s)) ∧
    ∀ (pl : Place) (s1 : State), td.inBounds (td.wrapped c) = true → e.addr.toNat % elemBytes td.format = 0 →
      s.engineResolve cmd.sup .read e.addr.toNat (elemBytes td.format) 0 = .ok (pl, s1) →
      s1.poisoned pl.phys (elemBytes td.format) = false →
      s.cellValue cmd T c 0 = .ok (pickElem td.format e.odd ((s1.seenAs (cmd.key 0)).readPlace pl (elemBytes td.format)),
        false, false, s1.notes (cmd.key 0) pl.phys (elemBytes td.format))) ∧
  (∀ (s : State) (cmd : Cmd) (td : Td) (disp : Word) (c : List Int) (v : Nat),
    let e := td.elem disp (td.wrapped c)
    let n := elemBytes td.format
    let put (s1 : State) (pl : Place) (n v : Nat) (mask : Byte) : State :=
      s1.engineWrite (cmd.key 0) (cmd.fill.map (·.1)) [] pl n v n mask
    (td.inBounds (td.wrapped c) = false → s.writeCell 0 cmd td disp c v 0 = .ok none) ∧
    (td.inBounds (td.wrapped c) = true → e.addr.toNat % n ≠ 0 → s.writeCell 0 cmd td disp c v 0 = .error (.fault (.of 2 e.addr))) ∧
    ∀ (pl : Place) (s1 : State), td.inBounds (td.wrapped c) = true → e.addr.toNat % n = 0 →
      s.engineResolve cmd.sup .write e.addr.toNat n 0 = .ok (pl, s1) →
      (td.format.width = 4 → s.writeCell 0 cmd td disp c v 0 = .ok (some (put s1 pl 1
        (if e.odd then s1.readPlace pl 1 % 16 + v % 16 * 16 else s1.readPlace pl 1 / 16 % 16 * 16 + v % 16) (if e.odd then 0xF0 else 0x0F)))) ∧
      (td.format.width ≠ 4 → s.writeCell 0 cmd td disp c v 0 = .ok (some (put s1 pl n (v % 2 ^ td.format.width) 0xFF)))) ∧
  ∀ (s : State) (cmd : Cmd) (T : Transfer) (c : List Int), T.src = none → s.cellValue cmd T c 0 = .ok (T.value, false, false, s)

/-- R50, R101, R102, R107, R110, R158: a `cp.reg` lands its words at the register window or q0 of a core of the same launch and sends it
an arrival message before its own, fills nothing when q0 has no room for all (status 3), and reaches no core of another launch (status 4)
but, issued in supervisor mode, a supervisor core;
words for registers are the target's once it dequeues the arrival. `cp.pf` copies from the second tier to HBM in one step, 64 bytes at a
time. A cell counted reaches its tile, and a tile filled is ready; the first message waiting enters an inbox that has room; a command's
flags accrue as it posts; a q1 entry is pushed once there is room, in the same step as the command's message. Log 2: which message posts
first is the turn's. -/
def Obligations.CopyWordsAndArrivals : Prop :=
  let goes (s : State) (i : Instr) (k : Nat) (r : CopyRun) : Prop :=
    s.core.eng.pick = k + 1 ∧ s.core.eng.copies[k]? = some r ∧ r.cmd.is 0 i = true ∧ r.post = none
  (∀ (s s1 : State) (o : CpReg) (k : Nat) (r : CopyRun) (l : List Word), goes s (.cpReg o) k r →
    let target := s.part.phys o.core.toNat
    let reached : Prop := (r.cmd.sup = true ∧ s.part.isSuper target = true) ∨ s.sameLaunch target = true
    let full : Prop := 0x300 ≤ o.off.toNat ∧ 32 < (s1.coreAt target).regs.q0.length + l.length
    let own (t : State) (status cells : Nat) : Prop := ∀ q ∈ t.core.eng.copies, q.cmd.seq = r.cmd.seq →
      q.post = some (r.cmd.message 0 status o.tag cells)
    (¬ reached → ∃ t, exec (.cpReg o) s = .next t ∧ own t (max 4 (if r.dataErr then 2 else if r.clipped then 1 else 0)) 0 ∧
      t.core.regs = s.core.regs ∧ SameOthers s t ∧ SameMemory s t) ∧
    (reached → s.cutOff s.part s.cur target = false → (s.coreAt target).atBoundary = true →
      s.sourceWords r.cmd o.src.toNat o.head.count.toNat = ⟨s1, l, false, none⟩ → r.dataErr = false → r.clipped = false →
      ∃ t, exec (.cpReg o) s = .next t ∧ own t (if full then 3 else 0) o.head.count.toNat ∧
        ((s1.coreAt target).exiting = false → (t.coreAt target).posts = (s1.coreAt target).posts ++
          [{ r.cmd.message 0 (if full then 3 else 0) o.tag o.head.count.toNat with arrival := true }]) ∧
        (full → (t.coreAt target).regs = (s1.coreAt target).regs) ∧
        (¬ full → 0x300 ≤ o.off.toNat → (t.coreAt target).regs.q0 = (s1.coreAt target).regs.q0 ++ l ∧
          (t.coreAt target).regs.x = (s1.coreAt target).regs.x) ∧
        (o.off.toNat < 0x280 → (t.coreAt target).regs = (s1.coreAt target).regs ∧ (t.coreAt target).landings =
          (s1.coreAt target).landings ++ [⟨r.cmd.seq, BitVec.ofNat 12 r.cmd.lcore, o.off.toNat, l⟩]))) ∧
  (∀ (c : Core) (m : Msg) (off : Nat) (l : List Word), c.landings = [⟨m.seq, m.source, off, l⟩] → off % 8 = 0 →
    off + 8 * l.length ≤ 0x280 →
    let d := c.takeLanding m
    d.landings = [] ∧ d.spad = c.spad ∧ d.inbox = c.inbox ∧ ∀ n v, l[n]? = some v →
      let k := off / 8 + n
      (1 ≤ k → k < 32 → d.x (BitVec.ofNat 5 k) = v) ∧ (32 ≤ k → k < 64 → d.f (BitVec.ofNat 5 (k - 32)) = v.extractLsb' 0 32)) ∧
  (∀ (s : State) (o : CpPf) (k : Nat) (r : CopyRun) (σ : Nat → State) (a b : Nat → Nat), goes s (.cpPf o) k r →
    let n := (o.head.count.toNat - r.pos) / 64
    σ 0 = s →
    (∀ j, j < n → ∃ s1 s2,
      (σ j).engineResolve r.cmd.sup .read (o.src.toNat + r.pos + 64 * j) 64 0 = .ok (.mem (a j), s1) ∧
      s1.engineResolve r.cmd.sup .write (o.dst.toNat + r.pos + 64 * j) 64 0 = .ok (.mem (b j), s2) ∧
      isTier (a j) = true ∧ b j + 64 ≤ s.hbmLimit ∧ s2.poisoned (a j) 64 = false ∧
      σ (j + 1) = (s2.notes (r.cmd.key 0) (a j) 64).engineWrite (r.cmd.key 0) none [] (.mem (b j)) 64
        ((s2.seenAs (r.cmd.key 0)).readPlace (.mem (a j)) 64) 1 0xFF) →
    ∃ t, exec (.cpPf o) s = .next t ∧ SameMemory (σ n) t ∧
      t.core.eng = { (σ n).core.eng with copies := (σ n).core.eng.copies.map fun q => if q.cmd.seq = r.cmd.seq then
        (let d := r.moved 0 (fun _ => false) (fun _ => false) (fun _ => false) false o.tag
         let w := r.written + 64 * n
         { d with
           pos := r.pos + 64 * n, written := w
           post := some (r.cmd.message 0 (max r.status (if r.dataErr then 2 else if r.clipped then 1 else 0)) o.tag w) }) else q }) ∧
  (∀ (s : State) (id n : Nat) (tl : BitVec 8) (rest : List (BitVec 8 × Nat)), (s.coreAt id).arrivals = (tl, n) :: rest →
    (s.lands id = false → exec (.tileCellArrival id) s = .next s) ∧
    (s.lands id = true → ∃ t, exec (.tileCellArrival id) s = .next t ∧ (t.coreAt id).arrivals = rest ∧
      let old := (s.coreAt id).tile tl.toNat
      let new := (t.coreAt id).tile tl.toNat
      new.remaining.toNat = old.remaining.toNat - n ∧ new.off = old.off ∧ new.len = old.len ∧
        new.state = if old.state = .filling ∧ old.remaining.toNat ≤ n then .ready else old.state)) ∧
  (∀ (s : State) (id : Nat) (m : Msg) (rest : List Msg), (s.coreAt id).posts = m :: rest → (s.coreAt id).eng = Engines.empty →
    (s.coreAt id).exiting = false → s.lands id = true →
    ((s.coreAt id).inbox.length < 64 → ∃ t, exec (.inboxMessagePost id) s = .next t ∧
      (t.coreAt id).inbox = (s.coreAt id).inbox ++ [m] ∧ (t.coreAt id).posts = rest ∧ (t.coreAt id).regs = (s.coreAt id).regs) ∧
    (64 ≤ (s.coreAt id).inbox.length → exec (.inboxMessagePost id) s = .next s)) ∧
  (∀ (s : State) (id : Nat), (s.coreAt id).posts = [] → (s.coreAt id).exiting = false → s.lands id = true →
    (s.coreAt id).inbox.length < 64 →
    let posts (m : Msg) (P : Core → Prop) : Prop :=
      ∃ t, exec (.inboxMessagePost id) s = .next t ∧ (t.coreAt id).inbox = (s.coreAt id).inbox ++ [m] ∧ P (t.coreAt id)
    (∀ (c : CopyRun) (m : Msg), (s.coreAt id).eng = { Engines.empty with copies := [c] } → c.post = some m →
      s.awaitsArrival id (.copy c m) = false → posts m fun d => d.eng.copies = []) ∧
    (∀ (cmd : Cmd) (m : Msg) (fl : VFlags), (s.coreAt id).eng = { Engines.empty with mrun := some (.posting cmd m fl) } →
      posts m fun d => d.eng.mrun = none ∧ d.csr.vflags = (s.coreAt id).csr.vflags ||| fl) ∧
    ∀ (r : VRun) (m : Msg) (v : Word), (s.coreAt id).eng = { Engines.empty with vrun := some r } → r.done = true → r.push = some v →
      r.post = some m →
      ((s.coreAt id).regs.q1.length < 16 → posts m fun d => d.eng.vrun = none ∧ d.regs.q1 = (s.coreAt id).regs.q1 ++ [v] ∧
        d.csr.vflags = (s.coreAt id).csr.vflags ||| r.flags) ∧
      (16 ≤ (s.coreAt id).regs.q1.length → exec (.inboxMessagePost id) s = .next s)) ∧
  ∀ (s : State) (id : Nat) (r : VRun) (v : Word), (s.coreAt id).eng.vrun = some r → r.done = true → r.push = some v → r.post = none →
    (s.coreAt id).exiting = false → s.lands id = true →
    (16 ≤ (s.coreAt id).regs.q1.length → exec (.q1EntryPush id) s = .next s) ∧
    ((s.coreAt id).regs.q1.length < 16 → ∃ t, exec (.q1EntryPush id) s = .next t ∧
      (t.coreAt id).regs.q1 = (s.coreAt id).regs.q1 ++ [v] ∧ (t.coreAt id).regs.x = (s.coreAt id).regs.x ∧
      (t.coreAt id).eng.vrun = none ∧ (t.coreAt id).csr.vflags = (s.coreAt id).csr.vflags ||| r.flags)

/-! ## Collectives and streams -/

/-- R272 to R274, R276 to R278, R280: at the head of the collective queue, `co.cfg` writes an entry of the core's router once nothing of
it is there; `co.mark` puts a marker in; `co.red`, `co.bcast` and `co.allr` start, or complete at once with LINK_DOWN when a link of the
wave is down; what fails its conditions is BAD_COMMAND. A wave waits until its entry has stepped past the core's own marks, and drains its
source tile from its start. A running wave sends its next chunk, elements of the own scratchpad, once the last
one has been combined, and completes with the cells it has written once everything is sent and received. Log 7, log 24, log 27, log 28, log
60, log 108 (the model's readings): unordered writes, uncorrectable elements, unconfigured entries and marks, other devices' data, numbers
of waves, the room of a router. -/
def Obligations.CollectiveCommands : Prop :=
  let head (s : State) (i : Instr) (cmd : Cmd) (q : List Cmd) : Prop :=
    s.core.eng.krun = none ∧ s.core.eng.kq = cmd :: q ∧ cmd.is 3 i = true
  let isWave (i : Instr) (w : Wave) (bcast : Bool) : Prop := match i with
    | .coRed o => w = moveWave o ∧ bcast = false
    | .coBcast o => w = moveWave o ∧ bcast = true
    | .coAllr o => w = allrWave o ∧ bcast = false
    | _ => False
  let drains (s t : State) (cmd : Cmd) : Prop :=
    (∀ n, cmd.from? = some n → (s.core.tile n.toNat).state = .ready →
      t.core.tile n.toNat = { s.core.tile n.toNat with state := .draining, rel := false }) ∧
    (∀ n, cmd.from? ≠ some n ∨ (s.core.tile n.toNat).state ≠ .ready → t.core.tile n.toNat = s.core.tile n.toNat)
  let begun (s : State) (cmd : Cmd) : Cmd := { cmd with from? := cmd.from?.filter fun n => (s.core.tile n.toNat).state == .ready }
  (∀ (s : State) (o : CoCfg) (cmd : Cmd) (q : List Cmd), head s (.coCfg o) cmd q → cmd.bad = false →
    let inside : Prop := ∀ ps ∈ cfgSets o, ∀ p ∈ [1, 2, 3, 4], inMask (ps.inm ||| ps.outm) p = true → (s.neighbour? s.cur p).isSome = true
    (¬ inside → exec (.coCfg o) s = .next (s.collectiveFault cmd (16, cmd.pool))) ∧
    (inside → s.core.holdsEntry o.vsn.toNat = true → exec (.coCfg o) s = .next s) ∧
    (inside → s.core.holdsEntry o.vsn.toNat = false → ∃ t, exec (.coCfg o) s = .next t ∧ EngineFrame s t ∧
      t.core.entry? o.vsn.toNat = some ⟨o.op, o.head.fmt.getD .f32, [o.s0, o.s1, o.s2, o.s3].take (o.last.toNat + 1), 0, 0, 0, 0, 0⟩ ∧
      (∀ v, v ≠ o.vsn.toNat → t.core.entry? v = s.core.entry? v) ∧ t.core.eng = { s.core.eng with kq := q } ∧
      t.core.spad = s.core.spad)) ∧
  (∀ (s : State) (o : CoMark) (cmd : Cmd) (q : List Cmd), head s (.coMark o) cmd q → cmd.bad = false →
    (s.core.entry? o.vsn.toNat = none → exec (.coMark o) s = .next (s.collectiveFault cmd (16, cmd.pool))) ∧
    ∀ e, s.core.entry? o.vsn.toNat = some e →
      let enters : Prop := inMask (e.set (e.marks % e.sets.length)).inm 0 = true
      (enters → s.core.router.takes .own 9 = false → exec (.coMark o) s = .next s) ∧
      (¬ enters ∨ s.core.router.takes .own 9 = true → ∃ (t : State) (l : List Chunk), exec (.coMark o) s = .next t ∧ EngineFrame s t ∧
        t.core.router.chunks = s.core.router.chunks ++ l ∧
        (enters → ∃ k, l = [k] ∧ k.vsn = o.vsn ∧ k.marker = true ∧ k.port = 0 ∧ k.step = e.marks) ∧ (¬ enters → l = []) ∧
        t.core.entry? o.vsn.toNat = some { e with marks := e.marks + 1 } ∧
        t.core.eng = { s.core.eng with kq := q } ∧ t.core.spad = s.core.spad)) ∧
  (∀ (s : State) (i : Instr) (w : Wave) (bcast : Bool) (cmd : Cmd) (q : List Cmd), isWave i w bcast → head s i cmd q →
    let start (post : Option Msg) : Prop := ∃ t, exec i s = .next t ∧ SameMemory s t ∧ SameOthers s t ∧ drains s t cmd ∧
      t.core.eng = { s.core.eng with kq := q, krun := some ⟨begun s cmd, 0, 0, 0, 0, s.core.nextStep w.vsn, none, post⟩ } ∧ t.core.router = s.core.router ∧
      t.core.regs = s.core.regs ∧ t.core.spad = s.core.spad
    (cmd.bad = true → exec i s = .next (s.collectiveFault cmd (16, cmd.pool))) ∧
    (cmd.bad = false → s.core.stepping w = true → exec i s = .next s) ∧
    (cmd.bad = false → s.core.stepping w = false →
      (s.waveLegal w bcast = false → exec i s = .next (s.collectiveFault cmd (16, cmd.pool))) ∧
      (s.waveLegal w bcast = true → (s.copyHeld cmd || s.drainHeld cmd false) = true → exec i s = .next s) ∧
      (s.waveLegal w bcast = true → (s.copyHeld cmd || s.drainHeld cmd false) = false →
        let cut := (s.core.waveName? w.vsn w.allr (s.core.nextStep w.vsn)).any fun n => s.waveCut s.cur w.vsn n
        (cut = false → start none) ∧
        (cut = true → start (some (cmd.message 3 6 w.tag 0)))))) ∧
  (∀ (s : State) (i : Instr) (w : Wave) (bcast : Bool) (r : CollRun) (e : VsEntry), isWave i w bcast → s.core.eng.krun = some r →
    r.cmd.is 3 i = true → r.post = none → s.core.entry? w.vsn = some e → (∀ a ∈ s.core.router.aborted, a.vsn ≠ w.vsn) →
    (∀ k ∈ s.core.router.chunks, k.port ≠ 0) → r.limit = none →
    let per := 4096 / w.fmt.width
    let n := (w.count + per - 1) / per
    let b := w.fmt.width / 8
    let done : Prop := (e.sends w.allr r.step = true → r.sent = n) ∧
      (e.takes w.allr r.step = true ∨ (w.allr = true ∧ e.isRoot = true) → r.received = n)
    (done → ∃ t, exec i s = .next t ∧ EngineFrame s t ∧ t.core.spad = s.core.spad ∧
      t.core.eng = { s.core.eng with krun := some { r with post := some (r.cmd.message 3 0 w.tag r.written) } }) ∧
    (¬ done → e.sends w.allr r.step = true → r.sent < n →
      s.core.router.takes .own 8 = true → s.spadPoisoned s.cur (w.src + r.sent * 512) 512 = false →
      ∃ (t : State) (k : Chunk) (fl : BitVec 8), exec i s = .next t ∧
      EngineFrame s t ∧ t.core.spad = s.core.spad ∧
      t.core.router = { s.core.router with chunks := s.core.router.chunks ++ [k] } ∧
      t.core.eng = { s.core.eng with krun := some { r with sent := r.sent + 1, flags := fl } } ∧ fl = r.flags ∧
      k.vsn = BitVec.ofNat 8 w.vsn ∧ k.port = 0 ∧ k.set = 0 ∧ k.marker = false ∧ k.allr = w.allr ∧
      k.wave = (if w.allr then e.up else e.wave) ∧ k.step = (if w.allr then 0 else e.steps) ∧
      k.index = r.sent ∧ k.count = w.count ∧ k.op = e.op ∧
      k.data = (List.range (min per (w.count - r.sent * per))).map fun j =>
        readLE (s.seenAs (r.cmd.key 3)).core.spad (w.src + r.sent * 512 + b * j) b)) ∧
  ∀ (s : State) (i : Instr) (cmd : Cmd) (q : List Cmd), (match i with | .coCfg _ | .coMark _ => True | _ => False) → head s i cmd q →
    cmd.bad = true → exec i s = .next (s.collectiveFault cmd (16, cmd.pool))

/-- R282 to R284: `sp.open` opens a receive port, or claims a free one of its target, takes a lane at a time and opens its send port with
the last; an open port is BAD_COMMAND. `sp.send` on a send port with credit takes its bytes' credit and moves them 512 at a time with its
message at the end, without credit or room it waits, and over a link that is down it ends with status 6; on a receive port it returns
credit; on a closed one it completes with status 7. `sp.close` closes a port, sends a closing marker from a send port, and cuts the sender
of a receive port off. Log 7, log 26, log 61, log 62, log 63, log 108 (the model's readings): unordered writes, closing markers, unopened
ports, closing a receive port, links that are down, room. -/
def Obligations.StreamCommands : Prop :=
  let head (s : State) (i : Instr) (cmd : Cmd) (q : List Cmd) : Prop :=
    s.core.eng.krun = none ∧ s.core.eng.kq = cmd :: q ∧ cmd.is 3 i = true ∧ cmd.bad = false
  let run (s : State) (cmd : Cmd) (post : Option Msg) : CollRun :=
    ⟨{ cmd with from? := cmd.from?.filter fun n => (s.core.tile n.toNat).state == .ready }, 0, 0, 0, 0, 0, none, post⟩
  let frame (s t : State) : Prop := SameMemory s t ∧ SameOthers s t ∧ t.core.regs = s.core.regs ∧ t.core.spad = s.core.spad
  (∀ (s : State) (o : SpOpen) (cmd : Cmd) (q : List Cmd), head s (.spOpen o) cmd q →
    (s.core.port o.port ≠ .closed → exec (.spOpen o) s = .next (s.collectiveFault cmd (16, cmd.pool))) ∧
    (s.core.port o.port = .closed → o.recv = true → ∃ t, exec (.spOpen o) s = .next t ∧ EngineFrame s t ∧
      t.core.port o.port = .recv o.ring.toNat o.len.toNat none 0 ∧ (∀ p, p ≠ o.port → t.core.port p = s.core.port p) ∧
      t.core.eng = { s.core.eng with kq := q } ∧ t.core.spad = s.core.spad) ∧
    (s.core.port o.port = .closed → o.recv = false → s.streamLegal o = false →
      exec (.spOpen o) s = .next (s.collectiveFault cmd (16, cmd.pool))) ∧
    ∀ tg ring len u, s.core.port o.port = .closed → o.recv = false → s.streamLegal o = true → s.streamTarget o = some tg →
      (s.coreAt tg).port o.tport = .recv ring len none u → s.pathDown (s.part.streamPath s.cur tg) = false →
      ∃ t, exec (.spOpen o) s = .next t ∧ (t.coreAt tg).port o.tport = .recv ring len (some (s.cur, o.port.toNat)) u ∧
        t.core.eng = { s.core.eng with kq := q, krun := some (run s cmd none) }) ∧
  (∀ (s : State) (o : SpOpen) (r : CollRun) (tg ring len u : Nat), s.core.eng.krun = some r → r.cmd.is 3 (.spOpen o) = true →
    r.post = none → s.streamTarget o = some tg → (s.coreAt tg).port o.tport = .recv ring len (some (s.cur, o.port.toNat)) u →
    s.pathDown (s.part.streamPath s.cur tg) = false →
    (∀ hop, (s.part.streamPath s.cur tg)[r.sent]? = some hop →
      (s.laneFree hop = true → ∃ t, exec (.spOpen o) s = .next t ∧ EngineFrame s t ∧
        t.core.eng = { s.core.eng with krun := some { r with sent := r.sent + 1 } }) ∧
      (s.laneFree hop = false → exec (.spOpen o) s = .next s)) ∧
    ((s.part.streamPath s.cur tg)[r.sent]? = none → ∃ t, exec (.spOpen o) s = .next t ∧ frame s t ∧
      t.core.eng = { s.core.eng with krun := none } ∧ t.core.port o.port = .send tg o.tport.toNat len 0 len (s.cur, tg % 4096))) ∧
  (∀ (s : State) (o : SpSend) (cmd : Cmd) (q : List Cmd), head s (.spSend o) cmd q →
    let n := o.head.count.toNat
    let ends (status cells : Nat) (t : State) : Prop :=
      (o.msg = true → t.core.eng = { s.core.eng with kq := q, krun := some (run s cmd (some (cmd.message 3 status o.tag cells))) }) ∧
      (o.msg = false → t.core.eng = { s.core.eng with kq := q })
    ((s.core.port o.port = .closed ∨ ∃ k, s.core.port o.port = .cut k) → ∃ t, exec (.spSend o) s = .next t ∧ frame s t ∧
      ends 7 0 t) ∧
    (∀ ring len u, s.core.port o.port = .recv ring len none u →
      (u < n ∨ len < n → exec (.spSend o) s = .next (s.collectiveFault cmd (16, cmd.pool))) ∧
      (n ≤ u → n ≤ len → ∃ t, exec (.spSend o) s = .next t ∧ frame s t ∧ ends 0 n t ∧
        t.core.port o.port = .recv ring len none (u - n))) ∧
    (∀ ring len u k p tg tp cr pos l rt, s.core.port o.port = .recv ring len (some (k, p)) u → k ≠ s.cur → n ≤ u → n ≤ len →
      (s.coreAt k).port (BitVec.ofNat 2 p) = .send tg tp cr pos l rt → ∃ t, exec (.spSend o) s = .next t ∧ ends 0 n t ∧
        t.core.port o.port = .recv ring len (some (k, p)) (u - n) ∧
        (t.coreAt k).port (BitVec.ofNat 2 p) = .send tg tp (cr + n) pos l rt) ∧
    ∀ tg tp cr pos len rt, s.core.port o.port = .send tg tp cr pos len rt →
      (len < n ∨ Config.spadBytes < o.src.toNat + n → exec (.spSend o) s = .next (s.collectiveFault cmd (16, cmd.pool))) ∧
      (n ≤ len → o.src.toNat + n ≤ Config.spadBytes →
      (s.pathDown (s.part.streamPath s.cur tg) = true → ∃ t, exec (.spSend o) s = .next t ∧ frame s t ∧ ends 6 0 t) ∧
      (s.pathDown (s.part.streamPath s.cur tg) = false → cr < n → exec (.spSend o) s = .next s) ∧
      (s.pathDown (s.part.streamPath s.cur tg) = false → s.copyHeld cmd = false → s.drainHeld cmd false = false → n ≤ cr →
        (rt ≠ (s.cur, tg % 4096) → s.onRoute o.port = none → exec (.spSend o) s = .next s) ∧
        (rt = (s.cur, tg % 4096) ∨ (s.onRoute o.port).isSome = true →
          ∃ t, exec (.spSend o) s = .next t ∧ frame s t ∧ t.core.port o.port = .send tg tp (cr - n) pos len (s.cur, tg % 4096) ∧
            t.core.eng = { s.core.eng with kq := q, krun := some (run s cmd none) })))) ∧
  (∀ (s : State) (o : SpSend) (r : CollRun) (tg tp cr pos len : Nat) (rt : Nat × Nat), s.core.eng.krun = some r → r.cmd.is 3 (.spSend o) = true →
    r.post = none → s.core.port o.port = .send tg tp cr pos len rt → tg ≠ s.cur → r.sent ≤ o.head.count.toNat →
    let n := o.head.count.toNat
    let k := min 512 (n - r.sent)
    let m := r.cmd.message 3 0 o.tag n
    let down := s.pathDown (s.part.streamPath s.cur tg)
    (down = true → ∃ t, exec (.spSend o) s = .next t ∧ frame s t ∧ (o.msg = false → t.core.eng.krun = none) ∧
      (o.msg = true → t.core.eng.krun = some { r with post := some (r.cmd.message 3 6 o.tag r.sent) })) ∧
    (down = false → (s.coreAt tg).router.takesStream (max 1 ((k + 63) / 64)) = false → exec (.spSend o) s = .next s) ∧
    (down = false → (s.coreAt tg).router.takesStream (max 1 ((k + 63) / 64)) = true →
      rt = (s.cur, tg % 4096) ∨ (s.onRoute o.port).isSome = true →
      s.spadPoisoned s.cur (o.src.toNat + r.sent) 512 = false →
      ∃ t, exec (.spSend o) s = .next t ∧ t.core.port o.port = .send tg tp cr ((pos + k) % len) len (s.cur, tg % 4096) ∧ t.core.spad = s.core.spad ∧
        (t.coreAt tg).router.flits = (s.coreAt tg).router.flits ++ [⟨r.cmd.key 3, tp, false, pos,
          readBytes (s.seenAs (r.cmd.key 3)).core.spad (o.src.toNat + r.sent) k, if r.sent + k = n then some m else none⟩] ∧
        (r.sent + k < n → ∃ r', t.core.eng.krun = some r' ∧ r'.sent = r.sent + k ∧ r'.post = none) ∧
        (r.sent + k = n → o.msg = true → ∃ r', t.core.eng.krun = some r' ∧ r'.post = some m) ∧
        (r.sent + k = n → o.msg = false → t.core.eng.krun = none))) ∧
  ∀ (s : State) (o : SpClose) (cmd : Cmd) (q : List Cmd), head s (.spClose o) cmd q →
    (s.core.port o.port = .closed → ∃ t, exec (.spClose o) s = .next t ∧ EngineFrame s t ∧ t.core.eng = { s.core.eng with kq := q } ∧
      t.core.port o.port = .closed) ∧
    (∀ tg tp cr pos len rt, s.core.port o.port = .send tg tp cr pos len rt → tg ≠ s.cur → ∃ (t : State) (m : Msg),
      exec (.spClose o) s = .next t ∧ t.core.port o.port = .closed ∧ t.core.eng = { s.core.eng with kq := q } ∧
      (t.coreAt tg).router.flits = (s.coreAt tg).router.flits ++ [⟨⟨3, cmd.seq, m.source⟩, tp, true, 0, [], some m⟩] ∧
        m.status = 7 ∧ m.eng = 3) ∧
    ∀ ring len k p u, s.core.port o.port = .recv ring len (some (k, p)) u → k ≠ s.cur → ∃ t, exec (.spClose o) s = .next t ∧
      t.core.port o.port = .closed ∧ t.core.eng = { s.core.eng with kq := q } ∧ ∃ route,
        (t.coreAt k).port (BitVec.ofNat 2 p) = .cut route ∧
        ∀ tg tp cr pos l rt, (s.coreAt k).port (BitVec.ofNat 2 p) = .send tg tp cr pos l rt → route = rt

/-- R273, R275, R277 to R280, R283, R284: once a chunk waits on every in port of an entry's current set, a router combines them in the
order of its ports, takes them away, sends the result by every out port, and writes it into its own core's scratchpad once that awaits it;
chunks that do not agree, or an out link that is down, end the wave. The root of an all-reduce turns the sum round, once it knows whether
other devices exchange. Markers on every in port step the entry to its next set. A core
learns of a wave's end and completes with its status and the prefix written. A link's failed flits are counted, and after 16 in a row, or
when it is taken down, it is down at both ends. Stream data is written into the receiver's ring, and a closing marker closes the port. Log
28, log 59, log 60, log 64, log 108 (the model's readings): other devices' data, markers, numbers of waves, what ends a row of failures,
room. -/
def Obligations.RouterEvents : Prop :=
  (∀ (s : State) (id vsn : Nat) (e : VsEntry) (k : Chunk) (rest : List Chunk), vsn < 256 → (s.coreAt id).entry? vsn = some e →
    (s.coreAt id).heads? vsn false 0 (e.set e.current) = some (k :: rest) → s.routerMoves id k = true →
    (e.current ≤ 1 → (s.coreAt id).heads? vsn true e.current (e.set e.current) = none) →
    let q := e.set e.current
    let result := combineAll e.op e.fmt ((k :: rest).map fun h => (h.data, h.flags))
    let down : Prop := ∃ p ∈ portsOf q.outm, (s.coreAt id).router.down.contains p = true
    (sameHeaders (k :: rest) = false → exec (.routerCombine id vsn e.current) s = .next (s.endWave id vsn k.name 5)) ∧
    (sameHeaders (k :: rest) = true → down → exec (.routerCombine id vsn e.current) s = .next (s.endWave id vsn k.name 6)) ∧
    (sameHeaders (k :: rest) = true → ¬ down → inMask q.outm 0 = true → (s.coreAt id).awaits k = false →
      exec (.routerCombine id vsn e.current) s = .next s) ∧
    (sameHeaders (k :: rest) = true → ¬ down → s.roomBehind id (portsOf q.outm) k.flits = false →
      exec (.routerCombine id vsn e.current) s = .next s) ∧
    (sameHeaders (k :: rest) = true → ¬ down → (inMask q.outm 0 = true → (s.coreAt id).awaits k = true) →
      s.roomBehind id (portsOf q.outm) k.flits = true →
      (∀ p ∈ portsOf q.outm, s.neighbour? id p ≠ some id) →
      ∃ t, exec (.routerCombine id vsn e.current) s = .next t ∧ SameMemory s t ∧
        (t.coreAt id).router.chunks = (k :: rest).foldl (fun l c => l.erase c) (s.coreAt id).router.chunks ∧
        (∀ p n, p ∈ portsOf q.outm → p ≠ 0 → s.neighbour? id p = some n →
          ∃ m w, { k with data := result.1, flags := result.2, port := oppositePort p, step := m, wave := w } ∈ (t.coreAt n).router.chunks) ∧
        (inMask q.outm 0 = false → (t.coreAt id).spad = (s.coreAt id).spad) ∧
        (inMask q.outm 0 = true → ∀ r w, (s.coreAt id).wave? = some (r, w) →
          (t.coreAt id).spad = writeItems (w.fmt.width / 8) (s.coreAt id).spad (w.dst + r.received * 512) result.1 ∧
          (t.coreAt id).eng.krun = some { r with
            received := r.received + 1, written := r.written + result.1.length, flags := r.flags ||| result.2 }))) ∧
  (∀ (s : State) (id vsn : Nat) (e : VsEntry) (k : Chunk) (rest : List Chunk), vsn < 256 → (s.coreAt id).entry? vsn = some e →
    (e.current = 0 → (s.coreAt id).heads? vsn false 0 (e.set 0) = none) → (e.set 0).outm = 1 →
    (s.coreAt id).heads? vsn true 0 (e.set 0) = some (k :: rest) → s.routerMoves id k = true → sameHeaders (k :: rest) = true →
    (s.coreAt id).router.down.contains 0 = false →
    let result := combineAll e.op e.fmt ((k :: rest).map fun h => (h.data, h.flags))
    ((s.coreAt id).turner? e k = none → exec (.routerCombine id vsn 0) s = .next s) ∧
    ∀ r w, (s.coreAt id).turner? e k = some (r, w) →
      (s.deviceAborts w.devices = true → exec (.routerCombine id vsn 0) s = .next (s.endWave id vsn k.name 5)) ∧
      (s.deviceAborts w.devices = false → (s.coreAt id).router.takes .turned k.flits = false →
        exec (.routerCombine id vsn 0) s = .next s) ∧
      (w.devices = none → (s.coreAt id).router.takes .turned k.flits = true → ∃ t m v, exec (.routerCombine id vsn 0) s = .next t ∧ SameMemory s t ∧
      (t.coreAt id).router.chunks = (k :: rest).foldl (fun l c => l.erase c) (s.coreAt id).router.chunks ++
        [{ k with port := 0, set := 1, step := m, wave := v, data := result.1, flags := result.2 }] ∧
      (t.coreAt id).spad = (s.coreAt id).spad)) ∧
  (∀ (f : Fmt) (a b : Nat),
    (f.isInt = true → (finElem .add f a b).1 = ((intOf f a + intOf f b) % (2 ^ f.width : Int)).toNat) ∧
    (f.isInt = false → (finElem .add f a b).1 = (roundVal f .rne 0 ((valOf f a).add .rne (valOf f b)).1).1) ∧
    (f.isInt = true → (finElem .max f a b).1 = (if intOf f a < intOf f b then b else a) ∧
      (finElem .min f a b).1 = (if intOf f b < intOf f a then b else a))) ∧
  (∀ (s : State) (id vsn : Nat) (e : VsEntry) (k : Chunk) (rest : List Chunk), (s.coreAt id).entry? vsn = some e →
    let q := e.set e.current
    (portsOf q.inm).filterMap (fun p => (s.coreAt id).headChunk vsn false 0 p) = k :: rest →
    (k :: rest).length = (portsOf q.inm).length →
    ((∃ c ∈ k :: rest, c.marker = false) → exec (.entrySetStep id vsn) s = .next s) ∧
    ((∀ c ∈ k :: rest, c.marker = true) → (∀ p ∈ portsOf q.outm, s.neighbour? id p ≠ some id) →
      s.roomBehind id (portsOf q.outm) 1 = true → (s.coreAt id).stopped = false →
      ∃ t, exec (.entrySetStep id vsn) s = .next t ∧ SameMemory s t ∧
        (t.coreAt id).entry? vsn = some { e with steps := e.steps + 1, wave := 0 } ∧
        (t.coreAt id).router.chunks = (k :: rest).foldl (fun l c => l.erase c) (s.coreAt id).router.chunks ∧
        ∀ p n, p ∈ portsOf q.outm → p ≠ 0 → s.neighbour? id p = some n →
          ∃ m w, { k with port := oppositePort p, step := m, wave := w } ∈ (t.coreAt n).router.chunks)) ∧
  (∀ (s : State) (id vsn : Nat) (e : VsEntry) (a : WaveEnd) (r : CollRun) (w : Wave), (s.coreAt id).entry? vsn = some e →
    ((s.coreAt id).router.aborted.find? fun x => x.vsn == vsn && (e.isPast x.name || e.next x.name.allr == x.name)) = some a →
    e.isPast a.name = false → (s.coreAt id).runOf vsn a.name = some (r, w) → r.post = none → s.lands id = true →
    ∃ t, exec (.collectiveAbort id vsn) s = .next t ∧
      (t.coreAt id).eng.krun = some { r with post := some (r.cmd.message 3 a.status w.tag r.written) } ∧
      (t.coreAt id).entry? vsn = some (if a.name.allr then { e with down := e.down + 1, up := max e.up (e.down + 1) }
        else { e with wave := e.wave + 1 }) ∧
      (∀ x ∈ (t.coreAt id).router.aborted, x ≠ a) ∧
      (t.coreAt id).spad = (s.coreAt id).spad) ∧
  (∀ (s : State) (id port n : Nat), s.neighbour? id port = some n → n ≠ id →
    (∀ i, i = .linkDown id port ∨ (i = .linkFlitResend id port ∧ (s.coreAt id).router.down.contains port = false ∧
        15 ≤ ((alGet port (s.coreAt id).router.fails).getD 0)) →
      ∃ t, exec i s = .next t ∧ port ∈ (t.coreAt id).router.down ∧ oppositePort port ∈ (t.coreAt n).router.down ∧ SameMemory s t) ∧
    ((s.coreAt id).router.down.contains port = false → (alGet port (s.coreAt id).router.fails).getD 0 < 15 →
      exec (.linkFlitResend id port) s = .next (s.updCoreAt id fun c => { c with router := { c.router with
        fails := alSet port ((alGet port (s.coreAt id).router.fails).getD 0 + 1) c.router.fails } }))) ∧
  ∀ (s : State) (id ring len u : Nat) (sender : Option (Nat × Nat)) (f : StreamFlit) (rest : List StreamFlit),
    (s.coreAt id).router.flits = f :: rest → s.lands id = true →
    (s.coreAt id).exiting = false → (s.coreAt id).port (BitVec.ofNat 2 f.tport) = .recv ring len sender u → 0 < len →
    (f.close = false → ∃ t, exec (.streamDataArrival id) s = .next t ∧ (t.coreAt id).router.flits = rest ∧
      (t.coreAt id).port (BitVec.ofNat 2 f.tport) = .recv ring len sender (u + f.bytes.length) ∧
      (t.coreAt id).posts = (s.coreAt id).posts ++ f.msg.toList ∧
      (f.bytes.length ≤ len → ∀ j b, f.bytes[j]? = some b → readByte (t.coreAt id).spad (ring + (f.pos + j) % len) = b)) ∧
    (f.close = true → ∃ t, exec (.streamCloseArrival id) s = .next t ∧ (t.coreAt id).router.flits = rest ∧
      (t.coreAt id).port (BitVec.ofNat 2 f.tport) = .closed ∧ (t.coreAt id).posts = (s.coreAt id).posts ++ f.msg.toList ∧
      (t.coreAt id).spad = (s.coreAt id).spad)

/-! ## The media engine and the bridle -/

/-- R66, R354 to R357, R312: at the head of the media queue, `d.cfg` configures a slot that is free or its launch's own, with its
workspace's six scales and no references; a slot of another launch answers busy; with a count of 0 it configures nothing. `d.dec` needs
its grants; one of 0 bytes does nothing; on a slot of its launch it decodes an access unit: a bitstream error drops the references, an
unsupported stream changes nothing, no picture and a picture add the unit, and a picture is written row by row if the tensor's shape suits
it. A cell is its sample times a scale plus an offset, rounded once. Each ends with its message to post, and its flags with it. What the
codec yields is a free value (log 9). Log 29 (the model's choice): what a decode without a picture leaves. -/
def Obligations.MediaCommands : Prop :=
  let head (s : State) (i : Instr) (cmd : Cmd) (q : List Cmd) : Prop :=
    s.core.eng.drun = none ∧ s.core.eng.dq = cmd :: q ∧ cmd.is 4 i = true ∧ s.copyHeld cmd = false
  let posts (u t : State) (cmd : Cmd) (tag : BitVec 8) (status cells : Nat) (fl : VFlags) : Prop :=
    t.core.eng = { u.core.eng with
      dq := u.core.eng.dq.tail, drun := some ⟨cmd, fl, some (cmd.message 4 status tag cells)⟩ } ∧ t.core.spad = u.core.spad ∧
      t.core.csr.vflags = u.core.csr.vflags ∧ SameMemory u t
  let ends (u t : State) (cmd : Cmd) (tag : BitVec 8) (status cells : Nat) : Prop := posts u t cmd tag status cells 0
  (∀ (s s1 : State) (o : DCfg) (cmd : Cmd) (q : List Cmd) (bytes : List Byte), head s (.dCfg o) cmd q → cmd.bad = false →
    let free : Prop := ∀ x, alGet o.slot.toNat s.slots = some x → x.owner = s.owner ∧ x.part = s.core.part
    (o.head.count = 0 → ∃ t, exec (.dCfg o) s = .next t ∧ ends s t cmd o.tag 0 0 ∧ t.slots = s.slots) ∧
    (o.head.count ≠ 0 → ¬ free → ∃ t, exec (.dCfg o) s = .next t ∧ ends s t cmd o.tag 10 0 ∧ t.slots = s.slots) ∧
    (o.head.count ≠ 0 → free → s.mediaRead cmd 2 o.ws.toNat 24 = .ok (bytes, s1) → ∃ t, exec (.dCfg o) s = .next t ∧ ends s1 t cmd o.tag 0 0 ∧
      alGet o.slot.toNat t.slots = some ⟨s1.core.part, s1.owner, o.codec, o.w.toNat, o.h.toNat, o.ws.zeroExtend 64,
        (List.range 6).map fun k => BitVec.ofNat 32 (leNat ((bytes.drop (4 * k)).take 4)), []⟩ ∧
      ∀ n, n ≠ o.slot.toNat → alGet n t.slots = alGet n s1.slots)) ∧
  (∀ (s s1 : State) (o : DDec) (cmd : Cmd) (q : List Cmd) (au : List Byte), head s (.dDec o) cmd q → cmd.bad = false →
    (∀ f, s.checkDDec o cmd = .error f → exec (.dDec o) s = .next (s.mediaFault cmd f)) ∧
    (s.checkDDec o cmd = .ok () → o.head.count = 0 → ∃ t, exec (.dDec o) s = .next t ∧ ends s t cmd o.tag 0 0 ∧ t.slots = s.slots) ∧
    (s.checkDDec o cmd = .ok () → o.head.count ≠ 0 → alGet o.slot.toNat s.slots = none →
      ∃ (t : State) (status : Nat), 8 ≤ status ∧ status ≤ 12 ∧ exec (.dDec o) s = .next t ∧ ends s t cmd o.tag status 0) ∧
    ∀ slot, s.checkDDec o cmd = .ok () → o.head.count ≠ 0 → alGet o.slot.toNat s.slots = some slot →
      (slot.owner ≠ s.owner ∨ slot.part ≠ s.core.part → ∃ t, exec (.dDec o) s = .next t ∧ ends s t cmd o.tag 10 0) ∧
      (slot.owner = s.owner → slot.part = s.core.part →
        s.mediaRead cmd (pagesOf o.head.count.toNat) o.au.toNat o.head.count.toNat = .ok (au, s1) →
        (alGet o.slot.toNat s1.slots).isSome = true →
        let result := Config.decodeAccessUnit (codecNumber slot.codec) slot.w slot.h slot.history au
        let refs (t : State) : Option (List (List Byte)) := (alGet o.slot.toNat t.slots).map (·.history)
        (result = .bitstreamError → ∃ t, exec (.dDec o) s = .next t ∧ ends s1 t cmd o.tag 8 0 ∧ refs t = some []) ∧
        (result = .unsupported → ∃ t, exec (.dDec o) s = .next t ∧ ends s1 t cmd o.tag 12 0 ∧ t.slots = s1.slots) ∧
        (result = .noPicture → ∃ t, exec (.dDec o) s = .next t ∧ ends s1 t cmd o.tag 11 0 ∧
          refs t = some (slot.history ++ [au])) ∧
        ∀ w h y cb cr, result = .picture w h y cb cr →
          let p : Picture := ⟨w, h, y, cb, cr⟩
          let kept := s1.setHistory o.slot.toNat (slot.history ++ [au])
          let rows := (List.range 3).flatMap fun c => (List.range h).flatMap fun y =>
            (List.range ((w + 31) / 32)).map fun b => (c, y, 32 * b)
          (4096 < w ∨ 2304 < h → ∃ t, exec (.dDec o) s = .next t ∧ ends kept t cmd o.tag 12 0) ∧
          (w ≤ 4096 → h ≤ 2304 → shapeFits o cmd p = false → ∃ t, exec (.dDec o) s = .next t ∧ ends kept t cmd o.tag 9 0) ∧
          ∀ fl s2, w ≤ 4096 → h ≤ 2304 → shapeFits o cmd p = true → kept.writePicture o cmd p slot.scales rows 0 = .ok (fl, s2) →
            ∃ t, exec (.dDec o) s = .next t ∧ posts s2 t cmd o.tag 0 (3 * h * w) (fl &&& mediaFlags))) ∧
  (∀ (s : State) (o : DDec) (cmd : Cmd) (p : Picture) (scales : List Word32) (c y x n j : Nat), j < n → o.head.fmt = some .f16 →
    let half := (p.w + 1) / 2
    let sample := match c with
      | 0 => p.y.getD (y * p.w + (x + j)) 0
      | 1 => p.cb.getD (y / 2 * half + (x + j) / 2) 0
      | _ => p.cr.getD (y / 2 * half + (x + j) / 2) 0
    let scale (k : Nat) : Val := valOf .f32 (scales.getD k 0).toNat
    (s.pictureRow o cmd p scales c y x n).2.1.getD j 0 = (roundVal .f16 (rmodeOf o.head.round)
      (if o.head.round = .sr then randomWord s.core.csr.jobseed cmd.lcore cmd.ctr0 ((c * p.h + y) * p.w + x + j) else 0)
      ((((Val.ofInt sample).mul (scale (2 * c))).1.add .rne (scale (2 * c + 1))).1)).1) ∧
  ∀ (s : State) (i : Instr) (cmd : Cmd) (q : List Cmd), (match i with | .dCfg _ | .dDec _ => True | _ => False) → head s i cmd q →
    cmd.bad = true → exec i s = .next (s.updCore fun c => c.dropMedia.pendFault 4 cmd.seq (16, cmd.pool))

/-- R228, R229: each instruction of the bridle is one step of the decision in progress in the acting core's partition: it writes its
register from the snapshot or from registers modulo 2^32, or jumps forward, or adds a veto, and the step count rises; `pick` of a queue,
`end`, `defer` and `act` end the decision with their result; a step that uses the budget up, and a queue number above 7, end it as
invalid. -/
def Obligations.BridleSteps : Prop :=
  ∀ (s : State) (pn : Nat) (k : Decision) (g : Policy), s.partOf? s.cur = some pn → (s.partAt pn).decision = some k →
    (s.partAt pn).program = some g →
    let reg (r : BitVec 3) : Word32 := k.p[r.toNat]'r.isLt
    let goesOn (i : Instr) (k' : Decision) : Prop :=
      (k.steps + 1 < g.budget → exec i s = .next (s.updPartAt pn fun p => { p with decision := some { k' with steps := k.steps + 1 } })) ∧
      (g.budget ≤ k.steps + 1 → exec i s = .next (s.conclude pn { k' with steps := k.steps + 1 } .invalid))
    let writes (i : Instr) (d : BitVec 3) (v : Word32) : Prop :=
      goesOn i { k with index := k.index + 1, p := k.p.set d.toNat v d.isLt }
    (∀ (d : BitVec 3) (n : BitVec 8), writes (.bridleLi d n) d (n.zeroExtend 32)) ∧
    (∀ (d q f : BitVec 3) (row : List Word32) (v : Word32), k.queues[q.toNat]? = some row → row[f.toNat]? = some v →
      writes (.bridleLdq d q f) d v) ∧
    (∀ (d c : BitVec 3) (v : Word32), k.counts[c.toNat]? = some v → writes (.bridleLdc d c) d v) ∧
    (∀ d a b : BitVec 3,
      writes (.bridleAdd d a b) d (reg a + reg b) ∧ writes (.bridleSub d a b) d (reg a - reg b) ∧
      writes (.bridleMin d a b) d (if reg a < reg b then reg a else reg b) ∧
      writes (.bridleMax d a b) d (if reg a < reg b then reg b else reg a) ∧
      writes (.bridleAnd d a b) d (reg a &&& reg b) ∧ writes (.bridleOr d a b) d (reg a ||| reg b) ∧
      writes (.bridleShl d a b) d (reg a <<< ((reg b).toNat % 32)) ∧ writes (.bridleShr d a b) d (reg a >>> ((reg b).toNat % 32)) ∧
      writes (.bridleClt d a b) d (if reg a < reg b then 1 else 0) ∧ writes (.bridleCeq d a b) d (if reg a = reg b then 1 else 0) ∧
      writes (.bridleSel d a b) d (if reg d ≠ 0 then reg a else reg b)) ∧
    (∀ (a : BitVec 3) (o : BitVec 8), goesOn (.bridleJf a o) { k with index := k.index + 1 + if reg a = 0 then o.toNat else 0 }) ∧
    (∀ a : BitVec 3,
      (reg a < 8 → exec (.bridlePick a) s = .next (s.conclude pn k (.pick (reg a).toNat)) ∧
        goesOn (.bridleVeto a) { k with index := k.index + 1, vetoes := (reg a).toNat :: k.vetoes }) ∧
      (8 ≤ reg a → exec (.bridlePick a) s = .next (s.conclude pn k .invalid) ∧
        exec (.bridleVeto a) s = .next (s.conclude pn k .invalid)) ∧
      ∀ n : BitVec 2, exec (.bridleAct a n) s = .next (s.conclude pn k (.act (reg a).toNat n))) ∧
    exec .bridleEnd s = .next (s.conclude pn k .fallback) ∧ exec .bridleDefer s = .next (s.conclude pn k .defer)

/-! ## The dispatcher -/

/-- R41, R222 to R228, R309: a dispatch decision consumes the offer, counts, and ages every ready task; an overdue task that fits is
forced, counted for its launch; a bridle starts with a snapshot; without one the fitting queue head of the highest priority in the
snapshot, and then of the greatest age, is bound, and with none the core is deferred; a core that a scrub holds keeps its offer. A fresh
task finds its entry, its arguments in x10 to x13, every other register zero, its CSRs, and memory of another domain scrubbed. A deferred
core is offered again. Log 40, log 69, log 88, log 89, log 92 (the model's readings and free choices): launches that are out, a pick
that can no longer be bound, offers, and places of roles. -/
def Obligations.DispatchBindsTasks : Prop :=
  (∀ (s : State) (pn id : Nat), (alGet pn s.parts).isSome = true →
    (s.partAt pn).offers.find? (fun o => o.1 == id) = some (id, false) → (s.partAt pn).decides = true →
    let erased := s.updPartAt pn fun p => { p with offers := p.offers.erase (id, false) }
    let counted := erased.updPartAt pn fun p => { p with decisions := p.decisions + 1 }
    let aged := counted.updPartAt pn fun p => { p with ready := p.ready.map fun t => { t with age := t.age + 1 } }
    let snap := s.openDecision pn (.dispatch id) none ((alGet id (s.partAt pn).deferred).getD 0)
    (s.offerHeld id = true → exec (.dispatchDecision pn id) s = .next s) ∧
    (s.offerHeld id = false → s.canTake pn id = false → exec (.dispatchDecision pn id) s = .next erased) ∧
    (∀ t, s.canTake pn id = true → s.overdue? pn id = some t → exec (.dispatchDecision pn id) s = .next
      ((counted.updLaunch pn t.launch fun l => { l with forced := l.forced + 1 }).dispatchTo pn id t)) ∧
    (s.canTake pn id = true → s.overdue? pn id = none → (s.partAt pn).program.isSome = true →
      exec (.dispatchDecision pn id) s = .next (aged.updPartAt pn fun p => { p with decision := some snap }) ∧
      snap.kind = .dispatch id ∧ snap.index = 0 ∧ snap.steps = 0 ∧ snap.p = Vector.replicate 8 0 ∧ snap.vetoes = [] ∧
      snap.queues.length = 8 ∧ snap.counts.length = 8) ∧
    (s.canTake pn id = true → s.overdue? pn id = none → (s.partAt pn).program = none →
      (∀ f, snap.builtinPick [] = some f → exec (.dispatchDecision pn id) s = .next (aged.bindFit pn id f)) ∧
      (snap.builtinPick [] = none → ∃ t, exec (.dispatchDecision pn id) s = .next t ∧
        (alGet id (t.partAt pn).deferred).isSome = true ∧ t.cores = s.cores))) ∧
  (∀ (s : State) (pn id n : Nat) (vetoes : List Nat) (f : Fit),
    (s.openDecision pn (.dispatch id) none n).builtinPick vetoes = some f →
    let p := s.partAt pn
    let prio (t : Task) : Nat := ((p.nodeOf? t).map (·.prio)).getD 0
    ∃ t l, t ∈ p.ready ∧ p.queueOf t ∉ vetoes ∧ p.head? (p.queueOf t) = some t ∧ s.place pn t id = some l ∧
      f.launch = t.launch ∧ f.places = (l.map fun e => ((e.1.launch, e.1.number), e.2)) ∧
      ∀ u ∈ p.ready, p.queueOf u ∉ vetoes → p.head? (p.queueOf u) = some u → s.fits pn id u = true →
        prio u < prio t ∨ (prio u = prio t ∧ u.age ≤ t.age)) ∧
  (∀ (s : State) (pn id : Nat) (f : Fit) (t : Task), f.places = [((t.launch, t.number), id)] →
    (s.partAt pn).ready.find? (fun u => u.launch == t.launch && u.number == t.number) = some t →
    let goes : Prop := s.takes pn t id = true ∧ ((s.partAt pn).launch? f.launch).any (fun x => !x.halted && !(s.partAt pn).out x.key) = true
    (goes → s.bindFit pn id f = s.bindOne pn t id) ∧ (¬ goes → s.bindFit pn id f = s.deferCore pn id)) ∧
  (∀ (s : State) (pn id : Nat) (t : Task) (l : Launch), (alGet pn s.parts).isSome = true → (s.partAt pn).launch? t.launch = some l →
    t.ctx = none →
    let u := s.bindOne pn t id
    let c := u.coreAt id
    let dom := (s.partAt pn).taskDomain t
    c.pc = t.entry ∧ c.sup = false ∧ c.bound = .task t.launch t.node t.number t.weight t.role ∧ c.part = pn ∧
      (∀ (j : Nat) (a : Word), j < 4 → t.args[j]? = some a → c.x (BitVec.ofNat 5 (10 + j)) = a) ∧
      (∀ r : Reg, r < 10 ∨ 14 ≤ r → c.x r = 0) ∧ (∀ r : Reg, c.f r = 0) ∧ c.regs.q0 = [] ∧ c.regs.q1 = [] ∧
      c.csr.taskno = BitVec.ofNat 64 t.number ∧ c.csr.launchid = l.id ∧ c.csr.cpb = t.cpb ∧ c.csr.tile0 = t.tile0 ∧
      c.csr.tile1 = t.tile1 ∧ c.csr.tile2 = t.tile2 ∧ c.csr.jobseed = l.jobseed ∧ c.csr.fdom = BitVec.ofNat 16 dom ∧
      c.csr.instret = 0 ∧ c.csr.vflags = 0 ∧ c.trap.tvec = (s.partAt pn).handler ∧ c.acc = [] ∧ c.actype = 0 ∧
      c.dom = some (pn, t.launch, dom) ∧ ((s.coreAt id).dom = some (pn, t.launch, dom) → c.spad = (s.coreAt id).spad) ∧
      ((s.coreAt id).dom ≠ some (pn, t.launch, dom) → c.spad = [] ∧ c.tiles = [] ∧ c.pins = []) ∧ SameMemory s u ∧
      (∀ k, k ≠ id → u.coreAt k = s.coreAt k) ∧
      (∀ v ∈ (u.partAt pn).ready, ¬ (v.launch = t.launch ∧ v.number = t.number)) ∧ ∀ o ∈ (u.partAt pn).offers, o.1 ≠ id) ∧
  ∀ (s : State) (pn id : Nat), (alGet pn s.parts).isSome = true →
    let q := s.partAt pn
    ((alGet id q.deferred).isSome = true → s.canTake pn id = true → (∀ o ∈ q.offers, o.1 ≠ id) →
      exec (.deferredCoreReoffer pn id) s = .next (s.updPartAt pn fun q => { q with offers := q.offers ++ [(id, false)] })) ∧
    (alGet id q.deferred = none → exec (.deferredCoreReoffer pn id) s = .next s)

/-- R219, R222, R226, R227, R232, R248, R298: the first waiting fault of a domain whose launch is not halted is decided: without a bridle,
or after eight passes, its domain is killed; with one a decision starts; in test mode the launch is halted first. A request for a gang
switch is granted without a bridle or at its ninth decision. QUEUE_DEADLOCK comes when every running core waits in a counted operation,
with a fault decision and a trap at the blocked instruction, which reports the engine and number of an issue that waits; FUTURE_ORPHAN
when all that a launch has left waits for futures. Log 40, log 73, log 74, log 90, log 91 (the model's readings): launches that are out,
later nodes, orphans, deferrals, and the tasks that an action is about. -/
def Obligations.FaultAndSwitchDecisions : Prop :=
  (∀ (s : State) (pn : Nat) (r : FaultReq), (alGet pn s.parts).isSome = true →
    (s.partAt pn).faults.find? (fun r => !(s.partAt pn).haltedDomain r.domain) = some r →
    let q := s.partAt pn
    let counted := (s.updPartAt pn fun p => { p with decisions := p.decisions + 1 }).updPartAt pn fun p =>
      { p with faults := p.faults.erase r }
    (q.decides = false → exec (.faultDecision pn) s = .next s) ∧
    (q.decides = true → q.mode = .test → r.tested = false → 
      let marked := s.updPartAt pn fun p => { p with faults := p.faults.map fun x => if x = r then { x with tested := true } else x }
      exec (.faultDecision pn) s = .next (match (marked.partAt pn).launchOfDomain? r.domain with
        | some l => marked.haltLaunch pn l.key none
        | none => marked)) ∧
    (q.decides = true → (q.mode ≠ .test ∨ r.tested = true) →
      (8 ≤ r.passes ∨ q.program = none → exec (.faultDecision pn) s = .next (counted.killDomain pn r.domain)) ∧
      (r.passes < 8 → q.program.isSome = true → ∃ d : Decision, exec (.faultDecision pn) s =
        .next (counted.updPartAt pn fun p => { p with decision := some d }) ∧ d.kind = .fault r.domain ∧ d.req = some r ∧ d.index = 0 ∧
        d.steps = 0))) ∧
  (∀ (s : State) (pn : Nat) (k : Decision) (r : FaultReq) (dom : Nat) (n : BitVec 2), k.kind = .fault r.domain → k.req = some r →
    let u := s.updPartAt pn fun p => { p with decision := none }
    s.conclude pn k .fallback = u.killDomain pn r.domain ∧
    ((u.partAt pn).validAction r dom n = true →
      (n = 0 → dom = r.domain → s.conclude pn k (.act dom n) = u.killDomain pn dom) ∧
      (n = 1 → dom = r.domain → s.conclude pn k (.act dom n) = u.parkDomain pn dom r) ∧
      (n = 2 → s.conclude pn k (.act dom n) = u.retryFault pn r) ∧
      (n = 1 → dom ≠ r.domain → s.conclude pn k (.act dom n) = (u.parkDomain pn dom r).updPartAt pn fun p =>
        { p with faults := p.faults ++ [{ r with passes := r.passes + 1, tested := false }] })) ∧
    ((u.partAt pn).validAction r dom n = false →
      s.conclude pn k (.act dom n) = (u.overrunDomain pn r.domain).killDomain pn r.domain)) ∧
  (∀ (s : State) (pn dom : Nat) (r : FaultReq), (alGet pn s.parts).isSome = true → r.domain ≠ dom →
    let p := s.partAt pn
    let t := s.parkDomain pn dom r
    (t.partAt pn).parked = p.parked ++ [dom] ∧ (t.partAt pn).ready = p.ready.filter (fun x => p.taskDomain x != dom) ∧
      (t.partAt pn).parkedTasks = p.parkedTasks ++ p.ready.filter (fun x => p.taskDomain x == dom) ∧ t.cores = s.cores) ∧
  (∀ (s : State) (pn n b : Nat), (alGet pn s.parts).isSome = true → (s.partAt pn).preempt = some (n, b) →
    let q := s.partAt pn
    let counted := s.updPartAt pn fun p => { p with decisions := p.decisions + 1 }
    (q.decides = true → q.phase = .none → b ≤ q.decisions.toNat →
      (8 ≤ n ∨ q.program = none → exec (.preemptionDecision pn) s = .next (counted.updPartAt pn fun p =>
        { p with preempt := none, phase := .granted })) ∧
      (n < 8 → q.program.isSome = true → ∃ d : Decision, exec (.preemptionDecision pn) s =
        .next (counted.updPartAt pn fun p => { p with decision := some d }) ∧ d.kind = .preempt)) ∧
    (q.decisions.toNat < b → exec (.preemptionDecision pn) s = .next s)) ∧
  (∀ (s : State) (pn id : Nat), s.runningCores pn = [id] →
    ((s.coreAt id).counted = true → (s.coreAt id).gang.bind (·.retired) = none →
      (∀ k ∈ (s.partAt pn).coreIds, ∀ r, (s.coreAt k).eng.drun = some r → r.post ≠ none) →
      let u := s.requestDecision pn ⟨(s.coreAt id).csr.fdom.toNat, 36, 0, none, none, false⟩
      let where' := (u.act id).blockedAt
      exec (.queueDeadlock pn) s = .next (((u.act id).takeTrap ⟨36, 0, 0, false, where'.1, where'.2⟩ (s.coreAt id).pc).act s.cur)) ∧
    (s.blocked id = false → exec (.queueDeadlock pn) s = .next s)) ∧
  (∀ (s : State) (w : Word32) (u : State), s.fetchWord = .ok (w, u) →
    (w.extractLsb' 0 7 = 0x2B → s.blockedAt = (0, s.core.seqctr)) ∧
    (w.extractLsb' 0 7 = 0x7B → 5 ≤ (w.extractLsb' 12 3).toNat → (w.extractLsb' 12 3).toNat < 7 →
      s.blockedAt = (w.extractLsb' 12 3, s.core.seqctr)) ∧
    (w.extractLsb' 0 7 ≠ 0x2B → w.extractLsb' 0 7 ≠ 0x7B → s.blockedAt = (0, 0))) ∧
  ∀ (s : State) (pn key slot : Nat) (t : Task) (f : Future), (s.partAt pn).waiting.filter (fun x => x.launch == key) = [t] →
    t.waits = [slot] →
    let q := s.partAt pn
    let others := (q.ready ++ q.parkedTasks ++ q.stoppedTasks).filter fun x => x.launch == key
    let gen := ((alGet slot q.futures).map fun f => f.gen.toNat).getD 0
    let u := s.dispatcherFault pn key 43 (q.taskDomain t) (BitVec.ofNat 64 (slot + gen * 65536))
    (others ≠ [] ∨ s.coresOf pn key ≠ [] ∨ q.out key = true → exec (.futureOrphan pn key) s = .next s) ∧
    (others = [] → s.coresOf pn key = [] → q.out key = false → alGet slot (u.partAt pn).futures = some f → f.state = .pending →
      exec (.futureOrphan pn key) s = .next (u.dropFuture pn slot f))

/-! ## Launches and gang switches -/

/-- R33 to R37, R202, R203, R207 to R210, R220, R351: a record written into a launch port wakes the device and is queued, or counted when
sixteen wait; the dispatcher takes the oldest while fewer than 64 launches are active and refuses it with the first reason that holds, or
keeps its tree, with the target 2^63 as its root's weight. A split gives every share, borrowing 2^40 when a share would be below 2. A
sequential GROUP readies its next child, a COND completes with its child. A launch whose weight is back completes: its record is written,
then its signal, and its key is free. A migration that covers what the dispatcher would access holds it up (R307). Log 31, log 39, log 75
(the model's readings): domain numbers, unused fields, reasons. -/
def Obligations.LaunchLifecycle : Prop :=
  (∀ (s : State) (pn : Nat) (w : BitVec 512), (alGet pn s.parts).isSome = true → ∃ t, exec (.launchRecordWrite pn w) s = .next t ∧
    t.mgmt.pstate = 0 ∧ t.cores = s.cores ∧ t.mem = s.mem ∧
    ((s.partAt pn).port.length < 16 → (t.partAt pn).port = (s.partAt pn).port ++ [w] ∧
      (t.partAt pn).notTaken = (s.partAt pn).notTaken) ∧
    (16 ≤ (s.partAt pn).port.length → (t.partAt pn).port = (s.partAt pn).port ∧
      (t.partAt pn).notTaken = if (s.partAt pn).notTaken = BitVec.allOnes 16 then BitVec.allOnes 16 else (s.partAt pn).notTaken + 1)) ∧
  (∀ (s : State) (pn : Nat) (w : BitVec 512) (rest : List (BitVec 512)), (s.partAt pn).port = w :: rest →
    let u := s.updPartAt pn fun q => { q with port := rest }
    (64 ≤ (s.partAt pn).launches.length → exec (.launchAcceptance pn) s = .next s) ∧
    ((s.partAt pn).launches.length < 64 →
      (s.judge pn w.toNat = .error .held → exec (.launchAcceptance pn) s = .next s) ∧
      (∀ reason, s.judge pn w.toNat = .error (.reason reason) → s.recordHeld pn (w.extractLsb' 384 64).toNat = true →
        exec (.launchAcceptance pn) s = .next s) ∧
      (∀ reason, s.judge pn w.toNat = .error (.reason reason) → s.recordHeld pn (w.extractLsb' 384 64).toNat = false →
        ∃ l : Launch, exec (.launchAcceptance pn) s = .next (u.report pn l (some reason) l.start) ∧
          l.start = s.clock ∧ l.id = w.extractLsb' 480 32 ∧ l.record = w.extractLsb' 384 64 ∧ l.faults = 0 ∧
        l.overruns = 0 ∧ l.tasks = 0 ∧ l.forced = 0 ∧ l.cause = 0 ∧ l.domain = 0) ∧
      ∀ tree, s.judge pn w.toNat = .ok tree → ∃ (l : Launch) (last : Nat), exec (.launchAcceptance pn) s =
        .next ((u.updPartAt pn fun q => { q with
          launches := q.launches ++ [l], nextKey := q.nextKey + 1, domCounter := last
          domFaults := q.domFaults.filter fun e => !(l.nodes.map (·.domain)).contains e.1 }).runNodes pn l.key
            (2 * l.nodes.length + 2) [.ready 0]) ∧
        l.key = (u.partAt pn).nextKey ∧ l.id = w.extractLsb' 480 32 ∧ l.jobseed = w.extractLsb' 64 64 ∧
        l.args = [w.extractLsb' 128 64, w.extractLsb' 192 64, w.extractLsb' 256 64, w.extractLsb' 320 64] ∧
        l.record = w.extractLsb' 384 64 ∧ l.sigcore = (w.extractLsb' 448 12).toNat ∧ l.sigkind = (w.extractLsb' 460 2).toNat ∧
        l.vector = (w.extractLsb' 462 8).toNat ∧ l.cores = w.getLsbD 470 ∧ l.nomove = w.getLsbD 471 ∧ l.acc = 0 ∧ l.target = 2 ^ 63 ∧
        l.loans = 0 ∧ l.counter = 0 ∧ l.pool = [] ∧ l.nodes.length = tree.length ∧
        ∀ root, l.nodes[0]? = some root → root.weight = 2 ^ 63)) ∧
  (∀ (s : State) (pn : Nat) (w : BitVec 512),
    let refuses (n : Nat) : Prop := s.judge pn w.toNat = .error (.reason n)
    let root := (w.extractLsb' 0 64).toNat
    let place := s.dispatcherPlaces pn .write (w.extractLsb' 384 64).toNat 64
    ((s.partAt pn).mode = .recovery → refuses 6) ∧
    ((s.partAt pn).mode ≠ .recovery →
      (w.extractLsb' 472 8 ≠ 0 ∨ w.extractLsb' 460 2 = 3 ∨ (w.extractLsb' 460 2 ≠ 2 ∧ w.extractLsb' 462 8 ≠ 0) ∨ w.extractLsb' 0 7 ≠ 0 ∨
        w.extractLsb' 384 6 ≠ 0 ∨ (s.partAt pn).size ≤ (w.extractLsb' 448 12).toNat) → refuses 1) ∧
    ((s.partAt pn).mode ≠ .recovery → (s.partAt pn).recordBad w.toNat = false →
      (∀ f, place = .error (.fault f) → refuses 1) ∧ (∀ x, place = .error (.wait x) → s.judge pn w.toNat = .error .held) ∧
      ∀ l, place = .ok l →
        (∀ f, s.readTree pn root = .error (.fault f) → refuses 2) ∧
        (∀ x, s.readTree pn root = .error (.wait x) → s.judge pn w.toNat = .error .held) ∧
        ∀ (top : ReadNode) (below : List ReadNode), s.readTree pn root = .ok (top :: below) →
          let grid : Prop := w.getLsbD 470 = true ∧ top.node.kind.isLeaf = false
          let budget : Prop := ∃ n ∈ top :: below, (s.partAt pn).taskCores < n.node.cores
          let pipe : Prop := ∃ n ∈ top :: below, ∃ roles, n.node.kind = .pipe roles ∧ (s.partAt pn).pipeTooBig roles.length = true
          let home : Prop := w.getLsbD 470 = true ∧ s.noResidence pn top.node = true
          (grid → refuses 2) ∧ (¬ grid → budget → refuses 3) ∧ (¬ grid → ¬ budget → pipe → refuses 4) ∧
            (¬ grid → ¬ budget → ¬ pipe → home → refuses 5) ∧
            (¬ grid → ¬ budget → ¬ pipe → ¬ home → s.judge pn w.toNat = .ok (top :: below)))) ∧
  (∀ (l : Launch) (w n : Nat), 1 ≤ n →
    (2 ≤ w / n → ∃ ws, l.split w n = some (l, ws) ∧ ws.length = n ∧ ws.sum = w ∧ ∀ x ∈ ws, w / n ≤ x) ∧
    (w / n < 2 → l.loans < 2 ^ 23 - 1 → ∃ ws, l.split w n = some ({ l with target := l.target + 2 ^ 40, loans := l.loans + 1 }, ws) ∧
      ws.length = n ∧ ws.sum = w + 2 ^ 40 ∧ ∀ x ∈ ws, (w + 2 ^ 40) / n ≤ x) ∧
    (w / n < 2 → 2 ^ 23 - 1 ≤ l.loans → l.split w n = none)) ∧
  (∀ (l : Launch) (n p : Nat) (x q : Node), l.nodes[n]? = some x → x.parent = some p → p ≠ n → l.nodes[p]? = some q →
    let m := (l.completeNode n).1
    let isDone (c : Nat) : Prop := ∃ y, m.nodes[c]? = some y ∧ y.state = .complete
    isDone n ∧
    (∀ seq, q.kind = .group seq → (∀ c ∈ q.children, isDone c) → (l.completeNode n).2 = [.complete p]) ∧
    (q.kind = .group false → (∃ c ∈ q.children, ¬ isDone c) → (l.completeNode n).2 = []) ∧
    (∀ c before after, q.kind = .group true → q.children = before ++ c :: after → (∀ b ∈ before, isDone b) → ¬ isDone c →
      (l.completeNode n).2 = [.ready c]) ∧
    (∀ pred, q.kind = .cond pred → (l.completeNode n).2 = [.complete p])) ∧
  (∀ e0 e1 e2 i j k : Nat, i < e0 → j < e1 → k < e2 →
    (gridPoints e0 e1 e2)[i + e0 * (j + e1 * k)]? = some (BitVec.ofNat 64 i, BitVec.ofNat 64 j, BitVec.ofNat 64 k)) ∧
  ∀ (s : State) (pn key : Nat) (l : Launch), s.launch? pn key = some l →
    (l.acc ≠ l.target → exec (.launchCompletion pn key) s = .next s) ∧
    (l.acc = l.target → s.recordHeld pn l.record.toNat = true → exec (.launchCompletion pn key) s = .next s) ∧
    (l.acc = l.target → s.recordHeld pn l.record.toNat = false → ∃ t, exec (.launchCompletion pn key) s = .next t ∧
      ((alGet pn s.parts).isSome = true → t.launch? pn key = none) ∧
      (∀ e ∈ t.slots, ¬ (e.2.part = pn ∧ e.2.owner = key + 1)) ∧
      (∀ pa, s.dispatcherPlaces pn .write l.record.toNat 64 = .ok [(pa, 64)] → s.poisoned pa 64 = false →
        readLE t.mem pa 4 = l.id.toNat ∧ readLE t.mem (pa + 4) 1 = 0 ∧
        readLE t.mem (pa + 5) 1 % 8 = (if l.faulted then 1 else 0) + (if s.signalLost pn l then 2 else 0) + (if l.killed then 4 else 0) ∧
        readLE t.mem (pa + 8) 4 = l.faults.toNat ∧ readLE t.mem (pa + 12) 4 = l.overruns.toNat ∧
        readLE t.mem (pa + 16) 8 = l.start.toNat ∧ readLE t.mem (pa + 24) 8 = s.clock.toNat ∧
        readLE t.mem (pa + 32) 8 = l.tasks.toNat ∧
        (l.cause < 2 ^ 16 → l.domain < 2 ^ 16 → readLE t.mem (pa + 40) 2 = l.cause ∧ readLE t.mem (pa + 42) 2 = l.domain ∧
          readLE t.mem (pa + 48) 8 = l.forced.toNat)) ∧
      (l.sigkind = 1 → s.signalLost pn l = false →
        (t.coreAt ((s.partAt pn).phys l.sigcore)).posts = (s.coreAt ((s.partAt pn).phys l.sigcore)).posts ++
          [⟨6, false, 0, 0, 0, l.id, 0⟩]) ∧
      (l.sigkind = 1 → s.signalLost pn l = true → ∀ id, (t.coreAt id).posts = (s.coreAt id).posts) ∧
      (l.sigkind = 2 → t.mgmt.signals = s.mgmt.signals ++ [.interrupt l.vector]))

/-- R251, R323 to R325, R327 to R331: a granted gang switch goes through its phases in order: every core stops; with every wave at its
agreed chunk, every copy of one step done and what has finished posted as far as there is room, the engines are quiet and the cinches,
whose tokens have left, closed; what is in the routers falls into saddlebags; the context is kept under its area (log 40, the model's
choice: a partition left with no context keeps the one that its area holds); the incoming context takes the cores, or with none they are
idle, their registers as they stand until the next bind, and TLBs are empty; then what had finished posts in issue order behind the saved
inbox, saddlebags go back before new traffic, cinches open, and the cores go on. A phase whose turn comes out of order changes nothing. Log
20, log 32, log 70, log 109, log 111, log 112 (the model's choices): sections without a layout, moved contexts, what stays with the place,
waves that cannot reach one chunk, messages that find no room, entries of routers. -/
def Obligations.GangSwitchPhases : Prop :=
  ∀ (s : State) (pn : Nat), (alGet pn s.parts).isSome = true →
    let q := s.partAt pn
    (q.phase = .granted → q.decision = none → ∃ t, exec (.switchStop pn) s = .next t ∧ (t.partAt pn).phase = .stop ∧ SameMemory s t ∧
      ∀ id ∈ q.coreIds, (t.coreAt id).stopped = true ∧ (t.coreAt id).regs = (s.coreAt id).regs ∧ (t.coreAt id).pc = (s.coreAt id).pc ∧
        (t.coreAt id).spad = (s.coreAt id).spad) ∧
    (q.phase ≠ .granted ∨ q.decision ≠ none → exec (.switchStop pn) s = .next s) ∧
    let quiet : Prop := (∀ id ∈ s.boundCores pn, s.coreQuiet id = true) ∧ ∀ n ∈ s.cinchesOf pn, (s.cinchAt n).tokens = []
    (q.phase = .stop → quiet → ∃ t, exec (.switchQuiet pn) s = .next t ∧ (t.partAt pn).phase = .quiet ∧
      (∀ e ∈ t.cinches, e.2.part = some pn → e.2.shut = true) ∧ t.cores = s.cores ∧ t.mem = s.mem) ∧
    (q.phase ≠ .stop ∨ ¬ quiet → exec (.switchQuiet pn) s = .next s) ∧
    (q.phase = .quiet → ∃ t, exec (.switchDrain pn) s = .next t ∧ (t.partAt pn).phase = .drain ∧ t.mem = s.mem ∧
      ∀ id ∈ q.coreIds, (t.coreAt id).router.chunks = [] ∧ (t.coreAt id).router.flits = [] ∧ (t.coreAt id).arrivals = [] ∧
        (t.coreAt id).router.saddlebag = (s.coreAt id).router.saddlebag ++ (s.coreAt id).router.chunks.map .chunk ++
          (s.coreAt id).router.flits.map .stream) ∧
    (q.phase ≠ .quiet → exec (.switchDrain pn) s = .next s) ∧
    (q.phase = .drain → s.vacant pn = false → ∃ (t : State) (k : Context), exec (.switchSave pn) s = .next t ∧ (t.partAt pn).phase = .save ∧
      (t.partAt pn).contexts = k :: q.contexts.filter (fun c => c.area != q.area) ∧ k.area = q.area ∧ k.part = pn ∧
      k.width = q.w ∧ k.height = q.h ∧
      k.cores = (q.coreIds.filter fun id => !q.isSuper id).map (fun id => (q.logical id, s.coreAt id)) ∧
      k.launches = (q.launches.map (·.key)).filter (fun key => !q.contexts.any fun c => c.area != q.area && c.launches.contains key) ∧
      k.kills = [] ∧ k.migration = q.migration ∧ t.cores = s.cores) ∧
    (q.phase = .drain → s.vacant pn = true → ∃ t, exec (.switchSave pn) s = .next t ∧ (t.partAt pn).phase = .save ∧
      (t.partAt pn).contexts = q.contexts ∧ t.mem = s.mem ∧ t.cores = s.cores) ∧
    (q.phase ≠ .drain → exec (.switchSave pn) s = .next s) ∧
    (q.phase = .save → q.incoming = 0 → ∃ t, exec (.switchClearRestore pn) s = .next t ∧ (t.partAt pn).phase = .restored ∧
      (t.partAt pn).tlb = [] ∧ (t.partAt pn).area = q.area ∧ t.mem = s.mem ∧
      ∀ id ∈ q.coreIds, q.isSuper id = false → (t.coreAt id).bound = .idle ∧ (∀ r, (t.coreAt id).x r = (s.coreAt id).x r) ∧
        (t.coreAt id).eng = Engines.empty ∧ (t.coreAt id).inbox = [] ∧ (t.coreAt id).spad = (s.coreAt id).spad ∧
        (t.coreAt id).stopped = true) ∧
    (∀ k, q.phase = .save → q.incoming ≠ 0 → s.contextIn? pn q.incoming = some k → k.part = pn → k.kills = [] →
      (∀ e ∈ k.cores, e.2.late = []) → (k.cores.map fun e => q.phys e.1).Nodup →
      ∃ t, exec (.switchClearRestore pn) s = .next t ∧ (t.partAt pn).phase = .restored ∧
        (t.partAt pn).area = k.area ∧ (t.partAt pn).tlb = [] ∧ (t.partAt pn).incoming = 0 ∧
        (∀ c ∈ (t.partAt pn).contexts, c.area ≠ k.area) ∧
        ∀ e ∈ k.cores,
          let c := t.coreAt (q.phys e.1)
          c.regs = e.2.regs ∧ c.csr = e.2.csr ∧ c.trap = e.2.trap ∧ c.pc = e.2.pc ∧ c.sup = e.2.sup ∧ c.spad = e.2.spad ∧
            c.acc = e.2.acc ∧ c.eng = e.2.eng ∧ c.inbox = e.2.inbox ∧ c.bound = e.2.bound ∧ c.stopped = true ∧
            c.router.saddlebag = e.2.router.saddlebag) ∧
    (q.phase ≠ .save → exec (.switchClearRestore pn) s = .next s) ∧
    (q.phase = .restored → ∃ t, exec (.switchResume pn) s = .next t ∧ (t.partAt pn).phase = .none ∧ t.mgmt.reqHeld = false ∧
      (∀ e ∈ t.cinches, e.2.part = some pn → e.2.shut = false) ∧ t.mem = s.mem ∧
      ∀ id ∈ q.coreIds, (t.coreAt id).stopped = false ∧ (s.coreAt id).inbox <+: (t.coreAt id).inbox ∧
        ((s.coreAt id).halted = false → (t.coreAt id).router.saddlebag = [] ∧
          (t.coreAt id).router.chunks = ((s.coreAt id).router.saddlebag.filterMap fun f =>
            match f with | .chunk k => some k | .stream _ => none) ++ (s.coreAt id).router.chunks ∧
          (t.coreAt id).router.flits = ((s.coreAt id).router.saddlebag.filterMap fun f =>
            match f with | .stream x => some x | .chunk _ => none) ++ (s.coreAt id).router.flits ∧
          ((s.coreAt id).overwriting = false → (t.coreAt id).regs.x = (s.coreAt id).regs.x ∧ (t.coreAt id).pc = (s.coreAt id).pc))) ∧
    (∀ c : Core, (∀ x ∈ c.unposted, x.msg.key ∈ c.oweAll.owed) ∧
      c.oweAll.owed.Pairwise fun a b => c.ageOf b.seq ≤ c.ageOf a.seq) ∧
    (q.phase ≠ .restored → exec (.switchResume pn) s = .next s)

/-! ## The management view -/

/-- R268, R296 to R298, R300, R301, R319, R323, R341 to R346, R349, R353: `OWNER` changes by a claim, a handover, a release and after 2 s
of silence. A doorbell while busy gives BUSY, and a second switch of a partition waits for the first (R323), one of a master that is not
the owner NOT_OWNER, and otherwise the request of its code is taken, done at once in effect and busy until it is done; a refused one
changes nothing but `REQSTAT`. Each request is refused where the table says so and has its effect elsewhere. Log 32, log 33, log 34, log
35, log 40, log 79, log 80, log 81, log 84, log 85, log 115 (the model's readings): contexts that may not move, pages cleared, the status
of a request before the start, the end of the route table, a switch to the own area, the report, cinches, handlers, who writes which area,
and pages that another partition holds. Log 8 (presumed): the part is LY7-P at stepping B0. Log 131 (the model's reading): a switch that
waits. -/
def Obligations.ManagementRequests : Prop :=
  (∀ (s : State) (m : Nat), s.mgmt.stage ≠ .off → m ∈ s.mgmt.up → m < 15 →
    let owned (o : BitVec 4) : State := { s with mgmt := { s.mgmt with owner := o, epoch := s.mgmt.epoch + 1 } }
    (s.mgmt.owner = 0xF → exec (.ownerClaim m) s = .next (owned (BitVec.ofNat 4 m))) ∧
    (s.mgmt.owner ≠ 0xF → exec (.ownerClaim m) s = .next s) ∧
    (s.mgmt.owner = BitVec.ofNat 4 m → exec (.ownerRelease m) s = .next (owned 0xF)) ∧
    (s.mgmt.owner ≠ BitVec.ofNat 4 m → exec (.ownerRelease m) s = .next s) ∧
    (∀ n, n < 15 → n ≠ m → s.mgmt.owner = BitVec.ofNat 4 m → n ∈ s.mgmt.up →
      exec (.ownerHandover m n) s = .next (owned (BitVec.ofNat 4 n))) ∧
    (∀ n, n < 15 → n ≠ m → (s.mgmt.owner ≠ BitVec.ofNat 4 m ∨ n ∉ s.mgmt.up) → exec (.ownerHandover m n) s = .next s)) ∧
  (∀ s : State,
    (s.mgmt.owner ≠ 0xF → exec .ownerSilenceTimeout s = .next { s with mgmt := { s.mgmt with
      owner := 0xF, epoch := s.mgmt.epoch + 1, signals := s.mgmt.signals ++ [.linkInterrupt 0 0, .linkInterrupt 1 0, .inBand] } }) ∧
    (s.mgmt.stage ≠ .off → 3 ∉ s.mgmt.up →
      exec (.masterLinkUp 3) s = .next { s with mgmt := { s.mgmt with up := s.mgmt.up ++ [3] } }) ∧
    (∀ m, m < 3 → m ∉ s.mgmt.up → s.mgmt.stage ≠ .off →
      (m = s.mgmt.given → exec (.masterLinkUp m) s = .next { s with mgmt := { s.mgmt with up := s.mgmt.up ++ [m], given := m + 1 } }) ∧
      (m < s.mgmt.given → exec (.masterLinkUp m) s = .next { s with mgmt := { s.mgmt with up := s.mgmt.up ++ [m] } }) ∧
      (s.mgmt.given < m → exec (.masterLinkUp m) s = .next s))) ∧
  (∀ (s : State) (m : Nat), s.mgmt.stage ≠ .off → m ∈ s.mgmt.up →
    let woken : State := { s with mgmt := { s.mgmt with pstate := 0 } }
    let a (k : Nat) : Nat := readLE s.mgmt.payload (8 * k) 8
    let asked : Prop := s.mgmt.owner.toNat = m ∧ s.mgmt.reqHeld = true ∧
      ∃ q, alGet (a 0) s.parts = some q ∧ (q.preempt.isSome = true ∨ q.phase ≠ .none)
    let stat (s : State) (st : BitVec 2) (v w : BitVec 8) : State :=
      { s with mgmt := { s.mgmt with reqState := st, reqStatus := v, reqNext := w } }
    ∀ e ∈ [(Instr.createPartition m, 1), (.destroyPartition m, 2), (.setMode m, 3), (.reStitch m, 4), (.writeGrant m, 5),
        (.releaseParkedDomain m, 6), (.haltOrResume m, 7), (.gangSwitch m, 8), (.assignCinch m, 9), (.sliceConfiguration m, 10),
        (.attest m, 11)],
      (s.mgmt.reqState = 1 → e.2 ≠ 8 ∨ ¬ asked → exec e.1 s = .next (stat woken 1 4 s.mgmt.reqNext)) ∧
      (s.mgmt.reqState = 1 → e.2 = 8 → asked → exec e.1 s = .next { stat woken 1 4 s.mgmt.reqNext with
        mgmt := { (stat woken 1 4 s.mgmt.reqNext).mgmt with waiting := s.mgmt.waiting ++ [(a 0, a 1)] } }) ∧
      (s.mgmt.reqState ≠ 1 → s.mgmt.owner.toNat ≠ m → exec e.1 s = .next (stat woken 2 1 s.mgmt.reqNext)) ∧
      (s.mgmt.reqState ≠ 1 → s.mgmt.owner.toNat = m →
        (∀ u, requestOf e.2 woken = .ok u → exec e.1 s = .next (stat u 1 0 0)) ∧
        (∀ why, requestOf e.2 woken = .error why → exec e.1 s = .next (stat woken 1 0 why))) ∧
      exec (.managementRegisterWrite m 0x208 (BitVec.ofNat 64 e.2)) s = exec e.1 s) ∧
  (∀ s : State,
    (s.mgmt.reqState = 1 → s.mgmt.reqHeld = false → s.mgmt.waiting = [] →
      exec .requestDone s = .next { s with mgmt := { s.mgmt with reqState := 2, reqStatus := s.mgmt.reqNext } }) ∧
    (∀ pn base rest, s.mgmt.reqState = 1 → s.mgmt.reqHeld = false → s.mgmt.waiting = (pn, base) :: rest →
      let v : State := { s with mgmt := { s.mgmt with waiting := rest } }
      (∀ u, switchTo pn base v = .ok u → exec .requestDone s = .next { u with mgmt := { u.mgmt with
        reqState := 1, reqStatus := 0, reqNext := 0 } }) ∧
      (∀ why, switchTo pn base v = .error why → exec .requestDone s = .next { v with mgmt := { v.mgmt with
        reqState := 1, reqStatus := 0, reqNext := why } })) ∧
    requestOf 8 s = switchTo (readLE s.mgmt.payload 0 8) (readLE s.mgmt.payload 8 8) s ∧
    (s.mgmt.reqState ≠ 1 ∨ s.mgmt.reqHeld = true → exec .requestDone s = .next s) ∧
    ∀ code, code = 0 ∨ 12 ≤ code → requestOf code s = .error 2) ∧
  (∀ s : State, s.mgmt.stage ≠ .ready → ∀ code, 1 ≤ code → code ≤ 11 →
    ∃ e : BitVec 8, requestOf code s = .error e ∧ 1 ≤ e.toNat ∧ e.toNat ≤ 5) ∧
  (∀ s : State, s.mgmt.stage = .ready →
    let a (k : Nat) : Nat := readLE s.mgmt.payload (8 * k) 8
    let cores := 16 * a 3 * a 4
    let inRange : Prop := a 0 ≤ 15 ∧ 1 ≤ a 3 ∧ 1 ≤ a 4 ∧ a 1 + a 3 ≤ 16 ∧ a 2 + a 4 ≤ 16 ∧ a 5 % 2 ^ 16 = 0 ∧ a 6 % 2 ^ 20 = 0 ∧
      a 7 % 64 = 0 ∧ 6 ≤ a 8 ∧ a 8 ≤ 20 ∧ a 9 % 4 = 0 ∧ a 9 < 2 ^ 55 ∧ a 10 ≤ 3
    let taken : Prop := ∃ e ∈ s.parts, e.1 = a 0 ∨
      (a 1 < e.2.x0 + e.2.w ∧ e.2.x0 < a 1 + a 3 ∧ a 2 < e.2.y0 + e.2.h ∧ e.2.y0 < a 2 + a 4)
    let areas : List (Nat × Nat) := [(a 5, 2 ^ 16), (a 6, (2 * cores + 1) * 2 ^ 20), (a 7, 64 + 64 * 2 ^ a 8)]
    let clear (r b : Nat × Nat) : Prop := r.1 + r.2 ≤ b.1 ∨ b.1 + b.2 ≤ r.1
    let fit : Prop := (∀ r ∈ areas, r.1 + r.2 ≤ s.mgmt.stackCount * 2 ^ 30 * 96) ∧ areas.Pairwise clear ∧
      ∀ e ∈ s.parts, e.1 ≠ a 0 → ∀ b ∈ e.2.areas, ∀ r ∈ areas, clear r b
    (¬ inRange → requestOf 1 s = .error 2) ∧
    (inRange → taken → requestOf 1 s = .error 5) ∧
    (inRange → ¬ taken → ¬ fit → requestOf 1 s = .error 2) ∧
    let meet (r b : Nat × Nat) : Prop := r.1 < b.1 + b.2 ∧ b.1 < r.1 + r.2
    let shares : Prop := ∃ r ∈ areas ++ (s.mappedBlocks (a 5) [42, 29, 16]).flatMap s.ownBlocks, ∃ b ∈ s.heldPages (a 0), meet r b
    (inRange → ¬ taken → fit → shares → requestOf 1 s = .error 5) ∧
    (inRange → ¬ taken → fit → ¬ shares → ∃ (u : State) (q : Partition), requestOf 1 s = .ok u ∧
      alGet (a 0) u.parts = some q ∧ q.x0 = a 1 ∧
      q.y0 = a 2 ∧ q.w = a 3 ∧ q.h = a 4 ∧ q.root = a 5 ∧ q.area = a 6 ∧ q.logBase = a 7 ∧ q.logK = a 8 ∧ q.mode = .startup ∧
      q.handler = BitVec.ofNat 53 (a 9 / 4) ∧ q.stitching = [Stitching.mesh, .ring, .torus, .tree].getD (a 10) .mesh ∧
      q.launches = [] ∧ q.grants = [] ∧ q.port = [] ∧ q.notTaken = 0 ∧ q.decisions = 0 ∧ q.program = none ∧
      readBytes u.mem (a 7) 64 = List.replicate 64 0 ∧
      u.mgmt.accepted = s.mgmt.accepted ++ [readBytes s.mgmt.payload 0 104] ∧
      ∀ id ∈ q.coreIds, (u.coreAt id).part = a 0 ∧ (q.stitching ≠ .tree → (u.coreAt id).router.entries = []) ∧
        (a 11 = 0 ∨ q.isSuper id = false → (u.coreAt id).bound = (s.coreAt id).bound ∧ (u.coreAt id).sup = (s.coreAt id).sup) ∧
        (a 11 ≠ 0 → q.isSuper id = true →
          let c := u.coreAt id
          c.pc = BitVec.ofNat 64 (a 11) ∧ c.sup = true ∧ c.bound = .supervisor ∧ c.trap.ih = false ∧ c.trap.tvec = q.handler ∧
            c.x 10 = BitVec.ofNat 64 (a 12) ∧ c.x 11 = BitVec.ofNat 64 (id / 1024) ∧ c.x 12 = BitVec.ofNat 64 (q.logical id) ∧
            (∀ r : Reg, r ≠ 10 → r ≠ 11 → r ≠ 12 → c.x r = 0) ∧ ∀ r : Reg, c.f r = 0))) ∧
  (∀ s : State, s.mgmt.stage = .ready →
    let a (k : Nat) : Nat := readLE s.mgmt.payload (8 * k) 8
    (∀ code ∈ [2, 3, 4, 5, 6, 7, 8, 9], alGet (a 0) s.parts = none → requestOf code s = .error 2) ∧
    ∀ q, alGet (a 0) s.parts = some q →
      (q.launches ≠ [] → requestOf 2 s = .error 5) ∧
      (q.launches = [] → ∃ u, requestOf 2 s = .ok u ∧ alGet (a 0) u.parts = none ∧ (∀ e ∈ u.cinches, e.2.part ≠ some (a 0)) ∧
        (∀ e ∈ u.slots, e.2.part ≠ a 0) ∧ (∀ id ∈ q.coreIds, u.coreAt id = { Core.idle id with failed := (s.coreAt id).failed }) ∧
        (∀ id, id ∉ q.coreIds → u.coreAt id = s.coreAt id) ∧
        (Memory.wf s.mem = true → ∀ p, readByte u.mem p = readByte s.mem p ∨ readByte u.mem p = 0)) ∧
      (3 < a 1 → requestOf 3 s = .error 2 ∧ requestOf 4 s = .error 2) ∧
      (a 1 ≤ 3 → q.launches ≠ [] → requestOf 3 s = .error 5 ∧ requestOf 4 s = .error 5) ∧
      (a 1 ≤ 3 → q.launches = [] →
        requestOf 3 s = .ok (s.updPartAt (a 0) fun p =>
          { p with mode := [PMode.startup, .service, .test, .recovery].getD (a 1) .startup }) ∧
        ∃ u, requestOf 4 s = .ok u ∧ (u.partAt (a 0)).stitching = [Stitching.mesh, .ring, .torus, .tree].getD (a 1) .mesh ∧
          u.mgmt.accepted = s.mgmt.accepted ++ [readBytes s.mgmt.payload 0 16] ∧ u.mem = s.mem ∧
          ∀ id ∈ q.coreIds, (u.coreAt id).regs = (s.coreAt id).regs ∧ (a 1 ≠ 3 → (u.coreAt id).router.entries = [])) ∧
      (256 ≤ a 1 → requestOf 5 s = .error 2) ∧
      (a 1 < 256 →
        let v := BitVec.ofNat 512 (readLE s.mgmt.payload 16 64)
        let img := readLE s.mgmt.payload 80 256
        let reserved : Prop := v.extractLsb' 3 5 ≠ 0 ∨ v.getLsbD 31 = true ∨ v.extractLsb' 352 160 ≠ 0
        let wrong : Prop := (∀ f, fmt? (v.extractLsb' 16 8) ≠ some (some f)) ∨ v.extractLsb' 24 3 = 0 ∨ 4 < (v.extractLsb' 27 4).toNat ∨
          ∃ i, i < 7 ∧ (v.extractLsb' 24 3).toNat ≤ i ∧ v.extractLsb' (128 + 32 * i) 32 ≠ 0
        (reserved → requestOf 5 s = .error 2) ∧
        (v.getLsbD 0 = true → wrong → requestOf 5 s = .error 2) ∧
        (v.getLsbD 0 = true → Region.parse img = none → requestOf 5 s = .error 2) ∧
        (∀ r, ¬ reserved → v.getLsbD 0 = true → ¬ wrong → Region.parse img = some r →
          (r.inexact = true → requestOf 5 s = .error 3) ∧
          (r.inexact = false → (r.kind = .ragged ∨ r.rank ≠ (v.extractLsb' 24 3).toNat) → requestOf 5 s = .error 2) ∧
          (∀ r' e, r.inexact = false → r.kind ≠ .ragged → r.rank = (v.extractLsb' 24 3).toNat → Region.load img = .ok r' e →
            r'.inexact = true → requestOf 5 s = .error 3) ∧
          ∀ r' e, r.inexact = false → r.kind ≠ .ragged → r.rank = (v.extractLsb' 24 3).toNat → Region.load img = .ok r' e →
            r'.inexact = false → ∃ (u : State) (g : Grant), requestOf 5 s = .ok u ∧
              (u.partAt (a 0)).grants = alSet (a 1) g q.grants ∧ g.valid = true ∧
              g.rd = v.getLsbD 1 ∧ g.wr = v.getLsbD 2 ∧ g.tag = v.extractLsb' 8 8 ∧ g.fmt = v.extractLsb' 16 8 ∧
              g.rank = v.extractLsb' 24 3 ∧ g.swizzle = v.extractLsb' 27 4 ∧ g.launch = v.extractLsb' 32 32 ∧
              g.base = v.extractLsb' 64 64 ∧ g.region = r' ∧ (∀ i, i < 7 → g.strides[i]? = some (v.extractLsb' (128 + 32 * i) 32)) ∧
              g.image = BitVec.ofNat 2560 (v.toNat + 2 ^ 512 * img) ∧ u.cores = s.cores ∧ u.mem = s.mem) ∧
        (¬ reserved → v.getLsbD 0 = false → ∃ (u : State) (g : Grant), requestOf 5 s = .ok u ∧
          (u.partAt (a 0)).grants = alSet (a 1) g q.grants ∧ g.valid = false ∧
          g.image = BitVec.ofNat 2560 (v.toNat + 2 ^ 512 * img))) ∧
      (65536 ≤ a 1 → requestOf 6 s = .error 2) ∧
      (a 1 < 65536 → a 1 ∉ q.parked → requestOf 6 s = .error 5) ∧
      (a 1 < 65536 → a 1 ∈ q.parked → ∃ u, requestOf 6 s = .ok u ∧ a 1 ∉ (u.partAt (a 0)).parked ∧ u.cores = s.cores ∧ u.mem = s.mem ∧
        (∀ t ∈ q.parkedTasks, q.taskDomain t = a 1 → { t with age := 0, waits := [] } ∈ (u.partAt (a 0)).ready) ∧
        ∀ t ∈ (u.partAt (a 0)).parkedTasks, t ∈ q.parkedTasks) ∧
      (1 < a 2 → requestOf 7 s = .error 2 ∧ (requestOf 9 s = .error 2)) ∧
      (2 ^ 32 ≤ a 1 → requestOf 7 s = .error 2) ∧
      (a 1 < 2 ^ 32 → a 2 ≤ 1 → (∀ l ∈ q.launches, l.id.toNat ≠ a 1) → requestOf 7 s = .error 5) ∧
      (∀ l, a 2 ≤ 1 → q.launches.find? (fun l => l.id.toNat == a 1) = some l →
        (l.halted = (a 2 == 0) → requestOf 7 s = .error 5) ∧
        (l.halted = false → a 2 = 0 → requestOf 7 s = .ok (s.haltLaunch (a 0) l.key none)) ∧
        (l.halted = true → a 2 = 1 → requestOf 7 s = .ok (s.resumeLaunch (a 0) l.key))) ∧
      (let good : Prop := a 1 = 0 ∨ (a 1 % 2 ^ 20 = 0 ∧ a 1 + (2 * q.size + 1) * 2 ^ 20 ≤ s.mgmt.stackCount * 2 ^ 30 * 96 ∧
          (∀ e ∈ s.parts, e.1 ≠ a 0 → ∀ b ∈ e.2.areas,
            a 1 + (2 * q.size + 1) * 2 ^ 20 ≤ b.1 ∨ b.1 + b.2 ≤ a 1) ∧
          (a 1 + (2 * q.size + 1) * 2 ^ 20 ≤ q.root ∨ q.root + 2 ^ 16 ≤ a 1) ∧
          (a 1 + (2 * q.size + 1) * 2 ^ 20 ≤ q.logBase ∨ q.logBase + (64 + 64 * 2 ^ q.logK) ≤ a 1) ∧
          (a 1 = q.area → s.vacant (a 0) = true ∨ ∀ k ∈ q.contexts, k.area ≠ a 1) ∧
          (a 1 ≠ q.area → a 1 + (2 * q.size + 1) * 2 ^ 20 ≤ q.area ∨ q.area + (2 * q.size + 1) * 2 ^ 20 ≤ a 1));
        (¬ good → requestOf 8 s = .error 2) ∧
        let held : Prop := a 1 ≠ 0 ∧ ∃ b ∈ s.heldPages (a 0), a 1 < b.1 + b.2 ∧ b.1 < a 1 + (2 * q.size + 1) * 2 ^ 20
        (good → (held ∨ q.phase ≠ .none ∨ q.preempt.isSome = true) → requestOf 8 s = .error 5) ∧
        (good → a 1 ≠ 0 → (∃ k, s.contextIn? (a 0) (a 1) = some k ∧ s.movable (a 0) k = false) → requestOf 8 s = .error 5) ∧
        (good → ¬ held → q.phase = .none → q.preempt = none → (a 1 = 0 ∨ (s.contextIn? (a 0) (a 1)).all (s.movable (a 0)) = true) →
          ∃ u, requestOf 8 s = .ok u ∧ u.mgmt.reqHeld = true ∧ u.cores = s.cores ∧
          u.mem = s.mem ∧ (u.partAt (a 0)).incoming = a 1 ∧ (u.partAt (a 0)).preempt.isSome = true)) ∧
      (64 ≤ a 1 → requestOf 9 s = .error 2) ∧
      (a 1 < 64 → a 2 ≤ 1 →
        let c := s.cinchAt (a 1)
        ((∃ p, c.part = some p ∧ p ≠ a 0) → requestOf 9 s = .error 5) ∧
        ((c.part = none ∨ c.part = some (a 0)) → ∃ u, requestOf 9 s = .ok u ∧ u.parts = s.parts ∧ u.cores = s.cores ∧
          (∀ n, n ≠ a 1 → u.cinchAt n = s.cinchAt n) ∧
          (u.cinchAt (a 1)).part = (if a 2 = 1 then some (a 0) else none)))) ∧
  (∀ s : State, s.mgmt.stage = .ready →
    let a (k : Nat) : Nat := readLE s.mgmt.payload (8 * k) 8
    let route (r : Nat) : Nat := if 32 + r < 4096 then (readByte s.mgmt.payload (32 + r)).toNat else 0
    let good : Prop := 1 ≤ a 1 ∧ a 1 ≤ 4096 ∧ a 0 < a 1 ∧ 1 ≤ a 2 ∧ 1 ≤ a 3 ∧ ∀ r, r < 4096 → r ≠ a 0 → route r ≤ 15 ∨ route r = 0xFF
    (¬ good → requestOf 10 s = .error 2) ∧
    (good → (∃ e ∈ s.parts, e.2.launches ≠ []) → requestOf 10 s = .error 5) ∧
    (good → (∀ e ∈ s.parts, e.2.launches = []) → ∃ u, requestOf 10 s = .ok u ∧ u.mgmt.slice.rank = a 0 ∧ u.mgmt.slice.n = a 1 ∧
      u.mgmt.slice.pod = a 2 ∧ u.mgmt.slice.board = a 3 ∧
      (∀ r, r < 4096 → r ≠ a 0 → alGet r u.mgmt.slice.routes = if route r = 0xFF then none else some (route r)) ∧ u.cores = s.cores ∧
      u.mem = s.mem ∧ u.parts = s.parts) ∧
    (∃ u, requestOf 11 s = .ok u ∧ u.parts = s.parts ∧ u.cores = s.cores ∧ u.mem = s.mem ∧
      readLE u.mgmt.attest 0x40 8 = 1 ∧ (∀ k, k < 64 → readByte u.mgmt.attest (0x48 + k) = readByte s.mgmt.attest k) ∧
      readLE u.mgmt.attest 0x148 1 = s.mgmt.owner.toNat ∧ readLE u.mgmt.attest 0x149 1 = s.mgmt.epoch.toNat)) ∧
  (∀ (s : State) (m off : Nat) (v : BitVec 64),
    (s.mgmt.stage = .off ∨ m ∉ s.mgmt.up → exec (.managementRegisterWrite m off v) s = .next s) ∧
    (s.mgmt.stage ≠ .off → m ∈ s.mgmt.up →
      (off ∈ [0, 0x118, 0x200] → exec (.managementRegisterWrite m off v) s = .next s) ∧
      (m = 3 → off = 0x120 ∨ (0x10000 ≤ off ∧ off < 0x11000) ∨ 0x800000 ≤ off → exec (.managementRegisterWrite m off v) s = .next s) ∧
      (s.mgmt.owner.toNat = m → exec (.managementRegisterWrite m 0x110 v) s =
        .next { s with mgmt := { s.mgmt with lattol := v.extractLsb' 0 32 } }) ∧
      (s.mgmt.owner.toNat ≠ m → exec (.managementRegisterWrite m 0x110 v) s = .next s) ∧
      (m < 15 → exec (.managementRegisterWrite m 0x100 (BitVec.ofNat 64 m)) s = exec (.ownerClaim m) s) ∧
      (m ≠ 3 → exec (.managementRegisterWrite m 0x120 v) s = exec (.fwgo m v) s) ∧
      (v.getLsbD 32 = true → exec (.managementRegisterWrite m 0x108 v) s = exec (.bootRetry m) s) ∧
      (0x1000 ≤ off → off + 8 ≤ 0x2000 → ∃ t, exec (.managementRegisterWrite m off v) s = .next t ∧
        t = { s with mgmt := { s.mgmt with payload := t.mgmt.payload } } ∧ readLE t.mgmt.payload (off - 0x1000) 8 = v.toNat ∧
        ∀ k, k < off - 0x1000 ∨ off - 0x1000 + 8 ≤ k → readByte t.mgmt.payload k = readByte s.mgmt.payload k) ∧
      (m ≠ 3 → 0x800000 ≤ off → off + 8 ≤ 0x1000000 → ∃ t, exec (.managementRegisterWrite m off v) s = .next t ∧
        t = { s with mgmt := { s.mgmt with window := t.mgmt.window } } ∧ readLE t.mgmt.window (off - 0x800000) 8 = v.toNat ∧
        ∀ k, k < off - 0x800000 ∨ off - 0x800000 + 8 ≤ k → readByte t.mgmt.window k = readByte s.mgmt.window k) ∧
      (∀ p, m ≠ 3 → p < 16 → (alGet p s.parts).isSome = true → ∃ t,
        exec (.managementRegisterWrite m (0x10000 + 0x100 * p) v) s = .next t ∧ (t.partAt p).port = (s.partAt p).port ∧
        (t.partAt p).notTaken = if (s.partAt p).notTaken = BitVec.allOnes 16 then BitVec.allOnes 16 else (s.partAt p).notTaken + 1))) ∧
  ∀ (s : State) (m : Nat),
    (s.mgmt.fails = 3 → s.mgmt.minimal = true → s.mgmt.reason = 3 → s.mgmt.unit = 6 → s.mgmt.pid = 0 →
      s.viewWord m 0x108 = 0x60307) ∧
    s.viewWord 0 0 = 0x0002_4C59_0007_1000

/-- R18, R52, R190, R335, R336, R342, R347, R348, R350 to R352, R358: `FWGO` starts with the image that stands in the window, a good start
is ready, the third failure in a row is minimal mode, and `retry` starts the firmware in the window, a good start leaving it. An idle
device enters the deepest power state within `LATTOL`; A3 leaves cores scrubbed; work wakes it. Power removal loses HBM and `BOOT_CAUSE`,
a reset keeps them. Links go down and up, traffic from outside reads, writes and changes the memory of the device, and a core that fails
in service stops for a decision. Log 4, log 36, log 37, log 77, log 78, log 83 (the model's choices): lost memory, the order of reasons,
the cause of a failed core, the retry, the reset, and uncorrectable replies. R307: traffic to a page that migrates is turned away, and its
sender tries again. -/
def Obligations.PowerLinksAndStarts : Prop :=
  (∀ (s : State) (m : Nat) (len : BitVec 64), s.mgmt.stage = .waiting → m ∈ s.mgmt.up → m ≠ 3 →
    (s.mgmt.owner.toNat = m → len.toNat ≤ 2 ^ 23 → exec (.fwgo m len) s = .next { s with mgmt := { s.mgmt with
      firmware := readBytes s.mgmt.window 0 len.toNat, stage := .starting } }) ∧
    (s.mgmt.owner.toNat = m → 2 ^ 23 < len.toNat → s.mgmt.fails < 2 → ∃ t, exec (.fwgo m len) s = .next t ∧ t.mgmt.reason = 2 ∧
      t.mgmt.fails = s.mgmt.fails + 1 ∧ t.mgmt.minimal = s.mgmt.minimal ∧ t.mgmt.stage = if s.mgmt.minimal then .minimal else .waiting) ∧
    (s.mgmt.owner.toNat ≠ m → exec (.fwgo m len) s = .next s)) ∧
  (∀ (s : State) (m : Nat), s.mgmt.stage = .minimal → m ∈ s.mgmt.up →
    (s.mgmt.owner.toNat = m → ∃ t, exec (.bootRetry m) s = .next t ∧ t.mgmt.fails = 0 ∧ t.mgmt.minimal = s.mgmt.minimal ∧
      t.mgmt.stage = .starting ∧ t.mgmt.reason = s.mgmt.reason) ∧
    (s.mgmt.owner.toNat ≠ m → exec (.bootRetry m) s = .next s)) ∧
  (∀ (s : State) (m : Nat), s.mgmt.stage ≠ .minimal → exec (.bootRetry m) s = .next s) ∧
  (∀ s : State, s.mgmt.stage = .starting →
    let body := leNat ((s.mgmt.firmware.drop 4).take 4)
    let good : Prop := leNat (s.mgmt.firmware.take 4) = 0x4C593746 ∧ (∀ b ∈ (s.mgmt.firmware.drop 16).take 48, b = 0) ∧
      s.mgmt.firmware.length = 64 + body + 4627
    let signed : Prop :=
      Config.firmwareSignatureGood (Config.sha3_512 (s.mgmt.firmware.take (64 + body))) (s.mgmt.firmware.drop (64 + body)) = true
    let fails (reason unit pid : Nat) : Prop := ∃ t, exec .deviceStart s = .next t ∧ t.mgmt.reason = BitVec.ofNat 8 reason ∧
      t.mgmt.unit = BitVec.ofNat 4 unit ∧ t.mgmt.pid = BitVec.ofNat 12 pid ∧ t.mgmt.firmware = [] ∧
      (s.mgmt.fails < 2 → t.mgmt.fails = s.mgmt.fails + 1 ∧ t.mgmt.minimal = s.mgmt.minimal ∧
        t.mgmt.stage = if s.mgmt.minimal then .minimal else .waiting) ∧
      (2 ≤ s.mgmt.fails → t.mgmt.fails = 3 ∧ t.mgmt.minimal = true ∧ t.mgmt.stage = .minimal)
    let least (l : List Nat) (k : Nat) : Prop := k ∈ l ∧ ∀ j ∈ l, k ≤ j
    let sites := s.mgmt.badStacks ++ (List.range 8).drop s.mgmt.stackCount
    (¬ good → fails 2 0 0) ∧ (good → ¬ signed → fails 1 0 0) ∧
    (good → signed →
      (∀ d, least s.mgmt.badDies d → fails 6 d 0) ∧
      (∀ k, s.mgmt.badDies = [] → least sites k → fails 3 k 0) ∧
      (∀ c, s.mgmt.badDies = [] → sites = [] → least s.mgmt.badCores c → fails 4 0 c) ∧
      (∀ r, s.mgmt.badDies = [] → sites = [] → s.mgmt.badCores = [] → least s.mgmt.badRouters r → fails 5 0 r) ∧
      (s.mgmt.badDies = [] → sites = [] → s.mgmt.badCores = [] → s.mgmt.badRouters = [] → ∃ t, exec .deviceStart s = .next t ∧
        t.mgmt.stage = .ready ∧ t.mgmt.fails = 0 ∧ t.mgmt.minimal = false ∧ t.mgmt.reason = s.mgmt.reason ∧
        t.mgmt.unit = s.mgmt.unit ∧ t.mgmt.pid = s.mgmt.pid ∧ t.mgmt.accepted = [] ∧ t.cores = s.cores ∧ t.mem = s.mem)) ∧
    ∃ t, exec .startTimeout s = .next t ∧ t.mgmt.reason = 7 ∧ t.mgmt.unit = 0 ∧ t.mgmt.pid = 0) ∧
  (∀ s : State, s.mgmt.stage ≠ .starting → exec .deviceStart s = .next s ∧ exec .startTimeout s = .next s) ∧
  (∀ s : State, s.mgmt.stage = .ready → s.mgmt.pstate = 0 → (∀ e ∈ s.parts, e.2.launches = [] ∧ e.2.port = []) →
    s.mgmt.reqState ≠ 1 → (∀ e ∈ s.cores, e.2.eng.dq = [] ∧ e.2.eng.drun = none) →
    let l := s.mgmt.lattol.toNat
    (l < 2 → exec .powerStateEntry s = .next s) ∧
    (2 ≤ l → ∃ t, exec .powerStateEntry s = .next t ∧ t.mem = s.mem ∧
      t.mgmt = { s.mgmt with pstate := if l < 80 then 1 else if l < 3000 then 2 else 3 } ∧ (l < 3000 → t.cores = s.cores) ∧
      (3000 ≤ l → ∀ id, (t.coreAt id).dom = none ∧ (t.coreAt id).tiles = [] ∧ (t.coreAt id).actype = 0 ∧
        ∀ a, readByte (t.coreAt id).spad a = 0 ∧ readByte (t.coreAt id).acc a = 0))) ∧
  (∀ s : State, (∃ e ∈ s.parts, e.2.launches ≠ [] ∨ e.2.port ≠ []) ∨ s.mgmt.reqState = 1 ∨
    (∃ e ∈ s.cores, e.2.eng.dq ≠ [] ∨ e.2.eng.drun.isSome = true) → exec .powerStateEntry s = .next s) ∧
  (∀ s : State, exec .powerWake s = .next { s with mgmt := { s.mgmt with pstate := 0 } }) ∧
  (∀ s : State, Memory.wf s.mem = true → ∃ t, exec .powerRemoval s = .next t ∧ t.parts = [] ∧ t.cores = [] ∧ t.mgmt.stage = .off ∧
    t.mgmt.fails = 0 ∧ t.mgmt.minimal = false ∧ t.mgmt.reason = 0 ∧ t.mgmt.unit = 0 ∧ t.mgmt.pid = 0 ∧ t.mgmt.firmware = [] ∧
    t.mgmt.up = [] ∧ t.mgmt.owner = 0xF ∧ (∀ a, a < 0x1000_0000_0000 → readByte t.mem a = 0) ∧
    ∀ a, 0x1000_0000_0000 ≤ a → readByte t.mem a = readByte s.mem a) ∧
  (∀ s : State, s.mgmt.stage = .off → exec .powerOn s = .next { s with mgmt := { s.mgmt with stage := .waiting } } ∧
    exec .reset s = .next s) ∧
  (∀ s : State, s.mgmt.stage ≠ .off → ∃ t, exec .reset s = .next t ∧ t.mem = s.mem ∧ t.parts = [] ∧ t.cores = [] ∧
    t.mgmt.firmware = [] ∧ t.mgmt.fails = s.mgmt.fails ∧ t.mgmt.minimal = s.mgmt.minimal ∧ t.mgmt.reason = s.mgmt.reason ∧
    t.mgmt.unit = s.mgmt.unit ∧ t.mgmt.pid = s.mgmt.pid ∧ t.mgmt.lattol = 0 ∧ t.mgmt.owner = 0xF ∧ t.mgmt.epoch = 0 ∧
    (∀ m ∈ t.mgmt.up, m ≠ 3) ∧ (∀ m, m ≠ 3 → (m ∈ t.mgmt.up ↔ m ∈ s.mgmt.up)) ∧
    t.mgmt.stage = (if s.mgmt.minimal then .minimal else .waiting)) ∧
  (∀ (s : State) (ids : List Nat), ∃ t, exec (.birlinLinkDown ids) s = .next t ∧ t = { s with mgmt := { s.mgmt with up := t.mgmt.up } } ∧
    ∀ m, m ∈ t.mgmt.up ↔ m ∈ s.mgmt.up ∧ (m = 3 ∨ m ∉ ids)) ∧
  (∀ (s : State) (p : Nat), p < 8 → p ∉ s.mgmt.cxlDown → ∃ t, exec (.cxlLinkDown p) s = .next t ∧
    t.mgmt = { s.mgmt with cxlDown := s.mgmt.cxlDown ++ [p] } ∧
    ∀ a n, 0x1000_0000_0000 + p * 0x180_0000_0000 ≤ a → a < 0x1000_0000_0000 + (p + 1) * 0x180_0000_0000 →
      s.mgmt.stackCount ≤ 8 → t.offChip? a n = none) ∧
  (∀ (s : State) (addr n : Nat),
    let sends (t : State) (g : Signal) : Prop := t.mgmt = { s.mgmt with pstate := 0, signals := s.mgmt.signals ++ [g] }
    let quiet (t : State) : Prop := t.parts = s.parts ∧ ∀ id, { t.coreAt id with unseen := [] } = { s.coreAt id with unseen := [] } ∧
      ∀ u ∈ (t.coreAt id).unseen, u ∈ (s.coreAt id).unseen
    (∀ t, s.refusesTraffic t = true → exec (.spanOrBirlinTraffic t) s = .next { s with mgmt := { s.mgmt with pstate := 0 } }) ∧
    (∀ pa, s.ownMemory? addr n = some pa → s.refusesTraffic (.read addr n) = false → s.poisoned pa n = false →
      (∀ k, k < n → s.unlaid (pa + k) = false) → ∃ t, exec (.spanOrBirlinTraffic (.read addr n)) s = .next t ∧
      sends t (.reply addr (readBytes s.mem pa n)) ∧ quiet t ∧ t.mem = s.mem) ∧
    (s.ownMemory? addr n = none → ∃ t, exec (.spanOrBirlinTraffic (.read addr n)) s = .next t ∧ sends t (.accessFault addr) ∧ quiet t ∧
      t.mem = s.mem) ∧
    (∀ (bytes : List Byte) (pa : Nat), s.ownMemory? addr bytes.length = some pa → s.refusesTraffic (.write addr bytes) = false → ∃ t,
      exec (.spanOrBirlinTraffic (.write addr bytes)) s = .next t ∧ t.mgmt = { s.mgmt with pstate := 0 } ∧ quiet t ∧
      readBytes t.mem pa bytes.length = bytes ∧ ∀ a, a < pa ∨ pa + bytes.length ≤ a → readByte t.mem a = readByte s.mem a) ∧
    (∀ (v : Word) (pa : Nat), s.ownMemory? addr 8 = some pa → addr % 8 = 0 → s.refusesTraffic (.amo .add addr v) = false → ∃ t,
      exec (.spanOrBirlinTraffic (.amo .add addr v)) s = .next t ∧
      sends t (.reply addr (leBytes (readLE s.mem pa 8) 8)) ∧ readLE t.mem pa 8 = (readLE s.mem pa 8 + v.toNat) % 2 ^ 64 ∧
      ∀ a, a < pa ∨ pa + 8 ≤ a → readByte t.mem a = readByte s.mem a) ∧
    (∀ (e v : Word) (pa : Nat), s.ownMemory? addr 8 = some pa → addr % 8 = 0 → s.refusesTraffic (.cas addr e v) = false → ∃ t,
      exec (.spanOrBirlinTraffic (.cas addr e v)) s = .next t ∧ sends t (.reply addr (leBytes (readLE s.mem pa 8) 8)) ∧
      readLE t.mem pa 8 = if readLE s.mem pa 8 = e.toNat then v.toNat else readLE s.mem pa 8)) ∧
  (∀ (s : State) (id key node number weight : Nat) (role : Option Nat), id < 4096 → (s.coreAt id).failed = false →
    (s.coreAt id).bound = .task key node number weight role → (alGet (s.coreAt id).part s.parts).isSome = true →
    ∃ (t : State) (r : FaultReq), exec (.coreFaultInService id) s = .next t ∧ (t.coreAt id).failed = true ∧ (t.coreAt id).held ≠ .no ∧
      (t.partAt (s.coreAt id).part).faults = (s.partAt (s.coreAt id).part).faults ++ [r] ∧ r.domain = (s.coreAt id).csr.fdom.toNat ∧
      r.cause ∈ Cause.listed ∧
      r.task = some (key, number) ∧ r.core = some id ∧ ∀ k, k ≠ id → t.coreAt k = s.coreAt k) ∧
  ∀ (s : State) (on : Bool), exec (.thermalLimit on) s = .next { s with mgmt := { s.mgmt with thermal := on } }
end

