-- ==== Sys2Proof/Laws/State.lean ====
section
/-!
SUPPORT. One lemma per field per update of State and Core, each true by unfolding, and what a register or a core reads after a write.
-/

namespace Sys2Proof.Machine

/-! ## Fields of State -/

@[simp] theorem State.act_tick (s : State) (id : Nat) : (s.act id).tick = s.tick := rfl
@[simp] theorem State.act_clock (s : State) (id : Nat) : (s.act id).clock = s.clock := rfl
@[simp] theorem State.act_agenda (s : State) (id : Nat) : (s.act id).agenda = s.agenda := rfl
@[simp] theorem State.act_mem (s : State) (id : Nat) : (s.act id).mem = s.mem := rfl
@[simp] theorem State.act_poison (s : State) (id : Nat) : (s.act id).poison = s.poison := rfl
@[simp] theorem State.act_monitors (s : State) (id : Nat) : (s.act id).monitors = s.monitors := rfl
@[simp] theorem State.act_adds (s : State) (id : Nat) : (s.act id).adds = s.adds := rfl
@[simp] theorem State.act_cores (s : State) (id : Nat) : (s.act id).cores = s.cores := rfl
@[simp] theorem State.act_clusters (s : State) (id : Nat) : (s.act id).clusters = s.clusters := rfl
@[simp] theorem State.act_parts (s : State) (id : Nat) : (s.act id).parts = s.parts := rfl
@[simp] theorem State.act_cinches (s : State) (id : Nat) : (s.act id).cinches = s.cinches := rfl
@[simp] theorem State.act_slots (s : State) (id : Nat) : (s.act id).slots = s.slots := rfl
@[simp] theorem State.act_mgmt (s : State) (id : Nat) : (s.act id).mgmt = s.mgmt := rfl

@[simp] theorem State.setCoreAt_cur (s : State) (id : Nat) (c : Core) : (s.setCoreAt id c).cur = s.cur := rfl
@[simp] theorem State.setCoreAt_tick (s : State) (id : Nat) (c : Core) : (s.setCoreAt id c).tick = s.tick := rfl
@[simp] theorem State.setCoreAt_clock (s : State) (id : Nat) (c : Core) : (s.setCoreAt id c).clock = s.clock := rfl
@[simp] theorem State.setCoreAt_agenda (s : State) (id : Nat) (c : Core) : (s.setCoreAt id c).agenda = s.agenda := rfl
@[simp] theorem State.setCoreAt_mem (s : State) (id : Nat) (c : Core) : (s.setCoreAt id c).mem = s.mem := rfl
@[simp] theorem State.setCoreAt_poison (s : State) (id : Nat) (c : Core) : (s.setCoreAt id c).poison = s.poison := rfl
@[simp] theorem State.setCoreAt_monitors (s : State) (id : Nat) (c : Core) : (s.setCoreAt id c).monitors = s.monitors := rfl
@[simp] theorem State.setCoreAt_adds (s : State) (id : Nat) (c : Core) : (s.setCoreAt id c).adds = s.adds := rfl
@[simp] theorem State.setCoreAt_clusters (s : State) (id : Nat) (c : Core) : (s.setCoreAt id c).clusters = s.clusters := rfl
@[simp] theorem State.setCoreAt_parts (s : State) (id : Nat) (c : Core) : (s.setCoreAt id c).parts = s.parts := rfl
@[simp] theorem State.setCoreAt_cinches (s : State) (id : Nat) (c : Core) : (s.setCoreAt id c).cinches = s.cinches := rfl
@[simp] theorem State.setCoreAt_slots (s : State) (id : Nat) (c : Core) : (s.setCoreAt id c).slots = s.slots := rfl
@[simp] theorem State.setCoreAt_mgmt (s : State) (id : Nat) (c : Core) : (s.setCoreAt id c).mgmt = s.mgmt := rfl

@[simp] theorem State.updCoreAt_cur (s : State) (id : Nat) (f : Core → Core) : (s.updCoreAt id f).cur = s.cur := rfl
@[simp] theorem State.updCoreAt_tick (s : State) (id : Nat) (f : Core → Core) : (s.updCoreAt id f).tick = s.tick := rfl
@[simp] theorem State.updCoreAt_clock (s : State) (id : Nat) (f : Core → Core) : (s.updCoreAt id f).clock = s.clock := rfl
@[simp] theorem State.updCoreAt_agenda (s : State) (id : Nat) (f : Core → Core) : (s.updCoreAt id f).agenda = s.agenda := rfl
@[simp] theorem State.updCoreAt_mem (s : State) (id : Nat) (f : Core → Core) : (s.updCoreAt id f).mem = s.mem := rfl
@[simp] theorem State.updCoreAt_poison (s : State) (id : Nat) (f : Core → Core) : (s.updCoreAt id f).poison = s.poison := rfl
@[simp] theorem State.updCoreAt_monitors (s : State) (id : Nat) (f : Core → Core) : (s.updCoreAt id f).monitors = s.monitors := rfl
@[simp] theorem State.updCoreAt_adds (s : State) (id : Nat) (f : Core → Core) : (s.updCoreAt id f).adds = s.adds := rfl
@[simp] theorem State.updCoreAt_clusters (s : State) (id : Nat) (f : Core → Core) : (s.updCoreAt id f).clusters = s.clusters := rfl
@[simp] theorem State.updCoreAt_parts (s : State) (id : Nat) (f : Core → Core) : (s.updCoreAt id f).parts = s.parts := rfl
@[simp] theorem State.updCoreAt_cinches (s : State) (id : Nat) (f : Core → Core) : (s.updCoreAt id f).cinches = s.cinches := rfl
@[simp] theorem State.updCoreAt_slots (s : State) (id : Nat) (f : Core → Core) : (s.updCoreAt id f).slots = s.slots := rfl
@[simp] theorem State.updCoreAt_mgmt (s : State) (id : Nat) (f : Core → Core) : (s.updCoreAt id f).mgmt = s.mgmt := rfl

@[simp] theorem State.updCore_cur (s : State) (f : Core → Core) : (s.updCore f).cur = s.cur := rfl
@[simp] theorem State.updCore_tick (s : State) (f : Core → Core) : (s.updCore f).tick = s.tick := rfl
@[simp] theorem State.updCore_clock (s : State) (f : Core → Core) : (s.updCore f).clock = s.clock := rfl
@[simp] theorem State.updCore_agenda (s : State) (f : Core → Core) : (s.updCore f).agenda = s.agenda := rfl
@[simp] theorem State.updCore_mem (s : State) (f : Core → Core) : (s.updCore f).mem = s.mem := rfl
@[simp] theorem State.updCore_poison (s : State) (f : Core → Core) : (s.updCore f).poison = s.poison := rfl
@[simp] theorem State.updCore_monitors (s : State) (f : Core → Core) : (s.updCore f).monitors = s.monitors := rfl
@[simp] theorem State.updCore_adds (s : State) (f : Core → Core) : (s.updCore f).adds = s.adds := rfl
@[simp] theorem State.updCore_clusters (s : State) (f : Core → Core) : (s.updCore f).clusters = s.clusters := rfl
@[simp] theorem State.updCore_parts (s : State) (f : Core → Core) : (s.updCore f).parts = s.parts := rfl
@[simp] theorem State.updCore_cinches (s : State) (f : Core → Core) : (s.updCore f).cinches = s.cinches := rfl
@[simp] theorem State.updCore_slots (s : State) (f : Core → Core) : (s.updCore f).slots = s.slots := rfl
@[simp] theorem State.updCore_mgmt (s : State) (f : Core → Core) : (s.updCore f).mgmt = s.mgmt := rfl

@[simp] theorem State.updCluster_cur (s : State) (n : Nat) (f : Cluster → Cluster) : (s.updCluster n f).cur = s.cur := rfl
@[simp] theorem State.updCluster_tick (s : State) (n : Nat) (f : Cluster → Cluster) : (s.updCluster n f).tick = s.tick := rfl
@[simp] theorem State.updCluster_clock (s : State) (n : Nat) (f : Cluster → Cluster) : (s.updCluster n f).clock = s.clock := rfl
@[simp] theorem State.updCluster_agenda (s : State) (n : Nat) (f : Cluster → Cluster) : (s.updCluster n f).agenda = s.agenda := rfl
@[simp] theorem State.updCluster_mem (s : State) (n : Nat) (f : Cluster → Cluster) : (s.updCluster n f).mem = s.mem := rfl
@[simp] theorem State.updCluster_poison (s : State) (n : Nat) (f : Cluster → Cluster) : (s.updCluster n f).poison = s.poison := rfl
@[simp] theorem State.updCluster_monitors (s : State) (n : Nat) (f : Cluster → Cluster) : (s.updCluster n f).monitors = s.monitors := rfl
@[simp] theorem State.updCluster_adds (s : State) (n : Nat) (f : Cluster → Cluster) : (s.updCluster n f).adds = s.adds := rfl
@[simp] theorem State.updCluster_cores (s : State) (n : Nat) (f : Cluster → Cluster) : (s.updCluster n f).cores = s.cores := rfl
@[simp] theorem State.updCluster_parts (s : State) (n : Nat) (f : Cluster → Cluster) : (s.updCluster n f).parts = s.parts := rfl
@[simp] theorem State.updCluster_cinches (s : State) (n : Nat) (f : Cluster → Cluster) : (s.updCluster n f).cinches = s.cinches := rfl
@[simp] theorem State.updCluster_slots (s : State) (n : Nat) (f : Cluster → Cluster) : (s.updCluster n f).slots = s.slots := rfl
@[simp] theorem State.updCluster_mgmt (s : State) (n : Nat) (f : Cluster → Cluster) : (s.updCluster n f).mgmt = s.mgmt := rfl

@[simp] theorem State.updPartAt_cur (s : State) (p : Nat) (f : Partition → Partition) : (s.updPartAt p f).cur = s.cur := rfl
@[simp] theorem State.updPartAt_tick (s : State) (p : Nat) (f : Partition → Partition) : (s.updPartAt p f).tick = s.tick := rfl
@[simp] theorem State.updPartAt_clock (s : State) (p : Nat) (f : Partition → Partition) : (s.updPartAt p f).clock = s.clock := rfl
@[simp] theorem State.updPartAt_agenda (s : State) (p : Nat) (f : Partition → Partition) : (s.updPartAt p f).agenda = s.agenda := rfl
@[simp] theorem State.updPartAt_mem (s : State) (p : Nat) (f : Partition → Partition) : (s.updPartAt p f).mem = s.mem := rfl
@[simp] theorem State.updPartAt_poison (s : State) (p : Nat) (f : Partition → Partition) : (s.updPartAt p f).poison = s.poison := rfl
@[simp] theorem State.updPartAt_monitors (s : State) (p : Nat) (f : Partition → Partition) : (s.updPartAt p f).monitors = s.monitors := rfl
@[simp] theorem State.updPartAt_adds (s : State) (p : Nat) (f : Partition → Partition) : (s.updPartAt p f).adds = s.adds := rfl
@[simp] theorem State.updPartAt_cores (s : State) (p : Nat) (f : Partition → Partition) : (s.updPartAt p f).cores = s.cores := rfl
@[simp] theorem State.updPartAt_clusters (s : State) (p : Nat) (f : Partition → Partition) : (s.updPartAt p f).clusters = s.clusters := rfl
@[simp] theorem State.updPartAt_cinches (s : State) (p : Nat) (f : Partition → Partition) : (s.updPartAt p f).cinches = s.cinches := rfl
@[simp] theorem State.updPartAt_slots (s : State) (p : Nat) (f : Partition → Partition) : (s.updPartAt p f).slots = s.slots := rfl
@[simp] theorem State.updPartAt_mgmt (s : State) (p : Nat) (f : Partition → Partition) : (s.updPartAt p f).mgmt = s.mgmt := rfl

@[simp] theorem State.updPart_cur (s : State) (f : Partition → Partition) : (s.updPart f).cur = s.cur := rfl
@[simp] theorem State.updPart_tick (s : State) (f : Partition → Partition) : (s.updPart f).tick = s.tick := rfl
@[simp] theorem State.updPart_clock (s : State) (f : Partition → Partition) : (s.updPart f).clock = s.clock := rfl
@[simp] theorem State.updPart_agenda (s : State) (f : Partition → Partition) : (s.updPart f).agenda = s.agenda := rfl
@[simp] theorem State.updPart_mem (s : State) (f : Partition → Partition) : (s.updPart f).mem = s.mem := rfl
@[simp] theorem State.updPart_poison (s : State) (f : Partition → Partition) : (s.updPart f).poison = s.poison := rfl
@[simp] theorem State.updPart_monitors (s : State) (f : Partition → Partition) : (s.updPart f).monitors = s.monitors := rfl
@[simp] theorem State.updPart_adds (s : State) (f : Partition → Partition) : (s.updPart f).adds = s.adds := rfl
@[simp] theorem State.updPart_cores (s : State) (f : Partition → Partition) : (s.updPart f).cores = s.cores := rfl
@[simp] theorem State.updPart_clusters (s : State) (f : Partition → Partition) : (s.updPart f).clusters = s.clusters := rfl
@[simp] theorem State.updPart_cinches (s : State) (f : Partition → Partition) : (s.updPart f).cinches = s.cinches := rfl
@[simp] theorem State.updPart_slots (s : State) (f : Partition → Partition) : (s.updPart f).slots = s.slots := rfl
@[simp] theorem State.updPart_mgmt (s : State) (f : Partition → Partition) : (s.updPart f).mgmt = s.mgmt := rfl

@[simp] theorem State.markMonitors_cur (s : State) (a n : Nat) : (s.markMonitors a n).cur = s.cur := rfl
@[simp] theorem State.markMonitors_tick (s : State) (a n : Nat) : (s.markMonitors a n).tick = s.tick := rfl
@[simp] theorem State.markMonitors_clock (s : State) (a n : Nat) : (s.markMonitors a n).clock = s.clock := rfl
@[simp] theorem State.markMonitors_agenda (s : State) (a n : Nat) : (s.markMonitors a n).agenda = s.agenda := rfl
@[simp] theorem State.markMonitors_mem (s : State) (a n : Nat) : (s.markMonitors a n).mem = s.mem := rfl
@[simp] theorem State.markMonitors_poison (s : State) (a n : Nat) : (s.markMonitors a n).poison = s.poison := rfl
@[simp] theorem State.markMonitors_cores (s : State) (a n : Nat) : (s.markMonitors a n).cores = s.cores := rfl
@[simp] theorem State.markMonitors_clusters (s : State) (a n : Nat) : (s.markMonitors a n).clusters = s.clusters := rfl
@[simp] theorem State.markMonitors_parts (s : State) (a n : Nat) : (s.markMonitors a n).parts = s.parts := rfl
@[simp] theorem State.markMonitors_cinches (s : State) (a n : Nat) : (s.markMonitors a n).cinches = s.cinches := rfl
@[simp] theorem State.markMonitors_slots (s : State) (a n : Nat) : (s.markMonitors a n).slots = s.slots := rfl
@[simp] theorem State.markMonitors_mgmt (s : State) (a n : Nat) : (s.markMonitors a n).mgmt = s.mgmt := rfl

@[simp] theorem State.putMem_cur (s : State) (a : Nat) (l : List Byte) : (s.putMem a l).cur = s.cur := rfl
@[simp] theorem State.putMem_tick (s : State) (a : Nat) (l : List Byte) : (s.putMem a l).tick = s.tick := rfl
@[simp] theorem State.putMem_clock (s : State) (a : Nat) (l : List Byte) : (s.putMem a l).clock = s.clock := rfl
@[simp] theorem State.putMem_agenda (s : State) (a : Nat) (l : List Byte) : (s.putMem a l).agenda = s.agenda := rfl
@[simp] theorem State.putMem_poison (s : State) (a : Nat) (l : List Byte) : (s.putMem a l).poison = s.poison := rfl
@[simp] theorem State.putMem_cores (s : State) (a : Nat) (l : List Byte) : (s.putMem a l).cores = s.cores := rfl
@[simp] theorem State.putMem_clusters (s : State) (a : Nat) (l : List Byte) : (s.putMem a l).clusters = s.clusters := rfl
@[simp] theorem State.putMem_parts (s : State) (a : Nat) (l : List Byte) : (s.putMem a l).parts = s.parts := rfl
@[simp] theorem State.putMem_cinches (s : State) (a : Nat) (l : List Byte) : (s.putMem a l).cinches = s.cinches := rfl
@[simp] theorem State.putMem_slots (s : State) (a : Nat) (l : List Byte) : (s.putMem a l).slots = s.slots := rfl
@[simp] theorem State.putMem_mgmt (s : State) (a : Nat) (l : List Byte) : (s.putMem a l).mgmt = s.mgmt := rfl

@[simp] theorem State.noteTlb_cur (s : State) (p : Nat) (e : TlbEntry) : (s.noteTlb p e).cur = s.cur := rfl
@[simp] theorem State.noteTlb_tick (s : State) (p : Nat) (e : TlbEntry) : (s.noteTlb p e).tick = s.tick := rfl
@[simp] theorem State.noteTlb_clock (s : State) (p : Nat) (e : TlbEntry) : (s.noteTlb p e).clock = s.clock := rfl
@[simp] theorem State.noteTlb_agenda (s : State) (p : Nat) (e : TlbEntry) : (s.noteTlb p e).agenda = s.agenda := rfl
@[simp] theorem State.noteTlb_mem (s : State) (p : Nat) (e : TlbEntry) : (s.noteTlb p e).mem = s.mem := rfl
@[simp] theorem State.noteTlb_poison (s : State) (p : Nat) (e : TlbEntry) : (s.noteTlb p e).poison = s.poison := rfl
@[simp] theorem State.noteTlb_monitors (s : State) (p : Nat) (e : TlbEntry) : (s.noteTlb p e).monitors = s.monitors := rfl
@[simp] theorem State.noteTlb_adds (s : State) (p : Nat) (e : TlbEntry) : (s.noteTlb p e).adds = s.adds := rfl
@[simp] theorem State.noteTlb_cores (s : State) (p : Nat) (e : TlbEntry) : (s.noteTlb p e).cores = s.cores := rfl
@[simp] theorem State.noteTlb_clusters (s : State) (p : Nat) (e : TlbEntry) : (s.noteTlb p e).clusters = s.clusters := rfl
@[simp] theorem State.noteTlb_cinches (s : State) (p : Nat) (e : TlbEntry) : (s.noteTlb p e).cinches = s.cinches := rfl
@[simp] theorem State.noteTlb_slots (s : State) (p : Nat) (e : TlbEntry) : (s.noteTlb p e).slots = s.slots := rfl
@[simp] theorem State.noteTlb_mgmt (s : State) (p : Nat) (e : TlbEntry) : (s.noteTlb p e).mgmt = s.mgmt := rfl

@[simp] theorem State.noteStale_cur (s : State) (pl : Place) : (s.noteStale pl).cur = s.cur := rfl
@[simp] theorem State.noteStale_tick (s : State) (pl : Place) : (s.noteStale pl).tick = s.tick := rfl
@[simp] theorem State.noteStale_clock (s : State) (pl : Place) : (s.noteStale pl).clock = s.clock := rfl
@[simp] theorem State.noteStale_agenda (s : State) (pl : Place) : (s.noteStale pl).agenda = s.agenda := rfl
@[simp] theorem State.noteStale_mem (s : State) (pl : Place) : (s.noteStale pl).mem = s.mem := rfl
@[simp] theorem State.noteStale_poison (s : State) (pl : Place) : (s.noteStale pl).poison = s.poison := rfl
@[simp] theorem State.noteStale_monitors (s : State) (pl : Place) : (s.noteStale pl).monitors = s.monitors := rfl
@[simp] theorem State.noteStale_adds (s : State) (pl : Place) : (s.noteStale pl).adds = s.adds := rfl
@[simp] theorem State.noteStale_clusters (s : State) (pl : Place) : (s.noteStale pl).clusters = s.clusters := rfl
@[simp] theorem State.noteStale_parts (s : State) (pl : Place) : (s.noteStale pl).parts = s.parts := rfl
@[simp] theorem State.noteStale_cinches (s : State) (pl : Place) : (s.noteStale pl).cinches = s.cinches := rfl
@[simp] theorem State.noteStale_slots (s : State) (pl : Place) : (s.noteStale pl).slots = s.slots := rfl
@[simp] theorem State.noteStale_mgmt (s : State) (pl : Place) : (s.noteStale pl).mgmt = s.mgmt := rfl

@[simp] theorem State.setX_cur (s : State) (r : Reg) (v : Word) : (s.setX r v).cur = s.cur := rfl
@[simp] theorem State.setX_tick (s : State) (r : Reg) (v : Word) : (s.setX r v).tick = s.tick := rfl
@[simp] theorem State.setX_clock (s : State) (r : Reg) (v : Word) : (s.setX r v).clock = s.clock := rfl
@[simp] theorem State.setX_agenda (s : State) (r : Reg) (v : Word) : (s.setX r v).agenda = s.agenda := rfl
@[simp] theorem State.setX_mem (s : State) (r : Reg) (v : Word) : (s.setX r v).mem = s.mem := rfl
@[simp] theorem State.setX_poison (s : State) (r : Reg) (v : Word) : (s.setX r v).poison = s.poison := rfl
@[simp] theorem State.setX_monitors (s : State) (r : Reg) (v : Word) : (s.setX r v).monitors = s.monitors := rfl
@[simp] theorem State.setX_adds (s : State) (r : Reg) (v : Word) : (s.setX r v).adds = s.adds := rfl
@[simp] theorem State.setX_clusters (s : State) (r : Reg) (v : Word) : (s.setX r v).clusters = s.clusters := rfl
@[simp] theorem State.setX_parts (s : State) (r : Reg) (v : Word) : (s.setX r v).parts = s.parts := rfl
@[simp] theorem State.setX_cinches (s : State) (r : Reg) (v : Word) : (s.setX r v).cinches = s.cinches := rfl
@[simp] theorem State.setX_slots (s : State) (r : Reg) (v : Word) : (s.setX r v).slots = s.slots := rfl
@[simp] theorem State.setX_mgmt (s : State) (r : Reg) (v : Word) : (s.setX r v).mgmt = s.mgmt := rfl

@[simp] theorem State.setF_cur (s : State) (r : Reg) (v : Word32) : (s.setF r v).cur = s.cur := rfl
@[simp] theorem State.setF_tick (s : State) (r : Reg) (v : Word32) : (s.setF r v).tick = s.tick := rfl
@[simp] theorem State.setF_clock (s : State) (r : Reg) (v : Word32) : (s.setF r v).clock = s.clock := rfl
@[simp] theorem State.setF_agenda (s : State) (r : Reg) (v : Word32) : (s.setF r v).agenda = s.agenda := rfl
@[simp] theorem State.setF_mem (s : State) (r : Reg) (v : Word32) : (s.setF r v).mem = s.mem := rfl
@[simp] theorem State.setF_poison (s : State) (r : Reg) (v : Word32) : (s.setF r v).poison = s.poison := rfl
@[simp] theorem State.setF_monitors (s : State) (r : Reg) (v : Word32) : (s.setF r v).monitors = s.monitors := rfl
@[simp] theorem State.setF_adds (s : State) (r : Reg) (v : Word32) : (s.setF r v).adds = s.adds := rfl
@[simp] theorem State.setF_clusters (s : State) (r : Reg) (v : Word32) : (s.setF r v).clusters = s.clusters := rfl
@[simp] theorem State.setF_parts (s : State) (r : Reg) (v : Word32) : (s.setF r v).parts = s.parts := rfl
@[simp] theorem State.setF_cinches (s : State) (r : Reg) (v : Word32) : (s.setF r v).cinches = s.cinches := rfl
@[simp] theorem State.setF_slots (s : State) (r : Reg) (v : Word32) : (s.setF r v).slots = s.slots := rfl
@[simp] theorem State.setF_mgmt (s : State) (r : Reg) (v : Word32) : (s.setF r v).mgmt = s.mgmt := rfl

@[simp] theorem State.setBx_cur (s : State) (r : Reg4) (v : Region) : (s.setBx r v).cur = s.cur := rfl
@[simp] theorem State.setBx_tick (s : State) (r : Reg4) (v : Region) : (s.setBx r v).tick = s.tick := rfl
@[simp] theorem State.setBx_clock (s : State) (r : Reg4) (v : Region) : (s.setBx r v).clock = s.clock := rfl
@[simp] theorem State.setBx_agenda (s : State) (r : Reg4) (v : Region) : (s.setBx r v).agenda = s.agenda := rfl
@[simp] theorem State.setBx_mem (s : State) (r : Reg4) (v : Region) : (s.setBx r v).mem = s.mem := rfl
@[simp] theorem State.setBx_poison (s : State) (r : Reg4) (v : Region) : (s.setBx r v).poison = s.poison := rfl
@[simp] theorem State.setBx_monitors (s : State) (r : Reg4) (v : Region) : (s.setBx r v).monitors = s.monitors := rfl
@[simp] theorem State.setBx_adds (s : State) (r : Reg4) (v : Region) : (s.setBx r v).adds = s.adds := rfl
@[simp] theorem State.setBx_clusters (s : State) (r : Reg4) (v : Region) : (s.setBx r v).clusters = s.clusters := rfl
@[simp] theorem State.setBx_parts (s : State) (r : Reg4) (v : Region) : (s.setBx r v).parts = s.parts := rfl
@[simp] theorem State.setBx_cinches (s : State) (r : Reg4) (v : Region) : (s.setBx r v).cinches = s.cinches := rfl
@[simp] theorem State.setBx_slots (s : State) (r : Reg4) (v : Region) : (s.setBx r v).slots = s.slots := rfl
@[simp] theorem State.setBx_mgmt (s : State) (r : Reg4) (v : Region) : (s.setBx r v).mgmt = s.mgmt := rfl

@[simp] theorem State.updMgmt_cur (s : State) (f : Mgmt → Mgmt) : (s.updMgmt f).cur = s.cur := rfl
@[simp] theorem State.updMgmt_tick (s : State) (f : Mgmt → Mgmt) : (s.updMgmt f).tick = s.tick := rfl
@[simp] theorem State.updMgmt_clock (s : State) (f : Mgmt → Mgmt) : (s.updMgmt f).clock = s.clock := rfl
@[simp] theorem State.updMgmt_agenda (s : State) (f : Mgmt → Mgmt) : (s.updMgmt f).agenda = s.agenda := rfl
@[simp] theorem State.updMgmt_mem (s : State) (f : Mgmt → Mgmt) : (s.updMgmt f).mem = s.mem := rfl
@[simp] theorem State.updMgmt_poison (s : State) (f : Mgmt → Mgmt) : (s.updMgmt f).poison = s.poison := rfl
@[simp] theorem State.updMgmt_monitors (s : State) (f : Mgmt → Mgmt) : (s.updMgmt f).monitors = s.monitors := rfl
@[simp] theorem State.updMgmt_adds (s : State) (f : Mgmt → Mgmt) : (s.updMgmt f).adds = s.adds := rfl
@[simp] theorem State.updMgmt_cores (s : State) (f : Mgmt → Mgmt) : (s.updMgmt f).cores = s.cores := rfl
@[simp] theorem State.updMgmt_clusters (s : State) (f : Mgmt → Mgmt) : (s.updMgmt f).clusters = s.clusters := rfl
@[simp] theorem State.updMgmt_parts (s : State) (f : Mgmt → Mgmt) : (s.updMgmt f).parts = s.parts := rfl
@[simp] theorem State.updMgmt_cinches (s : State) (f : Mgmt → Mgmt) : (s.updMgmt f).cinches = s.cinches := rfl
@[simp] theorem State.updMgmt_slots (s : State) (f : Mgmt → Mgmt) : (s.updMgmt f).slots = s.slots := rfl

@[simp] theorem State.advance_cur (s : State) : (s.advance).cur = s.cur := rfl
@[simp] theorem State.advance_mem (s : State) : (s.advance).mem = s.mem := rfl
@[simp] theorem State.advance_poison (s : State) : (s.advance).poison = s.poison := rfl
@[simp] theorem State.advance_monitors (s : State) : (s.advance).monitors = s.monitors := rfl
@[simp] theorem State.advance_adds (s : State) : (s.advance).adds = s.adds := rfl
@[simp] theorem State.advance_cores (s : State) : (s.advance).cores = s.cores := rfl
@[simp] theorem State.advance_clusters (s : State) : (s.advance).clusters = s.clusters := rfl
@[simp] theorem State.advance_parts (s : State) : (s.advance).parts = s.parts := rfl
@[simp] theorem State.advance_cinches (s : State) : (s.advance).cinches = s.cinches := rfl
@[simp] theorem State.advance_slots (s : State) : (s.advance).slots = s.slots := rfl
@[simp] theorem State.advance_mgmt (s : State) : (s.advance).mgmt = s.mgmt := rfl

@[simp] theorem State.act_cur (s : State) (id : Nat) : (s.act id).cur = id := rfl

/-! ## Fields of Core -/

@[simp] theorem Core.setX_csr (c : Core) (r : Reg) (v : Word) : (c.setX r v).csr = c.csr := by unfold Core.setX; split <;> rfl
@[simp] theorem Core.setX_trap (c : Core) (r : Reg) (v : Word) : (c.setX r v).trap = c.trap := by unfold Core.setX; split <;> rfl
@[simp] theorem Core.setX_seqctr (c : Core) (r : Reg) (v : Word) : (c.setX r v).seqctr = c.seqctr := by unfold Core.setX; split <;> rfl
@[simp] theorem Core.setX_ring (c : Core) (r : Reg) (v : Word) : (c.setX r v).ring = c.ring := by unfold Core.setX; split <;> rfl
@[simp] theorem Core.setX_pc (c : Core) (r : Reg) (v : Word) : (c.setX r v).pc = c.pc := by unfold Core.setX; split <;> rfl
@[simp] theorem Core.setX_sup (c : Core) (r : Reg) (v : Word) : (c.setX r v).sup = c.sup := by unfold Core.setX; split <;> rfl
@[simp] theorem Core.setX_acc (c : Core) (r : Reg) (v : Word) : (c.setX r v).acc = c.acc := by unfold Core.setX; split <;> rfl
@[simp] theorem Core.setX_actype (c : Core) (r : Reg) (v : Word) : (c.setX r v).actype = c.actype := by unfold Core.setX; split <;> rfl
@[simp] theorem Core.setX_spad (c : Core) (r : Reg) (v : Word) : (c.setX r v).spad = c.spad := by unfold Core.setX; split <;> rfl
@[simp] theorem Core.setX_tiles (c : Core) (r : Reg) (v : Word) : (c.setX r v).tiles = c.tiles := by unfold Core.setX; split <;> rfl
@[simp] theorem Core.setX_inbox (c : Core) (r : Reg) (v : Word) : (c.setX r v).inbox = c.inbox := by unfold Core.setX; split <;> rfl
@[simp] theorem Core.setX_posts (c : Core) (r : Reg) (v : Word) : (c.setX r v).posts = c.posts := by unfold Core.setX; split <;> rfl
@[simp] theorem Core.setX_arrivals (c : Core) (r : Reg) (v : Word) : (c.setX r v).arrivals = c.arrivals := by unfold Core.setX; split <;> rfl
@[simp] theorem Core.setX_eng (c : Core) (r : Reg) (v : Word) : (c.setX r v).eng = c.eng := by unfold Core.setX; split <;> rfl
@[simp] theorem Core.setX_router (c : Core) (r : Reg) (v : Word) : (c.setX r v).router = c.router := by unfold Core.setX; split <;> rfl
@[simp] theorem Core.setX_faults (c : Core) (r : Reg) (v : Word) : (c.setX r v).faults = c.faults := by unfold Core.setX; split <;> rfl
@[simp] theorem Core.setX_recseq (c : Core) (r : Reg) (v : Word) : (c.setX r v).recseq = c.recseq := by unfold Core.setX; split <;> rfl
@[simp] theorem Core.setX_errlog (c : Core) (r : Reg) (v : Word) : (c.setX r v).errlog = c.errlog := by unfold Core.setX; split <;> rfl
@[simp] theorem Core.setX_errlost (c : Core) (r : Reg) (v : Word) : (c.setX r v).errlost = c.errlost := by unfold Core.setX; split <;> rfl
@[simp] theorem Core.setX_loop (c : Core) (r : Reg) (v : Word) : (c.setX r v).loop = c.loop := by unfold Core.setX; split <;> rfl
@[simp] theorem Core.setX_gang (c : Core) (r : Reg) (v : Word) : (c.setX r v).gang = c.gang := by unfold Core.setX; split <;> rfl
@[simp] theorem Core.setX_wait (c : Core) (r : Reg) (v : Word) : (c.setX r v).wait = c.wait := by unfold Core.setX; split <;> rfl
@[simp] theorem Core.setX_bound (c : Core) (r : Reg) (v : Word) : (c.setX r v).bound = c.bound := by unfold Core.setX; split <;> rfl
@[simp] theorem Core.setX_part (c : Core) (r : Reg) (v : Word) : (c.setX r v).part = c.part := by unfold Core.setX; split <;> rfl
@[simp] theorem Core.setX_held (c : Core) (r : Reg) (v : Word) : (c.setX r v).held = c.held := by unfold Core.setX; split <;> rfl
@[simp] theorem Core.setX_stopped (c : Core) (r : Reg) (v : Word) : (c.setX r v).stopped = c.stopped := by unfold Core.setX; split <;> rfl
@[simp] theorem Core.setX_halted (c : Core) (r : Reg) (v : Word) : (c.setX r v).halted = c.halted := by unfold Core.setX; split <;> rfl
@[simp] theorem Core.setX_exiting (c : Core) (r : Reg) (v : Word) : (c.setX r v).exiting = c.exiting := by unfold Core.setX; split <;> rfl
@[simp] theorem Core.setX_dom (c : Core) (r : Reg) (v : Word) : (c.setX r v).dom = c.dom := by unfold Core.setX; split <;> rfl
@[simp] theorem Core.setX_pins (c : Core) (r : Reg) (v : Word) : (c.setX r v).pins = c.pins := by unfold Core.setX; split <;> rfl
@[simp] theorem Core.setX_stale (c : Core) (r : Reg) (v : Word) : (c.setX r v).stale = c.stale := by unfold Core.setX; split <;> rfl
@[simp] theorem Core.setX_late (c : Core) (r : Reg) (v : Word) : (c.setX r v).late = c.late := by unfold Core.setX; split <;> rfl
@[simp] theorem Core.setX_failed (c : Core) (r : Reg) (v : Word) : (c.setX r v).failed = c.failed := by unfold Core.setX; split <;> rfl
@[simp] theorem Core.setX_unseen (c : Core) (r : Reg) (v : Word) : (c.setX r v).unseen = c.unseen := by unfold Core.setX; split <;> rfl
@[simp] theorem Core.setX_landings (c : Core) (r : Reg) (v : Word) : (c.setX r v).landings = c.landings := by unfold Core.setX; split <;> rfl
@[simp] theorem Core.setX_pushers (c : Core) (r : Reg) (v : Word) : (c.setX r v).pushers = c.pushers := by unfold Core.setX; split <;> rfl
@[simp] theorem Core.setX_boundary (c : Core) (r : Reg) (v : Word) : (c.setX r v).boundary = c.boundary := by unfold Core.setX; split <;> rfl
@[simp] theorem Core.setX_owed (c : Core) (r : Reg) (v : Word) : (c.setX r v).owed = c.owed := by unfold Core.setX; split <;> rfl
@[simp] theorem Core.setX_regs_f (c : Core) (r : Reg) (v : Word) : (c.setX r v).regs.f = c.regs.f := by unfold Core.setX; split <;> rfl
@[simp] theorem Core.setX_regs_bx (c : Core) (r : Reg) (v : Word) : (c.setX r v).regs.bx = c.regs.bx := by unfold Core.setX; split <;> rfl
@[simp] theorem Core.setX_regs_td (c : Core) (r : Reg) (v : Word) : (c.setX r v).regs.td = c.regs.td := by unfold Core.setX; split <;> rfl
@[simp] theorem Core.setX_regs_vp (c : Core) (r : Reg) (v : Word) : (c.setX r v).regs.vp = c.regs.vp := by unfold Core.setX; split <;> rfl
@[simp] theorem Core.setX_regs_vpIssue (c : Core) (r : Reg) (v : Word) : (c.setX r v).regs.vpIssue = c.regs.vpIssue := by unfold Core.setX; split <;> rfl
@[simp] theorem Core.setX_regs_vpGen (c : Core) (r : Reg) (v : Word) : (c.setX r v).regs.vpGen = c.regs.vpGen := by unfold Core.setX; split <;> rfl
@[simp] theorem Core.setX_regs_q0 (c : Core) (r : Reg) (v : Word) : (c.setX r v).regs.q0 = c.regs.q0 := by unfold Core.setX; split <;> rfl
@[simp] theorem Core.setX_regs_q1 (c : Core) (r : Reg) (v : Word) : (c.setX r v).regs.q1 = c.regs.q1 := by unfold Core.setX; split <;> rfl

@[simp] theorem Core.setF_csr (c : Core) (r : Reg) (v : Word32) : (c.setF r v).csr = c.csr := rfl
@[simp] theorem Core.setF_trap (c : Core) (r : Reg) (v : Word32) : (c.setF r v).trap = c.trap := rfl
@[simp] theorem Core.setF_seqctr (c : Core) (r : Reg) (v : Word32) : (c.setF r v).seqctr = c.seqctr := rfl
@[simp] theorem Core.setF_ring (c : Core) (r : Reg) (v : Word32) : (c.setF r v).ring = c.ring := rfl
@[simp] theorem Core.setF_pc (c : Core) (r : Reg) (v : Word32) : (c.setF r v).pc = c.pc := rfl
@[simp] theorem Core.setF_sup (c : Core) (r : Reg) (v : Word32) : (c.setF r v).sup = c.sup := rfl
@[simp] theorem Core.setF_acc (c : Core) (r : Reg) (v : Word32) : (c.setF r v).acc = c.acc := rfl
@[simp] theorem Core.setF_actype (c : Core) (r : Reg) (v : Word32) : (c.setF r v).actype = c.actype := rfl
@[simp] theorem Core.setF_spad (c : Core) (r : Reg) (v : Word32) : (c.setF r v).spad = c.spad := rfl
@[simp] theorem Core.setF_tiles (c : Core) (r : Reg) (v : Word32) : (c.setF r v).tiles = c.tiles := rfl
@[simp] theorem Core.setF_inbox (c : Core) (r : Reg) (v : Word32) : (c.setF r v).inbox = c.inbox := rfl
@[simp] theorem Core.setF_posts (c : Core) (r : Reg) (v : Word32) : (c.setF r v).posts = c.posts := rfl
@[simp] theorem Core.setF_arrivals (c : Core) (r : Reg) (v : Word32) : (c.setF r v).arrivals = c.arrivals := rfl
@[simp] theorem Core.setF_eng (c : Core) (r : Reg) (v : Word32) : (c.setF r v).eng = c.eng := rfl
@[simp] theorem Core.setF_router (c : Core) (r : Reg) (v : Word32) : (c.setF r v).router = c.router := rfl
@[simp] theorem Core.setF_faults (c : Core) (r : Reg) (v : Word32) : (c.setF r v).faults = c.faults := rfl
@[simp] theorem Core.setF_recseq (c : Core) (r : Reg) (v : Word32) : (c.setF r v).recseq = c.recseq := rfl
@[simp] theorem Core.setF_errlog (c : Core) (r : Reg) (v : Word32) : (c.setF r v).errlog = c.errlog := rfl
@[simp] theorem Core.setF_errlost (c : Core) (r : Reg) (v : Word32) : (c.setF r v).errlost = c.errlost := rfl
@[simp] theorem Core.setF_loop (c : Core) (r : Reg) (v : Word32) : (c.setF r v).loop = c.loop := rfl
@[simp] theorem Core.setF_gang (c : Core) (r : Reg) (v : Word32) : (c.setF r v).gang = c.gang := rfl
@[simp] theorem Core.setF_wait (c : Core) (r : Reg) (v : Word32) : (c.setF r v).wait = c.wait := rfl
@[simp] theorem Core.setF_bound (c : Core) (r : Reg) (v : Word32) : (c.setF r v).bound = c.bound := rfl
@[simp] theorem Core.setF_part (c : Core) (r : Reg) (v : Word32) : (c.setF r v).part = c.part := rfl
@[simp] theorem Core.setF_held (c : Core) (r : Reg) (v : Word32) : (c.setF r v).held = c.held := rfl
@[simp] theorem Core.setF_stopped (c : Core) (r : Reg) (v : Word32) : (c.setF r v).stopped = c.stopped := rfl
@[simp] theorem Core.setF_halted (c : Core) (r : Reg) (v : Word32) : (c.setF r v).halted = c.halted := rfl
@[simp] theorem Core.setF_exiting (c : Core) (r : Reg) (v : Word32) : (c.setF r v).exiting = c.exiting := rfl
@[simp] theorem Core.setF_dom (c : Core) (r : Reg) (v : Word32) : (c.setF r v).dom = c.dom := rfl
@[simp] theorem Core.setF_pins (c : Core) (r : Reg) (v : Word32) : (c.setF r v).pins = c.pins := rfl
@[simp] theorem Core.setF_stale (c : Core) (r : Reg) (v : Word32) : (c.setF r v).stale = c.stale := rfl
@[simp] theorem Core.setF_late (c : Core) (r : Reg) (v : Word32) : (c.setF r v).late = c.late := rfl
@[simp] theorem Core.setF_failed (c : Core) (r : Reg) (v : Word32) : (c.setF r v).failed = c.failed := rfl
@[simp] theorem Core.setF_unseen (c : Core) (r : Reg) (v : Word32) : (c.setF r v).unseen = c.unseen := rfl
@[simp] theorem Core.setF_landings (c : Core) (r : Reg) (v : Word32) : (c.setF r v).landings = c.landings := rfl
@[simp] theorem Core.setF_pushers (c : Core) (r : Reg) (v : Word32) : (c.setF r v).pushers = c.pushers := rfl
@[simp] theorem Core.setF_boundary (c : Core) (r : Reg) (v : Word32) : (c.setF r v).boundary = c.boundary := rfl
@[simp] theorem Core.setF_owed (c : Core) (r : Reg) (v : Word32) : (c.setF r v).owed = c.owed := rfl
@[simp] theorem Core.setF_regs_x (c : Core) (r : Reg) (v : Word32) : (c.setF r v).regs.x = c.regs.x := rfl
@[simp] theorem Core.setF_regs_bx (c : Core) (r : Reg) (v : Word32) : (c.setF r v).regs.bx = c.regs.bx := rfl
@[simp] theorem Core.setF_regs_td (c : Core) (r : Reg) (v : Word32) : (c.setF r v).regs.td = c.regs.td := rfl
@[simp] theorem Core.setF_regs_vp (c : Core) (r : Reg) (v : Word32) : (c.setF r v).regs.vp = c.regs.vp := rfl
@[simp] theorem Core.setF_regs_vpIssue (c : Core) (r : Reg) (v : Word32) : (c.setF r v).regs.vpIssue = c.regs.vpIssue := rfl
@[simp] theorem Core.setF_regs_vpGen (c : Core) (r : Reg) (v : Word32) : (c.setF r v).regs.vpGen = c.regs.vpGen := rfl
@[simp] theorem Core.setF_regs_q0 (c : Core) (r : Reg) (v : Word32) : (c.setF r v).regs.q0 = c.regs.q0 := rfl
@[simp] theorem Core.setF_regs_q1 (c : Core) (r : Reg) (v : Word32) : (c.setF r v).regs.q1 = c.regs.q1 := rfl

@[simp] theorem Core.setBx_csr (c : Core) (r : Reg4) (v : Region) : (c.setBx r v).csr = c.csr := rfl
@[simp] theorem Core.setBx_trap (c : Core) (r : Reg4) (v : Region) : (c.setBx r v).trap = c.trap := rfl
@[simp] theorem Core.setBx_seqctr (c : Core) (r : Reg4) (v : Region) : (c.setBx r v).seqctr = c.seqctr := rfl
@[simp] theorem Core.setBx_ring (c : Core) (r : Reg4) (v : Region) : (c.setBx r v).ring = c.ring := rfl
@[simp] theorem Core.setBx_pc (c : Core) (r : Reg4) (v : Region) : (c.setBx r v).pc = c.pc := rfl
@[simp] theorem Core.setBx_sup (c : Core) (r : Reg4) (v : Region) : (c.setBx r v).sup = c.sup := rfl
@[simp] theorem Core.setBx_acc (c : Core) (r : Reg4) (v : Region) : (c.setBx r v).acc = c.acc := rfl
@[simp] theorem Core.setBx_actype (c : Core) (r : Reg4) (v : Region) : (c.setBx r v).actype = c.actype := rfl
@[simp] theorem Core.setBx_spad (c : Core) (r : Reg4) (v : Region) : (c.setBx r v).spad = c.spad := rfl
@[simp] theorem Core.setBx_tiles (c : Core) (r : Reg4) (v : Region) : (c.setBx r v).tiles = c.tiles := rfl
@[simp] theorem Core.setBx_inbox (c : Core) (r : Reg4) (v : Region) : (c.setBx r v).inbox = c.inbox := rfl
@[simp] theorem Core.setBx_posts (c : Core) (r : Reg4) (v : Region) : (c.setBx r v).posts = c.posts := rfl
@[simp] theorem Core.setBx_arrivals (c : Core) (r : Reg4) (v : Region) : (c.setBx r v).arrivals = c.arrivals := rfl
@[simp] theorem Core.setBx_eng (c : Core) (r : Reg4) (v : Region) : (c.setBx r v).eng = c.eng := rfl
@[simp] theorem Core.setBx_router (c : Core) (r : Reg4) (v : Region) : (c.setBx r v).router = c.router := rfl
@[simp] theorem Core.setBx_faults (c : Core) (r : Reg4) (v : Region) : (c.setBx r v).faults = c.faults := rfl
@[simp] theorem Core.setBx_recseq (c : Core) (r : Reg4) (v : Region) : (c.setBx r v).recseq = c.recseq := rfl
@[simp] theorem Core.setBx_errlog (c : Core) (r : Reg4) (v : Region) : (c.setBx r v).errlog = c.errlog := rfl
@[simp] theorem Core.setBx_errlost (c : Core) (r : Reg4) (v : Region) : (c.setBx r v).errlost = c.errlost := rfl
@[simp] theorem Core.setBx_loop (c : Core) (r : Reg4) (v : Region) : (c.setBx r v).loop = c.loop := rfl
@[simp] theorem Core.setBx_gang (c : Core) (r : Reg4) (v : Region) : (c.setBx r v).gang = c.gang := rfl
@[simp] theorem Core.setBx_wait (c : Core) (r : Reg4) (v : Region) : (c.setBx r v).wait = c.wait := rfl
@[simp] theorem Core.setBx_bound (c : Core) (r : Reg4) (v : Region) : (c.setBx r v).bound = c.bound := rfl
@[simp] theorem Core.setBx_part (c : Core) (r : Reg4) (v : Region) : (c.setBx r v).part = c.part := rfl
@[simp] theorem Core.setBx_held (c : Core) (r : Reg4) (v : Region) : (c.setBx r v).held = c.held := rfl
@[simp] theorem Core.setBx_stopped (c : Core) (r : Reg4) (v : Region) : (c.setBx r v).stopped = c.stopped := rfl
@[simp] theorem Core.setBx_halted (c : Core) (r : Reg4) (v : Region) : (c.setBx r v).halted = c.halted := rfl
@[simp] theorem Core.setBx_exiting (c : Core) (r : Reg4) (v : Region) : (c.setBx r v).exiting = c.exiting := rfl
@[simp] theorem Core.setBx_dom (c : Core) (r : Reg4) (v : Region) : (c.setBx r v).dom = c.dom := rfl
@[simp] theorem Core.setBx_pins (c : Core) (r : Reg4) (v : Region) : (c.setBx r v).pins = c.pins := rfl
@[simp] theorem Core.setBx_stale (c : Core) (r : Reg4) (v : Region) : (c.setBx r v).stale = c.stale := rfl
@[simp] theorem Core.setBx_late (c : Core) (r : Reg4) (v : Region) : (c.setBx r v).late = c.late := rfl
@[simp] theorem Core.setBx_failed (c : Core) (r : Reg4) (v : Region) : (c.setBx r v).failed = c.failed := rfl
@[simp] theorem Core.setBx_unseen (c : Core) (r : Reg4) (v : Region) : (c.setBx r v).unseen = c.unseen := rfl
@[simp] theorem Core.setBx_landings (c : Core) (r : Reg4) (v : Region) : (c.setBx r v).landings = c.landings := rfl
@[simp] theorem Core.setBx_pushers (c : Core) (r : Reg4) (v : Region) : (c.setBx r v).pushers = c.pushers := rfl
@[simp] theorem Core.setBx_boundary (c : Core) (r : Reg4) (v : Region) : (c.setBx r v).boundary = c.boundary := rfl
@[simp] theorem Core.setBx_owed (c : Core) (r : Reg4) (v : Region) : (c.setBx r v).owed = c.owed := rfl
@[simp] theorem Core.setBx_regs_x (c : Core) (r : Reg4) (v : Region) : (c.setBx r v).regs.x = c.regs.x := rfl
@[simp] theorem Core.setBx_regs_f (c : Core) (r : Reg4) (v : Region) : (c.setBx r v).regs.f = c.regs.f := rfl
@[simp] theorem Core.setBx_regs_td (c : Core) (r : Reg4) (v : Region) : (c.setBx r v).regs.td = c.regs.td := rfl
@[simp] theorem Core.setBx_regs_vp (c : Core) (r : Reg4) (v : Region) : (c.setBx r v).regs.vp = c.regs.vp := rfl
@[simp] theorem Core.setBx_regs_vpIssue (c : Core) (r : Reg4) (v : Region) : (c.setBx r v).regs.vpIssue = c.regs.vpIssue := rfl
@[simp] theorem Core.setBx_regs_vpGen (c : Core) (r : Reg4) (v : Region) : (c.setBx r v).regs.vpGen = c.regs.vpGen := rfl
@[simp] theorem Core.setBx_regs_q0 (c : Core) (r : Reg4) (v : Region) : (c.setBx r v).regs.q0 = c.regs.q0 := rfl
@[simp] theorem Core.setBx_regs_q1 (c : Core) (r : Reg4) (v : Region) : (c.setBx r v).regs.q1 = c.regs.q1 := rfl

@[simp] theorem Core.setTd_csr (c : Core) (r : Reg4) (v : Td) : (c.setTd r v).csr = c.csr := rfl
@[simp] theorem Core.setTd_trap (c : Core) (r : Reg4) (v : Td) : (c.setTd r v).trap = c.trap := rfl
@[simp] theorem Core.setTd_seqctr (c : Core) (r : Reg4) (v : Td) : (c.setTd r v).seqctr = c.seqctr := rfl
@[simp] theorem Core.setTd_ring (c : Core) (r : Reg4) (v : Td) : (c.setTd r v).ring = c.ring := rfl
@[simp] theorem Core.setTd_pc (c : Core) (r : Reg4) (v : Td) : (c.setTd r v).pc = c.pc := rfl
@[simp] theorem Core.setTd_sup (c : Core) (r : Reg4) (v : Td) : (c.setTd r v).sup = c.sup := rfl
@[simp] theorem Core.setTd_acc (c : Core) (r : Reg4) (v : Td) : (c.setTd r v).acc = c.acc := rfl
@[simp] theorem Core.setTd_actype (c : Core) (r : Reg4) (v : Td) : (c.setTd r v).actype = c.actype := rfl
@[simp] theorem Core.setTd_spad (c : Core) (r : Reg4) (v : Td) : (c.setTd r v).spad = c.spad := rfl
@[simp] theorem Core.setTd_tiles (c : Core) (r : Reg4) (v : Td) : (c.setTd r v).tiles = c.tiles := rfl
@[simp] theorem Core.setTd_inbox (c : Core) (r : Reg4) (v : Td) : (c.setTd r v).inbox = c.inbox := rfl
@[simp] theorem Core.setTd_posts (c : Core) (r : Reg4) (v : Td) : (c.setTd r v).posts = c.posts := rfl
@[simp] theorem Core.setTd_arrivals (c : Core) (r : Reg4) (v : Td) : (c.setTd r v).arrivals = c.arrivals := rfl
@[simp] theorem Core.setTd_eng (c : Core) (r : Reg4) (v : Td) : (c.setTd r v).eng = c.eng := rfl
@[simp] theorem Core.setTd_router (c : Core) (r : Reg4) (v : Td) : (c.setTd r v).router = c.router := rfl
@[simp] theorem Core.setTd_faults (c : Core) (r : Reg4) (v : Td) : (c.setTd r v).faults = c.faults := rfl
@[simp] theorem Core.setTd_recseq (c : Core) (r : Reg4) (v : Td) : (c.setTd r v).recseq = c.recseq := rfl
@[simp] theorem Core.setTd_errlog (c : Core) (r : Reg4) (v : Td) : (c.setTd r v).errlog = c.errlog := rfl
@[simp] theorem Core.setTd_errlost (c : Core) (r : Reg4) (v : Td) : (c.setTd r v).errlost = c.errlost := rfl
@[simp] theorem Core.setTd_loop (c : Core) (r : Reg4) (v : Td) : (c.setTd r v).loop = c.loop := rfl
@[simp] theorem Core.setTd_gang (c : Core) (r : Reg4) (v : Td) : (c.setTd r v).gang = c.gang := rfl
@[simp] theorem Core.setTd_wait (c : Core) (r : Reg4) (v : Td) : (c.setTd r v).wait = c.wait := rfl
@[simp] theorem Core.setTd_bound (c : Core) (r : Reg4) (v : Td) : (c.setTd r v).bound = c.bound := rfl
@[simp] theorem Core.setTd_part (c : Core) (r : Reg4) (v : Td) : (c.setTd r v).part = c.part := rfl
@[simp] theorem Core.setTd_held (c : Core) (r : Reg4) (v : Td) : (c.setTd r v).held = c.held := rfl
@[simp] theorem Core.setTd_stopped (c : Core) (r : Reg4) (v : Td) : (c.setTd r v).stopped = c.stopped := rfl
@[simp] theorem Core.setTd_halted (c : Core) (r : Reg4) (v : Td) : (c.setTd r v).halted = c.halted := rfl
@[simp] theorem Core.setTd_exiting (c : Core) (r : Reg4) (v : Td) : (c.setTd r v).exiting = c.exiting := rfl
@[simp] theorem Core.setTd_dom (c : Core) (r : Reg4) (v : Td) : (c.setTd r v).dom = c.dom := rfl
@[simp] theorem Core.setTd_pins (c : Core) (r : Reg4) (v : Td) : (c.setTd r v).pins = c.pins := rfl
@[simp] theorem Core.setTd_stale (c : Core) (r : Reg4) (v : Td) : (c.setTd r v).stale = c.stale := rfl
@[simp] theorem Core.setTd_late (c : Core) (r : Reg4) (v : Td) : (c.setTd r v).late = c.late := rfl
@[simp] theorem Core.setTd_failed (c : Core) (r : Reg4) (v : Td) : (c.setTd r v).failed = c.failed := rfl
@[simp] theorem Core.setTd_unseen (c : Core) (r : Reg4) (v : Td) : (c.setTd r v).unseen = c.unseen := rfl
@[simp] theorem Core.setTd_landings (c : Core) (r : Reg4) (v : Td) : (c.setTd r v).landings = c.landings := rfl
@[simp] theorem Core.setTd_pushers (c : Core) (r : Reg4) (v : Td) : (c.setTd r v).pushers = c.pushers := rfl
@[simp] theorem Core.setTd_boundary (c : Core) (r : Reg4) (v : Td) : (c.setTd r v).boundary = c.boundary := rfl
@[simp] theorem Core.setTd_owed (c : Core) (r : Reg4) (v : Td) : (c.setTd r v).owed = c.owed := rfl
@[simp] theorem Core.setTd_regs_x (c : Core) (r : Reg4) (v : Td) : (c.setTd r v).regs.x = c.regs.x := rfl
@[simp] theorem Core.setTd_regs_f (c : Core) (r : Reg4) (v : Td) : (c.setTd r v).regs.f = c.regs.f := rfl
@[simp] theorem Core.setTd_regs_bx (c : Core) (r : Reg4) (v : Td) : (c.setTd r v).regs.bx = c.regs.bx := rfl
@[simp] theorem Core.setTd_regs_vp (c : Core) (r : Reg4) (v : Td) : (c.setTd r v).regs.vp = c.regs.vp := rfl
@[simp] theorem Core.setTd_regs_vpIssue (c : Core) (r : Reg4) (v : Td) : (c.setTd r v).regs.vpIssue = c.regs.vpIssue := rfl
@[simp] theorem Core.setTd_regs_vpGen (c : Core) (r : Reg4) (v : Td) : (c.setTd r v).regs.vpGen = c.regs.vpGen := rfl
@[simp] theorem Core.setTd_regs_q0 (c : Core) (r : Reg4) (v : Td) : (c.setTd r v).regs.q0 = c.regs.q0 := rfl
@[simp] theorem Core.setTd_regs_q1 (c : Core) (r : Reg4) (v : Td) : (c.setTd r v).regs.q1 = c.regs.q1 := rfl

@[simp] theorem Core.setVp_csr (c : Core) (r : Reg4) (v : VPtr) : (c.setVp r v).csr = c.csr := rfl
@[simp] theorem Core.setVp_trap (c : Core) (r : Reg4) (v : VPtr) : (c.setVp r v).trap = c.trap := rfl
@[simp] theorem Core.setVp_seqctr (c : Core) (r : Reg4) (v : VPtr) : (c.setVp r v).seqctr = c.seqctr := rfl
@[simp] theorem Core.setVp_ring (c : Core) (r : Reg4) (v : VPtr) : (c.setVp r v).ring = c.ring := rfl
@[simp] theorem Core.setVp_pc (c : Core) (r : Reg4) (v : VPtr) : (c.setVp r v).pc = c.pc := rfl
@[simp] theorem Core.setVp_sup (c : Core) (r : Reg4) (v : VPtr) : (c.setVp r v).sup = c.sup := rfl
@[simp] theorem Core.setVp_acc (c : Core) (r : Reg4) (v : VPtr) : (c.setVp r v).acc = c.acc := rfl
@[simp] theorem Core.setVp_actype (c : Core) (r : Reg4) (v : VPtr) : (c.setVp r v).actype = c.actype := rfl
@[simp] theorem Core.setVp_spad (c : Core) (r : Reg4) (v : VPtr) : (c.setVp r v).spad = c.spad := rfl
@[simp] theorem Core.setVp_tiles (c : Core) (r : Reg4) (v : VPtr) : (c.setVp r v).tiles = c.tiles := rfl
@[simp] theorem Core.setVp_inbox (c : Core) (r : Reg4) (v : VPtr) : (c.setVp r v).inbox = c.inbox := rfl
@[simp] theorem Core.setVp_posts (c : Core) (r : Reg4) (v : VPtr) : (c.setVp r v).posts = c.posts := rfl
@[simp] theorem Core.setVp_arrivals (c : Core) (r : Reg4) (v : VPtr) : (c.setVp r v).arrivals = c.arrivals := rfl
@[simp] theorem Core.setVp_eng (c : Core) (r : Reg4) (v : VPtr) : (c.setVp r v).eng = c.eng := rfl
@[simp] theorem Core.setVp_router (c : Core) (r : Reg4) (v : VPtr) : (c.setVp r v).router = c.router := rfl
@[simp] theorem Core.setVp_faults (c : Core) (r : Reg4) (v : VPtr) : (c.setVp r v).faults = c.faults := rfl
@[simp] theorem Core.setVp_recseq (c : Core) (r : Reg4) (v : VPtr) : (c.setVp r v).recseq = c.recseq := rfl
@[simp] theorem Core.setVp_errlog (c : Core) (r : Reg4) (v : VPtr) : (c.setVp r v).errlog = c.errlog := rfl
@[simp] theorem Core.setVp_errlost (c : Core) (r : Reg4) (v : VPtr) : (c.setVp r v).errlost = c.errlost := rfl
@[simp] theorem Core.setVp_loop (c : Core) (r : Reg4) (v : VPtr) : (c.setVp r v).loop = c.loop := rfl
@[simp] theorem Core.setVp_gang (c : Core) (r : Reg4) (v : VPtr) : (c.setVp r v).gang = c.gang := rfl
@[simp] theorem Core.setVp_wait (c : Core) (r : Reg4) (v : VPtr) : (c.setVp r v).wait = c.wait := rfl
@[simp] theorem Core.setVp_bound (c : Core) (r : Reg4) (v : VPtr) : (c.setVp r v).bound = c.bound := rfl
@[simp] theorem Core.setVp_part (c : Core) (r : Reg4) (v : VPtr) : (c.setVp r v).part = c.part := rfl
@[simp] theorem Core.setVp_held (c : Core) (r : Reg4) (v : VPtr) : (c.setVp r v).held = c.held := rfl
@[simp] theorem Core.setVp_stopped (c : Core) (r : Reg4) (v : VPtr) : (c.setVp r v).stopped = c.stopped := rfl
@[simp] theorem Core.setVp_halted (c : Core) (r : Reg4) (v : VPtr) : (c.setVp r v).halted = c.halted := rfl
@[simp] theorem Core.setVp_exiting (c : Core) (r : Reg4) (v : VPtr) : (c.setVp r v).exiting = c.exiting := rfl
@[simp] theorem Core.setVp_dom (c : Core) (r : Reg4) (v : VPtr) : (c.setVp r v).dom = c.dom := rfl
@[simp] theorem Core.setVp_pins (c : Core) (r : Reg4) (v : VPtr) : (c.setVp r v).pins = c.pins := rfl
@[simp] theorem Core.setVp_stale (c : Core) (r : Reg4) (v : VPtr) : (c.setVp r v).stale = c.stale := rfl
@[simp] theorem Core.setVp_late (c : Core) (r : Reg4) (v : VPtr) : (c.setVp r v).late = c.late := rfl
@[simp] theorem Core.setVp_failed (c : Core) (r : Reg4) (v : VPtr) : (c.setVp r v).failed = c.failed := rfl
@[simp] theorem Core.setVp_unseen (c : Core) (r : Reg4) (v : VPtr) : (c.setVp r v).unseen = c.unseen := rfl
@[simp] theorem Core.setVp_landings (c : Core) (r : Reg4) (v : VPtr) : (c.setVp r v).landings = c.landings := rfl
@[simp] theorem Core.setVp_pushers (c : Core) (r : Reg4) (v : VPtr) : (c.setVp r v).pushers = c.pushers := rfl
@[simp] theorem Core.setVp_boundary (c : Core) (r : Reg4) (v : VPtr) : (c.setVp r v).boundary = c.boundary := rfl
@[simp] theorem Core.setVp_owed (c : Core) (r : Reg4) (v : VPtr) : (c.setVp r v).owed = c.owed := rfl
@[simp] theorem Core.setVp_regs_x (c : Core) (r : Reg4) (v : VPtr) : (c.setVp r v).regs.x = c.regs.x := rfl
@[simp] theorem Core.setVp_regs_f (c : Core) (r : Reg4) (v : VPtr) : (c.setVp r v).regs.f = c.regs.f := rfl
@[simp] theorem Core.setVp_regs_bx (c : Core) (r : Reg4) (v : VPtr) : (c.setVp r v).regs.bx = c.regs.bx := rfl
@[simp] theorem Core.setVp_regs_td (c : Core) (r : Reg4) (v : VPtr) : (c.setVp r v).regs.td = c.regs.td := rfl
@[simp] theorem Core.setVp_regs_q0 (c : Core) (r : Reg4) (v : VPtr) : (c.setVp r v).regs.q0 = c.regs.q0 := rfl
@[simp] theorem Core.setVp_regs_q1 (c : Core) (r : Reg4) (v : VPtr) : (c.setVp r v).regs.q1 = c.regs.q1 := rfl

/-! ## Lists by key -/

theorem alGet_alSet_same {α : Type} (k : Nat) (v : α) (l : List (Nat × α)) : alGet k (alSet k v l) = some v := by
  induction l with
  | nil => simp [alSet, alGet]
  | cons h t ih =>
    obtain ⟨a, w⟩ := h
    by_cases h1 : k < a
    · simp [alSet, h1, alGet]
    · by_cases h2 : a = k
      · subst h2; simp [alSet, alGet]
      · simp [alSet, h1, h2, alGet, ih]

theorem alGet_alSet_other {α : Type} {j k : Nat} (h : j ≠ k) (v : α) (l : List (Nat × α)) : alGet j (alSet k v l) = alGet j l := by
  induction l with
  | nil => simp [alSet, alGet, h.symm]
  | cons e t ih =>
    obtain ⟨a, w⟩ := e
    by_cases h1 : k < a
    · simp [alSet, h1, alGet, h.symm]
    · by_cases h2 : a = k
      · subst h2; simp [alSet, alGet, h.symm]
      · simp [alSet, h1, h2, alGet, ih]

theorem alGet_alErase_same {α : Type} (k : Nat) (l : List (Nat × α)) : alGet k (alErase k l) = none := by
  induction l with
  | nil => rfl
  | cons e t ih =>
    obtain ⟨a, w⟩ := e
    by_cases h : a = k
    · simp [alErase, h, ih]
    · simp [alErase, h, alGet, ih]

theorem alGet_alErase_other {α : Type} {j k : Nat} (h : j ≠ k) (l : List (Nat × α)) : alGet j (alErase k l) = alGet j l := by
  induction l with
  | nil => rfl
  | cons e t ih =>
    obtain ⟨a, w⟩ := e
    by_cases h2 : a = k
    · subst h2; simp [alErase, alGet, h.symm, ih]
    · simp [alErase, h2, alGet, ih]

theorem alGet_alUpdate_other {α : Type} {j k : Nat} (h : j ≠ k) (f : α → α) (l : List (Nat × α)) :
    alGet j (alUpdate k f l) = alGet j l := by
  unfold alUpdate; split
  · exact alGet_alSet_other h _ _
  · rfl

theorem alGet_alUpdate_same {α : Type} (k : Nat) (f : α → α) (l : List (Nat × α)) :
    alGet k (alUpdate k f l) = (alGet k l).map f := by
  unfold alUpdate; split
  · next v h => simp [alGet_alSet_same, h]
  · next h => simp [h]

/-! ## Cores, clusters and partitions after a write -/

@[simp] theorem State.coreAt_setCoreAt (s : State) (id : Nat) (c : Core) : (s.setCoreAt id c).coreAt id = c := by
  simp [State.coreAt, State.setCoreAt, alGet_alSet_same]

theorem State.coreAt_setCoreAt_other (s : State) {j id : Nat} (h : j ≠ id) (c : Core) : (s.setCoreAt id c).coreAt j = s.coreAt j := by
  simp [State.coreAt, State.setCoreAt, alGet_alSet_other h]

@[simp] theorem State.coreAt_updCoreAt (s : State) (id : Nat) (f : Core → Core) : (s.updCoreAt id f).coreAt id = f (s.coreAt id) :=
  State.coreAt_setCoreAt s id _

theorem State.coreAt_updCoreAt_other (s : State) {j id : Nat} (h : j ≠ id) (f : Core → Core) :
    (s.updCoreAt id f).coreAt j = s.coreAt j := State.coreAt_setCoreAt_other s h _

@[simp] theorem State.core_updCore (s : State) (f : Core → Core) : (s.updCore f).core = f s.core := State.coreAt_setCoreAt s s.cur _

@[simp] theorem State.core_setX (s : State) (r : Reg) (v : Word) : (s.setX r v).core = s.core.setX r v := State.core_updCore s _

@[simp] theorem State.core_setF (s : State) (r : Reg) (v : Word32) : (s.setF r v).core = s.core.setF r v := State.core_updCore s _

@[simp] theorem State.core_setBx (s : State) (r : Reg4) (v : Region) : (s.setBx r v).core = s.core.setBx r v := State.core_updCore s _

theorem State.coreAt_updCore_other (s : State) {id : Nat} (h : id ≠ s.cur) (f : Core → Core) : (s.updCore f).coreAt id = s.coreAt id :=
  State.coreAt_setCoreAt_other s h _

@[simp] theorem State.coreAt_updCluster (s : State) (n : Nat) (f : Cluster → Cluster) (id : Nat) :
    (s.updCluster n f).coreAt id = s.coreAt id := rfl

@[simp] theorem State.coreAt_updPartAt (s : State) (p : Nat) (f : Partition → Partition) (id : Nat) :
    (s.updPartAt p f).coreAt id = s.coreAt id := rfl

@[simp] theorem State.coreAt_act (s : State) (id j : Nat) : (s.act id).coreAt j = s.coreAt j := rfl

@[simp] theorem State.coreAt_putMem (s : State) (a : Nat) (l : List Byte) (id : Nat) : (s.putMem a l).coreAt id = s.coreAt id := rfl

@[simp] theorem State.coreAt_noteTlb (s : State) (p : Nat) (e : TlbEntry) (id : Nat) : (s.noteTlb p e).coreAt id = s.coreAt id := rfl

@[simp] theorem State.core_noteTlb (s : State) (p : Nat) (e : TlbEntry) : (s.noteTlb p e).core = s.core := rfl

@[simp] theorem State.partAt_updCore (s : State) (f : Core → Core) (p : Nat) : (s.updCore f).partAt p = s.partAt p := rfl

@[simp] theorem State.clusterAt_updCluster (s : State) (n : Nat) (f : Cluster → Cluster) :
    (s.updCluster n f).clusterAt n = f (s.clusterAt n) := by simp [State.clusterAt, State.updCluster, alGet_alSet_same]

theorem State.clusterAt_updCluster_other (s : State) {m n : Nat} (h : m ≠ n) (f : Cluster → Cluster) :
    (s.updCluster n f).clusterAt m = s.clusterAt m := by simp [State.clusterAt, State.updCluster, alGet_alSet_other h]

theorem State.partAt_updPartAt_other (s : State) {m n : Nat} (h : m ≠ n) (f : Partition → Partition) :
    (s.updPartAt n f).partAt m = s.partAt m := by simp [State.partAt, State.updPartAt, alGet_alUpdate_other h]

theorem State.partAt_updPartAt (s : State) (n : Nat) (p : Partition) (h : alGet n s.parts = some p) (f : Partition → Partition) :
    (s.updPartAt n f).partAt n = f p := by simp [State.partAt, State.updPartAt, alGet_alUpdate_same, h]

/-! ## Registers after a write (R38) -/

@[simp] theorem Core.x_zero (c : Core) : c.x 0 = 0 := rfl

theorem Core.x_setX_same (c : Core) (r : Reg) (v : Word) : (c.setX r v).x r = if r = 0 then 0 else v := by
  by_cases h : r = 0
  · subst h; rfl
  · unfold Core.x Core.setX
    rw [if_neg h, if_neg h, if_neg h]
    exact Vector.getElem_set_self _

theorem Core.x_setX_other (c : Core) {r q : Reg} (h : q ≠ r) (v : Word) : (c.setX r v).x q = c.x q := by
  by_cases h0 : r = 0
  · unfold Core.setX; rw [if_pos h0]
  · have h' : r.toNat ≠ q.toNat := fun e => h (BitVec.eq_of_toNat_eq e.symm)
    unfold Core.x Core.setX
    rw [if_neg h0]
    split
    · rfl
    · exact Vector.getElem_set_ne r.isLt q.isLt h'

theorem Core.f_setF_same (c : Core) (r : Reg) (v : Word32) : (c.setF r v).f r = v := by simp [Core.setF, Core.f]

theorem Core.f_setF_other (c : Core) {r q : Reg} (h : q ≠ r) (v : Word32) : (c.setF r v).f q = c.f q := by
  have h' : r.toNat ≠ q.toNat := fun e => h (BitVec.eq_of_toNat_eq e.symm)
  simp [Core.setF, Core.f, h']

theorem Core.bx_setBx_same (c : Core) (r : Reg4) (v : Region) : (c.setBx r v).bx r = v := by simp [Core.setBx, Core.bx]

theorem Core.bx_setBx_other (c : Core) {r q : Reg4} (h : q ≠ r) (v : Region) : (c.setBx r v).bx q = c.bx q := by
  have h' : r.toNat ≠ q.toNat := fun e => h (BitVec.eq_of_toNat_eq e.symm)
  simp [Core.setBx, Core.bx, h']

theorem Core.td_setTd_same (c : Core) (r : Reg4) (v : Td) : (c.setTd r v).td r = v := by simp [Core.setTd, Core.td]

theorem Core.vp_setVp_same (c : Core) (r : Reg4) (v : VPtr) : (c.setVp r v).vp r = v := by simp [Core.setVp, Core.vp]

@[simp] theorem Core.f_setX (c : Core) (r : Reg) (v : Word) (q : Reg) : (c.setX r v).f q = c.f q := by simp [Core.f]

@[simp] theorem Core.bx_setX (c : Core) (r : Reg) (v : Word) (q : Reg4) : (c.setX r v).bx q = c.bx q := by simp [Core.bx]

@[simp] theorem Core.x_setBx (c : Core) (r : Reg4) (v : Region) (q : Reg) : (c.setBx r v).x q = c.x q := by simp [Core.x]

@[simp] theorem Core.x_setF (c : Core) (r : Reg) (v : Word32) (q : Reg) : (c.setF r v).x q = c.x q := by simp [Core.x]

end Sys2Proof.Machine
end

