-- ==== Sys2Proof/Laws/Memory.lean ====
section
/-!
SUPPORT. Memory: what a byte reads after a write, and that every operation on a memory keeps its canonical form (log 4).
-/

set_option linter.unusedSimpArgs false

namespace Sys2Proof.Machine

/-! ## One byte -/

theorem readByte_writeByte_same (m : Memory) (a : Nat) (v : Byte) : readByte (writeByte m a v) a = v := by
  unfold readByte writeByte
  split
  · next h => rw [alGet_alErase_same, h]; rfl
  · rw [alGet_alSet_same]; rfl

theorem readByte_writeByte_other {m : Memory} {a b : Nat} (h : b ≠ a) (v : Byte) :
    readByte (writeByte m a v) b = readByte m b := by
  unfold readByte writeByte
  split
  · rw [alGet_alErase_other h]
  · rw [alGet_alSet_other h]

/-! ## Runs of bytes -/

theorem readByte_writeLE_other {m : Memory} {a b : Nat} (n v : Nat) (h : b < a ∨ a + n ≤ b) :
    readByte (writeLE m a n v) b = readByte m b := by
  induction n generalizing m a v with
  | zero => rfl
  | succ n ih =>
    unfold writeLE
    rw [ih _ (by omega), readByte_writeByte_other (by omega)]

theorem readByte_writeBytes_other {m : Memory} {a b : Nat} (l : List Byte) (h : b < a ∨ a + l.length ≤ b) :
    readByte (writeBytes m a l) b = readByte m b := by
  induction l generalizing m a with
  | nil => rfl
  | cons x t ih =>
    simp only [List.length_cons] at h
    unfold writeBytes
    rw [ih (by omega), readByte_writeByte_other (by omega)]

theorem readLE_congr {m k : Memory} {a : Nat} (n : Nat) (h : ∀ b, a ≤ b → b < a + n → readByte k b = readByte m b) :
    readLE k a n = readLE m a n := by
  induction n generalizing a with
  | zero => rfl
  | succ n ih =>
    unfold readLE
    rw [h a (by omega) (by omega), ih (fun b h1 h2 => h b (by omega) (by omega))]

/-- A run of bytes reads what was last stored there. -/
theorem readLE_writeLE (m : Memory) (a n v : Nat) : readLE (writeLE m a n v) a n = v % 2 ^ (8 * n) := by
  induction n generalizing m a v with
  | zero => simp [readLE, Nat.mod_one]
  | succ n ih =>
    have h1 : readByte (writeLE (writeByte m a (BitVec.ofNat 8 v)) (a + 1) n (v / 256)) a = BitVec.ofNat 8 v := by
      rw [readByte_writeLE_other _ _ (by omega), readByte_writeByte_same]
    have h2 : readLE (writeLE (writeByte m a (BitVec.ofNat 8 v)) (a + 1) n (v / 256)) (a + 1) n = v / 256 % 2 ^ (8 * n) := ih ..
    unfold writeLE readLE
    rw [h1, h2, BitVec.toNat_ofNat]
    have e : 2 ^ (8 * (n + 1)) = 256 * 2 ^ (8 * n) := by rw [show 8 * (n + 1) = 8 + 8 * n by omega, Nat.pow_add]
    rw [e, Nat.mod_mul]

/-- Storing a number is storing its bytes. -/
theorem writeLE_eq (m : Memory) (a n v : Nat) : writeLE m a n v = writeBytes m a (leBytes v n) := by
  induction n generalizing m a v with
  | zero => rfl
  | succ n ih => exact ih ..

theorem leBytes_length (v n : Nat) : (leBytes v n).length = n := by
  induction n generalizing v with
  | zero => rfl
  | succ n ih => simp [leBytes, ih]

/-- The bytes read are those last stored there. -/
theorem readBytes_writeBytes (m : Memory) (a : Nat) (l : List Byte) : readBytes (writeBytes m a l) a l.length = l := by
  induction l generalizing m a with
  | nil => rfl
  | cons b t ih =>
    have h := ih (writeByte m a b) (a + 1)
    unfold readBytes at h ⊢
    rw [List.length_cons, List.range_succ_eq_map, List.map_cons, List.map_map]
    congr 1
    · show readByte (writeBytes (writeByte m a b) (a + 1) t) (a + 0) = b
      rw [readByte_writeBytes_other _ (by omega), Nat.add_zero, readByte_writeByte_same]
    · calc _ = (List.range t.length).map fun i => readByte (writeBytes (writeByte m a b) (a + 1) t) (a + 1 + i) := by
            refine List.map_congr_left fun i _ => ?_
            show readByte (writeBytes (writeByte m a b) (a + 1) t) (a + (i + 1)) = _
            rw [show a + (i + 1) = a + 1 + i by omega]
        _ = t := h

/-! ## The canonical form -/

theorem memFrom_weaken {lo lo' : Nat} {m : Memory} (h : lo' ≤ lo) (hm : memFrom lo m = true) : memFrom lo' m = true := by
  cases m with
  | nil => rfl
  | cons e t =>
    obtain ⟨a, v⟩ := e
    simp only [memFrom, Bool.and_eq_true, decide_eq_true_eq] at hm ⊢
    exact ⟨⟨by omega, hm.1.2⟩, hm.2⟩

theorem memFrom_alErase {lo : Nat} {m : Memory} (a : Nat) (hm : memFrom lo m = true) : memFrom lo (alErase a m) = true := by
  induction m generalizing lo with
  | nil => rfl
  | cons e t ih =>
    obtain ⟨b, v⟩ := e
    simp only [memFrom, Bool.and_eq_true, decide_eq_true_eq] at hm
    unfold alErase
    split
    · exact memFrom_weaken (by omega) (ih hm.2)
    · simp only [memFrom, Bool.and_eq_true, decide_eq_true_eq]
      exact ⟨hm.1, ih hm.2⟩

theorem memFrom_alSet {lo : Nat} {m : Memory} {a : Nat} {v : Byte} (hv : v ≠ 0) (ha : lo ≤ a) (hm : memFrom lo m = true) :
    memFrom lo (alSet a v m) = true := by
  induction m generalizing lo with
  | nil => simp [alSet, memFrom, ha]; simpa using hv
  | cons e t ih =>
    obtain ⟨b, w⟩ := e
    simp only [memFrom, Bool.and_eq_true, decide_eq_true_eq] at hm
    unfold alSet
    split
    · next h =>
      simp only [memFrom, Bool.and_eq_true, decide_eq_true_eq]
      exact ⟨⟨ha, by simpa using hv⟩, ⟨by omega, hm.1.2⟩, hm.2⟩
    · split
      · next h =>
        subst h
        simp only [memFrom, Bool.and_eq_true, decide_eq_true_eq]
        exact ⟨⟨ha, by simpa using hv⟩, hm.2⟩
      · simp only [memFrom, Bool.and_eq_true, decide_eq_true_eq]
        exact ⟨hm.1, ih (by omega) hm.2⟩

theorem memFrom_filter {lo : Nat} {m : Memory} (p : Host.Cell → Bool) (hm : memFrom lo m = true) : memFrom lo (m.filter p) = true := by
  induction m generalizing lo with
  | nil => rfl
  | cons e t ih =>
    obtain ⟨b, v⟩ := e
    simp only [memFrom, Bool.and_eq_true, decide_eq_true_eq] at hm
    rw [List.filter_cons]
    split
    · simp only [memFrom, Bool.and_eq_true, decide_eq_true_eq]
      exact ⟨hm.1, ih hm.2⟩
    · exact memFrom_weaken (by omega) (ih hm.2)

theorem wf_nil : Memory.wf [] = true := rfl

theorem wf_writeByte {m : Memory} (a : Nat) (v : Byte) (h : Memory.wf m = true) : Memory.wf (writeByte m a v) = true := by
  unfold writeByte Memory.wf
  split
  · exact memFrom_alErase a h
  · next hv => exact memFrom_alSet hv (Nat.zero_le a) h

theorem wf_writeLE {m : Memory} (a n v : Nat) (h : Memory.wf m = true) : Memory.wf (writeLE m a n v) = true := by
  induction n generalizing m a v with
  | zero => exact h
  | succ n ih => exact ih _ _ (wf_writeByte _ _ h)

theorem wf_writeBytes {m : Memory} (a : Nat) (l : List Byte) (h : Memory.wf m = true) : Memory.wf (writeBytes m a l) = true := by
  induction l generalizing m a with
  | nil => exact h
  | cons x t ih => exact ih _ (wf_writeByte _ _ h)

theorem wf_filter {m : Memory} (p : Host.Cell → Bool) (h : Memory.wf m = true) : Memory.wf (m.filter p) = true := memFrom_filter p h

theorem wf_clearBytes {m : Memory} (a n : Nat) (h : Memory.wf m = true) : Memory.wf (clearBytes m a n) = true := wf_filter _ h

theorem wf_writeItems {m : Memory} (n a : Nat) (l : List Nat) (h : Memory.wf m = true) : Memory.wf (writeItems n m a l) = true := by
  induction l generalizing m a with
  | nil => exact h
  | cons x t ih => exact ih _ (wf_writeLE _ _ _ h)

theorem wf_writeWords {m : Memory} (a : Nat) (l : List Nat) (h : Memory.wf m = true) : Memory.wf (writeWords m a l) = true := by
  induction l generalizing m a with
  | nil => exact h
  | cons x t ih => exact ih _ (wf_writeLE _ _ _ h)

theorem wf_foldl {α : Type} (f : Memory → α → Memory) (hf : ∀ m x, Memory.wf m = true → Memory.wf (f m x) = true) (l : List α)
    {m : Memory} (h : Memory.wf m = true) : Memory.wf (l.foldl f m) = true := by
  induction l generalizing m with
  | nil => exact h
  | cons x t ih => exact ih (hf _ _ h)

theorem wf_pasteMemory {m : Memory} (a : Nat) (src : Memory) (h : Memory.wf m = true) : Memory.wf (pasteMemory m a src) = true :=
  wf_foldl _ (fun _ _ h => wf_writeByte _ _ h) _ h

theorem wf_putElem {m : Memory} (off w i v : Nat) (h : Memory.wf m = true) : Memory.wf (putElem m off w i v) = true := by
  unfold putElem
  split
  · exact wf_writeByte _ _ h
  · exact wf_writeLE _ _ _ h

theorem wf_putRun {m : Memory} (off w : Nat) (vs : List Nat) (h : Memory.wf m = true) : Memory.wf (putRun m off w vs) = true :=
  wf_foldl _ (fun _ _ h => wf_putElem _ _ _ _ h) _ h

theorem wf_setCoverBit {m : Memory} (cover k : Nat) (h : Memory.wf m = true) : Memory.wf (setCoverBit cover m k) = true :=
  wf_writeByte _ _ h

theorem wf_fixResidue {m : Memory} (off : Nat) (h : Memory.wf m = true) : Memory.wf (fixResidue m off) = true := by
  unfold fixResidue
  simp only
  split
  · exact h
  · exact wf_writeLE _ _ _ h

/-! ## Cores and the device -/

theorem Core.wf_storeAcc {c : Core} (off n v : Nat) (h : c.memoriesWf = true) : (c.storeAcc off n v).memoriesWf = true := by
  simp only [Core.memoriesWf, Bool.and_eq_true] at h ⊢
  exact ⟨h.1, wf_fixResidue _ (wf_fixResidue _ (wf_writeLE _ _ _ h.2))⟩

theorem Core.wf_setX {c : Core} (r : Reg) (v : Word) (h : c.memoriesWf = true) : (c.setX r v).memoriesWf = true := by
  unfold Core.setX; split <;> exact h

theorem Core.wf_setRegWord {c : Core} (k v : Nat) (h : c.memoriesWf = true) : (c.setRegWord k v).memoriesWf = true := by
  unfold Core.setRegWord
  split
  · exact Core.wf_setX _ _ h
  · split
    · exact h
    · split <;> exact h

theorem Core.wf_storeWindow {c : Core} (pl : Place) (n v : Nat) (h : c.memoriesWf = true) : (c.storeWindow pl n v).memoriesWf = true := by
  cases pl with
  | spad _ off =>
    simp only [Core.memoriesWf, Bool.and_eq_true] at h ⊢
    exact ⟨wf_writeLE _ _ _ h.1, h.2⟩
  | acc _ off => exact Core.wf_storeAcc _ _ _ h
  | regwin _ off =>
    unfold Core.storeWindow
    simp only
    split
    · exact Core.wf_setRegWord _ _ h
    · split <;> exact h
  | mem _ => exact h
  | tiles _ _ => exact h
  | inbox _ _ => exact h

theorem Core.wf_hideWrite {c : Core} (id : Nat) (k : OpKey) (tile : Option (BitVec 8)) (used : List (BitVec 8)) (off : Nat) (mask : Byte)
    (new : List Byte) (h : c.memoriesWf = true) : (c.hideWrite id k tile used off mask new).memoriesWf = true := by
  simp only [Core.memoriesWf, Bool.and_eq_true] at h ⊢
  exact ⟨wf_writeBytes _ _ h.1, h.2⟩

theorem Core.wf_foldl {α : Type} {f : Core → α → Core} (hf : ∀ c x, c.memoriesWf = true → (f c x).memoriesWf = true) (l : List α) {c : Core}
    (h : c.memoriesWf = true) : (l.foldl f c).memoriesWf = true := by
  induction l generalizing c with
  | nil => exact h
  | cons x t ih => exact ih (hf _ _ h)

theorem Core.wf_takeEffect {c : Core} (id : Nat) (cmd : Cmd) (o : VOps) (e : VEffect) (h : c.memoriesWf = true) :
    (c.takeEffect id cmd o e).memoriesWf = true :=
  Core.wf_foldl (fun _ _ h => Core.wf_hideWrite _ _ _ _ _ _ _ h) _ h

theorem Core.wf_fillRing {c : Core} (id ring len : Nat) (f : StreamFlit) (h : c.memoriesWf = true) :
    (c.fillRing id ring len f).memoriesWf = true :=
  Core.wf_foldl (fun _ _ h => Core.wf_hideWrite _ _ _ _ _ _ _ h) _ h

theorem Core.wf_exposed {c : Core} (start : Unseen → Bool) (h : c.memoriesWf = true) : (c.exposed start).memoriesWf = true := h

theorem Core.wf_settle {c : Core} (start : Unseen → Bool) (wide : Bool) (h : c.memoriesWf = true) :
    (c.settle start wide).memoriesWf = true := by
  unfold Core.settle
  simp only
  split <;> exact h

theorem Core.wf_idle (id : Nat) : (Core.idle id).memoriesWf = true := rfl

theorem all_alSet {α : Type} (p : α → Bool) {k : Nat} {v : α} {l : List (Nat × α)} (hv : p v = true)
    (h : l.all (fun e => p e.2) = true) : (alSet k v l).all (fun e => p e.2) = true := by
  induction l with
  | nil => simp [alSet, hv]
  | cons e t ih =>
    obtain ⟨a, w⟩ := e
    simp only [List.all_cons, Bool.and_eq_true] at h
    unfold alSet
    split
    · simp [hv, h]
    · split
      · simp [hv, h]
      · simp [h, ih h.2]

theorem all_alErase {α : Type} (p : α → Bool) (k : Nat) {l : List (Nat × α)} (h : l.all (fun e => p e.2) = true) :
    (alErase k l).all (fun e => p e.2) = true := by
  induction l with
  | nil => rfl
  | cons e t ih =>
    obtain ⟨a, w⟩ := e
    simp only [List.all_cons, Bool.and_eq_true] at h
    unfold alErase
    split
    · exact ih h.2
    · simp [h, ih h.2]

theorem alGet_all {α : Type} (p : α → Bool) {k : Nat} {v : α} {l : List (Nat × α)} (h : l.all (fun e => p e.2) = true)
    (hv : alGet k l = some v) : p v = true := by
  induction l with
  | nil => simp [alGet] at hv
  | cons e t ih =>
    obtain ⟨a, w⟩ := e
    simp only [List.all_cons, Bool.and_eq_true] at h
    unfold alGet at hv
    split at hv
    · cases hv; exact h.1
    · exact ih h.2 hv

theorem State.wf_parts {s : State} (h : s.memoriesWf = true) :
    Memory.wf s.mem = true ∧ s.cores.all (fun e => e.2.memoriesWf) = true ∧ s.parts.all (fun e => e.2.memoriesWf) = true ∧
      s.mgmt.memoriesWf = true := by
  simp only [State.memoriesWf, Bool.and_eq_true] at h
  exact ⟨h.1.1.1, h.1.1.2, h.1.2, h.2⟩

theorem State.wf_of_parts {s : State} (h1 : Memory.wf s.mem = true) (h2 : s.cores.all (fun e => e.2.memoriesWf) = true)
    (h3 : s.parts.all (fun e => e.2.memoriesWf) = true) (h4 : s.mgmt.memoriesWf = true) : s.memoriesWf = true := by
  simp [State.memoriesWf, h1, h2, h3, h4]

theorem State.wf_coreAt {s : State} (id : Nat) (h : s.memoriesWf = true) : (s.coreAt id).memoriesWf = true := by
  unfold State.coreAt
  cases e : alGet id s.cores with
  | none => exact Core.wf_idle id
  | some c => exact alGet_all Core.memoriesWf (State.wf_parts h).2.1 e

theorem State.wf_setCoreAt {s : State} (id : Nat) {c : Core} (hc : c.memoriesWf = true) (h : s.memoriesWf = true) :
    (s.setCoreAt id c).memoriesWf = true := by
  obtain ⟨h1, h2, h3, h4⟩ := State.wf_parts h
  exact State.wf_of_parts h1 (all_alSet Core.memoriesWf hc h2) h3 h4

theorem State.wf_updCoreAt {s : State} (id : Nat) {f : Core → Core} (hf : ∀ c, c.memoriesWf = true → (f c).memoriesWf = true)
    (h : s.memoriesWf = true) : (s.updCoreAt id f).memoriesWf = true := State.wf_setCoreAt id (hf _ (State.wf_coreAt id h)) h

theorem State.wf_updCore {s : State} {f : Core → Core} (hf : ∀ c, c.memoriesWf = true → (f c).memoriesWf = true)
    (h : s.memoriesWf = true) : (s.updCore f).memoriesWf = true := State.wf_updCoreAt _ hf h

theorem State.wf_putMem {s : State} (a : Nat) (l : List Byte) (h : s.memoriesWf = true) : (s.putMem a l).memoriesWf = true := by
  obtain ⟨h1, h2, h3, h4⟩ := State.wf_parts h
  exact State.wf_of_parts (wf_writeBytes _ _ h1) h2 h3 h4

theorem State.wf_updPartAt {s : State} (p : Nat) {f : Partition → Partition}
    (hf : ∀ q, q.memoriesWf = true → (f q).memoriesWf = true) (h : s.memoriesWf = true) : (s.updPartAt p f).memoriesWf = true := by
  obtain ⟨h1, h2, h3, h4⟩ := State.wf_parts h
  refine State.wf_of_parts h1 h2 ?_ h4
  show (alUpdate p f s.parts).all _ = true
  unfold alUpdate
  split
  · next v e => exact all_alSet Partition.memoriesWf (hf _ (alGet_all Partition.memoriesWf h3 e)) h3
  · exact h3

theorem State.wf_updCluster {s : State} (n : Nat) (f : Cluster → Cluster) (h : s.memoriesWf = true) :
    (s.updCluster n f).memoriesWf = true := h

theorem State.wf_act {s : State} (id : Nat) (h : s.memoriesWf = true) : (s.act id).memoriesWf = true := h

theorem State.wf_noteTlb {s : State} (p : Nat) (e : TlbEntry) (h : s.memoriesWf = true) : (s.noteTlb p e).memoriesWf = true := by
  refine State.wf_updPartAt _ (fun q hq => ?_) h
  split <;> exact hq

theorem all_mapKeyed {α : Type} (p : α → Bool) (f : Nat × α → Nat × α) {l : List (Nat × α)}
    (hf : ∀ e, p e.2 = true → p (f e).2 = true) (h : l.all (fun e => p e.2) = true) : (l.map f).all (fun e => p e.2) = true := by
  induction l with
  | nil => rfl
  | cons e t ih =>
    simp only [List.map_cons, List.all_cons, Bool.and_eq_true] at h ⊢
    exact ⟨hf e h.1, ih h.2⟩

theorem State.wf_expose {s : State} (who : Option Nat) (pa n : Nat) (h : s.memoriesWf = true) : (s.expose who pa n).memoriesWf = true := by
  obtain ⟨h1, h2, h3, h4⟩ := State.wf_parts h
  unfold State.expose
  split
  · refine State.wf_of_parts h1 (all_mapKeyed Core.memoriesWf _ (fun e he => ?_) h2) h3 h4
    split
    · exact he
    · exact Core.wf_exposed _ he
  · exact h

theorem State.wf_touchBy {s : State} (who : Option Nat) (pa n : Nat) (h : s.memoriesWf = true) : (s.touchBy who pa n).memoriesWf = true :=
  State.wf_expose who pa n h

theorem State.wf_writeNow {s : State} (pl : Place) (n v : Nat) (h : s.memoriesWf = true) : (s.writeNow pl n v).memoriesWf = true := by
  unfold State.writeNow
  split
  · exact State.wf_expose _ _ _ (State.wf_putMem _ _ h)
  · exact State.wf_touchBy _ _ _ (State.wf_updCoreAt _ (fun _ hc => Core.wf_storeWindow _ _ _ hc) h)

theorem State.wf_writePlace {s : State} (pl : Place) (n v : Nat) (half : Option Bool) (h : s.memoriesWf = true) :
    (s.writePlace pl n v half).memoriesWf = true := by
  unfold State.writePlace
  split
  · exact State.wf_writeNow _ _ _ h
  · split
    · exact State.wf_updCoreAt _ (fun _ hc => hc) h
    · exact State.wf_writeNow _ _ _ h

theorem State.wf_noteStale {s : State} (pl : Place) (h : s.memoriesWf = true) : (s.noteStale pl).memoriesWf = true :=
  State.wf_updCore (fun _ hc => hc) h

theorem State.wf_hideStore {s : State} (rel : Bool) (pl : Place) (n v : Nat) (h : s.memoriesWf = true) :
    (s.hideStore rel pl n v).memoriesWf = true := by
  cases pl <;> first | exact h | exact State.wf_updCore (fun _ hc => hc) h

theorem State.wf_storePlace {s : State} (pl : Place) (n v : Nat) (rel : Bool) (h : s.memoriesWf = true) :
    (s.storePlace pl n v rel).memoriesWf = true :=
  State.wf_writePlace pl n v none (State.wf_hideStore rel pl n v (State.wf_noteStale pl h))

theorem State.wf_engineWrite {s : State} (k : OpKey) (tile : Option (BitVec 8)) (used : List (BitVec 8)) (pl : Place) (n v unit : Nat)
    (mask : Byte) (h : s.memoriesWf = true) : (s.engineWrite k tile used pl n v unit mask).memoriesWf = true :=
  State.wf_writePlace pl n v none (State.wf_updCore (fun _ hc => hc) h)

theorem State.wf_streamRead {s : State} (pl : Place) (n : Nat) (wide : Bool) (h : s.memoriesWf = true) :
    (s.streamRead pl n wide).2.memoriesWf = true := by
  unfold State.streamRead
  simp only
  split
  · exact State.wf_touchBy _ _ _ h
  · exact State.wf_updCore (fun _ hc => Core.wf_settle _ _ hc) (State.wf_touchBy _ _ _ h)

theorem State.wf_forEach {α : Type} {s : State} (l : List α) {f : State → α → State}
    (hf : ∀ s x, s.memoriesWf = true → (f s x).memoriesWf = true) (h : s.memoriesWf = true) : (s.forEach l f).memoriesWf = true := by
  unfold State.forEach
  induction l generalizing s with
  | nil => exact h
  | cons x t ih => exact ih (hf _ _ h)

/-! ## What an engine's hidden write leaves in the scratchpad -/

@[simp] theorem Core.hideWrite_spad (c : Core) (id : Nat) (k : OpKey) (tile : Option (BitVec 8)) (used : List (BitVec 8)) (off : Nat)
    (mask : Byte) (new : List Byte) : (c.hideWrite id k tile used off mask new).spad = writeBytes c.spad off new := rfl

/-- An element that a step writes stands in the scratchpad as one put there. -/
theorem Core.hideElem_spad (c : Core) (id : Nat) (cmd : Cmd) (off i v : Nat) {w : Nat} (h : w = 4 ∨ ∃ n, 0 < n ∧ w = 8 * n) :
    (c.hideElem id cmd off w i v).spad = putElem c.spad off w i v := by
  unfold Core.hideElem
  rw [Core.hideWrite_spad]
  unfold putElem
  rcases h with h | ⟨n, hn, h⟩
  · subst h
    simp only [ite_true]
    have e : off + i * 4 / 8 = off + i / 2 := by omega
    rw [e]
    generalize BitVec.ofNat 8 _ = b
    have h1 := readBytes_writeBytes c.spad (off + i / 2) [b]
    simp only [writeBytes, List.length_cons, List.length_nil] at h1
    show writeBytes c.spad (off + i / 2) (readBytes (writeByte c.spad (off + i / 2) b) (off + i / 2) 1) = _
    rw [h1]; rfl
  · have h4 : w ≠ 4 := by omega
    have e : i * w / 8 = i * n := by rw [h, show i * (8 * n) = 8 * (i * n) by ac_rfl]; omega
    have e' : w / 8 = n := by omega
    have em : max 1 n = n := by omega
    simp only [h4, ite_false, e, e', em]
    rw [writeLE_eq]
    have h1 := readBytes_writeBytes c.spad (off + i * n) (leBytes v n)
    rw [leBytes_length] at h1
    rw [h1]

/-- A step leaves in the scratchpad its elements, put there one after another. -/
theorem Core.takeEffect_spad (c : Core) (id : Nat) (cmd : Cmd) (o : VOps) (e : VEffect)
    (h : ∀ x ∈ e.elems o, x.2.1 = 4 ∨ ∃ n, 0 < n ∧ x.2.1 = 8 * n) :
    (c.takeEffect id cmd o e).spad = (e.elems o).foldl (fun m x => putElem m x.1 x.2.1 x.2.2.1 x.2.2.2) c.spad := by
  unfold Core.takeEffect
  generalize e.elems o = l at h
  induction l generalizing c with
  | nil => rfl
  | cons x t ih =>
    rw [List.foldl_cons, List.foldl_cons, ih _ fun y hy => h y (List.mem_cons_of_mem _ hy)]
    rw [Core.hideElem_spad _ _ _ _ _ _ (h x (List.mem_cons_self ..))]

/-- The memory after reset lists nothing, so it is canonical. -/
theorem reset_mem_wf : Memory.wf State.reset.mem = true := rfl

end Sys2Proof.Machine
end

