-- ==== Sys2Proof/Laws/Ops.lean ====
section
/-!
SUPPORT. The shared operations: how an instruction of the control stream ends, retiring, taking a trap, scalar accesses to the own
scratchpad, and a management request.
-/

namespace Sys2Proof.Machine

/-! ## How an instruction ends -/

/-- The effect runs wherever the instruction may stand. -/
theorem State.perform_allowed {s : State} {i : Instr} (eff : State → Except Stop Out) (h : Allowed i s) :
    s.perform i eff = .next (s.settle i (eff s)) := by
  unfold Allowed at h
  simp [State.perform, h]

/-- An instruction that no overwrite body refuses may stand anywhere. -/
theorem allowed_of_not_forbidden {i : Instr} {s : State} (h : overForbids i = false) : Allowed i s := by
  simp [Allowed, h]

/-- Any instruction may stand outside an overwrite body. -/
theorem allowed_of_not_overwriting {i : Instr} {s : State} (h : s.core.overwriting = false) : Allowed i s := by
  simp [Allowed, h]

/-- R256: in an overwrite body a refused instruction has none of its effects. -/
theorem State.perform_forbidden {s : State} {i : Instr} (eff : State → Except Stop Out) (ho : s.core.overwriting = true)
    (h : overForbids i = true) :
    s.perform i eff = .next (s.raiseTrap i { Fail.of Cause.illegal 0 with numbered := takesNumber i }) := by
  simp [State.perform, ho, h, forbidden, State.settle]

/-- An effect that is done retires. -/
theorem State.perform_done {s t : State} {i : Instr} {npc : Word} {eff : State → Except Stop Out} (h : Allowed i s)
    (he : eff s = .ok (.done t npc)) : s.perform i eff = .next (t.retire npc) := by
  rw [State.perform_allowed eff h, he]; rfl

/-- An effect that goes on at the next word completes. -/
theorem completes_of_okay {s t : State} {i : Instr} {eff : State → Except Stop Out} (hx : exec i s = s.perform i eff)
    (h : Allowed i s) (he : eff s = s.okay t) : Completes i s t := by
  unfold Completes
  rw [hx, State.perform_allowed eff h, he]; rfl

/-- An effect that raises a fault takes its trap. -/
theorem State.perform_fault {s : State} {i : Instr} {f : Fail} {eff : State → Except Stop Out} (h : Allowed i s)
    (he : eff s = .error (.fault f)) : s.perform i eff = .next (s.raiseTrap i f) := by
  rw [State.perform_allowed eff h, he]; rfl

/-- A fault by its cause and value. -/
theorem raises_of_raise {s : State} {i : Instr} {cause : Cause} {tval : Word} {eff : State → Except Stop Out}
    (hx : exec i s = s.perform i eff) (h : Allowed i s) (he : eff s = .error (.fault (.of cause tval))) : Raises i s cause tval := by
  unfold Raises
  rw [hx, State.perform_fault h he]

/-- An effect that has to wait changes nothing but the wait, and the line that a load of a line word claims. -/
theorem State.perform_wait {s : State} {i : Instr} {w : Wait} {eff : State → Except Stop Out} (h : Allowed i s)
    (he : eff s = .error (.wait w)) : s.perform i eff = .next (s.waitIn w) := by
  rw [State.perform_allowed eff h, he]; rfl

/-- A wait for anything but a line word, and but a stop partway, changes nothing else. -/
theorem State.waitIn_other {s : State} {w : Wait} (h : ∀ n ph, w ≠ .lineWord n ph) (hp : w ≠ .partway) :
    s.waitIn w = s.updCore fun c => { c with wait := w } := by
  cases w <;> first | rfl | exact absurd rfl (h _ _) | exact absurd rfl hp

/-- A step of a restartable instruction stays at it. -/
theorem State.perform_partway {s t : State} {i : Instr} {eff : State → Except Stop Out} (h : Allowed i s)
    (he : eff s = .ok (.partway t)) : s.perform i eff = .next (t.updCore fun c => c.midway s.core) := by
  rw [State.perform_allowed eff h, he]; rfl

/-- An instruction that sleeps keeps what it has done. -/
theorem State.perform_sleep {s t : State} {i : Instr} {w : Wait} {eff : State → Except Stop Out} (h : Allowed i s)
    (he : eff s = .ok (.sleep t w)) : s.perform i eff = .next (t.updCore fun c => { c with wait := w }) := by
  rw [State.perform_allowed eff h, he]; rfl

/-- A core that leaves its stream retires nothing. -/
theorem State.perform_gone {s t : State} {i : Instr} {eff : State → Except Stop Out} (h : Allowed i s) (he : eff s = .ok (.gone t)) :
    s.perform i eff = .next t := by
  rw [State.perform_allowed eff h, he]; rfl

/-- However an instruction of the control stream ends, it ends in a next state. -/
theorem State.perform_next (s : State) (i : Instr) (eff : State → Except Stop Out) : ∃ t, s.perform i eff = .next t := ⟨_, rfl⟩

/-! ## Checks -/

@[simp] theorem need_true : need true = .ok () := rfl

@[simp] theorem need_false : need false = illegal := rfl

theorem need_ok {c : Bool} (h : c = true) : need c = .ok () := by rw [h]; rfl

theorem need_illegal {c : Bool} (h : c = false) : need c = illegal := by rw [h]; rfl

@[simp] theorem demand_true (e : BitVec 8) : demand true e = .ok () := rfl

@[simp] theorem demand_false (e : BitVec 8) : demand false e = .error e := rfl

/-! ## Retiring (R43, R255) -/

theorem Core.goTo_alone {c : Core} (h : c.loop.running = false) (npc : Word) : c.goTo npc = { c with pc := npc } := by
  unfold Core.goTo
  simp [h]

/-- No pass ends where no loop replays, so no cover bit is set. -/
theorem State.noteCover_idle {s : State} {id : Nat} (h : (s.coreAt id).loop.running = false) (npc : Word) : s.noteCover id npc = s := by
  simp [State.noteCover, h]

/-- Alone, a core goes on at the address and counts the instruction. -/
theorem State.retire_alone {s : State} (h : Alone s) (npc : Word) : s.retire npc = s.updCore fun c =>
    { c with pc := npc, wait := .none, csr := { c.csr with instret := c.csr.instret + 1 } } := by
  obtain ⟨hg, hl⟩ := h
  have hg' : (s.updCore fun c => { c with wait := .none, csr := { c.csr with instret := c.csr.instret + 1 } }).core.gang = none := by
    simp [hg]
  have hl0 : (s.updCore fun c => { c with wait := .none, csr := { c.csr with instret := c.csr.instret + 1 } }).core.loop.running = false := by
    simp [hl]
  unfold State.retire
  simp only [hg']
  rw [State.noteCover_idle hl0]
  unfold State.updCore State.updCoreAt State.setCoreAt
  simp only [State.coreAt]
  have hs : ∀ (v w : Core) (l : List (Nat × Core)), alSet s.cur w (alSet s.cur v l) = alSet s.cur w l := by
    intro v w l
    induction l with
    | nil => simp [alSet]
    | cons e t ih =>
      obtain ⟨a, x⟩ := e
      by_cases h1 : s.cur < a
      · simp [alSet, h1]
      · by_cases h2 : a = s.cur
        · simp [alSet, h2]
        · simp [alSet, h1, h2, ih]
  have hl' : ({ s.core with wait := .none, csr := { s.core.csr with instret := s.core.csr.instret + 1 } } : Core).loop.running = false := hl
  have hx := Core.goTo_alone hl' npc
  simp only [State.core, State.coreAt] at hx
  simp only [alGet_alSet_same, Option.getD_some, hs, hx]

/-! ## Accesses to the own scratchpad (R185) -/

/-- What is stored in a scratchpad is what a load there reads. -/
theorem readLE_storeWindow_spad (c : Core) (id off n v : Nat) :
    readLE (c.storeWindow (.spad id off) n v).spad off n = v % 2 ^ (8 * n) := readLE_writeLE c.spad off n v

/-- A store into a scratchpad leaves every other byte of it. -/
theorem readByte_storeWindow_spad (c : Core) {id off n a : Nat} (v : Nat) (h : a < off ∨ off + n ≤ a) :
    readByte (c.storeWindow (.spad id off) n v).spad a = readByte c.spad a := readByte_writeLE_other n v h

/-! ## Traps (R315) -/

/-- A trap with no gang and no handler running, and with a handler to go to: what the core holds after it. -/
theorem TrapCsrs.enter_saves (t : TrapCsrs) (x : Trap) (pc : Word) (sup more : Bool) :
    (t.enter x pc sup more).tval = x.tval ∧ (t.enter x pc sup more).ih = true ∧ (t.enter x pc sup more).pm = sup ∧
      (t.enter x pc sup more).tvec = t.tvec := by
  simp [TrapCsrs.enter]

/-! ## Requests (R346) -/

/-- A doorbell of a master that the view does not answer changes nothing. -/
theorem State.ring_unreached {s : State} {m : Nat} (f : Request) (h : s.reaches m = false) : s.ring m f = s := by
  simp [State.ring, h]

/-- A doorbell while a request is busy changes its status only (and wakes the device). -/
theorem State.ring_busy {s : State} {m : Nat} (f : Request) (h : s.reaches m = true)
    (hb : s.mgmt.reqState = 1) : s.ring m f = s.wake.updMgmt fun g => { g with reqStatus := reqBusy } := by
  simp [State.ring, h, State.wake, hb]

end Sys2Proof.Machine
end

