-- ==== Sys2Proof/Tests/Slice0.lean ====
section
/-!
SUPPORT. Tests of the model: words the manual writes out, ill-formed terms, one small step per instruction family with values worked
out from the manual, and for every statement a state and operands that meet the hypotheses of its clauses.
-/

set_option Elab.async false
set_option linter.unusedVariables false
set_option maxRecDepth 20000

namespace Sys2Proof.Tests

open Sys2Proof.Machine

/-! ## Words of the manual -/

/-- The RISC-V standard's own layouts, bit by bit: imm[11:0] rs1 funct3 rd opcode; funct7 rs2 rs1 funct3 rd opcode; the S, B, U and J
immediates in their pieces. -/
theorem test_words_standard :
    decode32 (0xFFF#12 ++ 2#5 ++ 0#3 ++ 1#5 ++ 0x13#7) = .ok (.rv64Compute (.opImm .addi 1 2 0xFFF)) ∧
    decode32 (0x20#7 ++ 3#5 ++ 2#5 ++ 0#3 ++ 1#5 ++ 0x33#7) = .ok (.rv64Compute (.op .sub 1 2 3)) ∧
    decode32 (0x10#6 ++ 63#6 ++ 2#5 ++ 5#3 ++ 1#5 ++ 0x13#7) = .ok (.rv64Compute (.shiftImm .sra 1 2 63)) ∧
    decode32 (0x7FF#12 ++ 2#5 ++ 3#3 ++ 1#5 ++ 0x03#7) = .ok (.scalarLoad .ld 1 2 0x7FF) ∧
    decode32 (0x7F#7 ++ 3#5 ++ 2#5 ++ 2#3 ++ 0x1F#5 ++ 0x23#7) = .ok (.scalarStore .sw 3 2 0xFFF) ∧
    decode32 (1#1 ++ 0x3F#6 ++ 3#5 ++ 2#5 ++ 1#3 ++ 0xE#4 ++ 1#1 ++ 0x63#7) = .ok (.rv64Compute (.branch .bne 2 3 0xFFE)) ∧
    decode32 (0x12345#20 ++ 7#5 ++ 0x37#7) = .ok (.rv64Compute (.lui 7 0x12345)) ∧
    decode32 (1#1 ++ 0x3FF#10 ++ 1#1 ++ 0xFF#8 ++ 1#5 ++ 0x6F#7) = .ok (.rv64Compute (.jal 1 0xFFFFF)) ∧
    decode32 (0x00#7 ++ 3#5 ++ 2#5 ++ 7#3 ++ 1#5 ++ 0x53#7) = .ok (.rv64Compute (.farith .fadd 1 2 3 7)) ∧
    decode32 (4#5 ++ 0#2 ++ 3#5 ++ 2#5 ++ 1#3 ++ 1#5 ++ 0x43#7) = .ok (.rv64Compute (.fused .fmadd 1 2 3 4 1)) ∧
    decode32 (0x5C0#12 ++ 2#5 ++ 1#3 ++ 1#5 ++ 0x73#7) = .ok (.csrAccess .rw 1 (.reg 2) 0x5C0) ∧
    decode32 0x0FF0000F = .ok (.fence 0 15 15 0 0) ∧ decode32 0x0000100F = .ok (.fenceI 0 0 0) ∧
    decode32 0x00000073 = .ok .ecall ∧ decode32 0x00100073 = .ok .ebreak :=
  ⟨rfl, rfl, rfl, rfl, rfl, rfl, rfl, rfl, rfl, rfl, rfl, rfl, rfl, rfl, rfl⟩

/-- R60, R84, R94 to R96: `rg.sub bx3, bx1, bx2`, `rg.box bx1, a4, 2`, `rg.ld bx2, 256(a0)`, `td.ld td0, 0(a0)`, `td.ld td1, 64(a0)`. -/
theorem test_words_regions :
    decode32 0x0420818B = .ok (.rgSub 3 1 2) ∧ decode32 0x2027008B = .ok (.rgBox 1 14 2) ∧ decode32 0x1005110B = .ok (.rgLd 2 10 256) ∧
    decode32 0x0005300B = .ok (.tdLd 0 10 0) ∧ decode32 0x0405308B = .ok (.tdLd 1 10 64) ∧
    decode32 (0#7 ++ 2#5 ++ 1#5 ++ 0#3 ++ 3#5 ++ 0x0B#7) = .ok (.rgAnd 3 1 2) ∧
    decode32 (0x01#7 ++ 2#5 ++ 1#5 ++ 2#3 ++ 4#5 ++ 0x0B#7) = .ok (.rgSt 2 1 0x024) :=
  ⟨rfl, rfl, rfl, rfl, rfl, rfl, rfl⟩

/-- R152, R157, R195, R246, R250, R252: pointers, queues, peers, gangs, cinches, the loop buffer and the skiver. -/
theorem test_words_custom0 :
    decode32 0x0007510B = .ok (.vPtr 2 14) ∧ decode32 0x1002D00B = .ok (.qPush 5) ∧ decode32 0x1200558B = .ok (.qPop 11) ∧
    decode32 0x1410530B = .ok (.qCnt 6 1) ∧ decode32 0x20C5D28B = .ok (.paPeer 5 11 12) ∧ decode32 0x3001500B = .ok (.gFuse 2) ∧
    decode32 0x3200500B = .ok .gSplit ∧ decode32 0x4005528B = .ok (.tkTake 5 10) ∧ decode32 0x42B5500B = .ok (.tkClr 10 11) ∧
    decode32 0x4405530B = .ok (.tkQs 6 10) ∧ decode32 0x0073600B = .ok (.lpSet 6 7) ∧ decode32 0x2A20600B = .ok (.lpStep 0 2 5) ∧
    decode32 0x0400628B = .ok (.lpCnt 5) ∧ decode32 0x09DE7F0B = .ok (.ovSet 28 29 1 30) ∧ decode32 0x09D67F0B = .ok (.ovSet 12 29 1 30) ∧
    decode32 0x0200F00B = .ok (.ovDecl 1) ∧ decode32 0x0400730B = .ok (.ovStat 6) ∧ decode32 0x0600F28B = .ok (.ovCov 5 1) :=
  ⟨rfl, rfl, rfl, rfl, rfl, rfl, rfl, rfl, rfl, rfl, rfl, rfl, rfl, rfl, rfl, rfl, rfl, rfl⟩

/-- R11, R147: `mx.k8k8 ac0, a4, a5, f1` and `mx.i8i8 ac3, s2, s3, f0` (accumulate); every pair by its funct3. -/
theorem test_words_matrix :
    decode32 0x08F7002B = .ok (.mxK8k8 0 14 15 .acc 1) ∧ decode32 0x053941AB = .ok (.mxI8i8 3 18 19 .sub 0) ∧
    decode32 (0#5 ++ 1#2 ++ 3#5 ++ 2#5 ++ 1#3 ++ 0#2 ++ 7#3 ++ 0x2B#7) = .ok (.mxK4k4 7 2 3 .ow 0) ∧
    decode32 (0#5 ++ 2#2 ++ 3#5 ++ 2#5 ++ 7#3 ++ 0#2 ++ 7#3 ++ 0x2B#7) = .ok (.mxB16b16 7 2 3 .sub 0) ∧
    decode32 (0#5 ++ 3#2 ++ 3#5 ++ 2#5 ++ 7#3 ++ 0#2 ++ 7#3 ++ 0x2B#7) = .error .unassigned :=
  ⟨rfl, rfl, rfl, rfl, rfl⟩

/-- R61, R188, R190, R192, R214, R235: acquire and release, atomics, waits, events, futures and tasks. -/
theorem test_words_custom2 :
    decode32 0x440582DB = .ok (.lAqW 5 11 .cluster) ∧ decode32 0x760983DB = .ok (.lAqD 7 19 .device) ∧
    decode32 0x7466105B = .ok (.sRlW 6 12 .device) ∧ decode32 0x7699905B = .ok (.sRlD 9 19 .device) ∧
    decode32 0x7000205B = .ok (.feFull .device) ∧ decode32 0x7400205B = .ok (.feRel .device) ∧
    decode32 0xB400205B = .ok (.feRel .system) ∧ decode32 0x0EE102DB = .ok (.tLd 5 2 14) ∧ decode32 0x09A093DB = .ok (.tSt 7 1 26) ∧
    decode32 0x706532DB = .ok (.amAdd 5 6 10 .device) ∧ decode32 0x7095405B = .ok (.amAddn 9 10 .device) ∧
    decode32 0x71C553DB = .ok (.wtCh 7 28 10 .device) ∧ decode32 0x7129D3DB = .ok (.wtCh 7 18 19 .device) ∧
    decode32 0x08B550DB = .ok (.icPin 1 10 11) ∧ decode32 0x000562DB = .ok (.evWait 5 10) ∧ decode32 0x0205605B = .ok (.evFire 10) ∧
    decode32 0x040562DB = .ok (.evBar 5 10) ∧ decode32 0x0605605B = .ok (.evLock 10) ∧ decode32 0x0805605B = .ok (.evUnlock 10) ∧
    decode32 0x0AB562DB = .ok (.evCadd 5 10 11) ∧ decode32 0x0CB5605B = .ok (.evArm 10 11) ∧ decode32 0x0EB5605B = .ok (.evMsg 10 11) ∧
    decode32 0x0092F35B = .ok (.tsSpawn 6 5 9 0) ∧ decode32 0x0200705B = .ok .tsExit ∧ decode32 0x0A00755B = .ok (.tsWeight 10) ∧
    decode32 0x120074DB = .ok (.fuNew 9) ∧ decode32 0x1A74F05B = .ok (.fuSet 9 7) ∧ decode32 0x220575DB = .ok (.fuGet 11 10) ∧
    decode32 0x2A04F2DB = .ok (.fuPoll 5 9) ∧ decode32 0x3204F05B = .ok (.fuDrop 9) :=
  ⟨rfl, rfl, rfl, rfl, rfl, rfl, rfl, rfl, rfl, rfl, rfl, rfl, rfl, rfl, rfl, rfl, rfl, rfl, rfl, rfl, rfl, rfl, rfl, rfl, rfl, rfl, rfl,
    rfl, rfl, rfl⟩

/-- R65, R231, R306, R307, R308, R317 to R319, and the issue words of R7: system forms and issues. -/
theorem test_words_custom3 :
    decode32 0x1005707B = .ok (.polSwap 10) ∧ decode32 0x16B5707B = .ok (.tlbInv 10 11) ∧ decode32 0x12B5707B = .ok (.migBegin 10 11) ∧
    decode32 0x14B5707B = .ok (.migEnd 10 11) ∧ decode32 0x2005707B = .ok (.svScrub 10) ∧ decode32 0x0000707B = .ok .tret ∧
    decode32 0x020572FB = .ok (.sqRd 5 10) ∧ decode32 0x2205707B = .ok (.svHalt 10) ∧
    decode32 0x0000507B = .ok (.engineIssue 5 0 0 0) ∧ decode32 0x000000FB = .ok (.engineIssue 0 1 0 0) ∧
    decode32 0x0000617B = .ok (.engineIssue 6 2 0 0) ∧ decode32 0x000012FB = .ok (.engineIssue 1 5 0 0) ∧
    decode32 0x000053FB = .ok (.engineIssue 5 7 0 0) :=
  ⟨rfl, rfl, rfl, rfl, rfl, rfl, rfl, rfl, rfl, rfl, rfl, rfl, rfl⟩

/-- R230, the example policy: half-words of every kind it uses. -/
theorem test_words_bridle :
    decodeBridle 0x1800 = .ok (.bridleLdc 0 0) ∧ decodeBridle 0x780A = .ok (.bridleJf 0 10) ∧ decodeBridle 0x0902 = .ok (.bridleLi 1 2) ∧
    decodeBridle 0x6904 = .ok (.bridleCeq 1 0 1) ∧ decodeBridle 0x6570 = .ok (.bridleClt 5 3 4) ∧
    decodeBridle 0x9A80 = .ok (.bridleAct 2 2) ∧ decodeBridle 0x9A00 = .ok (.bridleAct 2 0) ∧
    decodeBridle 0x1130 = .ok (.bridleLdq 1 1 4) ∧ decodeBridle 0x8200 = .ok (.bridlePick 2) ∧ decodeBridle 0x9000 = .ok .bridleDefer ∧
    decodeBridle 0x0000 = .ok .bridleEnd ∧ decodeBridle 0x0001 = .error .reservedField :=
  ⟨rfl, rfl, rfl, rfl, rfl, rfl, rfl, rfl, rfl, rfl, rfl, rfl⟩

/-- The pool of the halo program: `tt.bind`, `cp.rg`, `ib.deq`, `tt.wait`, `v.red.add` and `tt.rel`, and the `co.cfg` of R274. -/
theorem test_words_commands :
    decodeCommand 5 ⟨0x1801, 0x00400005, 0x20, 0⟩ =
      .ok (.ttBind ⟨⟨.plain, none, .rne, none, 0⟩, 5, 0x04000, 0x00020, 0, 0⟩) ∧
    decodeCommand 0 ⟨0xFFFFFFFF00120001, 0x0000010000000000, 0, 0⟩ =
      .ok (.cpRg ⟨⟨.plain, some 2, .rne, none, 0xFFFFFFFF⟩, 0, 1, 0, 0, false, 0⟩) ∧
    decodeCommand 6 ⟨0x2801, 0, 0, 5⟩ = .ok (.ibDeq ⟨⟨.plain, none, .rne, none, 0⟩, 0, 5⟩) ∧
    decodeCommand 5 ⟨0x131802, 0x105, 0, 0⟩ = .ok (.ttWait ⟨⟨.plain, some 3, .rne, none, 0⟩, 5, 1⟩) ∧
    decodeCommand 5 ⟨0x1803, 5, 0, 0⟩ = .ok (.ttRel ⟨⟨.plain, none, .rne, none, 0⟩, 5, 0⟩) ∧
    decodeCommand 1 ⟨0x0000001009001028, 0, 0, 0⟩ =
      .ok (.vRedAdd ⟨⟨.plain, none, .rne, some .i16, 16⟩, 0, 0, 0, none, 0, 0, 0, 0, false, false⟩) ∧
    decodeCommand 3 ⟨0x01003001, 0x109, 0x09020209, 0⟩ =
      .ok (.coCfg ⟨⟨.plain, none, .rne, some .f32, 0⟩, 9, 1, .add, ⟨9, 2⟩, ⟨2, 9⟩, ⟨0, 0⟩, ⟨0, 0⟩⟩) :=
  ⟨rfl, rfl, rfl, rfl, rfl, rfl, rfl⟩

/-- R55, R56, R60, R63, R69, R229: words that are no instruction are refused by name. -/
theorem test_words_refused :
    decode32 0x00000001 = .error .shortWord ∧ decode32 0x0000001F = .error .longWord ∧ decode32 0x0000002F = .error .major ∧
    decode32 0x2820818B = .error .unassigned ∧ decode32 (12#4 ++ 2#3 ++ 0#5 ++ 11#5 ++ 0#3 ++ 5#5 ++ 0x5B#7) = .error .scopeCode ∧
    decode32 (0x02#7 ++ 2#5 ++ 0x11#5 ++ 0#3 ++ 3#5 ++ 0x0B#7) = .error .reservedField ∧
    decode32 (0x00#7 ++ 3#5 ++ 2#5 ++ 5#3 ++ 1#5 ++ 0x53#7) = .error .rounding ∧ decodeBridle 0xA000 = .error .unassigned ∧
    decodeCommand 5 ⟨0x1802, 0x105, 0, 0⟩ = .error .command ∧ decodeBridle 0x9AC0 = .error .unassigned ∧
    decodeBridle 0x787F = .error .unassigned ∧ decodeBridle 0x787E = .ok (.bridleJf 0 126) :=
  ⟨rfl, rfl, rfl, rfl, rfl, rfl, rfl, rfl, rfl, rfl, rfl, rfl⟩

/-! ## Ill-formed terms: one for each check of `Instr.wf`, and the nearest well-formed one -/

/-- A bare head. -/
def hd : CmdHead := ⟨.plain, none, .rne, none, 0⟩

/-- A head with a format and a count. -/
def hf (f : Fmt) (n : Nat) : CmdHead := ⟨.plain, none, .rne, some f, BitVec.ofNat 32 n⟩

/-- Operands of a vector command of a format with pointers 0, 1 and 2. -/
def vo (f : Fmt) (n : Nat) : VOps := ⟨hf f n, 0, 0, 1, none, 0, 2, 0, 0, false, false⟩

theorem test_wf_words :
    (Instr.engineIssue 7 0 0 0).wf = false ∧ (Instr.engineIssue 6 0 0 0).wf = true ∧
    (Instr.rv64Compute (.farith .fadd 1 2 3 5)).wf = false ∧ (Instr.rv64Compute (.farith .fadd 1 2 3 7)).wf = true ∧
    (Instr.rv64Compute (.fsqrt 1 2 6)).wf = false ∧ (Instr.rv64Compute (.fcvtToInt .w 1 2 6)).wf = false := by decide

theorem test_wf_copy :
    (Instr.cpRg ⟨hd, 0, 1, 0, 0, false, 0⟩).wf = false ∧
    (Instr.cpRg ⟨⟨.plain, some 2, .rz, none, 0⟩, 0, 1, 0, 0, false, 0⟩).wf = false ∧
    (Instr.cpRg ⟨⟨.plain, some 2, .rne, none, 0⟩, 0, 1, 0, 0, false, 0⟩).wf = true ∧
    (Instr.cpGx ⟨hd, 0, 1, 0, 2, false, 0⟩).wf = false ∧ (Instr.cpGx ⟨hd, 0, 1, 0, 4, true, 0⟩).wf = false ∧
    (Instr.cpGx ⟨hd, 0, 1, 0, 4, false, 0⟩).wf = true ∧ (Instr.cpSx ⟨hd, 0, 1, 0, 4, true, 0⟩).wf = true ∧
    (Instr.cpSx ⟨⟨.plain, some 1, .rne, none, 0⟩, 0, 1, 0, 4, true, 0⟩).wf = false ∧ (Instr.cpFill ⟨hd, 0, 1, 0, 0⟩).wf = false ∧
    (Instr.cpReg ⟨⟨.plain, none, .rne, none, 0⟩, 0, 0, 0, 0⟩).wf = true ∧
    (Instr.cpReg ⟨⟨.plain, none, .rne, none, 128⟩, 8, 0, 8, 0⟩).wf = true ∧
    (Instr.cpReg ⟨⟨.plain, none, .rne, none, 129⟩, 8, 0, 8, 0⟩).wf = false ∧
    (Instr.cpReg ⟨⟨.plain, none, .rne, none, 1⟩, 8, 0, 4, 0⟩).wf = false ∧
    (Instr.cpPf ⟨⟨.plain, none, .rne, none, 32⟩, 0, 0, 0⟩).wf = false ∧
    (Instr.cpPf ⟨⟨.plain, none, .rne, none, 64⟩, 64, 64, 0⟩).wf = true := by decide

theorem test_wf_vector :
    (Instr.vAdd (vo .f32 16)).wf = true ∧ (Instr.vAdd { vo .f32 16 with head := { hf .f32 16 with region := some 1 } }).wf = false ∧
    (Instr.vAdd { vo .f32 16 with tag := 1 }).wf = false ∧ (Instr.vAdd { vo .f32 16 with tag := 1, msg := true }).wf = true ∧
    (Instr.vAdd { vo .f32 16 with vpc := 1 }).wf = false ∧ (Instr.vAdd { vo .f32 16 with sat := true }).wf = false ∧
    (Instr.vAdd { vo .i8 16 with sat := true }).wf = true ∧ (Instr.vAdd (vo .k8 32)).wf = false ∧
    (Instr.vAdd { vo .i8 16 with head := { hf .i8 16 with round := .rz } }).wf = false ∧
    (Instr.vFma { vo .f32 16 with imm := 1 }).wf = false ∧ (Instr.vMin { vo .f32 16 with head := { hf .f32 16 with round := .rz } }).wf = false ∧
    (Instr.vShl (vo .f32 16)).wf = false ∧ (Instr.vCmpEq (vo .f32 16)).wf = false ∧
    (Instr.vCmpEq { vo .f32 16 with vpd := 0, vpc := 2 }).wf = true ∧ (Instr.vSel { vo .f32 16 with sfmt := some .f16 }).wf = false := by
  decide

theorem test_wf_vector_more :
    (Instr.vCvt { vo .f32 32 with vpb := 0, sfmt := some .k8 }).wf = true ∧
    (Instr.vCvt { vo .f32 31 with vpb := 0, sfmt := some .k8 }).wf = false ∧
    (Instr.vCvt { vo .f32 32 with vpb := 0, sfmt := some .f32 }).wf = false ∧
    (Instr.vCvt { vo .k4 32 with vpb := 0, sfmt := some .k8 }).wf = false ∧ (Instr.vCvt { vo .f32 32 with vpb := 0 }).wf = false ∧
    (Instr.vExp2 { vo .i32 16 with vpb := 0 }).wf = false ∧ (Instr.vExp2 { vo .f16 16 with vpb := 0 }).wf = true ∧
    (Instr.vRedAdd { vo .f32 16 with vpb := 0 }).wf = false ∧ (Instr.vRedAdd { vo .f32 16 with vpb := 0, vpd := 0 }).wf = true ∧
    (Instr.vRedMax { vo .f32 16 with vpb := 0, vpd := 0, sat := true }).wf = false ∧ (Instr.vScl (vo .f32 16)).wf = false ∧
    (Instr.vNzs { vo .f32 16 with vpb := 0, sfmt := some .f16 }).wf = false ∧ (Instr.vBcast { vo .f32 16 with vpb := 0 }).wf = false ∧
    (Instr.vPerm { vo .f32 16 with vpc := 1 }).wf = false ∧ (Instr.vMov (vo .f32 16)).wf = false ∧
    (Instr.vFill { vo .i8 16 with vpb := 0, vpd := 0, imm := 256 }).wf = false ∧
    (Instr.vFill { vo .i8 16 with vpb := 0, vpd := 0, imm := 255 }).wf = true ∧
    (Instr.vTrn { vo .i8 16 with vpb := 0, imm := 32 }).wf = false ∧ (Instr.vTrn { vo .i8 16 with vpb := 0, imm := 0x400040 }).wf = true ∧
    (Instr.vTrn { vo .i4 16 with vpb := 0, imm := 0x400040 }).wf = false := by decide

theorem test_wf_accumulators :
    (Instr.mClr ⟨hf .f16 0, 0⟩).wf = false ∧ (Instr.mClr ⟨hf .i32 0, 0⟩).wf = true ∧ (Instr.mClr ⟨hf .i32 1, 0⟩).wf = false ∧
    (Instr.mLd ⟨hf .f32 0, 0, 0, 0, 0, 0⟩).wf = true ∧ (Instr.mLd ⟨hf .f32 32, 0, 0, 0, 0, 0⟩).wf = true ∧
    (Instr.mLd ⟨hf .f32 33, 0, 0, 0, 0, 0⟩).wf = false ∧ (Instr.mLd ⟨hf .n32 32, 0, 0, 0, 0, 0⟩).wf = false ∧
    (Instr.mCvt ⟨hf .k8 32, 0, 0, 1, 0, 16, 0, 0⟩).wf = false ∧ (Instr.mCvt ⟨hf .k8 32, 0, 0, 1, 0, 32, 0, 0⟩).wf = true ∧
    (Instr.mCvt ⟨hf .f32 32, 0, 0, 1, 0, 0, 0, 0⟩).wf = false ∧ (Instr.mCvt ⟨hf .e8 32, 0, 0, 0, 0, 0, 0, 0⟩).wf = false ∧
    (Instr.mSv ⟨hd, 32, 0, 0⟩).wf = false ∧ (Instr.mSv ⟨hd, 64, 0, 5⟩).wf = true ∧ (Instr.mRs ⟨hd, 64, 0, 5⟩).wf = false := by decide

theorem test_wf_tiles :
    (Instr.ttBind ⟨hd, 1, 0, 0, 0, 0⟩).wf = false ∧ (Instr.ttBind ⟨hd, 1, 0xBFFFF, 1, 0, 0⟩).wf = true ∧
    (Instr.ttBind ⟨hd, 1, 0xBFFFF, 2, 0, 0⟩).wf = false ∧ (Instr.ttBind ⟨hf .i8 0, 1, 0, 64, 0, 0⟩).wf = false ∧
    (Instr.ttWait ⟨hd, 1, 1⟩).wf = false ∧ (Instr.ttWait ⟨{ hd with region := some 3 }, 255, 1⟩).wf = true ∧
    (Instr.ttWait ⟨{ hd with region := some 3 }, 255, 2⟩).wf = false ∧ (Instr.ttWait ⟨{ hd with region := some 3 }, 0, 257⟩).wf = false ∧
    (Instr.ttRel ⟨hd, 1, 1⟩).wf = false ∧ (Instr.ttStat ⟨hd, 1, 1⟩).wf = true ∧ (Instr.ibDeq ⟨hd, 1, 1⟩).wf = false ∧
    (Instr.ibPeek ⟨hd, 1, 1⟩).wf = true ∧ (Instr.ibPeek ⟨hf .f32 0, 1, 1⟩).wf = false := by decide

theorem test_wf_collectives :
    (Instr.coCfg ⟨hf .f32 0, 9, 1, .add, ⟨9, 2⟩, ⟨2, 9⟩, ⟨0, 0⟩, ⟨0, 0⟩⟩).wf = true ∧
    (Instr.coCfg ⟨hf .f32 0, 9, 1, .add, ⟨0, 2⟩, ⟨2, 9⟩, ⟨0, 0⟩, ⟨0, 0⟩⟩).wf = false ∧
    (Instr.coCfg ⟨hf .f32 0, 9, 1, .add, ⟨9, 8⟩, ⟨2, 9⟩, ⟨0, 0⟩, ⟨0, 0⟩⟩).wf = false ∧
    (Instr.coCfg ⟨hf .f32 0, 9, 0, .add, ⟨9, 2⟩, ⟨2, 9⟩, ⟨0, 0⟩, ⟨0, 0⟩⟩).wf = false ∧
    (Instr.coCfg ⟨hf .i16 0, 9, 1, .add, ⟨9, 2⟩, ⟨2, 9⟩, ⟨0, 0⟩, ⟨0, 0⟩⟩).wf = false ∧
    (Instr.coRed ⟨hf .k8 64, 0, 0, 0, 0⟩).wf = false ∧ (Instr.coBcast ⟨hf .i32 64, 0, 0, 0, 0⟩).wf = true ∧
    (Instr.coAllr ⟨hf .f32 64, 0, 0, true, 4095, 1, 0⟩).wf = true ∧ (Instr.coAllr ⟨hf .f32 64, 0, 0, true, 4095, 2, 0⟩).wf = false ∧
    (Instr.coAllr ⟨hf .f32 64, 0, 0, true, 0, 0, 0⟩).wf = false ∧ (Instr.coMark ⟨hf .f32 0, 0⟩).wf = false ∧
    (Instr.spOpen ⟨hd, 0, 64, 0, true, false, 0, 0, 0⟩).wf = true ∧ (Instr.spOpen ⟨hd, 32, 64, 0, true, false, 0, 0, 0⟩).wf = false ∧
    (Instr.spOpen ⟨hd, 0, 64, 0, true, false, 1, 0, 0⟩).wf = false ∧ (Instr.spOpen ⟨hd, 0, 64, 0, false, false, 1, 0, 0⟩).wf = false ∧
    (Instr.spSend ⟨{ hd with count := 12 }, 0, 0, 0, false⟩).wf = false ∧ (Instr.spClose ⟨{ hd with count := 1 }, 0⟩).wf = false := by
  decide

theorem test_wf_media :
    (Instr.dCfg ⟨{ hd with count := 10240 }, 0x1000, 0, .av1, 16, 16, 0⟩).wf = true ∧
    (Instr.dCfg ⟨{ hd with count := 10239 }, 0x1000, 0, .av1, 16, 16, 0⟩).wf = false ∧
    (Instr.dCfg ⟨{ hd with count := 10240 }, 0x800, 0, .av1, 16, 16, 0⟩).wf = false ∧
    (Instr.dCfg ⟨{ hd with count := 0xFFFFFFFF }, 0x1000, 0, .av1, 4097, 16, 0⟩).wf = false ∧
    (Instr.dDec ⟨hf .k8 16777216, 0, 0, 1, 0, 0⟩).wf = true ∧ (Instr.dDec ⟨hf .k8 16777217, 0, 0, 1, 0, 0⟩).wf = false ∧
    (Instr.dDec ⟨hf .f16 1, 0, 0, 1, 0, 0⟩).wf = false ∧ (Instr.dDec ⟨hf .f32 1, 0, 0, 0, 0, 0⟩).wf = false := by decide

/-! ## States to stand on -/

/-- A placed task on core 0: `addi x0, x0, 0` at its pc, a partition of one cluster, every address mapped to itself (log 38). -/
def base : State := State.reset.placeWord 0x13

/-- Set x registers, by number. -/
def withX (s : State) (l : List (Nat × Nat)) : State := l.foldl (fun s e => s.setX (BitVec.ofNat 5 e.1) (BitVec.ofNat 64 e.2)) s

/-- The acting core changed. -/
def withCore (s : State) (f : Core → Core) : State := s.updCore f

/-- The acting core in supervisor mode. -/
def sup : State := base.updCore fun c => { c with sup := true }

/-- In a handler: the trap came from task mode at 0x200040, the handler stands at 0x500000. -/
def handler : State := base.updCore fun c => { c with
  sup := true, pc := 0x500000, trap := { c.trap with ih := true, tepc := 0x80010, tvec := 0x140000 } }

/-- A loop of two words at the pc runs its first pass, with one to come. -/
def looping : State := base.updCore fun c => { c with
  loop := { c.loop with body := [0x13, 0x13], start := 0x200000, mode := .loop, left := 1 } }

/-- An overwriting loop runs. -/
def overwriting : State := base.updCore fun c => { c with
  loop := { c.loop with body := [0x13, 0x13], start := 0x200000, mode := .overwrite, left := 1, pass := 1, everSet := true } }

/-- Cores 0 and 1 run the placed task as a gang of two; core 0 has retired and core 1 acts. -/
def gangOfTwo : State :=
  ((base.updCoreAt 0 fun c => { c with gang := some ⟨2, 0, some 0x200004⟩ }).updCoreAt 1 fun _ =>
    { base.core with gang := some ⟨2, 0, none⟩ }).act 1

/-- A device that is ready, with masters 0 and 3 up and master 0 the owner. -/
def managed : State := { base with mgmt := { base.mgmt with stage := .ready, up := [0, 3], owner := 0 } }

/-- The words of a command. -/
def wordsOf (i : Instr) : CmdWords :=
  match encode i with
  | .command _ w => w
  | .word _ | .half _ | .none => ⟨0, 0, 0, 0⟩

/-! ## Witnesses: the step and the encodings -/

theorem witness_StepKeepsMemoriesCanonical : base.memoriesWf = true ∧ ∃ s', step base = .next s' := ⟨by decide +kernel, _, rfl⟩

theorem witness_StepRunsTheTurn_word :
    base.agenda = [.stream 0] ∧ base.mgmt.pstate = 0 ∧ (base.coreAt 0).runnable = true ∧ (base.coreAt 0).faults = [] ∧
      decode32 0x13 = .ok (.rv64Compute (.opImm .addi 0 0 0)) ∧ ∃ s', (base.advance.act 0).fetchWord = .ok (0x13, s') :=
  ⟨by decide +kernel, by decide +kernel, by decide +kernel, by decide +kernel, rfl, _, rfl⟩

theorem witness_StepRunsTheTurn_fetch :
    base.core.gang = none ∧ base.core.loop.running = false ∧ base.core.stale = [] ∧ base.poisoned 0x200000 4 = false ∧
      ∃ s', base.resolve base.core.sup .exec base.core.pc.toNat 4 6 = .ok (.mem 0x200000, s') :=
  ⟨by decide +kernel, by decide +kernel, by decide +kernel, by decide +kernel, _, rfl⟩

/-- Core 1 of a gang acts while q1 of core 0, which has not retired, holds nothing for a `q.pop`, or something; and a core in no gang. -/
def popping (l : List Word) : State :=
  let member (q : List Word) (c : Core) : Core :=
    { c with gang := some ⟨2, 0, none⟩, regs := { c.regs with q1 := q }, pushers := q.map fun _ => ⟨1, 0, 0⟩ }
  ((base.updCoreAt 0 fun c => member l c).updCoreAt 1 fun _ => member [7] base.core).act 1

theorem witness_StepRunsTheTurn_gang : (popping []).gangHold? (.qPop 1) = some .counted ∧ (popping [7]).gangHold? (.qPop 1) = none ∧
    base.core.gang = none ∧ base.gangHold? (.qPop 1) = none := by decide +kernel

/-- `v.add` of 16 F32 elements as a vector command placed at the head of its queue. -/
def vectorHead : State := State.reset.placeCommand (wordsOf (.vAdd (vo .f32 16)))

theorem witness_StepRunsTheTurn_vector : ∃ cmd i, vectorHead.agenda = [.engine 0 1 0] ∧ (vectorHead.coreAt 0).enginesRun = true ∧
    (vectorHead.coreAt 0).eng.vrun = none ∧ (vectorHead.coreAt 0).eng.vq.head? = some cmd ∧ decodeCommand 1 cmd.words = .ok i :=
  ⟨_, _, rfl, rfl, rfl, rfl, rfl⟩

/-- Heads of the other engines: a fill, an accumulator clear, a collective and a decode. -/
def headOf (i : Instr) : State := State.reset.placeCommand (wordsOf i)

theorem witness_StepRunsTheTurn_heads :
    (∃ cmd i, let s := headOf (.cpFill ⟨{ hd with region := some 1 }, 0, 1, 0, 0⟩)
      s.agenda = [.engine 0 0 0] ∧ s.mgmt.pstate = 0 ∧ (s.coreAt 0).enginesRun = true ∧ (s.coreAt 0).eng.cq.head? = some cmd ∧
        decodeCommand 0 cmd.words = .ok i) ∧
    (∃ cmd i, let s := headOf (.mClr ⟨hf .i32 0, 0⟩)
      s.agenda = [.engine 0 2 0] ∧ (s.coreAt 0).enginesRun = true ∧ (s.coreAt 0).eng.mrun = none ∧
        (s.coreAt 0).eng.mq.head? = some cmd ∧ cmd.mx = none ∧ decodeCommand 2 cmd.words = .ok i) ∧
    (∃ cmd i, let s := headOf (.coBcast ⟨hf .i32 64, 0, 0, 0, 0⟩)
      s.agenda = [.engine 0 3 0] ∧ (s.coreAt 0).enginesRun = true ∧ (s.coreAt 0).eng.krun = none ∧
        (s.coreAt 0).eng.kq.head? = some cmd ∧ decodeCommand 3 cmd.words = .ok i) ∧
    (∃ cmd i, let s := headOf (.dDec ⟨hf .k8 1, 0, 0, 1, 0, 0⟩)
      s.agenda = [.engine 0 4 0] ∧ (s.coreAt 0).enginesRun = true ∧ (s.coreAt 0).eng.drun = none ∧
        (s.coreAt 0).eng.dq.head? = some cmd ∧ decodeCommand 4 cmd.words = .ok i) :=
  ⟨⟨_, _, rfl, rfl, rfl, rfl, rfl⟩, ⟨_, _, rfl, rfl, rfl, rfl, rfl, rfl⟩, ⟨_, _, rfl, rfl, rfl, rfl, rfl⟩, ⟨_, _, rfl, rfl, rfl, rfl, rfl⟩⟩

/-- A command of an engine that core 0 holds. -/
def held (i : Instr) (mx : Option MxCmd) : Cmd := { State.reset.captured (wordsOf i) false 0 with mx := mx }

/-- An engine's turn on a core with an engine state of its own. -/
def engineTurn (e : BitVec 3) (pick : Nat) (f : Engines → Engines) : State :=
  (State.reset.placeTask (.engine 0 e pick)).updCore fun c => { c with eng := f c.eng }

/-- Commands in flight: the second copy of two, a vector command, a collective, a matrix head and a product; and engines with nothing
at hand or with a message still to post. -/
theorem witness_StepRunsTheTurn_runs :
    (let cmd := held (.cpFill ⟨{ hd with region := some 1 }, 0, 1, 0, 0⟩) none
     let s := engineTurn 0 2 fun g => { g with copies := [⟨cmd, 0, none, 0, false, false, 0, false, none⟩,
       ⟨cmd, 1, none, 0, false, false, 0, false, none⟩] }
     s.agenda = [.engine 0 0 2] ∧ (s.coreAt 0).enginesRun = true ∧ (∃ r, (s.coreAt 0).eng.copies[1]? = some r ∧ r.cmd = cmd) ∧
       ∃ i, decodeCommand 0 cmd.words = .ok i) ∧
    (let cmd := held (.vAdd (vo .f32 16)) none
     let s := engineTurn 1 0 fun g => { g with vrun := some ⟨cmd, 0, [], 0, ExactSum.empty, 0, 0, none, none, false⟩ }
     (s.coreAt 0).enginesRun = true ∧ (∃ r, (s.coreAt 0).eng.vrun = some r ∧ r.cmd = cmd) ∧ ∃ i, decodeCommand 1 cmd.words = .ok i) ∧
    (let cmd := held (.coBcast ⟨hf .i32 64, 0, 0, 0, 0⟩) none
     let s := engineTurn 3 0 fun g => { g with krun := some ⟨cmd, 0, 0, 0, 0, 0, none, none⟩ }
     (s.coreAt 0).enginesRun = true ∧ (∃ r, (s.coreAt 0).eng.krun = some r ∧ r.cmd = cmd) ∧ ∃ i, decodeCommand 3 cmd.words = .ok i) ∧
    (let cmd := held (.mClr ⟨hf .i32 0, 0⟩) (some ⟨.k8k8, .acc, 0, 0, 0, 0, 0, 0⟩)
     let s := engineTurn 2 0 fun g => { g with mq := [cmd] }
     (s.coreAt 0).enginesRun = true ∧ (s.coreAt 0).eng.mrun = none ∧ (s.coreAt 0).eng.mq.head? = some cmd ∧ cmd.mx.isSome = true) ∧
    (let s := engineTurn 2 0 fun g => { g with mrun := some (.product ⟨held (.mClr ⟨hf .i32 0, 0⟩) none, 0, 0, 0⟩) }
     (s.coreAt 0).enginesRun = true ∧ ∃ p, (s.coreAt 0).eng.mrun = some (.product p)) ∧
    (let s := engineTurn 2 0 fun g => { g with mrun := some (.posting (held (.mClr ⟨hf .i32 0, 0⟩) none) ⟨0, false, 0, 0, 0, 0, 0⟩ 0) }
     (s.coreAt 0).enginesRun = true ∧ ∃ c l m, (s.coreAt 0).eng.mrun = some (.posting c l m)) ∧
    (let s := engineTurn 4 0 fun g => { g with drun := some ⟨held (.dDec ⟨hf .k8 1, 0, 0, 1, 0, 0⟩) none, 0, none⟩ }
     (s.coreAt 0).enginesRun = true ∧ (s.coreAt 0).eng.drun.isSome = true) ∧
    ((engineTurn 0 0 id).coreAt 0).eng.cq = [] ∧ ((engineTurn 1 0 id).coreAt 0).eng.vq = [] ∧
      ((engineTurn 2 0 id).coreAt 0).eng.mq = [] ∧ ((engineTurn 3 0 id).coreAt 0).eng.kq = [] ∧
      ((engineTurn 4 0 id).coreAt 0).eng.dq = [] :=
  ⟨⟨rfl, rfl, ⟨_, rfl, rfl⟩, _, rfl⟩, ⟨rfl, ⟨_, rfl, rfl⟩, _, rfl⟩, ⟨rfl, ⟨_, rfl, rfl⟩, _, rfl⟩, ⟨rfl, rfl, rfl, rfl⟩, ⟨rfl, _, rfl⟩,
    ⟨rfl, _, _, _, rfl⟩, ⟨rfl, rfl⟩, rfl, rfl, rfl, rfl, rfl⟩

/-- A policy program of the one half-word `end`, in a decision. -/
def bridled : State := State.reset.placeHalf 0

theorem witness_StepRunsTheTurn_bridle : ∃ p d pol, bridled.agenda = [.bridle 0] ∧ alGet 0 bridled.parts = some p ∧
    p.decision = some d ∧ p.program = some pol ∧ pol.code[d.index]? = some 0 ∧ decodeBridle 0 = .ok .bridleEnd :=
  ⟨_, _, _, rfl, rfl, rfl, rfl, rfl, rfl⟩

theorem witness_StepRunsTheTurn_event : encode .powerWake = .none ∧ (∀ p, Instr.powerWake ≠ .queueDeadlock p) ∧
    ({ base with agenda := [.event .powerWake] } : State).agenda = .event .powerWake :: [] ∧
    ({ base with agenda := [.stream 4096] } : State).agenda = .stream 4096 :: [] := ⟨rfl, (by intro p h; cases h), rfl, rfl⟩

theorem witness_WordsHaveOneMeaning : (∃ i, decode32 0x13 = .ok i) ∧ (∃ i, decodeBridle 0 = .ok i) ∧
    ∃ i, decodeCommand 1 (wordsOf (.vAdd (vo .f32 16))) = .ok i := ⟨⟨_, rfl⟩, ⟨_, rfl⟩, _, rfl⟩

/-! ## Witnesses: the standard part -/

theorem witness_RetireAndControlFlow_retire :
    (base.core.gang = none ∧ base.core.loop.running = false) ∧
    (looping.core.gang = none ∧ looping.core.loop.mode = .loop ∧ looping.core.loop.suspended = false ∧
      looping.core.loop.bodyEnd = 0x200008 ∧ looping.core.loop.left ≠ 0) ∧
    (let s := looping.updCore fun c => { c with loop := { c.loop with left := 0 } }
     s.core.gang = none ∧ s.core.loop.mode = .loop ∧ s.core.loop.suspended = false ∧ s.core.loop.left = 0) ∧
    (let s := gangOfTwo.act 0
     ∃ g, s.core.gang = some g ∧ 1 < g.size ∧ g.leader + 1 ≠ s.cur ∧ ((s.coreAt 1).gang.bind (·.retired)) = none) ∧
    (∃ g, gangOfTwo.core.gang = some g ∧ gangOfTwo.cur = g.leader + (g.size - 1) ∧ 2 ≤ g.size ∧
      (gangOfTwo.coreAt 0).gang = some { g with retired := some 0x200004 } ∧ (gangOfTwo.coreAt 0).loop.running = false) := by
  refine ⟨by decide +kernel, by decide +kernel, by decide +kernel, ⟨_, rfl, by decide +kernel, by decide +kernel, by decide +kernel⟩, ⟨_, rfl, by decide +kernel, by decide +kernel, by decide +kernel, by decide +kernel⟩⟩

/-- Targets: a `jal` of 8 bytes is aligned and one of 6 is not; 8 bytes on from the first word leave a body of two words, and 4 do
not; a branch on equal registers is taken and on x1 = 1 it is not. -/
theorem witness_RetireAndControlFlow_flow :
    let t (s : State) (j : BitVec 20) := s.core.pc + (j ++ 0#1).signExtend 64
    base.bodyIndex? = none ∧ (t base 4).toNat % 4 = 0 ∧ (t base 3).toNat % 4 ≠ 0 ∧ looping.bodyIndex? ≠ none ∧
      inBody looping.loop.start looping.loop.body.length (t looping 2) = true ∧
      inBody looping.loop.start looping.loop.body.length (t looping 5) = false ∧
      ((withX base [(1, 0x200008)]).x 1 + BitVec.signExtend 64 3#12 &&& ~~~1).toNat % 4 = 2 ∧
      ((withX base [(1, 0x200008)]).x 1 + BitVec.signExtend 64 1#12 &&& ~~~1).toNat % 4 = 0 ∧
      ((withX base [(1, 1)]).x 1 == (withX base [(1, 1)]).x 0) = false ∧ (base.x 1 == base.x 0) = true := by decide +kernel

/-- A follower of a gang, whose own target is no multiple of 4, after its leader has jumped and before. -/
theorem witness_RetireAndControlFlow_follower : (∃ g, gangOfTwo.core.gang = some g ∧ g.leader ≠ gangOfTwo.cur ∧
      ((gangOfTwo.coreAt g.leader).gang.bind (·.retired)).isSome = true) ∧
    (∃ g, (popping []).core.gang = some g ∧ g.leader ≠ (popping []).cur ∧
      (((popping []).coreAt g.leader).gang.bind (·.retired)).isSome = false) ∧
    ((withX gangOfTwo [(1, 0x200008)]).x 1 + BitVec.signExtend 64 3#12 &&& ~~~1).toNat % 4 ≠ 0 :=
  ⟨⟨_, rfl, by decide +kernel, by decide +kernel⟩, ⟨_, rfl, by decide +kernel, by decide +kernel⟩, by decide +kernel⟩

/-- Two F32 operands. -/
def floats (x y : Word32) : State := (base.setF 1 x).setF 2 y

/-- The cases of the sign, the order and NaN: 1 and 2, 2 and 1, the two zeros, and a quiet NaN on either side or on both. -/
theorem witness_FloatResults : base.core.frmOf 7 = some .rne ∧ base.core.frmOf 5 = none ∧
    (let ordered (x y : Word32) (o : Ordering) : Prop :=
       let s := floats x y
       isNan32 (s.f 1) = false ∧ isNan32 (s.f 2) = false ∧ (fval (s.f 1)).cmp (fval (s.f 2)) = some o
     ordered 0x3F800000 0x40000000 .lt ∧ ordered 0x40000000 0x3F800000 .gt ∧ ordered 0 0x80000000 .eq ∧ ordered 0x80000000 0 .eq) ∧
    (floats 0x80000000 0).f 1 = 0x80000000 ∧
    isNan32 ((floats 0x3F800000 0x7FC00000).f 1) = false ∧ isNan32 ((floats 0x3F800000 0x7FC00000).f 2) = true ∧
      isNan32 ((floats 0x7F800001 0x3F800000).f 1) = true ∧ isSnan32 ((floats 0x7F800001 0x3F800000).f 1) = true ∧
      isSnan32 ((floats 0x3F800000 0x7FC00000).f 2) = false := by decide +kernel

/-- Conversions: -1.5, 2^31, an infinity of each sign and a NaN; and a number of every class. -/
theorem witness_FloatResults_conversions :
    fval 0xBFC00000 = .fin true 0xC00000 (-23) ∧ signed true (roundTo true 0xC00000 (-23) 0 .rz 0).1 = -1 ∧
    fval 0x4F000000 = .fin false 0x800000 8 ∧ signed false (roundTo false 0x800000 8 0 .rne 0).1 = 2 ^ 31 ∧
    fval 0xFF800000 = .inf true ∧ fval 0x7F800000 = .inf false ∧ fval 0x7FC00000 = .nan ∧
    [0xFF800000#32, 0xBF800000, 0x80000001, 0x80000000].map (fun x => (x.getLsbD 31, x.extractLsb' 23 8, x.extractLsb' 0 23)) =
      [(true, 0xFF#8, 0#23), (true, 0x7F, 0), (true, 0, 1), (true, 0, 0)] ∧
    [0x00000000#32, 0x00000001, 0x3F800000, 0x7F800000].map (fun x => (x.getLsbD 31, x.extractLsb' 23 8, x.extractLsb' 0 23)) =
      [(false, 0#8, 0#23), (false, 0, 1), (false, 0x7F, 0), (false, 0xFF, 0)] ∧
    (0x7F800001#32).extractLsb' 23 8 = 0xFF ∧ (0x7F800001#32).getLsbD 22 = false ∧ (0x7FC00000#32).getLsbD 22 = true := by
  decide +kernel

/-- x1 at the last doubleword of the own scratchpad through the own-core alias, x2 one byte into it, x3 where nothing is mapped. -/
def addressed : State := withX base [(1, 0xF1000BFFF8), (2, 0xF100000001), (3, 0xF200000000)]

theorem witness_LoadsAndStores_places :
    Reads addressed (addressed.x 1 + BitVec.signExtend 64 0#12) 8 (.spad 0 0xBFFF8) addressed ∧
    Writes addressed (addressed.x 1 + BitVec.signExtend 64 0#12) 8 (.spad 0 0xBFFF8) addressed ∧
    Reads addressed (addressed.x 1) 1 (.spad 0 0xBFFF8) addressed ∧ Reads addressed (addressed.x 1) 2 (.spad 0 0xBFFF8) addressed ∧
    Reads addressed (addressed.x 1) 4 (.spad 0 0xBFFF8) addressed ∧ Reads addressed (addressed.x 1) 8 (.spad 0 0xBFFF8) addressed ∧
    Writes addressed (addressed.x 1) 1 (.spad 0 0xBFFF8) addressed ∧ Writes addressed (addressed.x 1) 2 (.spad 0 0xBFFF8) addressed ∧
    Writes addressed (addressed.x 1) 4 (.spad 0 0xBFFF8) addressed ∧ Writes addressed (addressed.x 1) 8 (.spad 0 0xBFFF8) addressed := by
  refine ⟨?_, ?_, ?_, ?_, ?_, ?_, ?_, ?_, ?_, ?_⟩ <;> first | exact ⟨rfl, rfl, rfl, rfl, rfl, rfl⟩ | exact ⟨rfl, rfl, rfl, rfl, rfl⟩

theorem witness_LoadsAndStores_faults :
    isEvent 0 (addressed.x 2).toNat = false ∧ (addressed.x 2).toNat % 8 ≠ 0 ∧ isEvent 0 (addressed.x 3).toNat = false ∧
      (addressed.x 3).toNat % 8 = 0 ∧ addressed.core.overwriting = false ∧
      ∃ f, addressed.resolve addressed.core.sup .read (addressed.x 3).toNat 8 5 = .error (.fault f) :=
  ⟨by decide +kernel, by decide +kernel, by decide +kernel, by decide +kernel, by decide +kernel, _, rfl⟩

/-- Core 0 sleeps at the word of line 5, and its launch holds the line, which has not fired yet. -/
def atLine (fired : Bool) : State :=
  let s := (base.updCore fun c => { c with wait := .lineWord 5 0 }).updCluster 0 fun c => { c with lines := [(1 * 32 + 5, ⟨0, false⟩)] }
  if fired then s.updCluster 0 fun c => c.fire s.owner 5 false else s

theorem witness_LoadsAndStores_lines : ∀ fired : Bool,
    heldByOther ((atLine fired).clusterAt (clusterOf (atLine fired).cur)).lines (atLine fired).owner 5 = false ∧
      (atLine fired).cur < 4096 ∧ (atLine fired).core.wait = .lineWord 5 0 ∧ (atLine fired).core.overwriting = false ∧
      ((0 : BitVec 16) = (resOf ((atLine fired).clusterAt (clusterOf (atLine fired).cur)).lines (atLine fired).owner 5).phase ↔
        fired = false) := by decide +kernel

/-- An engine of the core has written the doubleword that x1 names, from 5 to 7, and no dequeue has acquired it; x2 names the mutex 0
word of the event unit. -/
def unacquired : State :=
  let s := withX base [(1, 0xF100000100), (2, 0xF1000F0140)]
  s.updCore fun c => { c with
    spad := writeLE c.spad 0x100 8 7
    unseen := [⟨0xF000000100, leBytes 5 8, leBytes 7 8, 0xFF, ⟨0, 0, 1⟩, none, [], [⟨0, 0, 1⟩], [], [], none, false⟩] }

theorem witness_LoadsAndStores_unacquired : Reads unacquired (unacquired.x 1) 8 (.spad 0 0x100) unacquired ∧
    (∃ u, u ∈ unacquired.core.unseen ∧ u.pa = (Place.spad 0 0x100).phys + 0 ∧ u.old.length = 8 ∧ u.mask = 0xFF ∧
      u.new = ((leBytes (unacquired.readPlace (.spad 0 0x100) 8) 8).drop 0).take 8 ∧
      (∀ w ∈ unacquired.core.unseen, w.meets ((Place.spad 0 0x100).phys + 0) 8 = true → w = u)) ∧
    unacquired.x 2 + BitVec.signExtend 64 0#12 = BitVec.ofNat 64 (0xF1000F0000 + 0x140) :=
  ⟨⟨rfl, rfl, rfl, rfl, rfl, rfl⟩, ⟨_, .head _, rfl, rfl, rfl, by decide +kernel, by
    intro w hw _; exact List.mem_singleton.mp hw⟩, by decide +kernel⟩

/-- No unacquired write meets what x1 names. -/
theorem witness_LoadsAndStores_settled : Settled addressed (.spad 0 0xBFFF8) 8 := by
  intro u hu; cases hu

/-- The last bytes of the scratchpad, by a store of each size and a release store of each size. -/
theorem witness_ScratchpadStoreThenLoad :
    let s := withX base [(1, 0xF1000BFFF8), (2, 0xF1000BFFF8), (3, 7)]
    (s.core.gang = none ∧ s.core.loop.running = false) ∧ s.core.overwriting = false ∧
      s.x 1 = BitVec.ofNat 64 (0xF100000000 + 0xBFFF8) ∧ s.x 2 = s.x 1 ∧
      s.poisoned (0xF000000000 + s.cur * 0x100000 + 0xBFFF8) 8 = false ∧
      [StoreOp.sb, .sh, .sw, .sd, .fsw].map storeSize = [1, 2, 4, 8, 4] ∧
      (∃ t, exec (.scalarStore .sb 3 1 0) s = .next t) ∧ (∃ t, exec (.scalarStore .sd 3 1 0) s = .next t) ∧
      (∃ t, exec (.scalarStore .fsw 3 1 0) s = .next t) ∧ (∃ t, exec (.sRlB 3 1 .stream) s = .next t) ∧
      ∃ t, exec (.sRlD 3 1 .system) s = .next t :=
  ⟨by decide +kernel, by decide +kernel, by decide +kernel, by decide +kernel, by decide +kernel, rfl, ⟨_, rfl⟩, ⟨_, rfl⟩, ⟨_, rfl⟩,
    ⟨_, rfl⟩, _, rfl⟩

theorem witness_StoreFrame : (addressed.core.gang = none ∧ addressed.core.loop.running = false) ∧
    Writes addressed (addressed.x 1 + BitVec.signExtend 64 0#12) (storeSize .sd) (.spad 0 0xBFFF8) addressed :=
  ⟨by decide +kernel, rfl, rfl, rfl, rfl, rfl⟩

theorem witness_RegisterFrame : (Instr.qCnt 1 0).registerOnly = true ∧ (base.core.gang = none ∧ base.core.loop.running = false) ∧
    ∃ t, exec (.qCnt 1 0) base = .next t ∧ t.core.csr.instret = base.core.csr.instret + 1 ∧ t.core.bound = base.core.bound :=
  ⟨by decide +kernel, by decide +kernel, _, rfl, by decide +kernel, by decide +kernel⟩

/-! ## Witnesses: CSRs, traps and modes -/

/-- Every CSR clause: a read, a write of each writable CSR, a mask `mxrow` takes and one it does not, a read-only CSR, a supervisor
CSR in each mode, and an address that is not listed. -/
theorem witness_CsrAccessAndValues :
    base.core.overwriting = false ∧
    (∀ a ∈ [0x001, 0x002, 0x003, 0x800, 0x801, 0x802, 0x803, 0x804, 0xC01, 0xC02, 0xCC0, 0xCC6], ∃ old, base.csrValue base.cur a = some old) ∧
    (∀ a ∈ [0x5C0, 0x5C1, 0x5C2, 0x5C3, 0x5C4, 0x5C5, 0xDC0, 0xDC1, 0xDC2], ∃ old, sup.csrValue sup.cur a = some old) ∧
    (base.csrValue base.cur 0x805 = none) ∧ sup.core.sup = true ∧ base.core.sup = false ∧
    (BitVec.zeroExtend 64 3#5).toNat % 16 ∈ [1, 2, 3, 4, 8, 12, 15] ∧ (BitVec.zeroExtend 64 5#5).toNat % 16 ∉ [1, 2, 3, 4, 8, 12, 15] := by
  refine ⟨by decide +kernel, ?_, ?_, by decide +kernel, by decide +kernel, by decide +kernel, by decide +kernel, by decide +kernel⟩ <;>
    simp only [List.forall_mem_cons, List.not_mem_nil, false_implies, implies_true, and_true]
  · exact ⟨⟨_, rfl⟩, ⟨_, rfl⟩, ⟨_, rfl⟩, ⟨_, rfl⟩, ⟨_, rfl⟩, ⟨_, rfl⟩, ⟨_, rfl⟩, ⟨_, rfl⟩, ⟨_, rfl⟩, ⟨_, rfl⟩, ⟨_, rfl⟩, _, rfl⟩
  · exact ⟨⟨_, rfl⟩, ⟨_, rfl⟩, ⟨_, rfl⟩, ⟨_, rfl⟩, ⟨_, rfl⟩, ⟨_, rfl⟩, ⟨_, rfl⟩, ⟨_, rfl⟩, _, rfl⟩

/-- A range of one line at the pc, which maps with execute permission; nothing maps past the address map. -/
theorem witness_OrderingFormsAndEnvironmentCall :
    let s := withX base [(1, 0x200000), (2, 64), (3, 0x2000000000)]
    (s.x 2).toNat ≠ 0 ∧ (s.x 1).toNat / 64 = 0x8000 ∧ ((s.x 1).toNat + (s.x 2).toNat - 1) / 64 = 0x8000 ∧
      s.execLine 0x8000 = some 0x8000 ∧ (0x8000 ∉ s.core.pins) ∧ (s.core.pins.filter fun q => q % 128 == 0x8000 % 128).length < 2 ∧
      (∀ q ∈ (s.clusterAt (s.cur / 16)).pins, q.1 ≠ 0x8000) ∧ (s.clusterAt (s.cur / 16)).pins.length < 4096 ∧
      (s.x 3).toNat / 64 = 0x80000000 ∧ ((s.x 3).toNat + (s.x 2).toNat - 1) / 64 = 0x80000000 ∧
      (withX { s with mem := [] } []).execLine 0x80000000 = none ∧ encode .ecall = .word 0x73 := by decide +kernel

theorem witness_TrapEntrySavesAndRedirects :
    let s := base.updCore fun c => { c with trap := { c.trap with tvec := 0x140000 } }
    s.core.gang = none ∧ s.core.trap.ih = false ∧ s.core.trap.tvec ≠ 0 ∧ s.core.pc.toNat % 4 = 0 ∧
      (alGet s.core.part s.parts).isSome = true ∧ s.core.loop.mode = .none ∧
      (let u := s.updCore fun c => { c with loop := looping.core.loop }
       u.core.gang = none ∧ u.core.trap.ih = false ∧ u.core.trap.tvec ≠ 0 ∧ (alGet u.core.part u.parts).isSome = true ∧
         u.core.loop.mode ≠ .none) := by decide +kernel

/-- Three faults wait, the oldest between the others; a gang's member that has executed its instruction; a handler runs on a task's
core, and on a supervisor core. -/
theorem witness_EngineFaultsAndNestedTraps :
    (let s := base.updCore fun c => { c with seqctr := 9, faults := [⟨19, 0, 1, 6⟩, ⟨19, 0, 1, 4⟩, ⟨19, 0, 2, 7⟩] }
     s.core.enginesRun = true ∧ s.core.trap.ih = false ∧ s.core.wait ≠ .token ∧
       s.core.faults = [⟨19, 0, 1, 6⟩] ++ ⟨19, 0, 1, 4⟩ :: [⟨19, 0, 2, 7⟩] ∧
       (∀ g ∈ [(⟨19, 0, 1, 6⟩ : EngineFault)], s.core.ageOf g.seq < s.core.ageOf 4) ∧
       ∀ g ∈ [(⟨19, 0, 2, 7⟩ : EngineFault)], s.core.ageOf g.seq ≤ s.core.ageOf 4) ∧
    ((gangOfTwo.act 0).core.gang.bind (·.retired) = some 0x200004) ∧
    (let s := base.updCore fun c => { c with seqctr := 9, faults := [⟨19, 0, 1, 4⟩, ⟨19, 0, 2, 7⟩] }
     s.core.enginesRun = true ∧ s.core.trap.ih = false ∧ s.core.faults = ⟨19, 0, 1, 4⟩ :: [⟨19, 0, 2, 7⟩] ∧
       ∀ g ∈ [(⟨19, 0, 2, 7⟩ : EngineFault)], s.core.ageOf g.seq ≤ s.core.ageOf 4) ∧
    (handler.core.gang = none ∧ handler.core.trap.ih = true ∧ (alGet handler.core.part handler.parts).isSome = true ∧
      handler.core.bound = .task 0 0 0 (2 ^ 63) none) ∧
    (let s := handler.updCore fun c => { c with bound := .supervisor }
     s.core.gang = none ∧ s.core.trap.ih = true ∧ (alGet s.core.part s.parts).isSome = true ∧ s.core.bound = .supervisor) := by decide +kernel

/-- A handler of task mode, one that hands on, one with a reserved kind, and one that suspended a loop around or away from `tepc`. -/
theorem witness_TrapReturnRestores :
    (handler.core.sup = true ∧ handler.core.trap.ih = true ∧ handler.core.trap.rk = 0 ∧ handler.core.loop.mode = .none ∧
      handler.launchHalted = false) ∧
    (let s := handler.updCore fun c => { c with loop := { looping.core.loop with start := 0x200040, suspended := true } }
     s.core.sup = true ∧ s.core.trap.ih = true ∧ s.core.trap.rk = 0 ∧ s.core.loop.mode = .loop ∧ s.core.loop.suspended = true ∧
       s.core.loop.start.toNat ≤ (s.core.trap.tepc ++ 0#2).toNat ∧ (s.core.trap.tepc ++ 0#2).toNat < s.core.loop.bodyEnd.toNat) ∧
    (let s := handler.updCore fun c => { c with loop := { looping.core.loop with suspended := true } }
     s.core.sup = true ∧ s.core.trap.ih = true ∧ s.core.trap.rk = 0 ∧ s.core.loop.mode = .loop ∧ s.core.loop.suspended = true ∧
       s.core.loop.bodyEnd.toNat ≤ (s.core.trap.tepc ++ 0#2).toNat) ∧
    (let s := handler.updCore fun c => { c with trap := { c.trap with rk := 1 } }
     s.core.sup = true ∧ s.core.trap.ih = true ∧ s.core.trap.rk = 1) ∧
    base.core.sup = false ∧ sup.core.trap.ih = false ∧
    (handler.updCore fun c => { c with trap := { c.trap with rk := 2 } }).core.trap.rk = 2 ∧
    (let s := base.updCore fun c => { c with trap := { c.trap with tvec := 0x140000 }, loop := looping.core.loop }
     s.core.gang = none ∧ s.core.trap.ih = false ∧ s.core.trap.tvec ≠ 0 ∧ s.core.pc.toNat % 4 = 0 ∧ s.core.loop.mode = .loop ∧
       s.core.loop.suspended = false ∧ s.core.loop.start.toNat ≤ s.core.pc.toNat ∧ s.core.pc.toNat < s.core.loop.bodyEnd.toNat ∧
       s.launchHalted = false) := by decide +kernel

/-- The supervisor core of a partition whose three levels of tables map the page at 0x10000 to itself. -/
def paged : State :=
  let s := withX sup [(1, 0x10000), (2, 0x10000)]
  { s with mem := writeLE (writeLE (writeLE [] placedRoot 8 0x110001) 0x110000 8 0x120001) 0x120008 8 0x1001F }

/-- `sq.rd` with an entry in the ring and without; its log selectors; TLB and migration ranges of one page. -/
theorem witness_SupervisorFormsAndPrivilege_reads :
    (let s := (withX base [(1, 5)]).updCore fun c => { c with ring := [⟨5, 1, 0, false, .queued⟩] }
     (s.x 1).toNat < 2 ^ 16 ∧ s.core.ring.find? (fun e => e.seq == (s.x 1).extractLsb' 0 16) = some ⟨5, 1, 0, false, .queued⟩) ∧
    ((withX base [(1, 5)]).x 1).toNat < 2 ^ 16 ∧ (withX base [(1, 5)]).core.ring = [] ∧
    (withX base [(1, 0x1001F)]).x 1 = BitVec.ofNat 64 (0x10000 + 31) ∧ (withX base [(1, 0x20000)]).x 1 = BitVec.ofNat 64 (0x20000 + 0) ∧
    (withX sup [(1, 0x70000)]).x 1 = 0x70000 ∧ (withX sup [(1, 0x70000)]).core.sup = true ∧
    (paged.core.sup = true ∧ paged.x 1 ≠ 0 ∧ (paged.x 1).toNat % 65536 = 0 ∧ paged.x 2 ≠ 0 ∧ (paged.x 2).toNat % 65536 = 0 ∧
      paged.part.migration = none ∧ paged.core.overwriting = false ∧
      paged.mappedPages (paged.x 1).toNat (paged.x 2).toNat = some [0x10000]) := by
  refine ⟨by decide +kernel, by decide +kernel, by decide +kernel, by decide +kernel, by decide +kernel, by decide +kernel, by decide +kernel, by decide +kernel⟩

theorem witness_SupervisorFormsAndPrivilege_units :
    (let s := withX sup [(1, 0x10000), (2, 0x10000)] |>.updPart fun p => { p with migration := some ⟨0, 0x10000, 0x10000, []⟩ }
     s.core.sup = true ∧ s.part.migration = some ⟨s.cur, (s.x 1).toNat, (s.x 2).toNat, []⟩) ∧
    (let s := withX sup [(1, 5), (2, 0)]
     s.core.overwriting = false ∧ (s.x 1).toNat < s.part.size ∧ s.part.isSuper (s.part.phys (s.x 1).toNat) = false ∧
       (s.coreAt (s.part.phys (s.x 1).toNat)).bound = .idle ∧
       (let u := s.updCoreAt (s.part.phys 5) fun c => { c with bound := .task 0 0 1 1 none }
        u.part.isSuper (u.part.phys (u.x 1).toNat) = false ∧ (u.coreAt (u.part.phys (u.x 1).toNat)).bound ≠ .idle)) ∧
    (let s := withX sup [(1, 2 ^ 32), (2, 0)]
     (s.x 1).toNat < 2 ^ 33 ∧ (s.x 2).toNat < 2 ^ 33 ∧
       s.part.launches.find? (fun l => l.id == (s.x 1).extractLsb' 0 32) = some placedLaunch ∧
       s.part.launches.find? (fun l => l.id == (s.x 2).extractLsb' 0 32) = some placedLaunch ∧ placedLaunch.halted = false ∧
       (s.x 1).getLsbD 32 = true ∧ (s.x 2).getLsbD 32 = false) ∧
    (let s := (withX sup [(1, 2 ^ 32)]).updPart fun p => { p with launches := [{ placedLaunch with halted := true }] }
     s.part.launches.find? (fun l => l.id == (s.x 1).extractLsb' 0 32) = some { placedLaunch with halted := true } ∧
       (s.x 1).getLsbD 32 = true) ∧
    (sup.x 1 = 0 ∧ sup.part.decision = none) ∧
    (let s := sup.updPart fun p => { p with decision := some (sup.openDecision 0 .preempt none 0) }
     s.x 1 = 0 ∧ s.part.decision.isSome = true) ∧
    base.core.sup = false ∧ encode .tret = .word 0x707B ∧ (∃ w, encode (.tlbInv 1 2) = .word w) ∧
    ∃ w, encode (.csrAccess .rs 1 (.reg 0) 0x5C0) = .word w := by
  refine ⟨by decide +kernel, by decide +kernel, by decide +kernel, by decide +kernel, by decide +kernel, by decide +kernel, by decide +kernel, by decide +kernel, ⟨_, rfl⟩, _, rfl⟩

theorem witness_OverwriteBodyForbids : overwriting.core.overwriting = true ∧ overForbids (.amAddn 1 2 .device) = true ∧
    overForbids (.engineIssue 1 0 0 0) = true ∧ overForbids (.csrAccess .rw 1 (.reg 2) 0x801) = true := by decide +kernel

/-! ## Witnesses: descriptors, atomics, moves and repeats -/

/-- td1 describes 8 × 8 elements of a format in the own scratchpad, from a base; x10 and x11 hold coordinates. -/
def tensor (f : Fmt) (off i j : Nat) : State :=
  (withX base [(10, i), (11, j)]).updCore fun c => c.setTd 1
    ⟨0xF100000000 + BitVec.ofNat 64 off, some f, 2, 0, 0, 1, [8, 8, 0, 0, 0, 0, 0], [8, 1, 0, 0, 0, 0, 0]⟩

/-- The coordinates that the descriptor takes. -/
def coords (s : State) : List Int :=
  (s.core.td 1).wrapped ((List.range (s.core.td 1).rank.toNat).map fun k => (s.x (BitVec.ofNat 5 (10 + k))).toInt)

theorem witness_TensorAccesses :
    (let s := tensor .i16 0x1000 7 7
     s.core.overwriting = false ∧ (s.core.td 1).valid = true ∧ (10#5).toNat + (s.core.td 1).rank.toNat ≤ 32 ∧
       (s.core.td 1).inBounds (coords s) = true ∧ (s.core.td 1).base.toNat % elemBytes (s.core.td 1).format = 0 ∧
       (s.core.td 1).format.width ≠ 4) ∧
    (let s := tensor .i16 0x1000 8 0
     (s.core.td 1).valid = true ∧ (s.core.td 1).inBounds (coords s) = false) ∧
    (let s := tensor .i16 0x1001 0 0
     (s.core.td 1).valid = true ∧ (s.core.td 1).inBounds (coords s) = true ∧
       (s.core.td 1).base.toNat % elemBytes (s.core.td 1).format ≠ 0) ∧
    (let s := tensor .i4 0x1000 0 1
     (s.core.td 1).inBounds (coords s) = true ∧ (s.core.td 1).format.width = 4) ∧
    base.core.overwriting = false ∧ (base.core.td 1).valid = false ∧
    32 < (31#5).toNat + ((tensor .i16 0 0 0).core.td 1).rank.toNat := by decide +kernel

theorem witness_TensorAccesses_places :
    (let s := tensor .i16 0x1000 7 7
     Reads s ((s.core.td 1).elem 0 (coords s)).addr 2 (.spad 0 0x107E) s ∧ s.core.unseen = [] ∧ Writes s ((s.core.td 1).elem 0 (coords s)).addr 2 (.spad 0 0x107E) s) ∧
    (let s := tensor .i4 0x1000 0 1
     Writes s ((s.core.td 1).elem 0 (coords s)).addr 1 (.spad 0 0x1000) s) := by
  refine ⟨⟨?_, rfl, ?_⟩, ?_⟩ <;> first | exact ⟨rfl, rfl, rfl, rfl, rfl, rfl⟩ | exact ⟨rfl, rfl, rfl, rfl, rfl⟩

/-- x1 names a word of memory, x2 holds 5 and x3 holds 9; x4 is one past it. -/
def worded (v : Nat) : State :=
  let s := withX base [(1, 0x600000), (2, 5), (3, 9), (4, 0x600001)]
  { s with mem := writeLE s.mem 0x600000 8 v }

theorem witness_AtomicResultsAndMonitors_swaps : ∀ v ∈ [5, 7],
    (worded v).core.overwriting = false ∧ (∃ s1, Swaps (worded v) ((worded v).x 1) 8 (.mem 0x600000) s1) ∧
      (∃ s1, Swaps (worded v) ((worded v).x 1) 4 (.mem 0x600000) s1) ∧ ((worded v).x 4).toNat % 8 ≠ 0 ∧
      ((worded v).x 4).toNat % 4 ≠ 0 ∧ (BitVec.ofNat 64 ((worded v).readPlace (.mem 0x600000) 8) = (worded v).x 2 ↔ v = 5) := by
  simp only [List.forall_mem_cons, List.not_mem_nil, false_implies, implies_true, and_true]
  refine ⟨⟨by decide +kernel, ⟨_, rfl, rfl, rfl, rfl, rfl⟩, ⟨_, rfl, rfl, rfl, rfl, rfl⟩, by decide +kernel, by decide +kernel, ?_⟩,
    ⟨by decide +kernel, ⟨_, rfl, rfl, rfl, rfl, rfl⟩, ⟨_, rfl, rfl, rfl, rfl, rfl⟩, by decide +kernel, by decide +kernel, ?_⟩⟩ <;>
    decide +kernel

theorem witness_AtomicResultsAndMonitors_waits :
    (let s := worded 5
     s.core.overwriting = false ∧ isEvent s.cur (s.x 1).toNat = false ∧ (s.x 1).toNat % 8 = 0 ∧ isHost 0x600000 = false ∧
       s.poisoned 0x600000 8 = false ∧ s.core.wait = .none ∧ s.monitorOf s.cur = none ∧
       BitVec.ofNat 64 (s.readPlace (.mem 0x600000) 8) = s.x 2 ∧ (s.portMonitors (Config.homePort (0x600000 / 64))).length < 64 ∧
       BitVec.ofNat 64 (s.readPlace (.mem 0x600000) 8) ≠ s.x 3) ∧
    (let s := (worded 5).updCore fun c => { c with wait := .partway }
     s.core.wait = .partway ∧ (s.x 1).toNat % 8 = 0) ∧
    (let s := { worded 5 with monitors := [(0x18000, 0, false)] }
     s.core.wait = .none ∧ s.monitorOf s.cur = some (0x18000, false) ∧ (0x18000, 0, false) ∈ s.monitors ∧
       0x18000 * 64 < 0x600000 + 8 ∧ 0x600000 < 0x18000 * 64 + 64) ∧
    ({ worded 5 with monitors := [(0x18000, 0, true)] } : State).monitorOf 0 = some (0x18000, true) := by decide +kernel

theorem witness_AtomicResultsAndMonitors_place :
    (∃ s1, (worded 5).resolve (worded 5).core.sup .read ((worded 5).x 1).toNat 8 5 = .ok (.mem 0x600000, s1)) ∧
      Settled (worded 5) (.mem 0x600000) 8 := ⟨⟨_, rfl⟩, by intro u hu; cases hu⟩

/-- 1 + 1 has been added to the word and is still pending; another word has replaced it. -/
theorem witness_AtomicResultsAndMonitors_pending :
    let adds (v : Nat) : State := { worded v with adds := [⟨0x600000, 0x3F800000, 0x3F800000⟩] }
    (∀ o ∈ (worded 5).adds, o.pa ≠ 0x600000) ∧
      (∀ v ∈ [0x40000000, 5], (adds v).adds.find? (fun o => o.pa == (Place.mem 0x600000).phys) = some ⟨0x600000, 0x3F800000, 0x3F800000⟩) ∧
      amoFadd 0x3F800000 0x3F800000 = BitVec.ofNat 32 ((adds 0x40000000).readPlace (.mem 0x600000) 4) ∧
      amoFadd 0x3F800000 0x3F800000 ≠ BitVec.ofNat 32 ((adds 5).readPlace (.mem 0x600000) 4) := by decide +kernel

/-- x1 and x2 name words of memory and of the own scratchpad, and x3 counts bytes. -/
def moving (n : Nat) : State := withX base [(1, 0xF100000000), (2, 0x600000), (3, n)]

theorem witness_BlockMoveAndRepeat_move :
    (∀ n ∈ [0, 16], (moving n).core.overwriting = false ∧ ((moving n).x 3).toNat % 8 = 0 ∧ ((moving n).x 1).toNat % 8 = 0 ∧
      ((moving n).x 2).toNat % 8 = 0 ∧ ((moving n).x 3 = 0 ↔ n = 0)) ∧
    Settled (moving 16) (.mem 0x600000) 8 ∧ ∃ s1 s2, Reads (moving 16) ((moving 16).x 2) 8 (.mem 0x600000) s1 ∧
      Writes (s1.endAdds 0x600000 8) ((moving 16).x 1) 8 (.spad 0 0) s2 := by
  refine ⟨by decide +kernel, (by intro u hu; cases hu), _, _, ⟨rfl, rfl, rfl, rfl, rfl, rfl⟩, ⟨rfl, rfl, rfl, rfl, rfl⟩⟩

/-- `rep x3, x1` before `sd x5, 0(x1)` or another word. -/
def repeating (n : Nat) (w : Word32) : State :=
  let s := withX base [(1, 0xF100000000), (3, n), (5, 7)]
  { s with mem := writeLE s.mem 0x200004 4 w.toNat }

theorem witness_BlockMoveAndRepeat_repeat :
    (∃ s1, (repeating 2 (encode32 (.scalarStore .sd 5 1 0))).fetch 0x200004 4 = .ok ((encode32 (.scalarStore .sd 5 1 0)).toNat, s1) ∧
      Writes s1 (s1.x 1 + BitVec.signExtend 64 0#12) 8 (.spad 0 0) s1) ∧
    (∃ s1, (repeating 0 (encode32 (.scalarStore .sd 5 1 0))).fetch 0x200004 4 = .ok ((encode32 (.scalarStore .sd 5 1 0)).toNat, s1)) ∧
    (∃ s1, (repeating 2 0x13).fetch 0x200004 4 = .ok (0x13, s1)) ∧
    decode32 (BitVec.ofNat 32 (encode32 (.scalarStore .sd 5 1 0)).toNat) = .ok (.scalarStore .sd 5 1 0) ∧
    repTarget (.rv64Compute (.opImm .addi 0 0 0)) 3 1 = none ∧ (repeating 2 0x13).x 3 ≠ 0 ∧ (repeating 0 0x13).x 3 = 0 ∧
    (repeating 2 0x13).core.pc + 4 = 0x200004 :=
  ⟨⟨_, rfl, rfl, rfl, rfl, rfl, rfl⟩, ⟨_, rfl⟩, ⟨_, rfl⟩, rfl, by decide +kernel, by decide +kernel, by decide +kernel, by decide +kernel⟩

/-! ## Witnesses: regions -/

/-- One box of rank 1. -/
def line (lo : Int) (ext : Nat) : Region := Region.dense 1 [[⟨lo, ext⟩]]

/-- bx1 and bx2 hold regions. -/
def regions (a b : Region) : State := (base.setBx 1 a).setBx 2 b

theorem witness_RegionFormResults_sets :
    (let s := regions (line 0 4) (line 2 4)
     s.lengthsOf (s.bx 1) = .ok ([], s) ∧ s.lengthsOf (s.bx 2) = .ok ([], s) ∧
       setOp .or (s.bx 1) (s.bx 2) [] [] = .ok (Region.dense 1 [[⟨0, 6⟩]]) false ∧
       setOp .sub (s.bx 1) (s.bx 2) [] [] = .ok (line 0 2) false ∧ setOp .and (s.bx 1) (s.bx 2) [] [] = .ok (line 2 2) false ∧
       (s.bx 1).rank = (s.bx 2).rank ∧ (s.bx 1).inexact = false ∧ (s.bx 2).inexact = false) ∧
    (let s := regions (line 0 4) (Region.dense 2 [[⟨0, 1⟩, ⟨0, 1⟩]])
     (s.bx 1).rank ≠ 0 ∧ (s.bx 2).rank ≠ 0 ∧ (s.bx 1).rank ≠ (s.bx 2).rank) ∧
    (let s := regions { line 0 4 with inexact := true } (line 2 4)
     (s.bx 1).rank = (s.bx 2).rank ∧ (s.bx 1).inexact = true) ∧
    (let s := regions (line 0 4) { line 2 4 with inexact := true }
     (s.bx 1).rank = (s.bx 2).rank ∧ (s.bx 1).inexact = false ∧ (s.bx 2).inexact = true) ∧
    base.bx 1 = Region.null := ⟨⟨rfl, rfl, rfl, rfl, rfl, rfl, rfl, rfl⟩, by decide +kernel, by decide +kernel, by decide +kernel, rfl⟩

/-- A union whose hull is too wide, and a ragged operand whose length table asks for a length. -/
theorem witness_RegionFormResults_edges :
    (let s := regions (Region.dense 1 ((List.range 8).map fun (k : Nat) => [⟨-(2 ^ 31) + 2 * k, 1⟩])) (line (2 ^ 31 - 1) 1)
     s.lengthsOf (s.bx 1) = .ok ([], s) ∧ s.lengthsOf (s.bx 2) = .ok ([], s) ∧ setOp .or (s.bx 1) (s.bx 2) [] [] = .range) ∧
    (let s := regions ⟨2, .ragged, false, 0x100, [1, 1], 0, 0, [[⟨0, 2⟩, ⟨0, 4⟩]]⟩ (Region.dense 2 [[⟨0, 1⟩, ⟨0, 4⟩]])
     s.linesOf (s.bx 1) (setLines .and true (s.bx 1) (s.bx 2)) = .ok ([0, 0], s) ∧
       s.linesOf (s.bx 2) (setLines .and false (s.bx 2) (s.bx 1)) = .ok ([], s) ∧ (s.bx 1).rank = (s.bx 2).rank ∧
       (∀ k, k < 2 → s.poisoned (windowAddr s.cur (0x100 + 2 * k)) 2 = false) ∧ ∃ r, setOp .and (s.bx 1) (s.bx 2) [0, 0] [] = .ok r false) :=
  ⟨⟨rfl, rfl, rfl⟩, rfl, rfl, by decide +kernel, by decide +kernel, _, rfl⟩

theorem witness_RegionFormResults_shapes :
    (let s := (regions (line 0 4) Region.null).setX 5 3
     s.xRun 5 (s.bx 1).rank = some [3] ∧ s.lengthsOf (s.bx 1) = .ok ([], s) ∧ dilate (s.bx 1) [3] [] = .ok (line (-3) 10) false ∧
       shift (s.bx 1) [3] = .ok (line 3 4) false) ∧
    (let s := (regions (line (2 ^ 31 - 4) 4) Region.null).setX 5 65536
     s.xRun 5 (s.bx 1).rank = some [65536] ∧ shift (s.bx 1) [65536] = .range ∧ 65535 < (65536 : Word).toNat) ∧
    (let s := (regions (Region.dense 2 [[⟨0, 1⟩, ⟨0, 2⟩]]) Region.null).setX 5 2
     s.lengthsOf (s.bx 1) = .ok ([], s) ∧ (s.x 5).toNat ≠ 0 ∧ (s.x 5).toNat < 2 ^ (s.bx 1).rank ∧
       project (s.bx 1) (s.x 5).toNat [] = .ok (line 0 2) false) ∧
    ((base.x 5).toNat = 0) ∧
    (let s := (tensor .i16 0 0 0).setBx 1 (Region.dense 2 [[⟨-1, 4⟩, ⟨0, 2⟩]])
     (s.core.td 1).rank ≠ 0 ∧ (s.bx 1).rank = (s.core.td 1).rank.toNat ∧
       clip (s.bx 1) (s.core.td 1) [] = .ok (Region.dense 2 [[⟨0, 3⟩, ⟨0, 2⟩]]) false) :=
  ⟨⟨rfl, rfl, rfl, rfl⟩, ⟨rfl, rfl, by decide +kernel⟩, ⟨rfl, by decide +kernel, by decide +kernel, rfl⟩, by decide +kernel,
    by decide +kernel, by decide +kernel, rfl⟩

theorem witness_RegionFormResults_splits :
    (let s := (regions (line 0 4) Region.null).setX 5 3
     s.lengthsOf (s.bx 1) = .ok ([], s) ∧ ∃ r1 r2 c1 c2, splitCells (s.bx 1) (s.x 5).toNat [] = (.ok r1 c1, .ok r2 c2)) ∧
    (let s := (regions (line 0 4) Region.null).setX 5 (BitVec.ofNat 64 (0 + 256 * 65535 + 2 ^ 32 * 65534))
     ∃ r1 r2 c1 c2, splitSlabs (s.bx 1) 0 65535 65534 [] = (.ok r1 c1, .ok r2 c2)) ∧
    boxInRange [1, 1] [⟨-(2 ^ 31), 1⟩, ⟨0, 2⟩] = true :=
  ⟨⟨rfl, _, _, _, _, rfl⟩, ⟨_, _, _, _, rfl⟩, by decide +kernel⟩

theorem witness_SetOperationCells : (line 0 4).plain 1 ∧ (line 2 4).plain 1 ∧
    (∃ r, setOp .or (line 0 4) (line 2 4) [] [] = .ok r false) ∧
    ∃ r, setOp .or (Region.dense 1 ((List.range 8).map fun (k : Nat) => [⟨2 * k, 1⟩])) (line 100 1) [] [] = .ok r true :=
  ⟨⟨by decide, by decide, rfl, rfl, rfl, rfl, by decide⟩, ⟨by decide, by decide, rfl, rfl, rfl, rfl, by decide⟩, ⟨_, rfl⟩, _, rfl⟩

/-- x5 and on: two corners, two extents, two strides or a length table. -/
theorem witness_RegionBuildAndImages_boxes :
    (let s := withX base [(5, 2), (6, 3), (7, 4), (8, 5), (9, 2), (10, 1)]
     s.xRun 5 4 = some [2, 3, 4, 5] ∧ s.xRun 5 6 = some [2, 3, 4, 5, 2, 1] ∧ s.xRun 5 5 = some [2, 3, 4, 5, 2]) ∧
    (let s := withX base [(5, 2), (6, 3), (7, 4)]
     s.xRun 5 4 = some [2, 3, 4, 0]) ∧
    (let s := withX base [(5, 0), (6, 0), (7, 0x60000), (8, 5), (9, 0)]
     s.xRun 5 5 = some [0, 0, 0x60000, 5, 0] ∧ (0 : Word).toNat + 2 * 0x60000 ≤ 0xC0000) ∧
    (32 : Nat) < (29#5).toNat + 2 * (2#5).toNat ∧ (regions (line 0 4) Region.null).lengthsOf (line 0 4) = .ok ([], regions (line 0 4) Region.null) ∧
    (let s := regions (line 0 4) Region.null
     (30#5).toNat + 2 * (s.bx 1).rank ≤ 32 ∧ (5#5).toNat < (30#5).toNat ∧ (s.bx 1).rank = 1 ∧
       (s.bx 1).boxes[(s.x 5).toNat]? = some [⟨0, 4⟩] ∧ 32 < (31#5).toNat + 2 * (s.bx 1).rank) :=
  ⟨⟨rfl, rfl, rfl⟩, rfl, ⟨rfl, by decide⟩, by decide, rfl, by decide +kernel⟩

/-- x1 names an address of memory, in which a region image, a descriptor image or ones lie; x2 is 8 past it. -/
def imaged (v n : Nat) : State :=
  let s := withX base [(1, 0x600000), (2, 0x600008)]
  { s with mem := writeLE s.mem 0x600000 n v }

theorem witness_RegionBuildAndImages_loads :
    (∃ v s1, (imaged (line 0 4).image 256).loadWords 0x600000 32 = .ok (v, s1) ∧ Region.load v = .ok (line 0 4) false) ∧
    (∃ v s1, (imaged 0xFF 1).loadWords 0x600000 32 = .ok (v, s1) ∧ Region.load v = .illegal) ∧
    (∃ v s1 t, (imaged ((tensor .i16 0 0 0).core.td 1).image 64).loadWords 0x600000 8 = .ok (v, s1) ∧ Td.parse v = some t) ∧
    (∃ v s1, (imaged (0xFF * 2 ^ 64) 9).loadWords 0x600000 8 = .ok (v, s1) ∧ Td.parse v = none) ∧
    (∃ s1, (imaged 0 0).storeWords 0x600000 (line 0 4).image 32 = .ok s1) ∧
    (∃ s1, (imaged 0 0).storeWords 0x600000 Td.zero.image 8 = .ok s1) ∧
    ((imaged 0 0).x 1 + BitVec.signExtend 64 0#12).toNat % 64 = 0 ∧ ((imaged 0 0).x 2 + BitVec.signExtend 64 0#12).toNat % 32 ≠ 0 ∧
    (imaged 0 0).core.overwriting = false :=
  ⟨⟨_, _, rfl, rfl⟩, ⟨_, _, rfl, rfl⟩, ⟨_, _, _, rfl, rfl⟩, ⟨_, _, rfl, rfl⟩, ⟨_, rfl⟩, ⟨_, rfl⟩, by decide +kernel, by decide +kernel,
    by decide +kernel⟩

/-- Runs past x31, masks and ranks that do not fit, fields of `rg.split.k` at and past their ends. -/
theorem witness_RegionFormResults_limits :
    (let s := regions (line 0 4) (Region.dense 2 [[⟨0, 1⟩, ⟨0, 1⟩]])
     32 < (31#5).toNat + (s.bx 2).rank ∧ (s.bx 1).rank ≠ 0 ∧ (s.bx 1).rank ≤ 1 ∧ (base.bx 1).rank = 0 ∧ (s.core.td 1).rank.toNat = 0) ∧
    (let s := (regions (line 0 4) Region.null).setX 5 2
     (s.bx 1).rank ≠ 0 ∧ 2 ^ (s.bx 1).rank ≤ (s.x 5).toNat ∧ (s.bx 2).rank = 0 ∧ s.lengthsOf (s.bx 2) = .ok ([], s) ∧
       project (s.bx 2) (s.x 5).toNat [] = .ok Region.null false) ∧
    (let s := (tensor .i16 0 0 0).setBx 1 (Region.dense 1 [[⟨-1, 4⟩]])
     (s.bx 1).rank ≠ 0 ∧ (s.bx 1).rank ≠ (s.core.td 1).rank.toNat ∧ (s.core.td 1).rank.toNat ≠ 0 ∧ (s.bx 2).rank = 0) ∧
    (let s := (regions (line 0 4) Region.null).setX 5 (BitVec.ofNat 64 (1 + 256 * 2 + 2 ^ 32 * 1))
     (s.bx 1).rank ≤ ((s.x 5).extractLsb' 0 3).toNat) ∧
    (let s := (regions (line 0 4) Region.null).setX 5 (BitVec.ofNat 64 (256 * 2 + 2 ^ 32 * 2))
     ((s.x 5).extractLsb' 8 16).toNat ≤ ((s.x 5).extractLsb' 32 16).toNat) :=
  ⟨by decide +kernel, ⟨by decide +kernel, by decide +kernel, rfl, rfl, rfl⟩, by decide +kernel, by decide +kernel, by decide +kernel⟩

/-- Corners, extents, strides and tables one past their ranges, and a box that ends one past the last coordinate. -/
theorem witness_RegionBuildAndImages_limits :
    (let s := withX base [(5, 2 ^ 31), (6, 1)]
     s.xRun 5 2 = some [0x80000000, 1] ∧ (0x80000000 : Word).toInt = 2 ^ 31) ∧
    (let s := withX base [(5, 0), (6, 16777216)]
     s.xRun 5 2 = some [0, 16777216] ∧ 16777215 < (16777216 : Word).toNat) ∧
    (let s := withX base [(5, 2 ^ 31 - 1), (6, 2)]
     s.xRun 5 2 = some [0x7FFFFFFF, 2] ∧ (2 ^ 31 : Int) < (0x7FFFFFFF : Word).toInt + (2 : Word).toNat) ∧
    (let s := withX base [(5, 0), (6, 1), (7, 65536)]
     s.xRun 5 3 = some [0, 1, 65536] ∧ 65535 < (65536 : Word).toNat) ∧
    (let s := withX base [(5, 0), (6, 0), (7, 0x60000), (8, 1), (9, 2)]
     s.xRun 5 5 = some [0, 0, 0x60000, 1, 2] ∧ 0xC0000 < (2 : Word).toNat + 2 * 0x60000) ∧
    (31 : Nat) < (28#5).toNat + 2 * (2#5).toNat ∧ (32 : Nat) < (27#5).toNat + 3 * (2#5).toNat :=
  ⟨by decide +kernel, by decide +kernel, by decide +kernel, by decide +kernel, by decide +kernel, by decide, by decide⟩

/-- A policy image in memory whose first eight bytes are given and whose code is all `end`, for a supervisor core. -/
def policyAt (h : Nat) : State :=
  let s := withX sup [(1, 0x600000), (2, 0x600004)]
  { s with mem := writeLE s.mem 0x600000 8 h }

/-- R230: one instruction, `end`, with the least budget; no instruction; a budget of 7; a `jf` at the end; and with a decision in
progress. -/
theorem witness_SupervisorFormsAndPrivilege_policy :
    (∃ s1 s2, (policyAt 0x801).load 0x600000 8 = .ok (0x801, s1) ∧ s1.loadHalves 0x600008 1 = .ok ([0], s2)) ∧
    policyWordOk 1 0 0 = true ∧ (∃ s1, (policyAt 0x800).load 0x600000 8 = .ok (0x800, s1)) ∧
    (∃ s1, (policyAt 0x701).load 0x600000 8 = .ok (0x701, s1)) ∧ policyWordOk 2 1 1 = false ∧ ((policyAt 0).x 2).toNat % 8 ≠ 0 ∧
    (policyAt 0x801).part.decision = none ∧ (policyAt 0x801).core.overwriting = false ∧ (policyAt 0x801).core.sup = true :=
  ⟨⟨_, _, rfl, rfl⟩, by decide +kernel, ⟨_, rfl⟩, ⟨_, rfl⟩, by decide +kernel, by decide +kernel, by decide +kernel, by decide +kernel,
    by decide +kernel⟩

/-! ## Witnesses: places, loops, pointers, gangs, cinches -/

/-- Every core of die 3 in one partition, which holds the manual's example, the core at (45, 38), and the edges of the mesh. -/
theorem witness_MeshNumbering :
    (3 < 4 ∧ 3 < 8 ∧ 1 < 8 ∧ 1 < 4 ∧ 2 < 4 ∧ 3 * 1024 + (8 * 1 + 3) * 16 + (4 * 2 + 1) = 0xCB9) ∧
    (let p : Partition := { placedPartition with w := 16, h := 16 }
     p.holds 0xCB9 = true ∧ p.holds (idAt 46 38) = true ∧ p.holds (idAt 45 39) = true ∧ p.holds 0 = true ∧ p.stitching = .mesh) := by
  decide +kernel

theorem witness_LoopCount : looping.loop.mode ≠ .none ∧ base.loop.mode = .none ∧ overwriting.core.loop.mode = .overwrite ∧
    overwriting.core.loop.suspended = false ∧ overwriting.core.loop.left ≠ 0 ∧ looping.core.loop.mode = .loop ∧
    looping.core.loop.suspended = false ∧ looping.core.loop.left ≠ 0 := by decide +kernel

/-- Pointer values at the ends of their ranges and past them, and a run of four past x31. -/
theorem witness_PointersQueuesPeers_pointers :
    (withX base [(28, 255), (29, 0xBFFFF), (30, 2 ^ 64 - 32768), (31, 0xC0000)]).xRun 28 4 =
      some [BitVec.ofNat 64 255, BitVec.ofNat 64 0xBFFFF, BitVec.ofInt 64 (-32768), BitVec.ofNat 64 0xC0000] ∧
    (withX base [(28, 0), (29, 0), (30, 32767), (31, 0)]).xRun 28 4 =
      some [BitVec.ofNat 64 0, BitVec.ofNat 64 0, BitVec.ofInt 64 32767, BitVec.ofNat 64 0] ∧
    (28#5).toNat ≤ 28 ∧ 28 < (29#5).toNat ∧
    (∀ l ∈ [[(5, 256)], [(6, 0xC0000)], [(7, 2 ^ 64 - 32769)], [(7, 32768)], [(8, 0xC0001)]],
      ((withX base l).xRun 5 4).any (fun v => 255 < (v.getD 0 0).toNat || 0xC0000 ≤ (v.getD 1 0).toNat ||
        (v.getD 2 0).toInt < -32768 || 32767 < (v.getD 2 0).toInt || 0xC0000 < (v.getD 3 0).toNat) = true) := by decide +kernel

theorem witness_PointersQueuesPeers_queues :
    (∀ n ∈ [0, 31], (base.updCore fun c => { c with regs := { c.regs with q0 := List.replicate n 1 } }).core.regs.q0.length < 32) ∧
    32 ≤ (base.updCore fun c => { c with regs := { c.regs with q0 := List.replicate 32 1 } }).core.regs.q0.length ∧
    (base.updCore fun c => { c with regs := { c.regs with q1 := [7, 8] } }).core.regs.q1 = 7 :: [8] ∧ base.core.regs.q1 = [] := by
  decide +kernel

/-- From core 0: the last byte of itself, the core at the far corner, and one step out of the cluster on each side. -/
theorem witness_PointersQueuesPeers_peers :
    (∀ e ∈ [(0, 0), (3, 3), (0xF, 0), (0, 0xF), (4, 0), (0, 4)],
      let s := withX base [(1, 0xBFFFF), (2, e.1 + 16 * e.2)]
      s.x 1 = BitVec.ofNat 64 0xBFFFF ∧ s.x 2 = (BitVec.ofNat 4 e.2 ++ BitVec.ofNat 4 e.1).zeroExtend 64) ∧
    (0 % 4 + (3#4).toInt ≤ 3 ∧ 0 % 4 + (15#4).toInt < 0 ∧ 3 < 0 % 4 + (4#4).toInt) ∧
    0xC0000 ≤ ((withX base [(1, 0xC0000)]).x 1).toNat ∧ 256 ≤ ((withX base [(1, 256)]).x 1).toNat := by decide +kernel

/-- Cores 0 to 3 run tasks of the placed launch, and some of them wait in a `g.fuse`. -/
def fusing (waits : List (Nat × Wait)) : State :=
  [0, 1, 2, 3].foldl (fun s i => s.updCoreAt i fun _ => { base.core with wait := (alGet i waits).getD .none }) base

theorem witness_GangsFormAndDissolve_fuse :
    (let s := fusing [(1, .fuse 2)]
     s.core.gang = none ∧ (∀ m ∈ gangMembers s.cur 2, s.unfit m = false) ∧
       (∀ m ∈ gangMembers s.cur 2, m ≠ s.cur → (s.coreAt m).wait = .fuse 2) ∧ s.core.wait = .none) ∧
    (let s := fusing [(1, .fuse 4), (2, .fuse 4), (3, .fuse 4)]
     (∀ m ∈ gangMembers s.cur 4, s.unfit m = false) ∧ ∀ m ∈ gangMembers s.cur 4, m ≠ s.cur → (s.coreAt m).wait = .fuse 4) ∧
    (let s := fusing [(3, .fuse 4)]
     (∀ m ∈ gangMembers s.cur 4, s.unfit m = false) ∧ (2 ∈ gangMembers s.cur 4 ∧ 2 ≠ s.cur ∧ (s.coreAt 2).wait ≠ .fuse 4)) ∧
    (base.core.gang = none ∧ (1 ∈ gangMembers base.cur 2 ∧ base.unfit 1 = true) ∧
      ∀ m ∈ rowCores base.cur, (base.coreAt m).wait = .none) ∧
    (2#5).toNat = 2 ∧ (4#5).toNat = 4 ∧ (3#5).toNat ≠ 2 ∧ (3#5).toNat ≠ 4 := by decide +kernel

/-- Core 1 acts with `g.fuse` of two members while cores 0 and 2 wait in one of four; every core has a handler. -/
theorem witness_GangsFormAndDissolve_mismatch :
    let s := ([0, 1, 2, 3].foldl (fun (s : State) i => s.updCoreAt i fun c => { c with trap := { c.trap with tvec := 0x140000 } })
      (fusing [(0, .fuse 4), (2, .fuse 4)])).act 1
    (∀ q ∈ rowCores s.cur, (s.coreAt q).gang = none ∧ (s.coreAt q).trap.ih = false ∧ (s.coreAt q).trap.tvec ≠ 0) ∧
      s.core.wait = .none ∧ 0 ∈ gangMembers s.cur 2 ∧ (0 : Nat) ≠ s.cur ∧ (s.coreAt 0).wait = .fuse 4 ∧ 2 ∈ rowCores s.cur ∧
      (s.coreAt 2).wait = .fuse 4 ∧ s.cur ∈ gangMembers 2 4 := by decide +kernel

theorem witness_GangsFormAndDissolve_split :
    gangOfTwo.core.gang = some ⟨2, 0, none⟩ ∧ gangOfTwo.core.pc + 4 = 0x200004 ∧ gangOfTwo.cur = 1 ∧
      (gangOfTwo.coreAt 0).loop.mode = .none ∧ (gangOfTwo.coreAt 0).gang = some ⟨2, 0, some 0x200004⟩ := by decide +kernel

/-- Cinches 0 and 63 belong to the partition, the first as given and the other shut; x1 holds a number. -/
def cinched (n : Nat) (f : Cinch → Cinch) : State :=
  let own := { Cinch.zero with part := some 0 }
  { withX base [(1, n)] with cinches := [(0, f own), (63, { own with shut := true })] }

theorem witness_CinchValues :
    ((cinched 0 id).x 1 = BitVec.ofNat 64 0 ∧ ((cinched 0 id).cinchAt 0).part = some (cinched 0 id).core.part ∧
      ((cinched 0 id).cinchAt 0).shut = false ∧ ((cinched 0 id).cinchAt 0).tokens = []) ∧
    ((cinched 63 id).x 1 = BitVec.ofNat 64 63 ∧ ((cinched 63 id).cinchAt 63).part = some (cinched 63 id).core.part ∧
      ((cinched 63 id).cinchAt 63).shut = true) ∧
    64 ≤ ((cinched 64 id).x 1).toNat ∧
    (((cinched 5 id).x 1).toNat < 64 ∧ ((cinched 5 id).cinchAt 5).part ≠ some (cinched 5 id).core.part) ∧
    base.core.overwriting = false := by decide +kernel

/-- The take of core 0 stands first in the queue, behind another, or comes to one; a clear waits at the entry; and its token stands at a
balancer, or has passed all fifteen. -/
theorem witness_CinchValues_tokens :
    (let c := (cinched 0 fun c => { c with queue := [0, 4] }).cinchAt 0
     (∀ t ∈ c.tokens, t.core ≠ 0) ∧ c.shut = false ∧ c.closers = [] ∧ c.queue.head? = some 0) ∧
    (∀ q ∈ [[4], [4, 0]], let c := (cinched 0 fun c => { c with queue := q }).cinchAt 0
     c.queue ≠ [] ∧ c.queue.head? ≠ some 0 ∧ (0 ∈ c.queue ↔ q = [4, 0])) ∧
    (let c := (cinched 0 fun c => { c with closers := [4], tokens := [⟨7, 7, []⟩] }).cinchAt 0
     (∀ t ∈ c.tokens, t.core ≠ 0) ∧ c.closers ≠ [] ∧ c.tokens ≠ [] ∧ 0 ∉ c.closers) ∧
    (∀ n ∈ [14, 15], let t : Token := ⟨0, 5, List.replicate n false⟩
     ((cinched 0 fun c => { c with tokens := [⟨7, 7, []⟩, t] }).cinchAt 0).tokenOf? 0 = some t ∧
       ((tokenPath t.wire t.bits).1.isSome = true ↔ n = 14)) := by decide +kernel

/-! ## Witnesses: the loop buffer and the skiver -/

/-- A loop of one `addi` is about to be set: x1 passes and x2 words. -/
def settingLoop (passes : Nat) : State :=
  let s := withX base [(1, passes), (2, 1)]
  { s with mem := writeLE s.mem 0x200004 4 0x13 }

theorem witness_LoopBufferRuns_set : ∀ n ∈ [0, 2 ^ 32 - 1],
    (settingLoop n).core.gang = none ∧ (settingLoop n).core.loop.mode = .none ∧ ((settingLoop n).x 1).toNat < 2 ^ 32 ∧
      1 ≤ ((settingLoop n).x 2).toNat ∧ ((settingLoop n).x 2).toNat ≤ 32 ∧ (∀ e ∈ (settingLoop n).core.loop.table, False) ∧
      (∃ s1, (settingLoop n).fetchBody ((settingLoop n).core.pc + 4) ((settingLoop n).x 2).toNat = .ok ([0x13], s1)) ∧
      (∀ k, k < ((settingLoop n).x 2).toNat →
        bodyWordOk ((settingLoop n).core.pc + 4) ((settingLoop n).x 2).toNat false k ([0x13].getD k 0) = true) := by
  simp only [List.forall_mem_cons, List.not_mem_nil, false_implies, implies_true, and_true]
  refine ⟨⟨by decide +kernel, by decide +kernel, by decide +kernel, by decide +kernel, by decide +kernel, by decide +kernel, ⟨_, rfl⟩, by decide +kernel⟩,
    ⟨by decide +kernel, by decide +kernel, by decide +kernel, by decide +kernel, by decide +kernel, by decide +kernel, ⟨_, rfl⟩, by decide +kernel⟩⟩

theorem witness_LoopBufferRuns_stops : 2 ^ 32 ≤ ((withX base [(1, 2 ^ 32)]).x 1).toNat ∧ (base.x 2).toNat = 0 ∧
    32 < ((withX base [(2, 33)]).x 2).toNat ∧ looping.core.loop.mode ≠ .none := by decide +kernel

/-- A body that holds an `lp.set`, and tables that name a word past the body or a field its word lacks. -/
theorem witness_LoopBufferRuns_words :
    (let s := { settingLoop 2 with mem := writeLE (settingLoop 2).mem 0x200004 4 (match encode (.lpSet 1 2) with | .word w => w.toNat | _ => 0) }
     ∃ w s1, s.fetchBody (s.core.pc + 4) (s.x 2).toNat = .ok ([w], s1) ∧ bodyWordOk (s.core.pc + 4) (s.x 2).toNat false 0 w = false) ∧
    (let s := (settingLoop 2).updCore fun c => { c with loop := { c.loop with table := [⟨1, 0, 1⟩] } }
     ∃ e ∈ s.core.loop.table, (s.x 2).toNat ≤ e.i) ∧
    (let s := (settingLoop 2).updCore fun c => { c with loop := { c.loop with table := [⟨0, 5, 1⟩] } }
     ∃ e ∈ s.core.loop.table, stepApplies e.f ([0x13].getD e.i 0) = false) :=
  ⟨⟨_, _, rfl, by decide +kernel⟩, ⟨⟨1, 0, 1⟩, by decide +kernel, by decide +kernel⟩, ⟨0, 5, 1⟩, by decide +kernel, by decide +kernel⟩

/-- A table that is empty, holds the entry's word and field, or is full of others; increments at the ends of a field and past them. -/
theorem witness_LoopBufferRuns_step :
    let t (l : List StepEntry) (v : Nat) : State := (withX base [(1, v)]).updCore fun c => { c with loop := { c.loop with table := l } }
    (t [] 31).core.loop.table.length < 8 ∧ ((t [] 31).x 1).toInt = 31 ∧ ((t [] (2 ^ 64 - 31)).x 1).toInt = -31 ∧
      ((t [] 32).x 1).toInt = 32 ∧ ((t [] 2047).x 1).toInt = 2047 ∧ ((t [] (2 ^ 39 - 1)).x 1).toInt = 2 ^ 39 - 1 ∧
      ((t [] 255).x 1).toInt = 255 ∧ ((t [] 4095).x 1).toInt = 4095 ∧
      (t [⟨2, 1, 5⟩] 31).core.loop.table = [⟨2, 1, 5⟩] ∧
      (t ((List.range 8).map fun k => ⟨k, 0, 1⟩) 31).core.loop.table.length = 8 ∧
      ∀ o ∈ (t ((List.range 8).map fun k => ⟨k, 0, 1⟩) 31).core.loop.table, o.f ≠ 1 := by decide +kernel

theorem witness_LoopBufferRuns_fetch : looping.bodyIndex? = some 0 ∧ looping.loop.word 0 = some 0x13 ∧
    looping.loop.body[1]? = some 0x13 ∧ (∀ e ∈ looping.loop.steps, e.i ≠ 1) ∧
    ({ looping.loop with steps := [⟨1, 0, 3⟩] } : LoopState).steps = [⟨1, 0, 3⟩] := by decide +kernel

/-- td1 describes 8 elements of I16 in the own scratchpad; an `ov.set` of x2 passes over x1 words is about to be executed, with the
cover map at the last byte of the scratchpad. -/
def overSetting (busy : Bool) : State :=
  let s := (withX base [(1, 3), (2, 1), (5, 0xBFFFF)]).updCore fun c => c.setTd 1
    ⟨0xF100000000, some .i16, 1, 0, 0, 1, [8, 0, 0, 0, 0, 0, 0], [1, 0, 0, 0, 0, 0, 0]⟩
  let s := { s with mem := writeLE s.mem 0x200004 4 0x13 }
  if busy then s.updCore fun c => { c with eng := { c.eng with dq := vectorHead.core.eng.vq } } else s

theorem witness_SkiverRuns_set : ∀ busy : Bool, let s := overSetting busy
    s.core.gang = none ∧ s.core.loop.mode = .none ∧ 1 ≤ (s.x 1).toNat ∧ (s.x 1).toNat < 2 ^ 32 ∧ (s.x 2).toNat = 1 ∧
      s.core.loop.table = [] ∧ (s.core.td 1).rank ≠ 0 ∧ (s.core.td 1).elements = 8 ∧
      (s.x 5).toNat + ((s.core.td 1).elements + 7) / 8 ≤ 0xC0000 ∧
      coverMeets s.cur (s.core.td 1) (s.x 5).toNat (((s.core.td 1).elements + 7) / 8) = false ∧
      bodyWordOk (s.core.pc + 4) (s.x 2).toNat true 0 0x13 = true ∧ s.core.eng.idle = !busy := by decide +kernel

theorem witness_SkiverRuns_body : ∀ busy : Bool, ∃ s1,
    (overSetting busy).fetchBody ((overSetting busy).core.pc + 4) ((overSetting busy).x 2).toNat = .ok ([0x13], s1) := by
  intro busy
  cases busy <;> exact ⟨_, rfl⟩

/-- A target that starts within the cover map, under the alias and under the own window's address, is met; a `ov.set` of it is at hand. -/
theorem witness_SkiverRuns_meets : ∀ base' ∈ [0xF1000BFFFF, 0xF0000BFFFF],
    let td : Td := ⟨BitVec.ofNat 64 base', some .i8, 1, 0, 0, 1, [1, 0, 0, 0, 0, 0, 0], [1, 0, 0, 0, 0, 0, 0]⟩
    let s := (withX base [(1, 3), (2, 1), (5, 0xBFFFF)]).updCore fun c => c.setTd 1 td
    td.span = (0, 0) ∧ s.core.gang = none ∧ s.core.loop.mode = .none ∧ (s.x 1).toNat < 2 ^ 32 ∧ 1 ≤ (s.x 2).toNat ∧
      (s.x 2).toNat ≤ 32 ∧ s.core.loop.table = [] ∧ s.core.eng.idle = true ∧
      coverMeets s.cur (s.core.td 1) (s.x 5).toNat (((s.core.td 1).elements + 7) / 8) = true := by decide +kernel

/-- An iteration of an overwrite loop over td1, its cover map at offset 0, with cells covered; bx1 holds cells 0 and 1, or more. -/
def covering (byte : Nat) (declared : Bool) (b : Region) : State :=
  let s := ((overSetting false).setBx 1 b).updCore fun c => { c with
    loop := { c.loop with body := [0x13, 0x13], start := 0x200000, mode := .overwrite, left := 1, pass := 1, everSet := true,
                          td := c.td 1, tdReg := 1, cover := 0x100, elems := 8, declared := declared, footprint := line 0 2 } }
  s.updCore fun c => { c with spad := writeLE c.spad 0x100 1 byte }

theorem witness_SkiverRuns_declare :
    (∀ byte ∈ [1, 3], let s := covering byte false (line 0 2)
      s.core.overwriting = true ∧ s.core.loop.declared = false ∧ (s.bx 1).inexact = false ∧
        (s.bx 1).rank = s.core.loop.td.rank.toNat ∧ (s.bx 1).rank ≠ 0 ∧ s.core.loop.everSet = true ∧
        s.core.loop.td.holdsRegion (s.bx 1) [] = true ∧ footprintOf s.core.loop.td (s.bx 1) [] = [0, 1] ∧
        coverBit s.core.spad s.core.loop.cover 0 = true ∧ (coverBit s.core.spad s.core.loop.cover 1 = true ↔ byte = 3)) ∧
    (let s := covering 0 false (line 0 9)
     s.core.loop.td.holdsRegion (s.bx 1) [] = false) ∧
    (covering 0 true (line 0 2)).core.loop.declared = true ∧ base.core.loop.everSet = false := by decide +kernel

theorem witness_SkiverRuns_lengths : (covering 1 false (line 0 2)).lengthsOf ((covering 1 false (line 0 2)).bx 1) =
    .ok ([], covering 1 false (line 0 2)) := rfl

/-- The coordinate in x10 of a store through the target, covered or not. -/
theorem witness_SkiverRuns_stores : ∀ declared : Bool,
    let s := (covering 1 declared (line 0 2)).setX 10 0
    let cs := s.core.loop.td.wrapped ((List.range s.core.loop.td.rank.toNat).map fun k => (s.x (BitVec.ofNat 5 ((10#5).toNat + k))).toInt)
    s.core.overwriting = true ∧ s.core.loop.tdReg = 1 ∧ s.core.loop.td.valid = true ∧ (10#5).toNat + s.core.loop.td.rank.toNat ≤ 32 ∧
      s.core.loop.td.inBounds cs = true ∧ s.core.loop.declared = declared ∧ (declared = true → s.core.loop.inFootprint cs = true) ∧
      coverBit s.core.spad s.core.loop.cover (s.core.loop.td.index cs).toNat = true := by decide +kernel

/-! ## Witnesses: the event unit -/

/-- x1 holds a value and x2 another; line, barrier, mutex and counter 0 of the launch stand as given. -/
def synced (a b : Nat) (bar : EvBarrier) (mx : EvMutex) (ct : EvCounter) (w : Wait) : State :=
  let s := (withX base [(1, a), (2, b)]).updCore fun c => { c with wait := w }
  s.updUnit fun c => ((({ c with lines := [(32, ⟨5, false⟩)] }).setBarrier 1 0 bar).setMutex 1 0 mx).setCounter 1 0 ct

/-- The launch's line 0 at phase 5 with each kind of token, asleep at it or not. -/
theorem witness_EventLinesAndBarriers_lines :
    (∀ e ∈ [(4, 1), (3, 2), (5 + 32769, 32767), (6, 65535), (5 + 32768, 32768), (5, 0)],
      let s := synced (e.1 * 2 ^ 16) 0 default default default .none
      s.core.overwriting = false ∧ s.x 1 = BitVec.ofNat 64 (0 + 2 ^ 16 * (BitVec.ofNat 16 e.1).toNat) ∧
        heldByOther s.unit.lines s.owner 0 = false ∧ ((resOf s.unit.lines s.owner 0).phase - BitVec.ofNat 16 e.1).toNat = e.2 ∧
        s.core.wait = .none) ∧
    (let s := synced (4 * 2 ^ 16) 0 default default default (.lineWord 0 4)
     s.core.wait = .lineWord 0 4 ∧ ((resOf s.unit.lines s.owner 0).phase - 4).toNat ≠ 0) ∧
    (synced 31 0 default default default .none).x 1 = BitVec.ofNat 64 31 ∧ 32 ≤ ((synced 32 0 default default default .none).x 1).toNat ∧
    (let s := ((withX base [(1, 31)]).updPart fun p => { p with mode := .service }).updUnit fun c => { c with lines := [(5 * 32 + 31, ⟨0, false⟩)] }
     s.x 1 = BitVec.ofNat 64 31 ∧ heldByOther s.unit.lines s.owner 31 = true ∧
       (alGet (resKey s.owner 31) s.unit.lines).isNone = true ∧ s.part.mode = .service) := by decide +kernel

/-- Barrier 0 at phase 5: the last of its arrivals and not the last, another count, and each other token. -/
theorem witness_EventLinesAndBarriers_barriers :
    (∀ e ∈ [(1, 5, 0), (2, 5, 0), (2, 5, 2), (16, 5, 0), (2, 4, 0), (2, 3, 0), (2, 6, 0)],
      let s := synced (0 + 16 * e.1 + 2 ^ 16 * e.2.1) 0 ⟨5, e.1, BitVec.ofNat 16 e.2.2⟩ default default .none
      s.core.overwriting = false ∧ 1 ≤ e.1 ∧ e.1 ≤ 16 ∧ s.x 1 = BitVec.ofNat 64 (0 + 16 * e.1 + 2 ^ 16 * (BitVec.ofNat 16 e.2.1).toNat) ∧
        heldByOther s.unit.barriers s.owner 0 = false ∧ (resOf s.unit.barriers s.owner 0).count = e.1 ∧
        (arrived ((resOf s.unit.barriers s.owner 0).arrivals ||| (1#16 <<< (s.cur % 16))) = e.1 ↔ (e.1 = 1 ∨ e.2.2 = 2))) ∧
    (let s := synced (0 + 16 * 2 + 2 ^ 16 * 5) 0 ⟨5, 3, 2⟩ default default .none
     (resOf s.unit.barriers s.owner 0).arrivals ≠ 0 ∧ (resOf s.unit.barriers s.owner 0).count ≠ 2) := by decide +kernel

theorem witness_MutexesCountersMessages_mutexes :
    let s (m : EvMutex) (w : Wait) : State := synced 0 0 default m default w
    (s ⟨none, []⟩ .none).x 1 = BitVec.ofNat 64 0 ∧ heldByOther (s ⟨none, []⟩ .none).unit.mutexes (s ⟨none, []⟩ .none).owner 0 = false ∧
      (∀ m ∈ ([⟨none, []⟩, ⟨some 3, [4]⟩, ⟨some 0, []⟩, ⟨some 0, [4, 5]⟩] : List EvMutex), ∀ w ∈ [Wait.none, .lineWord (64 + 0) 0],
        resOf (s m w).unit.mutexes (s m w).owner 0 = m ∧ (s m w).core.wait = w) ∧
      (s ⟨none, []⟩ .none).cur % 16 = 0 := by decide +kernel

theorem witness_MutexesCountersMessages_counters :
    (∀ add ∈ [1, 2 ^ 32 - 1], let s := synced 0 add default default ⟨7, [(8, 0), (9, 3), (8, 0)]⟩ .none
      s.x 1 = BitVec.ofNat 64 0 ∧ s.x 2 = BitVec.ofNat 64 add ∧ heldByOther s.unit.counters s.owner 0 = false ∧
        heldByOther s.unit.lines s.owner 31 = false) ∧
    (synced 256 0 default default default .none).x 1 = BitVec.ofNat 64 (0 + 256) ∧
    (∀ th ∈ [7, 8], let s := synced 0 (th + 2 ^ 32 * 31) default default ⟨7, List.replicate 3 (9, 0)⟩ .none
      s.x 2 = BitVec.ofNat 64 ((BitVec.ofNat 32 th).toNat + 2 ^ 32 * 31) ∧
        (BitVec.ofNat 32 th ≤ (resOf s.unit.counters s.owner 0).value ↔ th = 7) ∧ (resOf s.unit.counters s.owner 0).armed.length = 3) ∧
    (let s := (synced 0 (8 + 2 ^ 32 * 31) default default ⟨7, List.replicate 4 (9, 0)⟩ .none).updPart fun p => { p with mode := .service }
     (resOf s.unit.counters s.owner 0).value < 8 ∧ 4 ≤ (resOf s.unit.counters s.owner 0).armed.length ∧ s.part.mode = .service) := by
  decide +kernel

/-- The last core of the partition, line 31 and counter 7. -/
theorem witness_MutexesCountersMessages_messages : ∀ w ∈ [31, 32 + 7],
    let s := synced 15 w default default default .none
    s.x 1 = BitVec.ofNat 64 15 ∧ 15 < s.part.size ∧ s.cutOff s.part s.cur (s.part.phys 15) = false ∧ s.x 2 = BitVec.ofNat 64 w ∧
      s.core.sup = false ∧ heldByOther (s.clusterAt (s.part.phys 15 / 16)).lines s.owner 31 = false ∧
      heldByOther (s.clusterAt (s.part.phys 15 / 16)).counters s.owner 7 = false := by decide +kernel

/-- From supervisor mode, to a line that the partition's supervisor code holds and to one that it does not. -/
theorem witness_MutexesCountersMessages_supervisor : ∀ held : Bool,
    let s := ((synced 15 31 default default default .none).updCore fun c => { c with sup := true }).updCluster 0 fun c =>
      if held then { c with lines := [(31, ⟨0, false⟩)] } else c
    s.core.sup = true ∧ s.x 2 = BitVec.ofNat 64 31 ∧
      ((alGet (resKey 0 31) (s.clusterAt (s.part.phys 15 / 16)).lines).isSome = true ↔ held = true) ∧
      heldByOther (s.clusterAt (s.part.phys 15 / 16)).lines
        (s.msgOwner (s.part.phys 15) (s.clusterAt (s.part.phys 15 / 16)).lines 31) 31 = false := by decide +kernel

/-! ## Witnesses: futures and tasks -/

/-- Slot 1 holds a future of the launch in generation 1; x1 is its handle. -/
def future (st : FutState) : State := (withX base [(1, 0x10001)]).updPart fun p => { p with futures := [(1, ⟨9, st, 1, 0, 0⟩)] }

theorem witness_FuturesAndTasks_futures :
    (∀ st ∈ [FutState.pending, .full, .dropped], (future st).core.overwriting = false ∧
      (future st).liveFuture ((future st).x 1) = some (1, ⟨9, st, 1, 0, 0⟩)) ∧
    (future .empty).liveFuture ((future .empty).x 1) = none ∧ (future .full).liveFuture 0x20001 = none := by decide +kernel

theorem witness_FuturesAndTasks_new :
    base.core.bound = .task 0 0 0 (2 ^ 63) none ∧ base.part.launch? 0 = some placedLaunch ∧ placedLaunch.key = 0 ∧
      (alGet base.core.part base.parts).isSome = true ∧ base.part.budgetFull placedLaunch 0 = false ∧
      (base.part.futures.filter fun e => e.2.state != .empty).length < 4096 ∧ base.part.freeSlots ≠ [] :=
  ⟨by decide +kernel, by decide +kernel, by decide +kernel, by decide +kernel, by decide +kernel, by decide +kernel,
    List.ne_nil_of_mem (a := 1) (List.mem_filter.mpr ⟨List.mem_map.mpr ⟨0, List.mem_range.mpr (by decide), rfl⟩, rfl⟩)⟩

theorem witness_FuturesAndTasks_tasks :
    (∀ w ∈ [2, 2 ^ 63], let s := (withX base [(1, 0x200000)]).updCore fun c => { c with bound := .task 0 0 0 w none }
      s.core.overwriting = false ∧ (s.x 1).toNat % 4 = 0 ∧ s.core.bound = .task 0 0 0 w none ∧
        s.part.launch? 0 = some placedLaunch ∧ placedLaunch.pool.length < placedLaunch.poolSize) ∧
    ((withX base [(1, 0x200001)]).x 1).toNat % 4 ≠ 0 ∧
    (let l := { placedLaunch with pool := [1] }
     let s := base.updPart fun p => { p with launches := [l] }
     s.part.launch? 0 = some l ∧ l.poolSize ≤ l.pool.length ∧ (s.x 1).toNat % 4 = 0) ∧
    (base.core.gang = none ∧ base.core.exiting = false ∧ base.core.eng.idle = true) ∧ (overSetting true).core.eng.idle = false := by
  decide +kernel

/-! ## Witnesses: issue, tiles, inbox -/

/-- A queue of n commands in each engine. -/
def queued (n : Nat) : State := base.updCore fun c => { c with eng :=
  let q := List.replicate n (base.captured (wordsOf (.vAdd (vo .f32 16))) false 0)
  { c.eng with vq := q, cq := q, mq := q, kq := q, dq := q } }

theorem witness_IssueCapturesOperands_queues : ∀ e ∈ ([0, 1, 2, 3, 4] : List (BitVec 3)),
    (queued 0).core.overwriting = false ∧ (queued 0).core.dead e = false ∧ (queued 0).core.eng.free e ≠ 0 ∧
      (queued 32).core.eng.free e = 0 ∧ ((queued 0).updCore fun c => { c with faults := [⟨16, 0, e, 0⟩] }).core.dead e = true := by
  decide +kernel

theorem witness_IssueCapturesOperands_fetch :
    (∀ e ∈ [0, 32], ∃ raw s1, (queued e).fetch (w64 ((queued e).core.csr.cpb.toNat * 32) + w64 (32 * (0xFFF#12).toNat)).toNat 32 =
      .ok (raw, s1)) ∧
    (let s := base.updCore fun c => { c with csr := { c.csr with cpb := BitVec.allOnes 50 } }
     ∃ f, s.fetch (w64 (s.core.csr.cpb.toNat * 32) + w64 (32 * (0#12).toNat)).toNat 32 = .error (.fault f)) := by
  simp only [List.forall_mem_cons, List.not_mem_nil, false_implies, implies_true, and_true]
  exact ⟨⟨⟨_, _, rfl⟩, _, _, rfl⟩, _, rfl⟩

/-- Counts that fit and that do not, and a displacement past either end in carry mode. -/
theorem witness_IssueCapturesOperands_patch : (2 ^ 32 - 1 : Word).toNat < 2 ^ 32 ∧ 2 ^ 32 ≤ (2 ^ 32 : Word).toNat ∧
    (let w : CmdWords := ⟨0x4000, 5, 0, 0⟩
     (w.w0.extractLsb' 14 2).toNat = 1 ∧ ((w.w1.extractLsb' 0 40).toNat : Int) + (-6 : Word).toInt < 0 ∧
       2 ^ 40 ≤ ((w.w1.extractLsb' 0 40).toNat : Int) + (0xFFFFFFFFFB : Word).toInt) := by decide +kernel

/-- Tile 1 stands as given and lies at 0x100, of 64 bytes and eight rows; bx1 has rows 0 to 3; the inbox holds a message, or none. -/
def tiled (st : TileState) (m : List Msg) : State :=
  (base.setBx 1 (line 0 4)).updCore fun c => { c.setTile 1 ⟨st, false, 0x100, 64, 8, 3, 0⟩ with inbox := m }

theorem witness_TileAndInboxCommands_tiles :
    (let o : TtBind := ⟨hd, 2, 0xC0, 0x40, 0, 0⟩
     ((tiled .ready []).core.tile o.tile.toNat).state = .empty ∧
       (∀ k, k < 256 → (tiled .ready []).core.tile k = Tile.empty ∨ o.off.toNat + o.len.toNat ≤ ((tiled .ready []).core.tile k).off.toNat)) ∧
    ((tiled .ready []).core.tile 1).state ≠ .empty ∧
    (let t := (tiled .ready []).core.tile 1
     t.off.toNat < 0xC0 + 0x41 ∧ (0xC0 : Nat) < t.off.toNat + t.len.toNat) ∧
    ((tiled .ready []).headRegion ⟨.plain, some 1, .rne, none, 0⟩).rowRange [] = some (0, 3) ∧
    ((tiled .ready []).headRegion ⟨.plain, some 2, .rne, none, 0⟩).rowRange [] = none ∧
    overwriting.core.overwriting = true ∧
    ((tiled .ready []).core.tile 1).touched 0 3 = true ∧ ((tiled .ready []).core.tile 1).touched 0 2 = false ∧
    ((tiled .filling []).core.tile 1).state = .filling ∧ ((tiled .draining []).core.tile 1).state = .draining ∧
    (tiled .ready []).productReads (tiled .ready []).cur 1 = false ∧ (tiled .ready []).core.eng.commands = [] := by decide +kernel

theorem witness_TileAndInboxCommands_inbox :
    (tiled .ready []).core.inbox = [] ∧ (tiled .ready [⟨0, false, 0, 1, 2, 3, 4⟩]).core.inbox = ⟨0, false, 0, 1, 2, 3, 4⟩ :: [] ∧
      (tiled .ready [⟨0, false, 0, 1, 2, 3, 4⟩]).core.inbox[(0#6).toNat]? = some ⟨0, false, 0, 1, 2, 3, 4⟩ := by decide +kernel

/-! ## Witnesses: the vector engine -/

/-- Tiles 0 to 3 of 4096 bytes are ready, each named by the pointer of its number; q0 holds a scalar; a command is the head of the
vector queue. -/
def vectorWaiting (i : Instr) : State :=
  let s := base.updCore fun c => { c with regs := { c.regs with q0 := [7] } }
  let s := [0, 1, 2, 3].foldl (fun (s : State) (k : Nat) => s.updCore fun c =>
    (c.setTile k ⟨.ready, false, BitVec.ofNat 20 (4096 * k), 4096, 0, 0, 0⟩).setVp (BitVec.ofNat 4 k)
      ⟨BitVec.ofNat 8 k, BitVec.ofNat 20 (4096 * k), 64, 0⟩) s
  s.queueCommand 1 0 (s.captured (wordsOf i) false 0)

/-- The command has started. -/
def vectorRunning (i : Instr) : State :=
  match exec i (vectorWaiting i) with
  | .next t => t
  | .fault _ | .refused _ => base

/-- Where a role's elements lie at the first step. -/
def roleAt (o : VOps) (role : VRole) : Nat := 4096 * (vPointer o role).toNat

/-- The command runs and its first step's accesses go through. -/
def vectorCheck (i : Instr) (k : VOp) (o : VOps) (dests : List VRole) : Bool :=
  let s := vectorRunning i
  match s.core.eng.vrun with
  | none => false
  | some r => decide (vectorParts i = some (k, o)) && r.cmd.is 1 i && !r.done &&
    (k.reads o ++ dests).all (fun role => match s.roleOffset r k o role (r.stepCount k o) with
      | .ok x => x == roleAt o role
      | .error _ => false) &&
    (k.reads o).all fun role => !s.spadPoisoned s.cur (roleAt o role) (match k.shape o role with
      | none => (r.stepCount k o + 7) / 8
      | some w => runBytes w (k.roleCount role (r.stepCount k o)))

theorem vectorAt_of_check {i : Instr} {k : VOp} {o : VOps} {dests : List VRole} (h : vectorCheck i k o dests = true) :
    ∃ r, VectorAt (vectorRunning i) i k o r (roleAt o) dests := by
  simp only [vectorCheck] at h
  split at h
  · cases h
  · rename_i r hr
    simp only [Bool.and_eq_true, decide_eq_true_eq, Bool.not_eq_true', List.all_eq_true] at h
    obtain ⟨⟨⟨⟨h1, h2⟩, h3⟩, h4⟩, h5⟩ := h
    refine ⟨r, h1, hr, h2, h3, fun role hm => ?_, fun role hm => h5 role hm⟩
    have hx := h4 role hm
    split at hx
    · rename_i x hq
      rw [hq, eq_of_beq hx]
    · cases hx

/-- Operands with the pointers of the four roles as given. -/
def vp (f : Fmt) (n : Nat) (b c d : Reg4) : VOps := ⟨hf f n, 0, 0, b, none, 0, d, c, 0, false, false⟩

/-- A vector command with the operation and the operands it stands for, and the roles it writes. -/
def vectorCases : List (Instr × VOp × VOps × List VRole) :=
  let two (f : Fmt) := vp f 16 1 0 2
  let three (f : Fmt) := vp f 16 1 3 2
  let one (f : Fmt) := vp f 16 0 0 2
  let cmp (f : Fmt) := vp f 16 1 3 0
  [(.vAdd (two .f32), .add, two .f32, [.d]), (.vAdd (two .i16), .add, two .i16, [.d]), (.vSub (two .f16), .sub, two .f16, [.d]),
    (.vMul (two .i8), .mul, two .i8, [.d]), (.vFma (three .b16), .fma, three .b16, [.d]), (.vMin (two .f32), .min, two .f32, [.d]),
    (.vMax (two .i32), .max, two .i32, [.d]), (.vAnd (two .i8), .and, two .i8, [.d]), (.vOr (two .i8), .or, two .i8, [.d]),
    (.vXor (two .i8), .xor, two .i8, [.d]), (.vShl (two .i16), .shl, two .i16, [.d]), (.vShr (two .i16), .shr, two .i16, [.d]),
    (.vSel (three .f32), .sel, three .f32, [.d]), (.vPerm (two .f32), .perm, two .f32, [.d]), (.vMov (one .i4), .mov, one .i4, [.d]),
    (.vExp2 (one .f32), .exp2, one .f32, [.d]), (.vLog2 (one .f32), .log2, one .f32, [.d]), (.vRcp (one .f32), .rcp, one .f32, [.d]),
    (.vRsq (one .f16), .rsq, one .f16, [.d]), (.vSig (one .f32), .sig, one .f32, [.d]), (.vScl (one .f32), .scl, one .f32, [.d]),
    (.vFmas (one .i32), .fmas, one .i32, [.d]), (.vScanAdd (one .f32), .scanAdd, one .f32, [.d]),
    (.vBcast (vp .f32 16 0 0 0), .bcast, vp .f32 16 0 0 0, [.a]),
    (.vFill { vp .i8 16 0 0 0 with imm := 255 }, .fill, { vp .i8 16 0 0 0 with imm := 255 }, [.a]),
    (.vCvt { one .f16 with sfmt := some .f32 }, .cvt, { one .f16 with sfmt := some .f32 }, [.d]),
    (.vCvt { vp .f32 32 0 3 2 with sfmt := some .k8 }, .cvt, { vp .f32 32 0 3 2 with sfmt := some .k8 }, [.d]),
    (.vCvt { vp .k4 32 0 3 2 with sfmt := some .f32 }, .cvt, { vp .k4 32 0 3 2 with sfmt := some .f32 }, [.d, .c]),
    (.vCmpEq (cmp .f32), .cmpEq, cmp .f32, [.c]), (.vCmpLt (cmp .i4), .cmpLt, cmp .i4, [.c]), (.vCmpLe (cmp .i8), .cmpLe, cmp .i8, [.c]),
    (.vRedAdd (vp .i32 17 0 0 0), .redAdd, vp .i32 17 0 0 0, []), (.vRedAdd (vp .f32 16 0 0 0), .redAdd, vp .f32 16 0 0 0, []),
    (.vRedMax (vp .f32 16 0 0 0), .redMax, vp .f32 16 0 0 0, []), (.vRedMax (vp .i32 17 0 0 0), .redMax, vp .i32 17 0 0 0, []),
    (.vNzs (vp .i16 17 0 3 2), .nzs, vp .i16 17 0 3 2, [])]

theorem witness_VectorElements_and_VectorReductions :
    ∀ e ∈ vectorCases, ∃ r, VectorAt (vectorRunning e.1) e.1 e.2.1 e.2.2.1 r (roleAt e.2.2.1) e.2.2.2 := by
  have h : (vectorCases.all fun e => vectorCheck e.1 e.2.1 e.2.2.1 e.2.2.2) = true := by decide +kernel
  exact fun e he => vectorAt_of_check (List.all_eq_true.mp h e he)

/-- The last clause and each other of a step that is not the last: 17 elements of 32 bits are two steps, 16 are one. -/
theorem witness_VectorReductions_last : VOp.redAdd.steps (vp .i32 17 0 0 0) = 2 ∧ VOp.redAdd.steps (vp .f32 16 0 0 0) = 1 ∧
    VOp.redMax.steps (vp .i32 17 0 0 0) = 2 ∧ VOp.redMax.steps (vp .f32 16 0 0 0) = 1 ∧ VOp.nzs.steps (vp .i16 17 0 3 2) = 1 := by decide

/-- A `v.nzs` whose first element is not zero: its value and its index go to the starts of tiles 2 and 3. -/
theorem witness_VectorReductions_nonzero :
    let o := vp .i16 17 0 3 2
    let s := (vectorRunning (.vNzs o)).updCore fun c => { c with spad := writeLE c.spad 0 2 7 }
    (s.core.eng.vrun.any fun r =>
      (List.range 17).filter (fun j => !(valOf .i16 (runElem (s.seenAs (r.cmd.key 1)).core.spad 0 16 j)).isZero) == [0] &&
        (match s.core.vectorAccess (r.pointer o.vpd) (vDisp o o.vpd) 2 2 with | .ok x => x == 8192 | .error _ => false) &&
        (match s.core.vectorAccess (r.pointer o.vpc) (vDisp o o.vpc) 4 4 with | .ok x => x == 12288 | .error _ => false)) = true := by
  decide +kernel

/-- A 16 by 16 transposition: each source row lies at its pitch in tile 0 and each destination row in tile 2. -/
theorem witness_VectorReductions_transposition :
    let o : VOps := { vp .f32 1 0 0 2 with imm := 64 + 65536 * 64 }
    let s := vectorRunning (.vTrn o)
    vectorParts (.vTrn o) = some (.trn, o) ∧ (s.core.eng.vrun.any fun r => r.cmd.is 1 (.vTrn o) && !r.done &&
      (List.range 16).all fun n =>
        (match s.trnRow r o true n with | .ok x => x == 64 * n | .error _ => false) &&
        (match s.trnRow r o false n with | .ok x => x == 8192 + 64 * n | .error _ => false) &&
        !s.spadPoisoned s.cur (64 * n) 64) = true := by decide +kernel

/-- The head of the vector queue, with a command that could not be accepted, one that named an empty tile, one whose tile drains, and
one whose scalar is missing. -/
theorem witness_VectorStartsAndEnds_starts :
    let i : Instr := .vScl (vp .f32 16 0 0 2)
    let heads (s : State) (P : Cmd → Bool) : Bool := s.core.eng.vrun.isNone && match s.core.eng.vq with
      | cmd :: _ => cmd.is 1 i && P cmd
      | [] => false
    let s := vectorWaiting i
    heads s (fun c => !c.bad && c.emptyTile.isNone && c.ptrs.all fun p => (s.core.tile p.2.1.tile.toNat).state == .ready) = true ∧
      s.core.regs.q0 = 7 :: [] ∧ VOp.scl.steps (vp .f32 16 0 0 2) = 1 ∧
      heads (base.queueCommand 1 0 (base.captured (wordsOf i) true 0)) (·.bad) = true ∧
      heads (base.queueCommand 1 0 (base.captured (wordsOf i) false 0)) (fun c => !c.bad && c.emptyTile == some 0) = true ∧
      (let u := s.updCore fun c => c.setTile 2 { c.tile 2 with state := .draining }
       heads u (fun c => c.ptrs.any fun p => (u.core.tile p.2.1.tile.toNat).state != .ready) = true) ∧
      (s.updCore fun c => { c with regs := { c.regs with q0 := [] } }).core.regs.q0 = [] := by decide +kernel

/-- A pointer past its tile faults at the step; one at the last byte does not, one past it does, and one off its alignment. -/
theorem witness_VectorStartsAndEnds_faults :
    (let o : VOps := { vp .f32 16 0 0 2 with disp := 4032 + 1 }
     let s := vectorRunning (.vMov o)
     VRole.a ∈ VOp.mov.reads o ∧ (s.core.eng.vrun.any fun r => r.cmd.is 1 (.vMov o) && !r.done &&
       match s.roleOffset r .mov o .a (r.stepCount .mov o) with | .ok _ => false | .error _ => true) = true) ∧
    (let c := (vectorWaiting (.vMov (vp .f32 16 0 0 2))).core
     let t := c.tile (VPtr.zero.tile.toNat)
     (VPtr.zero.wrap = 0 ∧ t.off.toNat = 0 ∧ t.len.toNat = 4096) ∧
       (0 ≤ (VPtr.zero.offset.toNat : Int) + 4092 ∧ (VPtr.zero.offset.toNat : Int) + 4092 + 4 ≤ 4096) ∧
       4096 < (VPtr.zero.offset.toNat : Int) + 4096 + 4 ∧ ((VPtr.zero.offset.toNat : Int) + 2) % 4 ≠ 0) := by decide +kernel

theorem witness_VectorStartsAndEnds_ends :
    let o := vp .f32 16 0 0 2
    (∃ r, VectorAt (vectorRunning (.vMov o)) (.vMov o) .mov o r (roleAt o) [.d]) ∧ o.msg = false ∧ VOp.mov.steps o ≤ 0 + 1 ∧
      ((vectorRunning (.vMov o)).core.eng.vrun.any fun r => r.step == 0 && r.ptrs.all fun p =>
        (r.ptrs.filter fun q => q.1 == p.1).length == 1) = true :=
  ⟨vectorAt_of_check (by decide +kernel), rfl, by decide +kernel, by decide +kernel⟩

/-! ## Witnesses: the matrix engine -/

/-- A matrix instruction of a core: A is tile 0 of core 0, B its own tile 1. -/
def mxOf (id : Nat) (pair : Pair) (mask : BitVec 4) : MxCmd := ⟨pair, .ow, 0, 0, BitVec.ofNat 64 (256 * id + 1), 0x3F800000, mask, 0⟩

/-- Cores 0 and 1 run tasks of one launch; on each a matrix instruction is the head of the queue, posted or not, with tiles 0 and 1 of
32 lines of 32 elements. -/
def multiplying (pair : Pair) (mask : BitVec 4) (posted : Bool) (st : TileState) : State :=
  let len (f : Fmt) : BitVec 20 := BitVec.ofNat 20 (32 * (4 * f.width + if f.isBlock then 1 else 0))
  [0, 1].foldl (fun (s : State) (id : Nat) => s.updCoreAt id fun _ =>
    let c := (base.core.setTile 0 ⟨st, false, 0, len pair.fmts.1, 0, 0, 0⟩).setTile 1 ⟨.ready, false, 0x4000, len pair.fmts.2, 0, 0, 0⟩
    { c with eng := { c.eng with posted := posted && id == 1,
                                 mq := [{ base.captured ⟨0, 0, 0, 0⟩ false 0 with mx := some (mxOf id pair mask) }] } }) base

/-- The operands of a core's head pass with K = 32. -/
def passes (s : State) (id : Nat) : Bool := match (s.coreAt id).matrixHead? with
  | some (_, m) => match s.checkOperands id m with | .ok k => k == 32 | .error _ => false
  | none => false

theorem witness_MatrixBarrier_heads :
    (let s := multiplying .k8k8 0b0010 false .ready
     (s.coreAt 0).enginesRun = true ∧ ((s.coreAt 0).matrixHead?.any fun h => !h.2.mask.getLsbD (colOf 0)) = true) ∧
    (let s := multiplying .k8k8 0b0011 false .filling
     ((s.coreAt 0).matrixHead?.any fun h => h.2.mask.getLsbD (colOf 0) && s.operandWaits 0 h.2) = true) ∧
    (let s := multiplying .k8k8 0b0011 false .ready
     ((s.coreAt 0).matrixHead?.any fun h => !s.operandWaits 0 h.2) = true ∧
       (∀ k ∈ rowCores 0, k ≠ 0 → (s.coreAt k).eng.posted = false) ∧ 1 ∈ rowCores 0 ∧ (0b0011#4).getLsbD (colOf 1) = true) ∧
    (let s := multiplying .k8k8 0b0001 false .empty
     maskCores 0 0b0001 = [0] ∧ ((s.coreAt 0).matrixHead?.any fun h => !s.operandWaits 0 h.2) = true ∧ passes s 0 = false) := by
  decide +kernel

/-- Both heads of a mask of two are at hand, and they name different pairs. -/
theorem witness_MatrixBarrier_disagree :
    let s := (multiplying .k8k8 0b0011 true .ready).updCoreAt 0 fun c => { c with eng := { c.eng with
      mq := c.eng.mq.map fun q => { q with mx := some (mxOf 0 .i8i8 0b0011) } } }
    (s.coreAt 0).enginesRun = true ∧ maskCores 0 0b0011 = [0, 1] ∧ (mxOf 1 .k8k8 0b0011).pair ≠ (mxOf 0 .i8i8 0b0011).pair ∧
      (s.coreAt 0).matrixHead?.map (·.2) = some (mxOf 0 .i8i8 0b0011) ∧ ((s.posted? 1).map (·.2)) = some (mxOf 1 .k8k8 0b0011) ∧
      s.operandWaits 0 (mxOf 0 .i8i8 0b0011) = false ∧ s.operandWaits 1 (mxOf 1 .k8k8 0b0011) = false := by decide +kernel

/-- For each pair: both heads of a mask of two agree and pass, and the other has posted. -/
theorem witness_MatrixBarrier_starts : ∀ pair ∈ [Pair.k8k8, .k4k4, .k8k4, .k4k8, .i8i8, .i4i4, .f16f16, .b16b16],
    let s := multiplying pair 0b0011 true .ready
    maskCores 0 0b0011 = [0, 1] ∧ passes s 0 = true ∧ passes s 1 = true ∧ ((s.posted? 1).map (·.2)) = some (mxOf 1 pair 0b0011) ∧
      (s.coreAt 0).matrixHead?.map (·.2) = some (mxOf 0 pair 0b0011) ∧ (mxOf 1 pair 0b0011).a = (mxOf 0 pair 0b0011).a ∧
      (∀ k ∈ rowCores 0, k ∉ maskCores 0 0b0011 → (s.coreAt k).eng.posted = false) := by decide +kernel

theorem witness_MatrixBarrier_operands :
    let s := multiplying .f16f16 0b0001 false .ready
    let m := mxOf 0 .f16f16 0b0001
    m.a.extractLsb' 12 52 = 0 ∧ m.b.extractLsb' 12 52 = 0 ∧ handleOwner 0 m.a = 0 ∧ handleOwner 0 m.b = 0 ∧
      (s.handleTile 0 m.a).state ≠ .empty ∧ (s.handleTile 0 m.b).state ≠ .empty ∧
      (s.handleTile 0 m.a).len.toNat = 32 * (4 * m.pair.fmts.1.width + if m.pair.fmts.1.isBlock then 1 else 0) ∧
      (s.handleTile 0 m.b).len.toNat = 32 * (4 * m.pair.fmts.2.width + if m.pair.fmts.2.isBlock then 1 else 0) ∧
      (s.coreAt 0).actype.getLsbD m.acd.toNat = false := by decide +kernel

/-- A product of each kind of pair runs on cores 0 and 1. -/
def product (pair : Pair) : State :=
  match exec (.jointProductStart 0) (multiplying pair 0b0011 true .ready) with
  | .next t => t
  | .fault _ | .refused _ => base

theorem witness_MatrixBlocks : ∀ pair ∈ [Pair.k8k8, .i8i8, .b16b16], ∀ k ∈ maskCores 0 0b0011,
    ((product pair).coreAt k).enginesRun = true ∧ (((product pair).coreAt k).product?.any fun r =>
      r.cmd.mx == some (mxOf k pair 0b0011) && r.block == 0 && r.k == 32) = true := by decide +kernel

theorem witness_MatrixBlocks_read : (31 < 32 ∧ handleOwner 0 0x001 = 0) ∧ (product .k8k8).spadPoisoned 0 0 1 = false ∧
    ({ product .k8k8 with poison := [0xF000000000] } : State).spadPoisoned 0 0 1 = true := by decide +kernel

/-- Images of the largest magnitude, and the ends of the range that three residues hold. -/
theorem witness_ResiduesRecoverSums :
    (∀ x ∈ List.replicate 32 0xFE, x < 2 ^ Fmt.k8.width) ∧ (List.replicate 32 0xFE).length ≤ 32 ∧
      crt (addResidues [0, 0, 0] (-140737488322560)) = -140737488322560 ∧ crt (addResidues [0, 0, 0] 140737488322559) = 140737488322559 ∧
      crt [65534, 65535, 65536] = -1 := by decide +kernel

/-! ## Witnesses: accumulator commands and copies -/

/-- Rank 1: eight F32 elements at an offset of the own scratchpad, under a grant. -/
def vec8 (off : Nat) (g : BitVec 16) : Td :=
  ⟨0xF100000000 + BitVec.ofNat 64 off, some .f32, 1, 0, 0, g, [8, 0, 0, 0, 0, 0, 0], [1, 0, 0, 0, 0, 0, 0]⟩

/-- Rank 2: 32 × 32 elements of a format. -/
def mat32 (f : Fmt) (off : Nat) (g : BitVec 16) : Td :=
  ⟨0xF100000000 + BitVec.ofNat 64 off, some f, 2, 0, 0, g, [32, 32, 0, 0, 0, 0, 0], [32, 1, 0, 0, 0, 0, 0]⟩

/-- A grant of a descriptor's whole box, to read and write. -/
def grantOf (t : Td) : Grant :=
  ⟨true, true, true, 0, fmtCode t.fmt, t.rank, t.swizzle, 0, t.base, t.strides, t.fullBox, 0⟩

/-- td1 and td2 hold vectors, td3 a matrix and td4 one of scale codes, each granted; bx1 holds cell 0 and bx2 cell 7. -/
def tensors : State :=
  let l : List (BitVec 4 × Td) := [(1, vec8 0x1000 1), (2, vec8 0x2000 2), (3, mat32 .f32 0x3000 3), (4, mat32 .e8 0x8000 4),
    (5, mat32 .k8 0x9000 5)]
  (l.foldl (fun s e => (s.updCore fun c => c.setTd e.1 e.2).updPart fun p => { p with
    grants := alSet e.1.toNat (grantOf e.2) p.grants }) base) |>.setBx 1 (line 0 1) |>.setBx 2 (line 7 1)

/-- A command is the head of its engine's queue. -/
def heading (e : BitVec 3) (i : Instr) (s : State) : State := s.queueCommand e 0 (s.captured (wordsOf i) false 0)

/-- The same, but a command that could not be accepted. -/
def headingBad (e : BitVec 3) (i : Instr) (s : State) : State := s.queueCommand e 0 (s.captured (wordsOf i) true 0)

/-- The state after an instruction. -/
def after (i : Instr) (s : State) : State :=
  match exec i s with
  | .next t => t
  | .fault _ | .refused _ => base

/-- The head of an engine's queue is a command. -/
def headIs (e : BitVec 3) (i : Instr) (s : State) (P : Cmd → Bool) : Bool :=
  match s.core.eng.queue e with
  | cmd :: _ => cmd.is e i && P cmd
  | [] => false

/-- A result is a value that passes a test. -/
def okAnd {ε α : Type} (x : Except ε α) (p : α → Bool) : Bool := match x with
  | .ok a => p a
  | .error _ => false

theorem exists_of_okAnd {ε α : Type} {x : Except ε α} {p : α → Bool} (h : okAnd x p = true) : ∃ a, x = .ok a ∧ p a = true := by
  cases x with
  | ok a => exact ⟨a, rfl, h⟩
  | error e => cases h

/-- The accumulator commands of the witnesses. -/
def clr : MClr := ⟨hf .i32 0, 7⟩
def ld (f : Fmt) (td : Reg4) : MLd := ⟨hf f 1, 0, td, 31, 0, 7⟩
def cvt : MCvt := ⟨hf .f32 1, 0, 3, 0, 31, 0, 7, 9⟩
def cvtBlock : MCvt := ⟨hf .k8 1, 0, 5, 4, 31, 0, 7, 9⟩
def img : MImg := ⟨hd, 0xF100010000, 7, 0⟩

/-- The command has started: it must see what is ordered before it. -/
def begun (s : State) (cmd : Cmd) : State := s.updCore fun c => c.startsMatrix (cmd.key 5) cmd.from?.toList

/-- Each command is the head, with nothing running and its tiles free; the checks and accesses of a load go through. -/
theorem witness_AccumulatorCommands_heads :
    (let s := heading 2 (.mClr clr) tensors
     s.core.eng.mrun = none ∧ headIs 2 (.mClr clr) s (fun c => !c.bad && !s.copyHeld c) = true) ∧
    (let s := heading 2 (.mLd (ld .f32 3)) tensors
     headIs 2 (.mLd (ld .f32 3)) s (fun c => !c.bad && !s.copyHeld c && okAnd (s.checkMLd (ld .f32 3) c) (fun _ => true) &&
       okAnd ((begun s c).loadCells (ld .f32 3) c ((List.range 32).map fun k => [31 + ((k / 32 : Nat) : Int), ((k % 32 : Nat) : Int)]))
         (fun r => !r.2.1)) = true) ∧
    (let o : MLd := ⟨hf .f32 0, 0, 3, 31, 0, 7⟩
     headIs 2 (.mLd o) (heading 2 (.mLd o) tensors) (fun c => !c.bad && !(heading 2 (.mLd o) tensors).copyHeld c &&
       okAnd ((heading 2 (.mLd o) tensors).checkMLd o c) fun _ => true) = true) ∧
    (∀ i ∈ [Instr.mSv img, .mRs img], headIs 2 i (heading 2 i tensors) (fun c => !c.bad && !(heading 2 i tensors).copyHeld c) = true ∧
      headIs 2 i (headingBad 2 i tensors) (fun c => c.bad) = true) := by decide +kernel

/-- An access of an engine to the own scratchpad through the own-core alias goes through and changes nothing. -/
theorem engineResolve_own (s : State) (sup : Bool) (r : Right) (off n src : Nat) (h : off + n ≤ 0xC0000) (hn : 0 < n) :
    s.engineResolve sup r (0xF100000000 + off) n src = .ok (.spad s.cur off, s) := by
  have h1 : onChip (0xF100000000 + off) = true := by
    simp only [onChip, chipBase, aliasBase, Bool.and_eq_true]
    exact ⟨decide_eq_true (by omega), decide_eq_true (by omega)⟩
  have h2 : windowOf s.cur (0xF100000000 + off) = (s.cur, off) := by
    rw [windowOf, if_neg (by simp only [aliasBase]; omega)]
    simp only [aliasBase, Prod.mk.injEq, true_and]; omega
  simp [State.engineResolve, State.resolve, State.translate, State.placeOf?, h1, h2, windowPart, h, State.allow]

theorem writePieces_own (cmd : Cmd) : ∀ (l : List (List Byte)) (s : State) (off : Nat), off + 64 * l.length ≤ 0xC0000 →
    (s.writePieces cmd (0xF100000000 + off) l).2 = none
  | [], s, off, h => rfl
  | b :: l, s, off, h => by
    simp only [List.length_cons] at h
    simp only [State.writePieces, engineResolve_own s cmd.sup .write off 64 2 (by omega) (by omega)]
    exact writePieces_own cmd l _ (off + 64) (by omega)

theorem readLE_nil (n : Nat) : ∀ a, readLE [] a n = 0 := by
  induction n with
  | zero => exact fun _ => rfl
  | succ n ih => intro a; simp [readLE, ih, readByte, alGet]

/-- A state without pending operands in which no core's agents may miss a write: a read of an engine notes nothing. -/
theorem notes_quiet {s : State} (ha : s.adds = []) (hc : s.cores.all (fun e => e.2.unseen.isEmpty) = true) (hu : s.core.unseen = [])
    (k : OpKey) (pa n : Nat) : s.notes k pa n = s := by
  have h1 : s.endAdds pa n = s := by
    cases s
    simp only [State.endAdds] at *
    subst ha
    rfl
  have h2 : (s.cores.any fun e => some s.cur != some e.1 && e.2.unseen.any fun u => u.meets pa n) = false := by
    rw [List.any_eq_false]
    intro e he
    have := List.all_eq_true.mp hc e he
    simp [List.isEmpty_iff.mp this]
  have h3 : s.touch pa n = s := by
    rw [State.touch, State.touchBy, h1, State.expose, h2]
    rfl
  simp [State.notes, h3, hu]

/-- Pieces of the own scratchpad are read, and nothing is uncorrectable; the first 64 bytes are those at the address. -/
theorem readPieces_own (cmd : Cmd) (s : State) (hp : s.poison = []) (ha : s.adds = [])
    (hc : s.cores.all (fun e => e.2.unseen.isEmpty) = true) (hu : s.core.unseen = []) : ∀ (n off : Nat), off + 64 * n ≤ 0xC0000 →
    ∃ bs, s.readPieces cmd (0xF100000000 + off) n = .ok (bs, false, s) ∧
      (0 < n → bs.take 64 = (List.range 64).map fun j => BitVec.ofNat 8 (readLE (s.coreAt s.cur).spad off 64 >>> (8 * j))) ∧
      ((s.coreAt s.cur).spad = [] → ∀ b ∈ bs, b = 0)
  | 0, off, h => ⟨[], rfl, fun h => absurd h (Nat.lt_irrefl 0), fun _ b hb => by cases hb⟩
  | n + 1, off, h => by
    have hq : ∀ a k, s.poisoned a k = false := fun a k => by simp [State.poisoned, hp]
    have hs : s.seenAs (cmd.key 5) = s := by simp [State.seenAs, State.commandMissed, missedOf, hu]
    obtain ⟨bs, h1, h2, h3⟩ := readPieces_own cmd s hp ha hc hu n (off + 64) (by omega)
    refine ⟨((List.range 64).map fun j => BitVec.ofNat 8 (readLE (s.coreAt s.cur).spad off 64 >>> (8 * j))) ++ bs, ?_, ?_, ?_⟩
    · simp only [State.readPieces, engineResolve_own s cmd.sup .read off 64 2 (by omega) (by omega), hq]
      have hl : s.logErrors s.cur cmd.seq [] = s := rfl
      have hf : ∀ l : List Nat, l.filter (fun _ => false) = [] := fun l => by simp
      simp only [Bool.false_eq_true, if_false, hf, List.map_nil, State.engineRead, notes_quiet ha hc hu, hl, hs,
        Nat.add_assoc, h1, State.readPlace]
      rw [hq]; rfl
    · intro _
      rw [List.take_append_of_le_length (by simp)]
      rw [List.take_of_length_le (by simp)]
    · intro hs b hb
      rw [List.mem_append] at hb
      rcases hb with hb | hb
      · obtain ⟨j, -, rfl⟩ := List.mem_map.mp hb
        rw [hs]
        rw [readLE_nil]
        simp
      · exact h3 hs b hb

theorem leNat_zeros (l : List Byte) (h : ∀ b ∈ l, b = 0) : leNat l = 0 := by
  induction l with
  | nil => rfl
  | cons b l ih =>
    have hb : b = 0 := h b (by simp)
    have hl : leNat l = 0 := ih fun c hc => h c (by simp [hc])
    simp [leNat, hb, hl]

theorem imageLegal_zeros (l : List Byte) (h : ∀ b ∈ l, b = 0) : imageLegal l = true := by
  simp only [imageLegal, List.all_eq_true, decide_eq_true_eq]
  intro p hp k _
  rw [leNat_zeros _ fun b hb => h b (List.mem_of_mem_drop (List.mem_of_mem_take hb))]
  have : p < 3 := List.mem_range.mp hp
  match p with
  | 0 | 1 | 2 => decide

/-- An image is saved; one of zeros is read and legal, and one whose header is 2 is read and not. -/
theorem witness_AccumulatorCommands_images :
    (∀ (cmd : Cmd) (h : List Byte) (s : State), ((begun s cmd).writePieces cmd img.addr.toNat (h :: (List.range 256).map fun k =>
      readBytes s.core.acc (img.ac.toNat * 0x4000 + 64 * k) 64)).2 = none) ∧
    (∀ cmd, ∃ bs s1, (begun (heading 2 (.mRs img) tensors) cmd).readPieces cmd img.addr.toNat 257 = .ok (bs, false, s1) ∧
      leNat (bs.take 64) ≤ 1 ∧ imageLegal (bs.drop 64) = true) ∧
    ∀ cmd, ∃ bs s1, (begun ((heading 2 (.mRs img) tensors).updCore fun c => { c with spad := [(0x10000, 2)] }) cmd).readPieces cmd
      img.addr.toNat 257 = .ok (bs, false, s1) ∧ ¬ leNat (bs.take 64) ≤ 1 := by
  refine ⟨fun cmd h s => writePieces_own cmd _ _ 0x10000 (by simp), fun cmd => ?_, fun cmd => ?_⟩
  · obtain ⟨bs, h, -, hz⟩ := readPieces_own cmd (begun (heading 2 (.mRs img) tensors) cmd) rfl rfl (by rfl) rfl 257 0x10000 (by decide)
    have hz := hz rfl
    refine ⟨bs, _, h, ?_, imageLegal_zeros _ fun b hb => hz b (List.mem_of_mem_drop hb)⟩
    rw [leNat_zeros _ fun b hb => hz b (List.mem_of_mem_take hb)]
    decide
  · obtain ⟨bs, h, ht, -⟩ := readPieces_own cmd (begun ((heading 2 (.mRs img) tensors).updCore fun c =>
      { c with spad := [(0x10000, 2)] }) cmd) rfl rfl (by rfl) rfl 257 0x10000 (by decide)
    refine ⟨bs, _, h, ?_⟩
    rw [ht (by decide), show ((begun ((heading 2 (.mRs img) tensors).updCore fun c => { c with spad := [(0x10000, 2)] }) cmd).coreAt
      (begun ((heading 2 (.mRs img) tensors).updCore fun c => { c with spad := [(0x10000, 2)] }) cmd).cur).spad = [(0x10000, 2)] from rfl]
    decide +kernel

/-- One row of a conversion, with or without its scale code, is written. -/
def rowGoes (s : State) (o : MCvt) (cmd : Cmd) : Bool :=
  let row := s.convertRow o cmd 0
  match s.writeRow 5 cmd cmd.td1 (dispOf o.disp)
      (((List.range 32).zip row.2.1).map fun e => ([o.row0.toInt + (0 : Nat), o.col0.toInt + (e.1 : Nat)], e.2)) with
  | .ok (_, _, t) => (match t.writeRow 5 cmd cmd.td2 0 (row.1.toList.map fun v => ([o.row0.toInt + (0 : Nat), o.col0.toInt / 32], v)) with
    | .ok _ => true
    | .error _ => false)
  | .error _ => false

theorem rows_of_rowGoes {s : State} {o : MCvt} {cmd : Cmd} (h : rowGoes s o cmd = true) :
    ∃ (σ τ : Nat → State) (w w' : Nat → Nat) (cl cl' : Nat → Bool), σ 0 = s ∧ ∀ i, i < 1 →
      let row := (σ i).convertRow o cmd i
      (σ i).writeRow 5 cmd cmd.td1 (dispOf o.disp)
        (((List.range 32).zip row.2.1).map fun e => ([o.row0.toInt + i, o.col0.toInt + (e.1 : Nat)], e.2)) = .ok (w i, cl i, τ i) ∧
      (τ i).writeRow 5 cmd cmd.td2 0 (row.1.toList.map fun v => ([o.row0.toInt + i, o.col0.toInt / 32], v)) =
        .ok (w' i, cl' i, σ (i + 1)) := by
  simp only [rowGoes] at h
  split at h
  · rename_i w cl t h1
    split at h
    · rename_i r h2
      obtain ⟨w', cl', u⟩ := r
      refine ⟨fun n => if n = 0 then s else u, fun _ => t, fun _ => w, fun _ => w', fun _ => cl, fun _ => cl', rfl, ?_⟩
      intro i hi
      obtain rfl : i = 0 := Nat.lt_one_iff.mp hi
      exact ⟨h1, h2⟩
    · cases h
  · cases h

theorem witness_AccumulatorCommands_conversions :
    (let s := heading 2 (.mCvt cvt) tensors
     headIs 2 (.mCvt cvt) s (fun c => !c.bad && !s.copyHeld c && okAnd (s.checkMCvt cvt c) (fun _ => true) && !c.td1.format.isBlock &&
       rowGoes (begun s c) cvt c) = true) ∧
    (let s := heading 2 (.mCvt cvtBlock) (tensors.updPart fun p => { p with
       grants := alSet 4 { grantOf (mat32 .e8 0x8000 4) with region := Region.dense 2 [[⟨0, 32⟩, ⟨0, 1⟩]] } p.grants })
     headIs 2 (.mCvt cvtBlock) s (fun c => !c.bad && !s.copyHeld c && okAnd (s.checkMCvt cvtBlock c) (fun _ => true) &&
       c.td1.format.isBlock && rowGoes (begun s c) cvtBlock c) = true) := by decide +kernel

/-- A cell out of the source's bounds, and one that is read. -/
theorem witness_AccumulatorCommands_cells :
    let s := heading 2 (.mLd (ld .f32 3)) tensors
    headIs 2 (.mLd (ld .f32 3)) s (fun c => !c.td1.inBounds (c.td1.wrapped [32, 0]) && c.td1.inBounds (c.td1.wrapped [31, 31]) &&
      okAnd (s.elemPlace c.sup .read c.td1.format (c.td1.elem (dispOf 0) (c.td1.wrapped [31, 31])) 2) (fun r =>
        !r.2.poisoned r.1.phys (elemBytes c.td1.format))) = true := by decide +kernel

/-- The copies of the witnesses: a fill of cell 0, a copy of cell 7, a gather and a scatter by the list at 0x100, words and a
prefetch. -/
def fill1 : CpFill := ⟨⟨.plain, some 1, .rne, some .f32, 0xFFFFFFFF⟩, 0, 1, 7, 3⟩
def copy1 : CpRg := ⟨⟨.plain, some 2, .rne, some .f32, 0xFFFFFFFF⟩, 0, 1, 2, 0, true, 3⟩
def rows1 : CpRows := ⟨hf .f32 1, 0, 1, 2, 0x100, false, 3⟩
def words2 (core : BitVec 12) (off : BitVec 10) : CpReg := ⟨⟨.plain, none, .rne, none, 2⟩, 0x600000, core, off, 3⟩
def ahead : CpPf := ⟨⟨.plain, none, .rne, none, 64⟩, 0x10000, 0x20000, 3⟩

/-- Each copy is the head of its queue: accepted, not, and failing its check. -/
theorem witness_CopyStarts :
    (∀ i ∈ [Instr.cpFill fill1, .cpRg copy1, .cpGx rows1, .cpSx rows1, .cpReg (words2 0 0x300), .cpPf ahead],
      let s := heading 0 i tensors
      s.core.eng.pick = 0 ∧ headIs 0 i s (fun c => !c.bad && !s.copyHeld c) = true ∧ s.core.eng.copies.length < 128 ∧
        headIs 0 i (headingBad 0 i tensors) (fun c => c.bad) = true) ∧
    (let s := heading 0 (.cpFill fill1) tensors
     headIs 0 (.cpFill fill1) s (fun c => okAnd (s.checkCpFill fill1 c) fun _ => true) = true) ∧
    (let s := heading 0 (.cpRg copy1) tensors
     headIs 0 (.cpRg copy1) s (fun c => okAnd (s.checkCpRg copy1 c) fun _ => true) = true) ∧
    (let s := heading 0 (.cpGx rows1) tensors
     headIs 0 (.cpGx rows1) s (fun c => okAnd (s.checkRows rows1 c) fun _ => true) = true) ∧
    (let s := heading 0 (.cpReg (words2 15 0x3F0)) tensors
     headIs 0 (.cpReg (words2 15 0x3F0)) s (fun c => okAnd (s.checkCpReg (words2 15 0x3F0) c) fun _ => true) = true) ∧
    (let s := heading 0 (.cpReg (words2 16 0x300)) tensors
     headIs 0 (.cpReg (words2 16 0x300)) s (fun c => !okAnd (s.checkCpReg (words2 16 0x300) c) fun _ => true) = true) ∧
    (let s := (tensors.updCore fun c => c.setTile 1 ⟨.ready, false, 0x2000, 32, 0, 0, 0⟩)
     headIs 0 (.cpRg copy1) (heading 0 (.cpRg copy1) s) (fun c => c.from? == some 1) = true) := by decide +kernel

/-- A copy is in flight, and its turn has come. -/
def inFlight (i : Instr) (s : State) : State :=
  (after i (heading 0 i s)).updCore fun c => { c with eng := { c.eng with pick := 1 } }

/-- A cell is read or filled, and then written, or suppressed. -/
def oneCell (s : State) (cmd : Cmd) (T : Transfer) (c : List Int × List Int) : Bool :=
  match s.cellValue cmd T c.1 0 with
  | .ok (v, _, _, t) => (match t.writeCell 0 cmd T.dst T.disp c.2 v 0 with
    | .ok _ => true
    | .error _ => false)
  | .error _ => false

theorem moves_of_oneCell {s : State} {cmd : Cmd} {T : Transfer} {c : List Int × List Int} (h : oneCell s cmd T c = true) :
    ∃ σ w cl b, MovesCells s cmd T [c] σ w cl b := by
  simp only [oneCell] at h
  split at h
  · rename_i v out bad t h1
    split at h
    · rename_i r h2
      cases r with
      | none =>
        refine ⟨fun n => if n = 0 then s else t, fun _ => false, fun _ => true, fun _ => bad, rfl, ?_⟩
        intro j d hj
        cases j with
        | zero => cases hj; exact ⟨v, out, t, h1, .inr ⟨rfl, rfl, h2, rfl⟩⟩
        | succ j => simp at hj
      | some u =>
        refine ⟨fun n => if n = 0 then s else u, fun _ => true, fun _ => out, fun _ => bad, rfl, ?_⟩
        intro j d hj
        cases j with
        | zero => cases hj; exact ⟨v, out, t, h1, .inl ⟨rfl, rfl, h2⟩⟩
        | succ j => simp at hj
    · cases h
  · cases h

/-- A copy in flight with one cell to move, whose accesses go through, after what it reads first. -/
def rowReady (i : Instr) (s : State) (T : CopyRun → Transfer) (cells : CopyRun → List (List Int × List Int))
    (first : CopyRun → State := fun _ => s) : Bool :=
  s.core.eng.pick == 1 && match s.core.eng.copies[0]? with
    | some r => r.cmd.is 0 i && r.post.isNone && (match cells r with
      | [c] => oneCell (first r) r.cmd (T r) c
      | _ => false)
    | none => false

theorem moves_of_rowReady {i : Instr} {s : State} {T : CopyRun → Transfer} {cells : CopyRun → List (List Int × List Int)}
    {first : CopyRun → State} (h : rowReady i s T cells first = true) : ∃ r c σ w cl b, s.core.eng.pick = 0 + 1 ∧
      s.core.eng.copies[0]? = some r ∧ r.cmd.is 0 i = true ∧ r.post = none ∧ cells r = [c] ∧
      MovesCells (first r) r.cmd (T r) [c] σ w cl b := by
  simp only [rowReady, Bool.and_eq_true, beq_iff_eq] at h
  obtain ⟨hp, h⟩ := h
  split at h
  · rename_i r hr
    simp only [Bool.and_eq_true, Option.isNone_iff_eq_none] at h
    obtain ⟨⟨hi, hn⟩, h⟩ := h
    split at h
    · rename_i c hc
      obtain ⟨σ, w, cl, b, hm⟩ := moves_of_oneCell h
      exact ⟨r, c, σ, w, cl, b, hp, hr, hi, hn, hc, hm⟩
    · cases h
  · cases h

/-- The cells of a region copy's row, and of a gather's or scatter's. -/
def rowCells (count : Nat) (r : CopyRun) : List (List Int × List Int) :=
  let boxes := r.cmd.boxes r.cmd.td1.rank.toNat
  ((List.range (min (rowRest boxes r.pos) (r.cmd.cells count r.cmd.td1.rank.toNat - r.pos))).filterMap fun j =>
    cellOf boxes (r.pos + j)).map fun c => (c, c)
def listCells (s : State) (o : CpRows) (scatter : Bool) (r : CopyRun) : List (List Int × List Int) :=
  let inner := innerCoords ((List.range (r.cmd.td1.rank.toNat - 1)).map fun d => r.cmd.td1.ext (d + 1))
  let j := r.pos / inner.length
  let idx := (s.listEntry r.cmd o.list.toNat j).1
  (inner.drop (r.pos % inner.length)).map fun x => if scatter then ((j : Int) :: x, (idx : Int) :: x) else ((idx : Int) :: x, (j : Int) :: x)

/-- The state after the entry of the row has been read. -/
def listRead (s : State) (o : CpRows) (r : CopyRun) : State :=
  (s.listEntry r.cmd o.list.toNat (r.pos / (innerCoords ((List.range (r.cmd.td1.rank.toNat - 1)).map fun d => r.cmd.td1.ext (d + 1))).length)).2

/-- A fill, a copy whose cell lies in or out of both bounds, a gather and a scatter. -/
theorem witness_CopyRows :
    rowReady (.cpFill fill1) (inFlight (.cpFill fill1) tensors) (fun r => ⟨none, r.cmd.td1, dispOf 0, 7⟩) (rowCells 0xFFFFFFFF) = true ∧
    rowReady (.cpRg copy1) (inFlight (.cpRg copy1) tensors) (fun r => ⟨some (r.cmd.td2, dispOf 0), r.cmd.td1, dispOf 0, 0⟩)
      (rowCells 0xFFFFFFFF) = true ∧
    (let s := (inFlight (.cpRg copy1) tensors).updCore fun c => { c with eng := { c.eng with
       copies := c.eng.copies.map fun r => { r with cmd := { r.cmd with region := line 8 1 } } } }
     rowReady (.cpRg copy1) s (fun r => ⟨some (r.cmd.td2, dispOf 0), r.cmd.td1, dispOf 0, 0⟩) (rowCells 0xFFFFFFFF) = true) ∧
    (let s := (inFlight (.cpGx rows1) tensors).updCore fun c => { c with spad := writeLE c.spad 0x100 4 7 }
     rowReady (.cpGx rows1) s (fun r => ⟨some (r.cmd.td2, 0), r.cmd.td1, dispOf 0, 0⟩) (listCells s rows1 false)
       (listRead s rows1) = true) ∧
    (let s := (inFlight (.cpSx rows1) tensors).updCore fun c => { c with spad := writeLE c.spad 0x100 4 7 }
     rowReady (.cpSx rows1) s (fun r => ⟨some (r.cmd.td2, 0), r.cmd.td1, dispOf 0, 0⟩) (listCells s rows1 true)
       (listRead s rows1) = true) := by
  decide +kernel

/-- Cells in bounds, out of them, and misaligned, of formats of 4 bits and more. -/
theorem witness_CopyRows_cells :
    (let td := vec8 0x1000 1
     td.inBounds (td.wrapped [7]) = true ∧ td.inBounds (td.wrapped [8]) = false ∧ td.inBounds (td.wrapped [-1]) = false ∧
       (td.elem 0 (td.wrapped [7])).addr.toNat % elemBytes td.format = 0 ∧
       (td.elem 2 (td.wrapped [7])).addr.toNat % elemBytes td.format ≠ 0 ∧ td.format.width ≠ 4 ∧
       okAnd (tensors.engineResolve false .read (td.elem 0 (td.wrapped [7])).addr.toNat (elemBytes td.format) 0) (fun r =>
         !r.2.poisoned r.1.phys (elemBytes td.format)) = true ∧
       okAnd (tensors.engineResolve false .write (td.elem 0 (td.wrapped [7])).addr.toNat (elemBytes td.format) 0) (fun _ => true) = true) ∧
    (let td := mat32 .i4 0x1000 1
     td.format.width = 4 ∧ (td.elem 0 (td.wrapped [0, 1])).odd = true) := by decide +kernel

/-- Words for the own core, with room in q0 and without, into its registers, and for a core of another launch. -/
theorem witness_CopyWordsAndArrivals_words :
    (∀ e ∈ ([(0x300, 30), (0x300, 31), (0x270, 0)] : List (BitVec 10 × Nat)),
      let o := words2 0 e.1
      let s := (inFlight (.cpReg o) base).updCore fun c => { c with regs := { c.regs with q0 := List.replicate e.2 1 } }
      s.core.eng.pick = 1 ∧ (s.core.eng.copies[0]?.any fun r => r.cmd.is 0 (.cpReg o) && r.post.isNone && !r.dataErr && !r.clipped &&
        (s.sourceWords r.cmd o.src.toNat 2).words == [0, 0] && !(s.sourceWords r.cmd o.src.toNat 2).bad &&
        (s.sourceWords r.cmd o.src.toNat 2).stop.isNone) = true ∧
        s.sameLaunch (s.part.phys 0) = true ∧ s.cutOff s.part s.cur (s.part.phys 0) = false ∧ (s.coreAt (s.part.phys 0)).atBoundary = true) ∧
    (let s := inFlight (.cpReg (words2 1 0x300)) base
     s.core.eng.pick = 1 ∧ (s.core.eng.copies[0]?.any fun r => r.cmd.is 0 (.cpReg (words2 1 0x300)) && r.post.isNone && !r.cmd.sup) = true ∧
       s.sameLaunch (s.part.phys 1) = false) := by decide +kernel

/-- The page at 0x10000 is of the second tier, and the page at 0x20000 is its own. -/
def tiered : State :=
  { base with mem := writeLE (writeLE (writeLE (writeLE [] placedRoot 8 0x110001) 0x110000 8 0x120001) 0x120008 8
      (0x1000_0000_0000 + 0x1F)) 0x120010 8 0x2001F }

/-- One piece of a prefetch goes through. -/
theorem witness_CopyWordsAndArrivals_prefetch :
    let s := inFlight (.cpPf ahead) tiered
    s.core.eng.pick = 1 ∧ (s.core.eng.copies[0]?.any fun r => r.cmd.is 0 (.cpPf ahead) && r.post.isNone && r.pos == 0 &&
      okAnd (s.engineResolve r.cmd.sup .read 0x10000 64 0) (fun x => okAnd (x.2.engineResolve r.cmd.sup .write 0x20000 64 0) (fun y =>
        match x.1, y.1 with
        | .mem a, .mem b => isTier a && decide (b + 64 ≤ s.hbmLimit) && !y.2.poisoned a 64
        | _, _ => false))) = true := by decide +kernel

/-- A cell count at a tile, a message at an inbox with and without room, and a q1 entry with and without room. -/
theorem witness_CopyWordsAndArrivals_arrivals :
    (let s := (tiled .filling []).updCore fun c => { c with arrivals := [(1, 2)] }
     (s.coreAt 0).arrivals = (1, 2) :: [] ∧ s.lands 0 = true ∧ (s.updCore fun c => { c with halted := true }).lands 0 = false) ∧
    (let c : Core := { Core.idle 0 with landings := [⟨1, 4, 8, [5, 6]⟩] }
     c.landings = [⟨(⟨0, true, 0, 1, 2, 3, 4⟩ : Msg).seq, (⟨0, true, 0, 1, 2, 3, 4⟩ : Msg).source, 8, [5, 6]⟩] ∧ 8 + 8 * [5, 6].length ≤ 0x280) ∧
    (∀ n ∈ [63, 64], let s := (tiled .ready (List.replicate n ⟨0, false, 0, 1, 2, 3, 4⟩)).updCore fun c => { c with
        posts := [⟨0, false, 0, 1, 2, 3, 4⟩] }
      (s.coreAt 0).posts = ⟨0, false, 0, 1, 2, 3, 4⟩ :: [] ∧ s.lands 0 = true ∧ (s.coreAt 0).eng = Engines.empty ∧ (s.coreAt 0).exiting = false ∧
        ((s.coreAt 0).inbox.length < 64 ↔ n = 63)) ∧
    (let m : Msg := ⟨0, false, 0, 1, 2, 3, 4⟩
     let c : CopyRun := ⟨base.captured (wordsOf (.cpFill fill1)) false 0, 1, none, 1, false, false, 0, false, some m⟩
     let s := base.updCore fun k => { k with eng := { Engines.empty with copies := [c] } }
     (s.coreAt 0).posts = [] ∧ (s.coreAt 0).eng = { Engines.empty with copies := [c] } ∧ c.post = some m ∧
       s.lands 0 = true ∧ s.awaitsArrival 0 (.copy c m) = false ∧ (s.coreAt 0).exiting = false ∧ (s.coreAt 0).inbox.length < 64) ∧
    (∀ n ∈ [15, 16], let r : VRun := ⟨base.captured (wordsOf (.vAdd (vo .f32 16))) false 0, 1, [], 0, ExactSum.empty, 0, 0, some 5, none, true⟩
      let s := base.updCore fun c => { c with eng := { c.eng with vrun := some r }, regs := { c.regs with q1 := List.replicate n 1 } }
      (s.coreAt 0).eng.vrun = some r ∧ r.done = true ∧ r.push = some 5 ∧ r.post = none ∧ (s.coreAt 0).exiting = false ∧ s.lands 0 = true ∧
        (16 ≤ (s.coreAt 0).regs.q1.length ↔ n = 16)) ∧
    (let m : Msg := ⟨1, false, 0, 1, 2, 3, 4⟩
     let cmd := base.captured (wordsOf (.vAdd (vo .f32 16))) false 0
     let r : VRun := ⟨cmd, 1, [], 0, ExactSum.empty, 0, 0, some 5, some m, true⟩
     (∀ n ∈ [15, 16],
       let s := base.updCore fun c => { c with eng := { Engines.empty with vrun := some r }, regs := { c.regs with q1 := List.replicate n 1 } }
       (s.coreAt 0).posts = [] ∧ (s.coreAt 0).eng = { Engines.empty with vrun := some r } ∧ r.done = true ∧ r.push = some 5 ∧
         r.post = some m ∧ s.lands 0 = true ∧ (16 ≤ (s.coreAt 0).regs.q1.length ↔ n = 16)) ∧
     let s := base.updCore fun c => { c with eng := { Engines.empty with mrun := some (.posting cmd m 1) } }
     (s.coreAt 0).posts = [] ∧ (s.coreAt 0).eng = { Engines.empty with mrun := some (.posting cmd m 1) } ∧ s.lands 0 = true) := by decide +kernel

/-! ## Witnesses: collectives, streams, routers -/

/-- Entry 9 of core 0: it combines its own chunks and those from the east and sends them south; its second set goes the other way. -/
def entry9 : VsEntry := ⟨.add, .f32, [⟨9, 16⟩, ⟨16, 9⟩], 0, 0, 0, 0, 0⟩

/-- Core 0's router holds entry 9, chunks, and links taken down. -/
def routed (l : List Chunk) (down : List Nat) : State :=
  base.updCore fun c => { c with router := { c.router with entries := [(9, entry9)], chunks := l, down := down } }

/-- A chunk of entry 9 at a port. -/
def chunkAt (port : Nat) (marker : Bool) : Chunk := ⟨9, 0, port, marker, false, 0, 0, 0, 2, some .f32, .add, [0, 0x3F800000], 0⟩

def cfg (s0 s1 : PortSet) : CoCfg := ⟨hf .f32 0, 9, 1, .add, s0, s1, ⟨0, 0⟩, ⟨0, 0⟩⟩
def red : CoMove := ⟨hf .f32 128, 0x1000, 0x2000, 9, 3⟩
def allr : CoAllr := ⟨hf .f32 128, 0x1000, 9, false, 0, 0, 3⟩

/-- `co.cfg` inside the partition with nothing of its entry there, with a chunk there, and with a port that leaves the partition;
`co.mark` with its entry and without. -/
theorem witness_CollectiveCommands_entries :
    (∀ l ∈ [[], [chunkAt 3 false]], let i : Instr := .coCfg (cfg ⟨9, 16⟩ ⟨16, 9⟩)
      let s := heading 3 i (routed l [])
      s.core.eng.krun = none ∧ headIs 3 i s (fun c => !c.bad) = true ∧ s.core.holdsEntry 9 = !l.isEmpty ∧
        ∀ ps ∈ cfgSets (cfg ⟨9, 16⟩ ⟨16, 9⟩), ∀ p ∈ [1, 2, 3, 4], inMask (ps.inm ||| ps.outm) p = true →
          (s.neighbour? s.cur p).isSome = true) ∧
    (base.neighbour? base.cur 1 = none ∧ inMask (9#5 ||| 2) 1 = true) ∧
    (∀ s ∈ [base, routed [] []], headIs 3 (.coMark ⟨hd, 9⟩) (heading 3 (.coMark ⟨hd, 9⟩) s) (fun c => !c.bad) = true) ∧
    base.core.entry? 9 = none ∧ (routed [] []).core.entry? 9 = some entry9 := by decide +kernel

/-- A mark whose set its core enters, with room and without, and one whose set it does not. -/
theorem witness_CollectiveCommands_marks :
    (∀ n ∈ [0, 12], let s := heading 3 (.coMark ⟨hd, 9⟩) (routed (List.replicate n (chunkAt 0 false)) [])
      s.core.entry? 9 = some entry9 ∧ inMask (entry9.set (entry9.marks % entry9.sets.length)).inm 0 = true ∧
        headIs 3 (.coMark ⟨hd, 9⟩) s (fun c => !c.bad) = true ∧ s.core.router.takes .own 9 = decide (n = 0)) ∧
    (let e := { entry9 with marks := 1 }
     let s := (routed [] []).updCore fun c => { c with router := { c.router with entries := [(9, e)] } }
     s.core.entry? 9 = some e ∧ inMask (e.set (e.marks % e.sets.length)).inm 0 = false ∧ s.core.stepping (moveWave red) = true ∧
       headIs 3 (.coRed red) (heading 3 (.coRed red) s) (fun c => !c.bad) = true) := by decide +kernel

/-- A reduction, a broadcast and an all-reduce are the head: legal, with its links up or one of them down; illegal; held by a tile. -/
theorem witness_CollectiveCommands_starts :
    (∀ e ∈ ([(.coRed red, moveWave red, false), (.coAllr allr, allrWave allr, false)] : List (Instr × Wave × Bool)), ∀ down ∈ [[], [3]],
      let s := heading 3 e.1 (routed [] down)
      s.core.eng.krun = none ∧ headIs 3 e.1 s (fun c => !c.bad && !s.copyHeld c) = true ∧ s.waveLegal e.2.1 e.2.2 = true ∧
        s.core.stepping e.2.1 = false ∧ ((s.core.waveName? e.2.1.vsn e.2.1.allr (s.core.nextStep e.2.1.vsn)).any fun n =>
          s.waveCut s.cur e.2.1.vsn n) = !down.isEmpty) ∧
    (let s := heading 3 (.coBcast red) (base.updCore fun c => { c with router := { c.router with
       entries := [(9, ⟨.add, .f32, [⟨1, 8⟩], 0, 0, 0, 0, 0⟩)] } })
     headIs 3 (.coBcast red) s (fun c => !c.bad && !s.copyHeld c) = true ∧ s.waveLegal (moveWave red) true = true) ∧
    (heading 3 (.coRed red) base).waveLegal (moveWave red) false = false ∧
    (let s := heading 3 (.coRed red) ((routed [] []).updCore fun c => c.setTile 1 ⟨.draining, false, 0x1000, 512, 0, 0, 0⟩)
     headIs 3 (.coRed red) s (fun c => s.copyHeld c) = true ∧ s.waveLegal (moveWave red) false = true ∧
       s.core.stepping (moveWave red) = false) ∧
    (let s := heading 3 (.coRed red) ((routed [] []).updCore fun c => c.setTile 1 ⟨.ready, false, 0x1000, 512, 0, 0, 0⟩)
     headIs 3 (.coRed red) s (fun c => !s.copyHeld c && c.from? == some 1) = true) := by decide +kernel

/-- A wave runs: its one chunk still to send, and everything sent and received. -/
theorem witness_CollectiveCommands_runs : ∀ n ∈ [0, 1],
    let s := (after (.coRed red) (heading 3 (.coRed red) (routed [chunkAt 3 false] []))).updCore fun c => { c with eng :=
      { c.eng with krun := c.eng.krun.map fun r => { r with sent := n } } }
    (s.core.eng.krun.any fun r => r.cmd.is 3 (.coRed red) && r.post.isNone && r.limit.isNone && r.sent == n && r.received == 0) = true ∧
      s.core.entry? 9 = some entry9 ∧ (∀ a ∈ s.core.router.aborted, a.vsn ≠ 9) ∧ (∀ k ∈ s.core.router.chunks, k.port ≠ 0) ∧
      entry9.sends false 0 = true ∧ entry9.takes false 0 = false ∧ (128 + (4096 / 32 - 1)) / (4096 / 32) = 1 ∧
      s.core.router.takes .own 8 = true ∧ s.spadPoisoned s.cur (0x1000 + 0 * 512) 512 = false := by decide +kernel

/-- Port 1 of core 0 and port 2 of core 1 stand as given. -/
def ported (a b : StreamPort) : State :=
  (base.updCore fun c => c.setPort 1 a).updCoreAt 1 fun _ => base.core.setPort 2 b

def openRecv : SpOpen := ⟨hd, 0x1000, 1024, 1, true, false, 0, 0, 0⟩
def openSend (target : BitVec 12) : SpOpen := ⟨hd, 0, 0, 1, false, false, target, 2, 0⟩
def send (n : Nat) (msg : Bool) : SpSend := ⟨{ hd with count := BitVec.ofNat 32 n }, 0x4000, 1, if msg then 3 else 0, msg⟩

/-- `sp.open` of a closed and of an open port, to receive, to a free port, and to a target there is not. -/
theorem witness_StreamCommands_opens :
    (∀ i ∈ [Instr.spOpen openRecv, .spOpen (openSend 1), .spOpen (openSend 16)],
      let s := heading 3 i (ported .closed (.recv 0x1000 1024 none 0))
      s.core.eng.krun = none ∧ headIs 3 i s (fun c => !c.bad) = true ∧ s.core.port 1 = .closed) ∧
    (ported (.recv 0 64 none 0) .closed).core.port 1 ≠ .closed ∧
    (let s := ported .closed (.recv 0x1000 1024 none 0)
     s.streamLegal (openSend 1) = true ∧ s.streamTarget (openSend 1) = some 1 ∧ (s.coreAt 1).port 2 = .recv 0x1000 1024 none 0 ∧
       s.pathDown (s.part.streamPath s.cur 1) = false ∧ s.streamLegal (openSend 16) = false) := by decide +kernel

/-- A claimed port: the first lane is free or in use by four, and past the last one. -/
theorem witness_StreamCommands_lanes :
    let i : Instr := .spOpen (openSend 1)
    let s := after i (heading 3 i (ported .closed (.recv 0x1000 1024 none 0)))
    (s.core.eng.krun.any fun r => r.cmd.is 3 i && r.post.isNone && r.sent == 0) = true ∧
      (s.coreAt 1).port 2 = .recv 0x1000 1024 (some (0, 1)) 0 ∧ s.pathDown (s.part.streamPath s.cur 1) = false ∧
      ((s.part.streamPath s.cur 1)[0]?.any fun hop => s.laneFree hop) = true ∧ (s.part.streamPath s.cur 1)[1]? = none ∧
      (let u := s.updCoreAt 0 fun c => (((c.setPort 0 (.send 1 0 0 0 64 (0, 1))).setPort 1 (.send 1 1 0 0 64 (0, 1))).setPort 2
         (.send 1 2 0 0 64 (0, 1))).setPort 3 (.send 1 3 0 0 64 (0, 1))
       ((u.part.streamPath u.cur 1)[0]?.any fun hop => !u.laneFree hop) = true) := by decide +kernel

/-- `sp.send` on a closed port, one cut off, a receive port with and without a sender, and a send port with its credit just enough and
one short, and a link of its path down. -/
theorem witness_StreamCommands_sends :
    (∀ p ∈ [StreamPort.closed, .cut (0, 1), .recv 0x1000 1024 none 64, .recv 0x1000 1024 none 63, .recv 0x1000 1024 (some (1, 2)) 64,
        .send 1 2 64 0 1024 (0, 1), .send 1 2 63 0 1024 (0, 1)], ∀ msg : Bool,
      let s := heading 3 (.spSend (send 64 msg)) (ported p (.send 0 1 0 0 1024 (1, 0)))
      s.core.eng.krun = none ∧ headIs 3 (.spSend (send 64 msg)) s (fun c => !c.bad && !s.copyHeld c) = true ∧ s.core.port 1 = p ∧
        (s.coreAt 1).port 2 = .send 0 1 0 0 1024 (1, 0) ∧ s.pathDown (s.part.streamPath s.cur 1) = false) ∧
    (send 64 true).src.toNat + 64 ≤ Config.spadBytes ∧
    (let s := (ported (.send 1 2 64 0 1024 (0, 1)) .closed).updCore fun c => { c with router := { c.router with down := [3] } }
     s.pathDown (s.part.streamPath s.cur 1) = true) := by decide +kernel

/-- A send under way: its last piece, and one before the last. -/
theorem witness_StreamCommands_moves : ∀ n ∈ [512, 576], ∀ msg : Bool,
    let s := after (.spSend (send n msg)) (heading 3 (.spSend (send n msg)) (ported (.send 1 2 1024 1000 1024 (0, 1)) .closed))
    (s.core.eng.krun.any fun r => r.cmd.is 3 (.spSend (send n msg)) && r.post.isNone && r.sent == 0) = true ∧
      s.core.port 1 = .send 1 2 (1024 - n) 1000 1024 (0, 1) ∧ s.spadPoisoned s.cur (0x4000 + 0) 512 = false := by decide +kernel

/-- A send under way over a link that is down, and into a router without room. -/
theorem witness_StreamCommands_held :
    let s := after (.spSend (send 512 true)) (heading 3 (.spSend (send 512 true)) (ported (.send 1 2 1024 1000 1024 (0, 1)) .closed))
    s.pathDown (s.part.streamPath s.cur 1) = false ∧ (s.coreAt 1).router.takesStream 8 = true ∧
      (let u := s.updCore fun c => { c with router := { c.router with down := [3] } }
       u.pathDown (u.part.streamPath u.cur 1) = true ∧ u.core.eng.krun.isSome = true) ∧
      (let u := s.updCoreAt 1 fun c => { c with router := { c.router with flits := [⟨⟨3, 9, 2⟩, 1, false, 0, [1], none⟩] } }
       (u.coreAt 1).router.takesStream 8 = false ∧ u.core.eng.krun.isSome = true ∧ u.core.port 1 = .send 1 2 512 1000 1024 (0, 1)) := by decide +kernel

theorem witness_StreamCommands_closes : ∀ p ∈ [StreamPort.closed, .send 1 2 64 0 1024 (0, 1), .recv 0x1000 1024 (some (1, 2)) 64],
    let s := heading 3 (.spClose ⟨hd, 1⟩) (ported p .closed)
    s.core.eng.krun = none ∧ headIs 3 (.spClose ⟨hd, 1⟩) s (fun c => !c.bad) = true ∧ s.core.port 1 = p := by decide +kernel

/-- A chunk at each in port of the current set: they agree, or do not, or an out link is down. -/
theorem witness_RouterEvents_combine :
    (∀ down ∈ [[], [4]], ∀ n ∈ [2, 1],
      let k := chunkAt 0 false
      let h := { chunkAt 3 false with count := n }
      let s := routed [k, h] down
      (s.coreAt 0).entry? 9 = some entry9 ∧ (s.coreAt 0).heads? 9 false 0 (entry9.set 0) = some (k :: [h]) ∧
        sameHeaders (k :: [h]) = decide (n = 2) ∧
        ((∃ p ∈ portsOf (entry9.set 0).outm, (s.coreAt 0).router.down.contains p = true) ↔ down = [4]) ∧
        s.routerMoves 0 k = true ∧ s.roomBehind 0 (portsOf (entry9.set 0).outm) k.flits = true ∧
        (inMask (entry9.set 0).outm 0 = false) ∧ ∀ p ∈ portsOf (entry9.set 0).outm, s.neighbour? 0 p ≠ some 0) ∧
    (let e : VsEntry := ⟨.add, .f32, [⟨8, 1⟩], 0, 0, 0, 0, 0⟩
     let s := (routed [chunkAt 3 false] []).updCore fun c => { c with router := { c.router with entries := [(9, e)] } }
     let u := after (.coRed red) (heading 3 (.coRed red) s)
     s.core.heads? 9 false 0 (e.set 0) = some (chunkAt 3 false :: []) ∧ inMask (e.set 0).outm 0 = true ∧
       s.core.awaits (chunkAt 3 false) = false ∧ u.core.awaits (chunkAt 3 false) = true ∧ u.core.wave?.isSome = true) := by decide +kernel

/-- The router behind the out port has no room. -/
theorem witness_RouterEvents_full :
    let s := (routed [chunkAt 0 false, chunkAt 3 false] []).updCoreAt 4 fun c => { c with router := { c.router with
      chunks := List.replicate 64 (chunkAt 2 false) } }
    (s.coreAt 0).heads? 9 false 0 (entry9.set 0) = some [chunkAt 0 false, chunkAt 3 false] ∧
      s.roomBehind 0 (portsOf (entry9.set 0).outm) (chunkAt 0 false).flits = false ∧
      s.roomBehind 0 (portsOf (entry9.set 0).outm) 1 = false := by decide +kernel

/-- The root of an all-reduce whose core takes part: it knows once its core's command is at hand that no device is named. -/
theorem witness_RouterEvents_root : ∀ atHand : Bool,
    let e : VsEntry := ⟨.add, .f32, [⟨9, 1⟩, ⟨1, 9⟩], 0, 0, 0, 0, 0⟩
    let k (port : Nat) : Chunk := { chunkAt port false with allr := true }
    let s := (routed [k 0, k 3] []).updCore fun c => { c with router := { c.router with entries := [(9, e)] } }
    let s := if atHand then after (.coAllr allr) (heading 3 (.coAllr allr) s) else s
    (s.coreAt 0).entry? 9 = some e ∧ (s.coreAt 0).heads? 9 false 0 (e.set 0) = none ∧ (e.set 0).outm = 1 ∧
      (s.coreAt 0).heads? 9 true 0 (e.set 0) = some (k 0 :: [k 3]) ∧ s.routerMoves 0 (k 0) = true ∧ sameHeaders (k 0 :: [k 3]) = true ∧
      (s.coreAt 0).router.down.contains 0 = false ∧ ((s.coreAt 0).turner? e (k 0)).isSome = atHand ∧
      (s.coreAt 0).router.takes .turned (k 0).flits = true ∧
      ((s.coreAt 0).turner? e (k 0)).all (fun x => !s.deviceAborts x.2.devices && x.2.devices.isNone) = true := by decide +kernel

/-- Markers at every in port, and at one of them alone. -/
theorem witness_RouterEvents_steps : ∀ m : Bool,
    let l := [chunkAt 0 true, chunkAt 3 m]
    (routed l []).core.entry? 9 = some entry9 ∧
      (portsOf (entry9.set entry9.current).inm).filterMap (fun p => (routed l []).core.headChunk 9 false 0 p) = chunkAt 0 true :: [chunkAt 3 m] ∧
      l.length = (portsOf (entry9.set entry9.current).inm).length ∧ ((∃ c ∈ l, c.marker = false) ↔ m = false) ∧
      (∀ p ∈ portsOf (entry9.set 0).outm, (routed l []).neighbour? 0 p ≠ some 0) ∧
      (routed l []).roomBehind 0 (portsOf (entry9.set 0).outm) 1 = true ∧ ((routed l []).coreAt 0).stopped = false := by decide +kernel

/-- A wave that has ended elsewhere while the core's command runs. -/
theorem witness_RouterEvents_aborts :
    let s := (after (.coRed red) (heading 3 (.coRed red) (routed [] []))).updCore fun c => { c with router := { c.router with
      aborted := [⟨9, ⟨false, 0, 0⟩, 5⟩] } }
    s.lands 0 = true ∧ (s.coreAt 0).entry? 9 = some entry9 ∧ ((s.coreAt 0).router.aborted.find? fun x => x.vsn == 9 &&
      (entry9.isPast x.name || entry9.next x.name.allr == x.name)) = some ⟨9, ⟨false, 0, 0⟩, 5⟩ ∧ entry9.isPast ⟨false, 0, 0⟩ = false ∧
      ((s.coreAt 0).runOf 9 ⟨false, 0, 0⟩).any (fun w => w.1.post.isNone) = true := by decide +kernel

/-- A link between cores 0 and 1: its sixteenth failed flit in a row, and one before. -/
theorem witness_RouterEvents_links : base.neighbour? 0 3 = some 1 ∧ (base.coreAt 0).router.down.contains 3 = false ∧
    (alGet 3 (base.coreAt 0).router.fails).getD 0 < 15 ∧
    (let s := base.updCore fun c => { c with router := { c.router with fails := [(3, 15)] } }
     15 ≤ (alGet 3 (s.coreAt 0).router.fails).getD 0 ∧ (s.coreAt 0).router.down.contains 3 = false) := by decide +kernel

theorem witness_RouterEvents_streams : ∀ close : Bool,
    let f : StreamFlit := ⟨⟨3, 7, 1⟩, 1, close, 1020, if close then [] else List.replicate 64 5, none⟩
    let s := (ported (.recv 0x1000 1024 (some (1, 2)) 0) .closed).updCore fun c => { c with router := { c.router with flits := [f] } }
    (s.coreAt 0).router.flits = f :: [] ∧ s.lands 0 = true ∧ (s.coreAt 0).exiting = false ∧
      (s.coreAt 0).port (BitVec.ofNat 2 1) = .recv 0x1000 1024 (some (1, 2)) 0 ∧ f.close = close ∧ f.bytes.length ≤ 1024 := by
  decide +kernel

/-! ## Witnesses: the media engine and the bridle -/

def mediaCfg : DCfg := ⟨{ hd with count := 10240 }, 0x600000, 5, .av1, 16, 16, 3⟩
def mediaDec : DDec := ⟨hf .f16 1, 0x600000, 6, 0, 5, 3⟩

/-- A slot configured by a launch. -/
def slotOf (owner : Nat) : Slot := ⟨0, owner, .av1, 16, 16, 0x600000, List.replicate 6 0x3F800000, []⟩

/-- td6 describes three planes of 16 × 16 elements of F16, granted; slot 5 stands as given. -/
def filming (slots : List (Nat × Slot)) : State :=
  let t : Td := ⟨0xF100001000, some .f16, 3, 0, 0, 6, [3, 16, 16, 0, 0, 0, 0], [256, 16, 1, 0, 0, 0, 0]⟩
  { ((base.updCore fun c => c.setTd 6 t).updPart fun p => { p with grants := [(6, grantOf t)] }) with slots := slots }

theorem witness_MediaCommands_configures : ∀ slots ∈ [[], [(5, slotOf 1)], [(5, slotOf 7)]],
    let s := heading 4 (.dCfg mediaCfg) (filming slots)
    s.core.eng.drun = none ∧ headIs 4 (.dCfg mediaCfg) s (fun c => !c.bad && !s.copyHeld c &&
      okAnd (s.mediaRead c 2 mediaCfg.ws.toNat 24) fun _ => true) = true ∧ s.owner = 1 ∧
      ((∀ x, alGet 5 s.slots = some x → x.owner = s.owner ∧ x.part = s.core.part) ↔ slots ≠ [(5, slotOf 7)]) ∧
      headIs 4 (.dCfg mediaCfg) (headingBad 4 (.dCfg mediaCfg) (filming slots)) (fun c => c.bad) = true := by
  simp only [List.forall_mem_cons, List.not_mem_nil, false_implies, implies_true, and_true]
  refine ⟨⟨by decide +kernel, by decide +kernel, by decide +kernel, ?_, by decide +kernel⟩,
    ⟨by decide +kernel, by decide +kernel, by decide +kernel, ?_, by decide +kernel⟩,
    ⟨by decide +kernel, by decide +kernel, by decide +kernel, ?_, by decide +kernel⟩⟩
  · exact ⟨fun _ => by decide, fun _ x h => by cases h⟩
  · exact ⟨fun _ => by decide, fun _ x h => by cases h; decide +kernel⟩
  · exact ⟨fun h => absurd (h _ rfl).1 (by decide +kernel), fun h => absurd rfl h⟩

/-- A decode is the head, granted, on its launch's slot, another's and none. -/
theorem witness_MediaCommands_decodes :
    (∀ slots ∈ [[], [(5, slotOf 1)], [(5, slotOf 7)]],
      let s := heading 4 (.dDec mediaDec) (filming slots)
      headIs 4 (.dDec mediaDec) s (fun c => !c.bad && !s.copyHeld c && okAnd (s.checkDDec mediaDec c) (fun _ => true) &&
        okAnd (s.mediaRead c (pagesOf 1) mediaDec.au.toNat 1) (fun r => (alGet 5 r.2.slots).isSome == (alGet 5 s.slots).isSome)) = true) ∧
    (let s := heading 4 (.dDec mediaDec) ((filming []).updPart fun p => { p with grants := [] })
     headIs 4 (.dDec mediaDec) s (fun c => !okAnd (s.checkDDec mediaDec c) fun _ => true) = true) ∧
    (let none' : DDec := { mediaDec with head := hf .f16 0 }
     let s := heading 4 (.dDec none') (filming [(5, slotOf 1)])
     none'.head.count = 0 ∧ headIs 4 (.dDec none') s (fun c => !c.bad && !s.copyHeld c && okAnd (s.checkDDec none' c) fun _ => true) = true) ∧
    shapeFits mediaDec ((filming []).captured (wordsOf (.dDec mediaDec)) false 0) ⟨16, 16, [], [], []⟩ = true ∧
    shapeFits mediaDec ((filming []).captured (wordsOf (.dDec mediaDec)) false 0) ⟨17, 16, [], [], []⟩ = false := by decide +kernel

/-- What the codec yields is one of the four outcomes, whatever it is (log 9). -/
theorem witness_MediaCommands_outcomes (au : List Byte) :
    let r := Config.decodeAccessUnit (codecNumber .av1) 16 16 [] au
    r = .bitstreamError ∨ r = .unsupported ∨ r = .noPicture ∨ ∃ w h y cb cr, r = .picture w h y cb cr := by
  cases Config.decodeAccessUnit (codecNumber .av1) 16 16 [] au with
  | bitstreamError => exact .inl rfl
  | unsupported => exact .inr (.inl rfl)
  | noPicture => exact .inr (.inr (.inl rfl))
  | picture w h y cb cr => exact .inr (.inr (.inr ⟨w, h, y, cb, cr, rfl⟩))

/-- A decision with steps left and at its last one; registers below 8 and above; every field of the snapshot is there. -/
theorem witness_BridleSteps : bridled.partOf? bridled.cur = some 0 ∧
    (∀ n ∈ [0, 255], let s := bridled.updPartAt 0 fun p => { p with decision := p.decision.map fun k => { k with
        steps := n, p := k.p.set 1 8 } }
      ((s.partAt 0).decision.any fun k => k.steps == n && k.p[0] == 0 && k.p[1] == 8 &&
        (List.range 8).all (fun q => (k.queues[q]?.any fun row => row.length == 8)) && k.counts.length == 8) = true ∧
      (s.partAt 0).program = some ⟨256, [0]⟩) := by decide +kernel

/-! ## Witnesses: the dispatcher -/

/-- A task of the placed launch that is ready, and one that is not bound. -/
def readyTask (age : Nat) : Task := { placedTask with number := 0, age := age }

/-- Core 1 of the placed partition is idle and offered, and tasks are ready; with a bridle or without. -/
def offering (ready : List Task) (bridle : Bool) : State :=
  base.updPartAt 0 fun p => { p with ready := ready, offers := [(1, false)], program := if bridle then some ⟨256, [0]⟩ else none }

/-- An offer of a core that takes a task and of one that does not, with a task overdue, one that fits, and none, with a bridle. -/
theorem witness_DispatchBindsTasks_decisions :
    (∀ ready ∈ [[], [readyTask 0], [readyTask 65536]], ∀ bridle : Bool, let s := offering ready bridle
      (alGet 0 s.parts).isSome = true ∧ (s.partAt 0).offers.find? (fun o => o.1 == 1) = some (1, false) ∧ (s.partAt 0).decides = true ∧
        s.canTake 0 1 = true ∧ (s.partAt 0).program.isSome = bridle ∧
        s.overdue? 0 1 = (if ready = [readyTask 65536] then some (readyTask 65536) else none)) ∧
    (let s := (offering [] false).updCoreAt 1 fun _ => base.core
     s.canTake 0 1 = false ∧ (s.partAt 0).offers.find? (fun o => o.1 == 1) = some (1, false)) ∧
    (let s := (offering [] false).updCoreAt 2 fun c => { c with wait := .scrub 1 }
     (s.partAt 0).offers.find? (fun o => o.1 == 1) = some (1, false) ∧ (s.partAt 0).decides = true ∧ s.offerHeld 1 = true) ∧
    (let s := offering [readyTask 0] false
     s.offerHeld 1 = false ∧
       ((s.openDecision 0 (.dispatch 1) none ((alGet 1 (s.partAt 0).deferred).getD 0)).builtinPick []).map (·.places) = some [((0, 0), 1)] ∧
       ((s.openDecision 0 (.dispatch 1) none 3).builtinPick [(s.partAt 0).queueOf (readyTask 0)]) = none) ∧
    (let s := offering [] false
     (s.openDecision 0 (.dispatch 1) none ((alGet 1 (s.partAt 0).deferred).getD 0)).builtinPick [] = none) := by decide +kernel

/-- A task that the snapshot chose can still be bound, and one whose launch has been halted since cannot. -/
theorem witness_DispatchBindsTasks_snapshot :
    let f : Fit := ⟨0, 0, 0, 0, [((0, 0), 1)]⟩
    f.places = [(((readyTask 0).launch, (readyTask 0).number), 1)] ∧
    (∀ b : Bool, let s := (offering [readyTask 0] false).updPartAt 0 fun p =>
        { p with launches := [{ placedLaunch with halted := b }] }
      (s.partAt 0).ready.find? (fun u => u.launch == (readyTask 0).launch && u.number == (readyTask 0).number) = some (readyTask 0) ∧
        s.takes 0 (readyTask 0) 1 = true ∧
        ((s.partAt 0).launch? f.launch).any (fun x => !x.halted && !(s.partAt 0).out x.key) = !b) := by decide +kernel

/-- A fresh task of the placed launch on a core of its domain and on one of another; deferred cores. -/
theorem witness_DispatchBindsTasks_binds :
    (alGet 0 base.parts).isSome = true ∧ (base.partAt 0).launch? (readyTask 0).launch = some placedLaunch ∧ (readyTask 0).ctx = none ∧
      (base.coreAt 0).dom = some (0, (readyTask 0).launch, (base.partAt 0).taskDomain (readyTask 0)) ∧ (base.coreAt 1).dom = none ∧
      (let s := base.updPartAt 0 fun p => { p with deferred := [(1, 1)] }
       (alGet 1 (s.partAt 0).deferred).isSome = true ∧ s.canTake 0 1 = true ∧ (∀ o ∈ (s.partAt 0).offers, o.1 ≠ 1)) ∧
      alGet 1 (base.partAt 0).deferred = none := by decide +kernel

/-- A fault of domain 1 waits. -/
def faulted (passes : Nat) (tested bridle : Bool) (mode : PMode) : State :=
  base.updPartAt 0 fun p => { p with faults := [⟨1, 3, passes, none, none, tested⟩], mode := mode, domCounter := 1
                                     program := if bridle then some ⟨256, [0]⟩ else none
                                     launches := [{ placedLaunch with nodes := [{ placedNode with domain := 1 }] }] }

theorem witness_FaultAndSwitchDecisions_faults :
    (∀ e ∈ ([(7, false, true, .service), (8, false, true, .service), (0, false, false, .service), (0, false, true, .test),
        (0, true, true, .test)] : List (Nat × Bool × Bool × PMode)),
      let s := faulted e.1 e.2.1 e.2.2.1 e.2.2.2
      (alGet 0 s.parts).isSome = true ∧ (s.partAt 0).decides = true ∧ (s.partAt 0).mode = e.2.2.2 ∧
        (s.partAt 0).faults.find? (fun r => !(s.partAt 0).haltedDomain r.domain) = some ⟨1, 3, e.1, none, none, e.2.1⟩ ∧
        (s.partAt 0).program.isSome = e.2.2.1) ∧
    (let s := (faulted 0 false true .service).updPartAt 0 fun p => { p with decision := some (base.openDecision 0 .preempt none 0) }
     (s.partAt 0).decides = false) ∧
    (∀ n ∈ ([0, 1, 2, 3] : List (BitVec 2)), let s := faulted 0 false true .service
      (s.partAt 0).validAction ⟨1, 3, 0, none, none, false⟩ 1 n = decide (n ≠ 3) ∧
        (s.openDecision 0 (.fault 1) (some ⟨1, 3, 0, none, none, false⟩) 0).kind = .fault 1) ∧
    (let s := (faulted 0 false true .service).updPartAt 0 fun p => { p with
       launches := p.launches ++ [{ placedLaunch with key := 1, nodes := [{ placedNode with domain := 2 }] }] }
     (s.partAt 0).validAction ⟨1, 3, 0, none, none, false⟩ 2 1 = true) := by decide +kernel

/-- A request for a gang switch at its decisions, and cores that wait in counted operations. -/
theorem witness_FaultAndSwitchDecisions_others :
    (∀ n ∈ [7, 8], ∀ bridle : Bool, let s := base.updPartAt 0 fun p => { p with preempt := some (n, 5), decisions := 5
                                                                                program := if bridle then some ⟨256, [0]⟩ else none }
      (s.partAt 0).preempt = some (n, 5) ∧ (s.partAt 0).decides = true ∧ (s.partAt 0).phase = .none ∧ 5 ≤ (s.partAt 0).decisions.toNat) ∧
    (let s := base.updPartAt 0 fun p => { p with preempt := some (0, 6), decisions := 5 }
     (s.partAt 0).decisions.toNat < 6) ∧
    (∀ w ∈ [Wait.counted, .asleep], let s := base.updCore fun c => { c with wait := w }
      s.runningCores 0 = [0] ∧ (s.coreAt 0).counted = decide (w = .counted) ∧ s.blocked 0 = decide (w = .counted) ∧
        (s.coreAt 0).gang.bind (·.retired) = none ∧ ∀ k ∈ (s.partAt 0).coreIds, (s.coreAt k).eng.drun = none) := by decide +kernel

/-- The words that a core can be blocked in: a matrix instruction, an issue of a tile-table or inbox command, and others. -/
theorem witness_FaultAndSwitchDecisions_words :
    ([0x2B, 0x507B, 0x607B, 0x13].map fun w => match (State.reset.placeWord (BitVec.ofNat 32 w)).fetchWord with
      | .ok (v, _) => (v.extractLsb' 0 7, v.extractLsb' 12 3)
      | .error _ => (0, 0)) = [(0x2B, 0), (0x7B, 5), (0x7B, 6), (0x13, 0)] := by decide +kernel

/-- Tasks wait for a pending future, and nothing of the launch is left, or its task still runs. -/
theorem witness_FaultAndSwitchDecisions_orphans :
    let t : Task := { placedTask with number := 1, waits := [1] }
    let s := base.updPartAt 0 fun p => { p with waiting := [t], futures := [(1, ⟨0, .pending, 1, 0, 0⟩)] }
    let u := s.updCore fun c => { c with bound := .idle }
    let left (s : State) : List Task :=
      ((s.partAt 0).ready ++ (s.partAt 0).parkedTasks ++ (s.partAt 0).stoppedTasks).filter fun x => x.launch == 0
    (s.partAt 0).waiting.filter (fun x => x.launch == 0) = [t] ∧ s.coresOf 0 0 ≠ [] ∧
      (u.partAt 0).waiting.filter (fun x => x.launch == 0) = [t] ∧ u.coresOf 0 0 = [] ∧ left u = [] ∧ (u.partAt 0).out 0 = false ∧
      ((u.updPartAt 0 fun p => { p with contexts := [⟨0x800000, 0, 0, 0, 1, 1, [], [], [], none, [0], []⟩] }).partAt 0).out 0 = true ∧
      (((alGet 1 ((u.dispatcherFault 0 0 43 ((u.partAt 0).taskDomain t) (BitVec.ofNat 64 (1 + 1 * 65536))).partAt 0).futures).map
        (·.state)) = some .pending) := by decide +kernel

/-- Control blocks at 0x600000 on, 128 bytes each, in a partition with an empty launch port. -/
def treeOf (blocks : List Nat) : State :=
  { base with mem := ((List.range blocks.length).zip blocks).foldl (fun m e => writeLE m (0x600000 + 128 * e.1) 128 e.2) base.mem }

/-- A root of one LEAF with extent e0 and its entry, or, with another kind, no control block that can be taken. -/
def leafRoot (kind e0 : Nat) : Nat := kind + 2 ^ 15 + 0x200000 <<< 64 + (e0 - 1) <<< 384 + 1 <<< 432 + 1 <<< 512

def treed (kind : Nat) : State := treeOf [leafRoot kind 1]

/-- A launch record with that root, its record at an address, and a signal. -/
def recordTo (record sigkind sigcore : Nat) (cores : Bool) : BitVec 512 :=
  BitVec.ofNat 512 (0x600000 + record <<< 384 + sigcore <<< 448 + sigkind <<< 460 + 5 <<< 480 + if cores then 2 ^ 470 else 0)

def recordWord (sigkind sigcore : Nat) : BitVec 512 := recordTo 0x700000 sigkind sigcore false

/-- A migration of a page is open. -/
def migrates (s : State) (va : Nat) : State := s.updPartAt 0 fun p => { p with migration := some ⟨0, va, 65536, []⟩ }

/-- How a record is judged: accepted, held, or refused with a reason. -/
def verdict (s : State) (w : BitVec 512) : Nat × Nat := match s.judge 0 w.toNat with
  | .ok tree => (0, tree.length)
  | .error .held => (1, 0)
  | .error (.reason n) => (2, n)

/-- How an access of the dispatcher ends. -/
def ends {α : Type} (x : Except Stop α) : Nat := match x with
  | .ok _ => 0
  | .error (.wait _) => 1
  | .error (.fault _) => 2

/-- Launches accepted and refused, and a port with room and without. -/
theorem witness_LaunchLifecycle_acceptance :
    (∀ n ∈ [15, 16], ((base.updPartAt 0 fun p => { p with port := List.replicate n 0 }).partAt 0).port.length = n) ∧
    (∀ mig ∈ [0x700000, 0x900000], let s := migrates ((treed 3).updPartAt 0 fun p => { p with port := [recordWord 1 15], launches := [] }) mig
     (s.partAt 0).port = recordWord 1 15 :: [] ∧ (s.partAt 0).launches.length < 64 ∧
       verdict s (recordWord 1 15) = (if mig = 0x700000 then (1, 0) else (0, 1)) ∧
       s.recordHeld 0 ((recordWord 1 15).extractLsb' 384 64).toNat = (mig == 0x700000)) ∧
    (verdict (treed 0) (recordWord 1 15) = (2, 2) ∧ (treed 0).recordHeld 0 ((recordWord 1 15).extractLsb' 384 64).toNat = false) ∧
    verdict (migrates (treed 0) 0x700000) (recordWord 3 15) = (2, 1) ∧
    (let s := base.updPartAt 0 fun p => { p with port := [0], launches := List.replicate 64 placedLaunch }
     (s.partAt 0).port = 0 :: [] ∧ 64 ≤ (s.partAt 0).launches.length) := by decide +kernel

/-- A record for each reason of its refusal: the mode, the record, its place, its tree. -/
theorem witness_LaunchLifecycle_refusals :
    (((base.updPartAt 0 fun p => { p with mode := .recovery }).partAt 0).mode = .recovery) ∧
    ((base.partAt 0).mode ≠ .recovery ∧ (recordWord 3 0).extractLsb' 460 2 = 3 ∧
      (base.partAt 0).size ≤ ((recordWord 0 16).extractLsb' 448 12).toNat) ∧
    ((treed 0).partAt 0).recordBad (recordWord 0 0).toNat = false ∧ ((treed 0).partAt 0).recordBad (recordTo 0xF000000000 0 0 false).toNat = false ∧
    ends ((treed 3).dispatcherPlaces 0 .write ((recordTo 0xF000000000 0 0 false).extractLsb' 384 64).toNat 64) = 2 ∧
    ends ((migrates (treed 3) 0x700000).dispatcherPlaces 0 .write ((recordWord 0 0).extractLsb' 384 64).toNat 64) = 1 ∧
    ends ((treed 3).dispatcherPlaces 0 .write ((recordWord 0 0).extractLsb' 384 64).toNat 64) = 0 ∧
    ends ((treed 0).readTree 0 ((recordWord 0 0).extractLsb' 0 64).toNat) = 2 ∧
    ends ((migrates (treed 3) 0x600000).readTree 0 ((recordWord 0 0).extractLsb' 0 64).toNat) = 1 := by decide +kernel

/-- A tree for each reason that rests on it: a grid of all cores on a GROUP, too many cores, too wide a PIPE, a grid that finds no cores
together; and one that is accepted. -/
theorem witness_LaunchLifecycle_trees :
    (okAnd ((treeOf [2 ^ 15 + 1 <<< 16 + 0x600080 <<< 64 + 1 <<< 512, 3 + 0x200000 <<< 64 + 1 <<< 432]).readTree 0 0x600000) fun tree =>
      match tree with
      | [top, below] => (recordTo 0x700000 0 0 true).getLsbD 470 && !top.node.kind.isLeaf && below.node.kind.isLeaf
      | _ => false) = true ∧
    (okAnd ((treeOf [leafRoot 3 1 + 2 ^ 8 + 16 <<< 128]).readTree 0 0x600000) fun tree =>
      tree.any fun n => decide ((base.partAt 0).taskCores < n.node.cores) && n.node.kind.isLeaf) = true ∧
    (okAnd ((treeOf [2 + 2 ^ 15 + 16 <<< 16 + 0x601000 <<< 64 + 1 <<< 512]).readTree 0 0x600000) fun tree =>
      tree.any fun n => n.node.cores ≤ (base.partAt 0).taskCores && match n.node.kind with
        | .pipe roles => (base.partAt 0).pipeTooBig roles.length
        | _ => false) = true ∧
    (okAnd ((treeOf [leafRoot 3 16]).readTree 0 0x600000) fun tree => match tree with
      | [top] => top.node.cores ≤ (base.partAt 0).taskCores && base.noResidence 0 top.node
      | _ => false) = true ∧
    (okAnd ((treeOf [leafRoot 3 15]).readTree 0 0x600000) fun tree => match tree with
      | [top] => top.node.cores ≤ (base.partAt 0).taskCores && !base.noResidence 0 top.node
      | _ => false) = true := by decide +kernel

/-- Weights that split, that borrow, and that cannot. -/
theorem witness_LaunchLifecycle_weights : 2 ≤ 32 / 16 ∧ 31 / 16 < 2 ∧ placedLaunch.loans < 2 ^ 23 - 1 ∧
    2 ^ 23 - 1 ≤ ({ placedLaunch with loans := 2 ^ 23 - 1 } : Launch).loans := by decide

/-- A child of each kind of parent, with its siblings complete or not. -/
theorem witness_LaunchLifecycle_nodes :
    let node (k : NodeKind) (parent : Option Nat) (children : List Nat) (st : NodeState) : Node :=
      { placedNode with kind := k, parent := parent, children := children, state := st }
    let l (k : NodeKind) (other : NodeState) : Launch := { placedLaunch with nodes :=
      [node k none [1, 2] .ready, node placedNode.kind (some 0) [] .ready, node placedNode.kind (some 0) [] other] }
    (∀ k ∈ [NodeKind.group false, .group true, .cond 0], ∀ other ∈ [NodeState.pending, .complete],
      ((l k other).nodes[1]?.any fun x => x.parent == some 0) = true ∧ ((l k other).nodes[0]?.any fun q => q.kind == k &&
        q.children == [1, 2]) = true ∧
        ((((l k other).completeNode 1).1.nodes[2]?.any fun y => y.state == .complete) = decide (other = .complete))) := by
  decide +kernel

/-- A launch whose weight is back, and one whose weight is not, each way it signals. -/
theorem witness_LaunchLifecycle_completion :
    base.launch? 0 0 = some placedLaunch ∧ placedLaunch.acc ≠ placedLaunch.target ∧
    (∀ k ∈ [0, 1, 2], ∀ core ∈ [0, 15, 16], let l := { placedLaunch with acc := 2 ^ 63, sigkind := k, sigcore := core, record := 0x700000 }
      let s := base.updPartAt 0 fun p => { p with launches := [l] }
      s.launch? 0 0 = some l ∧ l.acc = l.target ∧ s.recordHeld 0 l.record.toNat = false ∧
        okAnd (s.dispatcherPlaces 0 .write l.record.toNat 64) (· == [(0x700000, 64)]) = true ∧ s.poisoned 0x700000 64 = false ∧
        (migrates s 0x700000).recordHeld 0 l.record.toNat = true ∧ s.signalLost 0 l = decide (k = 1 ∧ core ≠ 0)) := by decide +kernel

/-- A context of the placed partition's shape. -/
def kept : Context := ⟨0x800000, 0, 0, 0, 1, 1, [(0, base.core), (5, Core.idle 5)], [], [], none, [0], []⟩

theorem witness_GangSwitchPhases :
    (∀ ph ∈ [Phase.none, .granted, .stop, .quiet, .drain, .save, .restored], let s := base.updPartAt 0 fun p => { p with phase := ph }
      (alGet 0 s.parts).isSome = true ∧ (s.partAt 0).phase = ph ∧ (s.partAt 0).decision = none ∧ (s.partAt 0).incoming = 0 ∧
        (∀ id ∈ s.boundCores 0, s.coreQuiet id = true) ∧ ∀ n ∈ s.cinchesOf 0, (s.cinchAt n).tokens = []) ∧
    (let s := base.updCore fun c => { c with wait := .token }
     0 ∈ s.boundCores 0 ∧ s.coreQuiet 0 = false) ∧
    (let s := base.updPartAt 0 fun p => { p with phase := .save, incoming := 0x800000, contexts := [kept] }
     (s.partAt 0).incoming ≠ 0 ∧ s.contextIn? 0 0x800000 = some kept ∧ kept.part = 0 ∧ kept.kills = [] ∧
       (∀ e ∈ kept.cores, e.2.late = []) ∧
       (kept.cores.map fun e => (s.partAt 0).phys e.1).Nodup) ∧
    (let s := (after (.coRed red) (heading 3 (.coRed red) (routed [] []))).updPartAt 0 fun p => { p with phase := .granted }
     let u := after (.switchStop 0) s
     (u.partAt 0).phase = .stop ∧ 0 ∈ u.boundCores 0) ∧
    (∀ bound ∈ [Bound.idle, base.core.bound],
      let s := (base.updPartAt 0 fun p => { p with phase := .drain, contexts := [{ kept with area := p.area }] }).updCoreAt 0 fun c =>
        { c with bound := bound }
      (s.partAt 0).phase = .drain ∧ s.vacant 0 = decide (bound = .idle)) := by decide +kernel

/-! ## Witnesses: the management view and the outside -/

/-- A payload of 64-bit words. -/
def payload (ws : List Nat) : Memory := ((List.range ws.length).zip ws).foldl (fun m e => writeLE m (8 * e.1) 8 e.2) []

/-- The ready device with a payload; its partition's launches and mode as given. -/
def asked (ws : List Nat) (busy : Bool) : State :=
  let s := { managed with mgmt := { managed.mgmt with payload := payload ws } }
  if busy then s else s.updPartAt 0 fun p => { p with launches := [], parked := [7], parkedTasks := [] }

theorem witness_ManagementRequests_owners :
    (managed.mgmt.stage ≠ .off ∧ 3 ∈ managed.mgmt.up ∧ managed.mgmt.owner = BitVec.ofNat 4 0 ∧ managed.mgmt.owner ≠ 0xF ∧
      managed.mgmt.owner ≠ BitVec.ofNat 4 3 ∧ 5 ∉ managed.mgmt.up) ∧
    (let s := { managed with mgmt := { managed.mgmt with owner := 0xF } }
     s.mgmt.owner = 0xF ∧ s.mgmt.owner ≠ BitVec.ofNat 4 0) ∧
    (1 ∉ managed.mgmt.up ∧ managed.mgmt.stage = .ready ∧ managed.mgmt.reqState ≠ 1 ∧ managed.mgmt.owner.toNat = 0 ∧
      managed.mgmt.owner.toNat ≠ 3) ∧
    (let s := { managed with mgmt := { managed.mgmt with reqState := 1 } }
     s.mgmt.reqState = 1 ∧ s.mgmt.reqHeld = false) ∧
    (∀ g ∈ [0, 1, 2], let s := { managed with mgmt := { managed.mgmt with up := [], given := g } }
     s.mgmt.stage ≠ .off ∧ 3 ∉ s.mgmt.up ∧ 1 ∉ s.mgmt.up ∧ s.mgmt.given = g) ∧
    (let s := { managed with mgmt := { managed.mgmt with stage := .waiting } }
     s.mgmt.stage ≠ .off ∧ s.mgmt.stage ≠ .ready ∧ 3 ∈ s.mgmt.up ∧ s.mgmt.owner.toNat ≠ 3) := by decide +kernel

/-- The tables of the placed partition map one block of half a gigabyte through a lower table. -/
def nested : Memory := writeLE (writeLE [] placedRoot 8 0x110001) 0x110000 8 0x4000001F

/-- A request to create: accepted, a range broken, its number or its place taken, an area on another's, and a page that another maps. -/
theorem witness_ManagementRequests_creates :
    let verdict (m : Memory) (ws : List Nat) : Option (BitVec 8) := match requestOf 1 { asked ws true with mem := m } with
      | .ok _ => none
      | .error e => some e
    (verdict [] [1, 1, 0, 1, 1, 0x10000000, 0x11000000, 0x14000000, 6, 0x500000, 3, 0x500000, 7] = none) ∧
      verdict base.mem [1, 1, 0, 1, 1, 0x10000000, 0x11000000, 0x14000000, 6, 0, 0, 0, 0] = some 5 ∧
      verdict nested [1, 1, 0, 1, 1, 0x10000000, 0x11000000, 0x14000000, 6, 0, 0, 0, 0] = none ∧
      verdict nested [1, 1, 0, 1, 1, 0x110000, 0x11000000, 0x14000000, 6, 0, 0, 0, 0] = some 5 ∧
      verdict (writeLE nested 0x10000000 8 0x1F) [1, 1, 0, 1, 1, 0x10000000, 0x11000000, 0x14000000, 6, 0, 0, 0, 0] = some 5 ∧
      verdict [] [1, 16, 0, 1, 1, 0x10000000, 0x11000000, 0x14000000, 6, 0, 0, 0, 0] = some 2 ∧
      verdict [] [0, 1, 0, 1, 1, 0x10000000, 0x11000000, 0x14000000, 6, 0, 0, 0, 0] = some 5 ∧
      verdict [] [1, 0, 0, 2, 1, 0x10000000, 0x11000000, 0x14000000, 6, 0, 0, 0, 0] = some 5 ∧
      verdict [] [1, 1, 0, 1, 1, placedRoot, 0x11000000, 0x14000000, 6, 0, 0, 0, 0] = some 2 := by decide +kernel

/-- What each other request finds: no partition, one with a launch, and one without; every field in range and just out of it. -/
theorem witness_ManagementRequests_others :
    (alGet (readLE (asked [1] true).mgmt.payload (8 * 0) 8) (asked [1] true).parts = none) ∧
    (((asked [0, 3] true).partAt 0).launches ≠ [] ∧ ((asked [0, 3] false).partAt 0).launches = [] ∧
      readLE (asked [0, 3] false).mgmt.payload (8 * 1) 8 ≤ 3 ∧ 3 < readLE (asked [0, 4] false).mgmt.payload (8 * 1) 8) ∧
    (readLE (asked [0, 7] false).mgmt.payload (8 * 1) 8 ∈ ((asked [0, 7] false).partAt 0).parked ∧
      readLE (asked [0, 8] false).mgmt.payload (8 * 1) 8 ∉ ((asked [0, 8] false).partAt 0).parked ∧
      65536 ≤ readLE (asked [0, 65536] false).mgmt.payload (8 * 1) 8 ∧ 2 ^ 32 ≤ readLE (asked [0, 2 ^ 32] false).mgmt.payload (8 * 1) 8) ∧
    (1 < readLE (asked [0, 0, 2] true).mgmt.payload (8 * 2) 8 ∧
      ((asked [0, 0, 0] true).partAt 0).launches.find? (fun l => l.id.toNat == 0) = some placedLaunch ∧ placedLaunch.halted = false ∧
      ∀ l ∈ ((asked [0, 1, 0] true).partAt 0).launches, l.id.toNat ≠ 1) ∧
    (readLE (asked [0, 0x20000000] true).mgmt.payload (8 * 1) 8 % 2 ^ 20 = 0 ∧ ((asked [0, 0x20000000] true).partAt 0).phase = .none ∧
      ((asked [0, 0x20000000] true).partAt 0).preempt = none ∧ (match requestOf 8 (asked [0, 0x20000000] true) with
        | .ok _ => true | .error _ => false) = true ∧ readLE (asked [0, 1] true).mgmt.payload (8 * 1) 8 % 2 ^ 20 ≠ 0) ∧
    (let s := (asked [0, 0x20000000] true).updPartAt 0 fun p => { p with futures := [(1, ⟨0, .pending, 1, 0, 0⟩)] }
     let held : Partition := { placedPartition with x0 := 1, area := 0x30000000, futures := [(1, ⟨0, .pending, 1, 0, 0⟩)],
                                                    contexts := [⟨0x20000000, 1, 1, 0, 1, 1, [], [], [], none, [0], []⟩] }
     let u : State := { s with parts := s.parts ++ [(1, held)] }
     (u.contextIn? 0 0x20000000).any (fun k => !u.movable 0 k) = true) ∧
    (∀ e ∈ ([(0x400000, false, true), (0x400000, true, false), (0x3100000, true, true), (0x500000, false, false)] : List (Nat × Bool × Bool)),
      let s := (asked [0, e.1] true).updPartAt 0 fun p => { p with contexts := if e.2.1 then [{ kept with area := p.area }] else [] }
      (s.partAt 0).area = 0x400000 ∧ (s.partAt 0).size = 16 ∧ s.vacant 0 = false ∧ (match requestOf 8 s with
        | .ok _ => true | .error _ => false) = e.2.2) ∧
    (readLE (asked [0, 63, 1] true).mgmt.payload (8 * 1) 8 < 64 ∧ ((asked [0, 63, 1] true).cinchAt 63).part = none ∧
      64 ≤ readLE (asked [0, 64, 1] true).mgmt.payload (8 * 1) 8 ∧
      (({ asked [0, 63, 1] true with cinches := [(63, { Cinch.zero with part := some 4 })] } : State).cinchAt 63).part = some 4) := by
  decide +kernel

/-- A request to write a grant: valid, not valid, with a reserved bit, a wrong field, and regions of each kind. -/
theorem witness_ManagementRequests_grants :
    let grant (n v img : Nat) : State := { managed with mgmt := { managed.mgmt with
      payload := writeLE (writeLE (payload [0, n]) 16 64 v) 80 256 img } }
    let good := 7 + 0x10 <<< 16 + 1 <<< 24
    (readLE (grant 255 good 0).mgmt.payload (8 * 1) 8 < 256 ∧ 256 ≤ readLE (grant 256 good 0).mgmt.payload (8 * 1) 8) ∧
    (let v := BitVec.ofNat 512 (readLE (grant 255 good 0).mgmt.payload 16 64)
     v.getLsbD 0 = true ∧ v.extractLsb' 3 5 = 0 ∧ v.getLsbD 31 = false ∧ v.extractLsb' 352 160 = 0 ∧ v.extractLsb' 24 3 = 1) ∧
    (∀ e ∈ [((line 0 4), true), ({ line 0 4 with inexact := true }, false), (⟨1, .strided, false, 0, [2], 0, 0, [[⟨0, 4⟩]]⟩, true)],
      (Region.parse (readLE (grant 255 good e.1.image).mgmt.payload 80 256)).isSome = true ∧
        (match requestOf 5 (grant 255 good e.1.image) with | .ok _ => true | .error _ => false) = e.2) ∧
    Region.parse (readLE (grant 255 good 0xFF).mgmt.payload 80 256) = none ∧
    (let crosses : Region := Region.dense 2 ((List.range (capacity 2)).map fun k => [⟨Int.ofNat k, 64 - 2 * k⟩, ⟨-Int.ofNat k, 1 + 2 * k⟩])
     (Region.parse crosses.image).any (fun r => !r.inexact && r.kind == .dense && r.rank == 2) = true ∧
       (match Region.load crosses.image with | .ok r _ => r.inexact | .illegal | .range => false) = true ∧
       (match requestOf 5 (grant 255 (7 + 0x10 <<< 16 + 2 <<< 24) crosses.image) with | .ok _ => 0 | .error e => e.toNat) = 3) ∧
    (match requestOf 5 (grant 255 (good + 8) (line 0 4).image) with | .ok _ => 0 | .error e => e.toNat) = 2 ∧
    (match requestOf 5 (grant 255 (7 + 0x10 <<< 16) (line 0 4).image) with | .ok _ => 0 | .error e => e.toNat) = 2 ∧
    (match requestOf 5 (grant 255 0 0) with | .ok _ => 0 | .error e => e.toNat) = 0 := by decide +kernel

/-- Writes of the register window by a master that is up, the owner and not, and one that is not up. -/
theorem witness_ManagementRequests_registers :
    managed.mgmt.stage ≠ .off ∧ 0 ∈ managed.mgmt.up ∧ 3 ∈ managed.mgmt.up ∧ 2 ∉ managed.mgmt.up ∧ managed.mgmt.owner.toNat = 0 ∧
      (0x1000 ≤ 0x1FF8 ∧ 0x1FF8 + 8 ≤ 0x2000) ∧ (0x800000 ≤ 0xFFFFF8 ∧ 0xFFFFF8 + 8 ≤ 0x1000000) ∧ (2 ^ 32 : Word).getLsbD 32 = true ∧
      (let s := { managed with mgmt := { managed.mgmt with fails := 3, minimal := true, reason := 3, unit := 6 } }
       s.mgmt.fails = 3 ∧ s.mgmt.minimal = true ∧ s.mgmt.reason = 3 ∧ s.mgmt.unit = 6 ∧ s.mgmt.pid = 0) ∧
      (let s := asked [0, 1, 1, 1] false
       ∀ e ∈ s.parts, e.2.launches = []) := by decide +kernel

/-- A device that waits for firmware, that starts with an image in the right form, and in minimal mode. -/
def starting (stage : Stage) (fails : Nat) : State :=
  { managed with mgmt := { managed.mgmt with stage := stage, fails := BitVec.ofNat 2 fails } }

theorem witness_PowerLinksAndStarts_starts :
    ((starting .waiting 0).mgmt.stage = .waiting ∧ 0 ∈ (starting .waiting 0).mgmt.up ∧ (starting .waiting 0).mgmt.owner.toNat = 0 ∧
      (BitVec.ofNat 64 (2 ^ 23)).toNat ≤ 2 ^ 23 ∧ 2 ^ 23 < (BitVec.ofNat 64 (2 ^ 23 + 1)).toNat ∧ (starting .waiting 1).mgmt.fails < 2) ∧
    (starting .minimal 3).mgmt.stage = .minimal ∧ (starting .starting 0).mgmt.stage = .starting ∧
    (starting .starting 0).mgmt.badStacks ++ (List.range 8).drop (starting .starting 0).mgmt.stackCount = [] ∧
    (starting .starting 0).mgmt.badDies = [] ∧ (starting .starting 0).mgmt.badCores = [] ∧ (starting .starting 0).mgmt.badRouters = [] ∧
    (∀ k ∈ [6, 7], k ∈ ((List.range 8).drop 6) ∧ 6 ≤ k) ∧ 2 ≤ (starting .starting 2).mgmt.fails := by decide +kernel

/-- An image of an empty body with its signature is in the right form; whether it is good is a free value (log 9). -/
theorem witness_PowerLinksAndStarts_images (sig : List Byte) (h : sig.length = 4627) :
    let fw : List Byte := [0x46, 0x37, 0x59, 0x4C] ++ List.replicate 60 0 ++ sig
    leNat (fw.take 4) = 0x4C593746 ∧ (∀ b ∈ (fw.drop 16).take 48, b = 0) ∧ fw.length = 64 + leNat ((fw.drop 4).take 4) + 4627 := by
  have hl : ([0x46, 0x37, 0x59, 0x4C] ++ List.replicate 60 0 : List Byte).length = 64 := rfl
  have hd (n : Nat) (hn : n ≤ 64) : ([0x46, 0x37, 0x59, 0x4C] ++ List.replicate 60 0 ++ sig : List Byte).drop n =
      ([0x46, 0x37, 0x59, 0x4C] ++ List.replicate 60 0 : List Byte).drop n ++ sig := List.drop_append_of_le_length (by rw [hl]; exact hn)
  have ht (n k : Nat) (hn : n + k ≤ 64) : (([0x46, 0x37, 0x59, 0x4C] ++ List.replicate 60 0 : List Byte).drop n ++ sig).take k =
      (([0x46, 0x37, 0x59, 0x4C] ++ List.replicate 60 0 : List Byte).drop n).take k :=
    List.take_append_of_le_length (by rw [List.length_drop, hl]; omega)
  refine ⟨?_, ?_, ?_⟩
  · have := ht 0 4 (by decide)
    rw [List.drop_zero] at this
    rw [this]
    decide
  · rw [hd 16 (by decide), ht 16 48 (by decide)]
    decide
  · rw [hd 4 (by decide), ht 4 4 (by decide), List.length_append, hl, h]
    decide

/-- A ready device without work, and one with; memory from outside; a core with a task. -/
theorem witness_PowerLinksAndStarts_events :
    (∀ l ∈ [1, 2, 79, 80, 2999, 3000], let s := { asked [] false with mgmt := { (asked [] false).mgmt with lattol := BitVec.ofNat 32 l } }
      s.mgmt.stage = .ready ∧ s.mgmt.pstate = 0 ∧ (∀ e ∈ s.parts, e.2.launches = [] ∧ e.2.port = []) ∧ s.mgmt.reqState ≠ 1 ∧
        ∀ e ∈ s.cores, e.2.eng.dq = [] ∧ e.2.eng.drun = none) ∧
    (let s := managed.updPartAt 0 fun p => { p with migration := some ⟨0, 0x600000, 65536, [0x600000]⟩ }
     ∀ a ∈ [0x5FFFF8, 0x600000, 0x60FFF8, 0x610000], s.refusesTraffic (.read a 8) = (0x600000 ≤ a && a < 0x610000)) ∧
    managed.refusesTraffic (.amo .add 0x600000 1) = false ∧ (∀ k ∈ [0, 7], managed.unlaid (0x600000 + k) = false) ∧
    (∃ e ∈ managed.parts, e.2.launches ≠ []) ∧ Memory.wf managed.mem = true ∧
    ({ managed with mgmt := { managed.mgmt with stage := .off } } : State).mgmt.stage = .off ∧ managed.mgmt.stage ≠ .off ∧
    7 ∉ managed.mgmt.cxlDown ∧ managed.mgmt.stackCount ≤ 8 ∧
    managed.ownMemory? 0x600000 8 = some 0x600000 ∧ managed.poisoned 0x600000 8 = false ∧ managed.ownMemory? 0xF000000000 8 = none ∧
    managed.ownMemory? 0x1000_0000_0000 8 = some 0x1000_0000_0000 ∧
    (managed.coreAt 0).failed = false ∧ (managed.coreAt 0).bound = .task 0 0 0 (2 ^ 63) none ∧
    (alGet (managed.coreAt 0).part managed.parts).isSome = true := by decide +kernel

/-! ## The manual's worked examples -/

/-- Rows and columns of R88: A, B, and A − B. -/
def regionA : Region := Region.dense 2 [[⟨3, 4⟩, ⟨3, 4⟩]]
def regionB : Region := Region.dense 2 [[⟨2, 4⟩, ⟨1, 4⟩]]
def regionAB : Region := Region.dense 2 [[⟨3, 3⟩, ⟨5, 2⟩], [⟨6, 1⟩, ⟨3, 4⟩]]

/-- The table of R88: intersection, union and both differences of A and B. -/
theorem test_region_sets : setOp .and regionA regionB [] [] = .ok (Region.dense 2 [[⟨3, 3⟩, ⟨3, 2⟩]]) false ∧
    setOp .or regionA regionB [] [] = .ok (Region.dense 2 [[⟨2, 1⟩, ⟨1, 4⟩], [⟨3, 3⟩, ⟨1, 6⟩], [⟨6, 1⟩, ⟨3, 4⟩]]) false ∧
    setOp .sub regionA regionB [] [] = .ok regionAB false ∧
    setOp .sub regionB regionA [] [] = .ok (Region.dense 2 [[⟨2, 1⟩, ⟨1, 4⟩], [⟨3, 3⟩, ⟨1, 2⟩]]) false := by decide +kernel

/-- R79: eight single cells and a ninth take the hull, lower 0 and extent 17, and count. -/
theorem test_region_hull : setOp .or (Region.dense 1 ((List.range 8).map fun (k : Nat) => [⟨2 * k, 1⟩])) (line 16 1) [] [] =
    .ok { line 0 17 with inexact := true } true := by decide +kernel

/-- The table of R90 on A − B: dilation, shift and projection; a clip by an 8 × 8 descriptor, and by one that wraps dimension 1. -/
theorem test_region_shapes :
    dilate regionAB [1, 0] [] = .ok (Region.dense 2 [[⟨2, 3⟩, ⟨5, 2⟩], [⟨5, 3⟩, ⟨3, 4⟩]]) false ∧
    shift regionAB [-3, -3] = .ok (Region.dense 2 [[⟨0, 3⟩, ⟨2, 2⟩], [⟨3, 1⟩, ⟨0, 4⟩]]) false ∧
    project regionAB 2 [] = .ok (line 3 4) false ∧
    (let r := Region.dense 2 [[⟨6, 4⟩, ⟨-1, 4⟩]]
     let td : Td := ⟨0, some .i16, 2, 0, 0, 1, [8, 8, 0, 0, 0, 0, 0], [8, 1, 0, 0, 0, 0, 0]⟩
     clip r td [] = .ok (Region.dense 2 [[⟨6, 2⟩, ⟨0, 3⟩]]) false ∧
       clip r { td with wrap := 2 } [] = .ok (Region.dense 2 [[⟨6, 2⟩, ⟨-1, 4⟩]]) false) := by decide +kernel

/-- R91 on A − B with n = 7; R92 on A with dimension 0, k = 3 and j = 1. -/
theorem test_region_splits :
    splitCells regionAB 7 [] = (.ok (Region.dense 2 [[⟨3, 3⟩, ⟨5, 2⟩], [⟨6, 1⟩, ⟨3, 1⟩]]) false, .ok (Region.dense 2 [[⟨6, 1⟩, ⟨4, 3⟩]]) false) ∧
    splitSlabs regionA 0 3 1 [] = (.ok (Region.dense 2 [[⟨4, 1⟩, ⟨3, 4⟩]]) false, .ok (Region.dense 2 [[⟨5, 2⟩, ⟨3, 4⟩]]) false) :=
  ⟨rfl, rfl⟩

/-- R93: `rg.cnt` of A − B is 10, `rg.nbox` 2, and `rg.get` of box 1 is 6, 3, 1, 4. -/
theorem test_region_reads : boxesCells (regionAB.exact []).boxes = 10 ∧ regionAB.boxes.length = 2 ∧
    boxValues regionAB 1 = [6, 3, 1, 4] := by decide +kernel

/-- R126: a block of 1000.0, 3.0, −0.01 and zeros takes the scale code 129 and the codes 0x78, 0x34 and 0x81. -/
theorem test_block_conversion :
    let r := convertBlock .k8 .rne (([0x447A0000, 0x40400000, 0xBC23D70A] ++ List.replicate 29 0).map fun w => (valOf .f32 w, 0))
    r.1 = 129 ∧ r.2.1 = [0x78, 0x34, 0x81] ++ List.replicate 29 0 ∧ r.2.2 = VFlags.nx ||| VFlags.uf := by decide +kernel

/-- R122: K8 rounds 255 to 256, code 0x78. -/
theorem test_rounding_carries : (roundVal .k8 .rne 0 (.ofInt 255)).1 = 0x78 := by decide +kernel

/-- R199: element (3, 5) of the source lies at 0x0200_003A. -/
theorem test_element_address :
    let td : Td := ⟨0x2000000, some .i16, 2, 0, 0, 1, [8, 8, 0, 0, 0, 0, 0], [8, 1, 0, 0, 0, 0, 0]⟩
    (td.elem 0 [3, 5]).addr = 0x200003A := by decide +kernel

/-- R210: three spawns of a task of weight 3. -/
theorem test_spawn_weights :
    let weights (l : Launch) (w : Nat) := (l.spawnWeights w).map fun r => (r.2.1, r.2.2, r.1.target - l.target)
    weights placedLaunch 3 = some (2, 1, 0) ∧ weights placedLaunch 2 = some (1, 1, 0) ∧
      weights placedLaunch 1 = some (549755813889, 549755813888, 1099511627776) := by decide +kernel

/-- R336: three starts with stack 6 failing leave 0x0006_0307. -/
theorem test_boot_cause :
    let g := (starting .starting 0).mgmt
    (((g.failStart 3 6 0).failStart 3 6 0).failStart 3 6 0).bootCause = 0x60307 := by decide +kernel

/-! ## Witnesses: more cases of the statements -/

/-- Lines with a translation and without, and a line that two launches pin in the second level. -/
theorem witness_OrderingFormsAndEnvironmentCall_pins :
    (let s := withX base [(1, 0x200000), (2, 64)]
     s.pinLine 0x8000 = some 0x8000 ∧ s.execLine 0x8000 = some 0x8000) ∧
    ({ base with mem := [] } : State).pinLine 0x80000000 = none ∧
    (let s := base.updCluster 0 fun c => { c with pins := [(0x8000, 7)] }
     let pins := (s.clusterAt (s.cur / 16)).pins
     (0x8000, s.owner) ∉ pins ∧ 0x8000 ∈ pins.map (·.1)) ∧
    (Scope.core ≠ .stream ∧ unacquired.core.unseen ≠ []) := by decide +kernel

/-- A member of a gang that has executed its instruction: its leader runs no body, or has come to the end of a pass. -/
theorem witness_EngineFaultsAndNestedTraps_members :
    let s := (gangOfTwo.act 0).updCore fun c => { c with trap := { c.trap with tvec := 0x140000 } }
    (s.core.gang = some ⟨2, 0, some 0x200004⟩ ∧ s.cur = 0 + 0 ∧ s.core.trap.ih = false ∧ s.core.trap.tvec ≠ 0 ∧
      (s.coreAt 0).loop.running = false) ∧
    (let u := s.updCore fun c => { c with gang := some ⟨2, 0, some 0x200008⟩, loop := looping.core.loop }
     let l := (u.coreAt 0).loop
     u.core.gang = some ⟨2, 0, some 0x200008⟩ ∧ l.mode = .loop ∧ l.suspended = false ∧ (0x200008 : Word) = l.bodyEnd ∧ l.left ≠ 0) := by
  decide +kernel

/-- The header of a policy is read, and a word of its code cannot be read. -/
theorem witness_SupervisorFormsAndPrivilege_body :
    let s := { policyAt 0x801 with poison := [0x600008] }
    s.core.sup = true ∧ s.core.overwriting = false ∧ ∃ s1 f, s.load (s.x 1) 8 = .ok (0x801, s1) ∧
      s1.loadHalves (s.x 1 + 8) 1 = .error (.fault f) := ⟨by decide +kernel, by decide +kernel, _, _, rfl, rfl⟩

/-- A pending contribution to another word of the line. -/
theorem witness_AtomicResultsAndMonitors_line :
    let s : State := { worded 5 with adds := [⟨0x600008, 0, 0x3F800000⟩] }
    let line := s.adds.filter fun o => o.pa / 64 == (Place.mem 0x600000).phys / 64
    line ≠ [] ∧ line.find? (fun o => o.pa == (Place.mem 0x600000).phys && amoFadd o.base o.operand == 5) = none := by decide +kernel

/-- The core's own scratchpad, and no core's. -/
theorem witness_TensorAccesses_homes : (Place.spad 0 0x1000).core? = some base.cur ∧ (Place.mem 0x600000).core? = none := by decide +kernel

/-- A counter with four armed lines, in a partition that may hold more while the memory for them is not full. -/
theorem witness_MutexesCountersMessages_armed (room : 0 < Config.spillEntries) :
    let s := (synced 0 (8 + 2 ^ 32 * 31) default default ⟨7, List.replicate 4 (9, 0)⟩ .none).updPart fun p => { p with mode := .recovery }
    (resOf s.unit.counters s.owner 0).value < 8 ∧ (s.exhausts s.part = false) ∧ heldByOther s.unit.counters s.owner 0 = false ∧
      heldByOther s.unit.lines s.owner 31 = false := by
  refine ⟨by decide +kernel, ?_, by decide +kernel, by decide +kernel⟩
  exact Bool.or_eq_false_iff.mpr ⟨by decide +kernel, decide_eq_false (Nat.not_le.mpr room)⟩

/-- A field step of a word past the body, and one that does not apply; a word that no body holds. -/
theorem witness_LoopBufferRuns_steps :
    (let s := (settingLoop 0).updCore fun c => { c with loop := { c.loop with table := [⟨2, 0, 1⟩] } }
     s.core.loop.table = [⟨2, 0, 1⟩] ∧ (s.x 2).toNat ≤ 2) ∧ bodyWordOk 0x200004 2 false 0 0x73 = false := by decide +kernel

/-- A task whose weight is below 2, of a launch that has borrowed as often as it may, and once less; a handle of no future; and a future in
each state that a child may name. -/
theorem witness_FuturesAndTasks_spawns :
    (∀ loans ∈ [2 ^ 23 - 2, 2 ^ 23 - 1], let l := { placedLaunch with loans := loans }
      let s := ((withX base [(1, 0x200000)]).updCore fun c => { c with bound := .task 0 0 0 1 none }).updPart fun p => { p with launches := [l] }
      s.core.overwriting = false ∧ (s.x 1).toNat % 4 = 0 ∧ s.core.bound = .task 0 0 0 1 none ∧ s.part.launch? 0 = some l ∧
        l.pool.length < l.poolSize ∧ (l.loans + 1 < 2 ^ 23 ↔ loans = 2 ^ 23 - 2)) ∧
    (∀ st ∈ [FutState.pending, .full, .dropped], let s := (future st).setX 2 0x200000
      (s.x 2).toNat % 4 = 0 ∧ s.core.bound = .task 0 0 0 (2 ^ 63) none ∧ s.part.launch? 0 = some placedLaunch ∧
        (∀ x ∈ [1, (0 : Reg)], x ≠ 0 → (s.liveFuture (s.x x)).isSome = true) ∧
        s.liveFuture (s.x 1) = some (1, ⟨9, st, 1, 0, 0⟩)) ∧
    ((future .full).setX 2 0x200000).liveFuture (((future .full).setX 2 0x200000).x 2) = none := by decide +kernel

/-- A task that has ended on a core of its partition: its launch is there, and nothing of it is still to post. -/
theorem witness_FuturesAndTasks_exits : base.core.gang = none ∧ base.core.bound = .task 0 0 0 (2 ^ 63) none ∧ base.core.eng.idle = true ∧
    base.core.exiting = false ∧ base.core.posts = [] ∧ (alGet base.core.part base.parts).isSome = true ∧
    base.part.launch? 0 = some placedLaunch ∧ base.part.isSuper base.cur = false := by decide +kernel

/-- A length table of which a word cannot be read. -/
theorem witness_TileAndInboxCommands_lengths :
    let s : State := { regions ⟨2, .ragged, false, 0x100, [1, 1], 0, 0, [[⟨0, 2⟩, ⟨0, 4⟩]]⟩ Region.null with
      poison := [windowAddr 0 0x100] }
    ∃ f, s.lengthsOf (s.headRegion ⟨.plain, some 1, .rne, none, 1⟩) = .error (.fault f) := ⟨_, rfl⟩

/-- A vector command whose tile is empty when it starts, and one whose tile fills. -/
theorem witness_VectorStartsAndEnds_empties :
    let i : Instr := .vMov (vp .f32 16 0 0 2)
    let turned (st : TileState) : State := (vectorWaiting i).updCore fun c => c.setTile 2 { c.tile 2 with state := st }
    (∀ st ∈ [TileState.empty, .filling], (match (turned st).core.eng.vq with
      | cmd :: _ => !cmd.bad && cmd.emptyTile.isNone &&
        (cmd.ptrs.any fun p => ((turned st).core.tile p.2.1.tile.toNat).state == .filling) == (st == .filling) &&
        ((turned st).core.emptyPointer? cmd.ptrs).isSome == (st == .empty)
      | [] => false) = true) := by decide +kernel

/-- A copy that releases its source tile while a vector command names it, and copies whose source tile is ready or not. -/
theorem witness_CopyStarts_drains :
    let s (st : TileState) : State := heading 0 (.cpRg copy1) ((vectorWaiting (.vMov (vp .f32 16 0 0 1))).updCore fun c =>
      (c.setTd 1 (vec8 0x8000 1)).setTd 2 (vec8 0x1000 2) |>.setTile 1 ⟨st, false, 0x1000, 4096, 0, 0, 0⟩)
    headIs 0 (.cpRg copy1) (s .ready) (fun c => c.from? == some 1 && (s .ready).drainHeld c true && !(s .ready).drainHeld c false) = true ∧
      headIs 0 (.cpRg copy1) (s .empty) (fun c => !(s .empty).drainHeld c true) = true := by decide +kernel

/-- Words for a core that runs supervisor code, issued in supervisor mode. -/
theorem witness_CopyWordsAndArrivals_supervisor :
    let s := (inFlight (.cpReg (words2 15 0x300)) sup).updPart fun p => { p with supEntry := 0x200000 }
    (s.core.eng.copies[0]?.any fun r => r.cmd.is 0 (.cpReg (words2 15 0x300)) && r.cmd.sup && r.post.isNone) = true ∧
      s.part.isSuper (s.part.phys 15) = true := by decide +kernel

/-- A bound port of a task that has moved: its route is another's, and the lanes of the new one are free, or all in use. -/
theorem witness_StreamCommands_routes :
    let moved (busy : Bool) : State := (ported (.send 1 2 64 0 1024 (2, 3)) .closed).updCore fun c => if busy then
      ((c.setPort 0 (.send 1 0 0 0 64 (0, 1))).setPort 2 (.send 1 1 0 0 64 (0, 1))).setPort 3 (.send 1 3 0 0 64 (0, 1)) else c
    let all := (moved true).updCoreAt 2 fun _ => (base.core.setPort 0 (.send 1 0 0 0 64 (0, 1)))
    ((2, 3) : Nat × Nat) ≠ ((moved false).cur, 1 % 4096) ∧ ((moved false).onRoute 1).isSome = true ∧ (all.onRoute 1).isNone = true := by
  decide +kernel

/-- The exchange of the root with other devices ends as the choice from outside says (log 28), and without them it never does. -/
theorem witness_RouterEvents_devices (s : State) : s.deviceAborts none = false ∧
    s.deviceAborts (some (0, 2)) = (Config.unstated s.tick 40).getLsbD 0 := ⟨rfl, by simp [State.deviceAborts]⟩

/-- The channel of turned chunks is full. -/
theorem witness_RouterEvents_turned : ({ base.core.router with chunks := List.replicate 8 { chunkAt 0 false with
    allr := true, set := 1 } }).takes .turned (chunkAt 0 false).flits = false := by decide +kernel

/-- The end of an all-reduce that the router has still to pass. -/
theorem witness_RouterEvents_allreduces :
    let e : VsEntry := ⟨.add, .f32, [⟨9, 1⟩, ⟨1, 9⟩], 0, 0, 0, 0, 0⟩
    let s := (after (.coAllr allr) (heading 3 (.coAllr allr) ((routed [] []).updCore fun c => { c with router := { c.router with
      entries := [(9, e)] } }))).updCore fun c => { c with router := { c.router with aborted := [⟨9, ⟨true, 0, 0⟩, 6⟩] } }
    ((s.coreAt 0).router.aborted.find? fun x => x.vsn == 9 && (e.isPast x.name || e.next x.name.allr == x.name)) =
        some ⟨9, ⟨true, 0, 0⟩, 6⟩ ∧ e.isPast ⟨true, 0, 0⟩ = false ∧
      ((s.coreAt 0).runOf 9 ⟨true, 0, 0⟩).any (fun w => w.1.post.isNone) = true ∧ s.lands 0 = true := by decide +kernel

/-- A slot's configuration of no cells. -/
theorem witness_MediaCommands_none :
    let o : DCfg := { mediaCfg with head := { mediaCfg.head with count := 0 } }
    o.head.count = 0 ∧ headIs 4 (.dCfg o) (heading 4 (.dCfg o) (filming [])) (fun c => !c.bad &&
      !(heading 4 (.dCfg o) (filming [])).copyHeld c) = true := by decide +kernel

/-- A second switch of a partition is asked for before the first has resumed; the request is done, and the one that waits is accepted, or
refused since its partition is gone. -/
theorem witness_ManagementRequests_waiting :
    (let s := (asked [0, 0] true).updPart fun p => { p with phase := .drain }
     let s := { s with mgmt := { s.mgmt with reqState := 1, reqHeld := true } }
     s.mgmt.reqState = 1 ∧ s.mgmt.owner.toNat = 0 ∧ s.mgmt.reqHeld = true ∧ (alGet (readLE s.mgmt.payload 0 8) s.parts).any (fun q =>
       q.phase != .none) = true) ∧
    (∀ pn ∈ [0, 9], let s := { managed with mgmt := { managed.mgmt with reqState := 1, reqHeld := false, waiting := [(pn, 0)] } }
      s.mgmt.waiting = (pn, 0) :: [] ∧ okAnd (switchTo pn 0 { s with mgmt := { s.mgmt with waiting := [] } }) (fun _ => true) = (pn == 0)) := by
  decide +kernel

/-- A switch to an area that another partition holds. -/
theorem witness_ManagementRequests_held :
    let s : State := { asked [0, 0x20000000] true with parts := (asked [0, 0x20000000] true).parts ++
      [(1, { placedPartition with x0 := 1, root := 0x30000000, area := 0x20000000, logBase := 0x50000000 })] }
    (∃ b ∈ s.heldPages 0, 0x20000000 < b.1 + b.2 ∧ b.1 < 0x20000000 + (2 * (s.partAt 0).size + 1) * 2 ^ 20) ∧ s.heldPages 1 ≠ [] := by
  decide +kernel

end Sys2Proof.Tests
end

/-!
SUPPORT. The mesh (R16, R17) and the links inside a partition (R268): physical ids and global coordinates determine each other, an
on-chip address below the own-core range (R52) names one window and an offset in it, and a router's neighbours by port.
-/

namespace Sys2Proof.Machine

/-! ## Coordinates and ids (R16, R17) -/

theorem coreX_id {d cx cy col row : Nat} (hcx : cx < 8) (hcy : cy < 8) (hcol : col < 4) (hrow : row < 4) :
    coreX (d * 1024 + (8 * cy + cx) * 16 + (4 * row + col)) = 32 * (d % 2) + 4 * cx + col := by
  simp only [coreX]; omega

theorem coreY_id {d cx cy col row : Nat} (hcx : cx < 8) (hcy : cy < 8) (hcol : col < 4) (hrow : row < 4) :
    coreY (d * 1024 + (8 * cy + cx) * 16 + (4 * row + col)) = 32 * (d / 2 % 2) + 4 * cy + row := by
  simp only [coreY]; omega

theorem coreX_idAt {x y : Nat} (hx : x < 64) : coreX (idAt x y) = x := by
  rw [idAt, coreX_id (by omega) (by omega) (by omega) (by omega)]; omega

theorem coreY_idAt {x y : Nat} (hx : x < 64) (hy : y < 64) : coreY (idAt x y) = y := by
  rw [idAt, coreY_id (by omega) (by omega) (by omega) (by omega)]; omega

theorem idAt_lt {x y : Nat} (hx : x < 64) (hy : y < 64) : idAt x y < 4096 := by
  simp only [idAt]; omega

/-- R16 with R17: the core at a column and row of a cluster of a die, by its coordinates and by its id. -/
theorem idAt_die_cluster_core {d cx cy col row : Nat} (hcx : cx < 8) (hcy : cy < 8) (hcol : col < 4) (hrow : row < 4) :
    idAt (32 * (d % 2) + 4 * cx + col) (32 * (d / 2) + 4 * cy + row) = d * 1024 + (8 * cy + cx) * 16 + (4 * row + col) := by
  simp only [idAt]; omega

theorem dieOf_id {d cl core : Nat} (hcl : cl < 64) (hcore : core < 16) : dieOf (d * 1024 + cl * 16 + core) = d := by
  simp only [dieOf]; omega

theorem clusterOf_id {d cl core : Nat} (hcore : core < 16) : clusterOf (d * 1024 + cl * 16 + core) = d * 64 + cl := by
  simp only [clusterOf]; omega

theorem coreNo_id {d cl core : Nat} (hcore : core < 16) : coreNo (d * 1024 + cl * 16 + core) = core := by
  simp only [coreNo]; omega

theorem colOf_id {d cl col row : Nat} (hcol : col < 4) : colOf (d * 1024 + cl * 16 + (4 * row + col)) = col := by
  simp only [colOf]; omega

/-! ## Windows (R17) -/

theorem windowAddr_eq (id off : Nat) : windowAddr id off = 0xF000000000 + id * 2 ^ 20 + off := rfl

/-- The windows of the 4,096 cores end below the own-core range (R52), so the address of a place in one names that core and offset. -/
theorem windowOf_windowAddr (cur : Nat) {id off : Nat} (hid : id < 4096) (hoff : off < 0x100000) :
    windowOf cur (windowAddr id off) = (id, off) := by
  have hbelow : windowAddr id off < aliasBase := by simp only [windowAddr, chipBase, aliasBase]; omega
  rw [windowOf, if_pos hbelow, Prod.mk.injEq]
  simp only [windowAddr, chipBase]; omega

/-! ## Neighbours in a partition (R268) -/

theorem stepAlong_forth {n x : Nat} (wrap : Bool) (h : x + 1 < n) : stepAlong n x true wrap = some (x + 1) := by
  simp [stepAlong, h]

theorem stepAlong_back_first (n : Nat) : stepAlong n 0 false false = none := rfl

theorem Partition.holds_iff (p : Partition) (id : Nat) : p.holds id = true ↔
    (4 * p.x0 ≤ coreX id ∧ coreX id < 4 * p.x0 + p.cw) ∧ (4 * p.y0 ≤ coreY id ∧ coreY id < 4 * p.y0 + p.ch) := by
  simp only [Partition.holds, Partition.cw, Partition.ch, Bool.and_eq_true, decide_eq_true_eq]; omega

/-- East of a core that is not in the last column of its partition: X grows by one. -/
theorem Partition.neighbour_east {p : Partition} {id : Nat} (hid : p.holds id = true) (h : coreX id + 1 < 4 * p.x0 + p.cw) :
    p.neighbour id 3 = some (idAt (coreX id + 1) (coreY id)) := by
  obtain ⟨⟨hx, -⟩, hy, -⟩ := (p.holds_iff id).mp hid
  have hstep : coreX id - 4 * p.x0 + 1 < p.cw := by omega
  have hx' : 4 * p.x0 + (coreX id - 4 * p.x0 + 1) = coreX id + 1 := by omega
  simp only [Partition.neighbour, stepAlong_forth _ hstep, Option.map_some, hx', Nat.add_sub_cancel' hy]

/-- South of a core that is not in the last row of its partition: Y grows by one. -/
theorem Partition.neighbour_south {p : Partition} {id : Nat} (hid : p.holds id = true) (h : coreY id + 1 < 4 * p.y0 + p.ch) :
    p.neighbour id 4 = some (idAt (coreX id) (coreY id + 1)) := by
  obtain ⟨⟨hx, -⟩, hy, -⟩ := (p.holds_iff id).mp hid
  have hstep : coreY id - 4 * p.y0 + 1 < p.ch := by omega
  have hy' : 4 * p.y0 + (coreY id - 4 * p.y0 + 1) = coreY id + 1 := by omega
  simp only [Partition.neighbour, stepAlong_forth _ hstep, Option.map_some, hy', Nat.add_sub_cancel' hx]

/-- No port leads west from the west edge of the mesh without a wrap link. -/
theorem Partition.neighbour_west_edge {p : Partition} {id : Nat} (hx : coreX id = 0) (hw : p.stitching.wrapX = false) :
    p.neighbour id 1 = none := by
  simp only [Partition.neighbour, hx, hw, Nat.zero_sub, stepAlong_back_first, Option.map_none]

/-- No port leads north from the north edge of the mesh without a wrap link. -/
theorem Partition.neighbour_north_edge {p : Partition} {id : Nat} (hy : coreY id = 0) (hw : p.stitching.wrapY = false) :
    p.neighbour id 2 = none := by
  simp only [Partition.neighbour, hy, hw, Nat.zero_sub, stepAlong_back_first, Option.map_none]

/-- What R268 says of the four ports of the core at (x, y), in a partition that holds it: east and south where the partition goes on,
and no port at the edges of an unwrapped mesh. -/
theorem Partition.neighbour_idAt {x y : Nat} (hx : x < 64) (hy : y < 64) {p : Partition} (hp : p.holds (idAt x y) = true) :
    (p.holds (idAt (x + 1) y) = true → x < 63 → p.neighbour (idAt x y) 3 = some (idAt (x + 1) y)) ∧
    (p.holds (idAt x (y + 1)) = true → y < 63 → p.neighbour (idAt x y) 4 = some (idAt x (y + 1))) ∧
    (x = 0 → p.stitching = .mesh → p.neighbour (idAt x y) 1 = none) ∧
    (y = 0 → p.stitching = .mesh → p.neighbour (idAt x y) 2 = none) := by
  have hX : coreX (idAt x y) = x := coreX_idAt hx
  have hY : coreY (idAt x y) = y := coreY_idAt hx hy
  refine ⟨fun hnext hlt => ?east, fun hnext hlt => ?south, fun h0 hmesh => ?west, fun h0 hmesh => ?north⟩
  case east =>
    obtain ⟨⟨-, hin⟩, -⟩ := (p.holds_iff _).mp hnext
    rw [coreX_idAt (by omega)] at hin
    rw [p.neighbour_east hp (by rwa [hX]), hX, hY]
  case south =>
    obtain ⟨-, -, hin⟩ := (p.holds_iff _).mp hnext
    rw [coreY_idAt hx (by omega)] at hin
    rw [p.neighbour_south hp (by rwa [hY]), hX, hY]
  case west => exact p.neighbour_west_edge (hX.trans h0) (by rw [hmesh]; rfl)
  case north => exact p.neighbour_north_edge (hY.trans h0) (by rw [hmesh]; rfl)

/-- Settles O28: the id and the coordinates are two forms of one place (`idAt_die_cluster_core`), so what holds of a core by its
coordinates, its ports included, holds of it by its id. -/
theorem meshNumbering : Obligations.MeshNumbering := by
  refine ⟨fun d cx cy col row hd hcx hcy hcol hrow => ?_, by decide⟩
  intro id x y
  have hx : x < 64 := by omega
  have hy : y < 64 := by omega
  have hcl : 8 * cy + cx < 64 := by omega
  have hcore : 4 * row + col < 16 := by omega
  have hplace : idAt x y = id := idAt_die_cluster_core hcx hcy hcol hrow
  have hid : id < 4096 := hplace ▸ idAt_lt hx hy
  have hcluster : clusterOf id = d * 64 + (8 * cy + cx) := clusterOf_id hcore
  refine ⟨hid, hplace ▸ coreX_idAt hx, hplace ▸ coreY_idAt hx hy, dieOf_id hcl hcore, by omega, by omega, coreNo_id hcore,
    colOf_id hcol, hplace, fun cur off hoff => ⟨windowOf_windowAddr cur hid hoff, windowAddr_eq id off⟩, fun p hp => ?_⟩
  rw [← hplace] at hp ⊢
  exact p.neighbour_idAt hx hy hp

end Sys2Proof.Machine

/-!
SUPPORT. The residue path (R138, R139): the images of each format and their sums stay within the table of R139, and in the range of the
three channels an integer is the only one with its residues.
-/

namespace Sys2Proof.Machine

/-! ## Images and their sums (R118, R119, R138) -/

/-- A bound on the magnitude of the integer of an encoding, reached in two's complement. -/
def intMax (f : Fmt) : Nat := if fmtSigned f then 2 ^ (f.width - 1) else 2 ^ f.width

/-- The largest magnitude of an image: of K8 a fraction of 15 at exponent 15, of K4 one of 3 at exponent 3. -/
def imageMax (f : Fmt) : Nat :=
  match f with
  | .k8 => 15 <<< 14
  | .k4 => 3 <<< 2
  | .f32 | .f16 | .b16 | .i32 | .i16 | .i8 | .i4 | .n32 | .n16 | .n8 | .e8 => intMax f

@[simp] theorem natAbs_signed (neg : Bool) (m : Nat) : (signed neg m).natAbs = m := by
  cases neg <;> simp [signed]

/-- A fraction below 2c over a power of two, as K8 and K4 hold it: r itself at exponent 0, and with the hidden bit c above it. -/
theorem scaledFraction_le {c r e top : Nat} (hr : r < c) (he : e ≤ top + 1) :
    (if e = 0 then r else (c + r) <<< (e - 1)) ≤ (2 * c - 1) <<< top := by
  simp only [Nat.shiftLeft_eq]
  split
  · have hr' : r ≤ 2 * c - 1 := by omega
    exact Nat.le_trans hr' (Nat.le_mul_of_pos_right _ (Nat.two_pow_pos top))
  · exact Nat.mul_le_mul (by omega) (Nat.pow_le_pow_right (by decide) (by omega))

theorem natAbs_intOf_le (f : Fmt) (raw : Nat) : (intOf f raw).natAbs ≤ intMax f := by
  have hlt : raw % 2 ^ f.width < 2 ^ f.width := Nat.mod_lt _ (Nat.two_pow_pos _)
  have hcast : (2 : Int) ^ f.width = (2 ^ f.width : Nat) := by norm_cast
  simp only [intOf, intMax, hcast]
  by_cases hs : fmtSigned f = true
  · have htwice : 2 ^ f.width = 2 * 2 ^ (f.width - 1) := by cases f <;> rfl
    simp only [hs, true_and, if_true]
    split <;> omega
  · rw [if_neg fun h => hs h.1, if_neg hs]
    omega

theorem natAbs_imageOf_le (f : Fmt) (raw : Nat) : (imageOf f raw).natAbs ≤ imageMax f := by
  cases f
  case k8 =>
    simp only [imageOf, natAbs_signed, imageMax]
    exact scaledFraction_le (by omega) (by omega)
  case k4 =>
    simp only [imageOf, natAbs_signed, imageMax]
    exact scaledFraction_le (by omega) (by omega)
  case f32 | f16 | b16 | i32 | i16 | i8 | i4 | n32 | n16 | n8 | e8 =>
    simp only [imageOf, imageMax]
    exact natAbs_intOf_le _ raw

theorem imageSum_eq_sum (fa fb : Fmt) (a b : List Nat) :
    imageSum fa fb a b = ((a.zip b).map fun z => imageOf fa z.1 * imageOf fb z.2).sum :=
  List.sum_eq_foldl.symm

theorem natAbs_imageSum_le (fa fb : Fmt) (a b : List Nat) :
    (imageSum fa fb a b).natAbs ≤ a.length * (imageMax fa * imageMax fb) := by
  rw [imageSum_eq_sum]
  induction a generalizing b with
  | nil => simp
  | cons x a ih =>
    cases b with
    | nil => simp
    | cons y b =>
      have hprod : (imageOf fa x * imageOf fb y).natAbs ≤ imageMax fa * imageMax fb := by
        rw [Int.natAbs_mul]
        exact Nat.mul_le_mul (natAbs_imageOf_le fa x) (natAbs_imageOf_le fb y)
      rw [List.zip_cons_cons, List.map_cons, List.sum_cons, List.length_cons, Nat.add_one_mul, Nat.add_comm]
      exact Nat.le_trans (Int.natAbs_add_le _ _) (Nat.add_le_add hprod (ih b))

/-! ## Residues and their recovery (R138, R139) -/

theorem addResidues_eq (r1 r2 r3 : Nat) (x : Int) : addResidues [r1, r2, r3] x =
    [(((r1 : Int) + x) % 65535).toNat, (((r2 : Int) + x) % 65536).toNat, (((r3 : Int) + x) % 65537).toNat] := rfl

theorem addResidues_zero (x : Int) :
    addResidues [0, 0, 0] x = [(x % 65535).toNat, (x % 65536).toNat, (x % 65537).toNat] := by
  simp [addResidues_eq]

/-- Adding in two steps adds the sum: channel by channel, a remainder may be taken before or after. -/
theorem addResidues_addResidues (x y : Int) : addResidues (addResidues [0, 0, 0] x) y = addResidues [0, 0, 0] (x + y) := by
  have channel (m : Int) (hm : m ≠ 0) : ((((x % m).toNat : Int) + y) % m).toNat = ((x + y) % m).toNat := by
    rw [Int.toNat_of_nonneg (Int.emod_nonneg x hm), Int.emod_add_emod]
  rw [addResidues_zero, addResidues_zero, addResidues_eq, channel _ (by decide), channel _ (by decide), channel _ (by decide)]

/-- The weighted sum of `crt` before it is reduced modulo M. -/
def crtTotal (r1 r2 r3 : Nat) : Nat :=
  r1 * 32768 % 65535 * (2 ^ 32 + 2 ^ 16) + r2 * 65535 % 65536 * (2 ^ 32 - 1) + r3 * 32769 % 65537 * (2 ^ 32 - 2 ^ 16)

theorem crt_eq (r1 r2 r3 : Nat) : crt [r1, r2, r3] =
    if moduliProduct / 2 ≤ crtTotal r1 r2 r3 % moduliProduct then ((crtTotal r1 r2 r3 % moduliProduct : Nat) : Int) - moduliProduct
    else (crtTotal r1 r2 r3 % moduliProduct : Nat) := rfl

/-- Each weight is 0 in the other two channels, and in its own the inverse of the constant before it. -/
theorem crtTotal_emod (r1 r2 r3 : Nat) : crtTotal r1 r2 r3 % 65535 = r1 % 65535 ∧ crtTotal r1 r2 r3 % 65536 = r2 % 65536 ∧
    crtTotal r1 r2 r3 % 65537 = r3 % 65537 := by
  simp only [crtTotal]
  omega

/-- Integers that agree modulo two coprime moduli agree modulo their product. -/
theorem emod_mul_of_coprime {m n : Nat} {x y : Int} (hmn : m.Coprime n) (hm : x % m = y % m) (hn : x % n = y % n) :
    x % (m * n : Nat) = y % (m * n : Nat) := by
  rw [Int.emod_eq_emod_iff_emod_sub_eq_zero, ← Int.dvd_iff_emod_eq_zero, Int.ofNat_dvd_left] at hm hn ⊢
  exact hmn.mul_dvd_of_dvd_of_dvd hm hn

/-- Integers that agree in the three channels agree modulo M, as the moduli are coprime in pairs. -/
theorem emod_moduliProduct {x y : Int} (h1 : x % (65535 : Nat) = y % (65535 : Nat)) (h2 : x % (65536 : Nat) = y % (65536 : Nat))
    (h3 : x % (65537 : Nat) = y % (65537 : Nat)) : x % moduliProduct = y % moduliProduct :=
  emod_mul_of_coprime (by decide) (emod_mul_of_coprime (by decide) h1 h2) h3

/-- A number with the residue of an integer in a channel agrees with the integer modulo it. -/
theorem natCast_emod_of_residue {m t : Nat} {x : Int} (hm : m ≠ 0) (h : t % m = (x % m).toNat % m) : (t : Int) % m = x % m := by
  have hres : ((x % m).toNat : Int) = x % m := Int.toNat_of_nonneg (Int.emod_nonneg x (Int.natCast_ne_zero.mpr hm))
  calc (t : Int) % m = ((x % m).toNat : Int) % m := by rw [← Int.natCast_emod, h, Int.natCast_emod]
    _ = x % m := by rw [hres, Int.emod_emod]

theorem crtTotal_emod_moduliProduct (x : Int) :
    (crtTotal (x % 65535).toNat (x % 65536).toNat (x % 65537).toNat : Int) % moduliProduct = x % moduliProduct := by
  obtain ⟨h1, h2, h3⟩ := crtTotal_emod (x % 65535).toNat (x % 65536).toNat (x % 65537).toNat
  exact emod_moduliProduct (natCast_emod_of_residue (by decide) h1) (natCast_emod_of_residue (by decide) h2)
    (natCast_emod_of_residue (by decide) h3)

theorem crt_addResidues {x : Int} (hlo : -140737488322560 ≤ x) (hhi : x ≤ 140737488322559) : crt (addResidues [0, 0, 0] x) = x := by
  have h := crtTotal_emod_moduliProduct x
  rw [addResidues_zero, crt_eq]
  generalize crtTotal _ _ _ = t at h ⊢
  simp only [show moduliProduct = 281474976645120 from rfl] at h ⊢
  split <;> omega

/-- A sum of up to n products of images, when n of the largest stay below M/2. -/
theorem imageSum_recovered {fa fb : Fmt} {a b : List Nat} {n top : Nat} (hlen : a.length ≤ n)
    (htop : n * (imageMax fa * imageMax fb) = top) (hM : top ≤ 140737488322559) :
    (imageSum fa fb a b).natAbs ≤ top ∧ -(140737488322560 : Int) ≤ imageSum fa fb a b ∧ imageSum fa fb a b ≤ 140737488322559 ∧
      crt (addResidues [0, 0, 0] (imageSum fa fb a b)) = imageSum fa fb a b := by
  have hle : (imageSum fa fb a b).natAbs ≤ top :=
    calc _ ≤ a.length * (imageMax fa * imageMax fb) := natAbs_imageSum_le fa fb a b
      _ ≤ n * (imageMax fa * imageMax fb) := Nat.mul_le_mul_right _ hlen
      _ = top := htop
  have hlo : -(140737488322560 : Int) ≤ imageSum fa fb a b := by omega
  have hhi : imageSum fa fb a b ≤ 140737488322559 := by omega
  exact ⟨hle, hlo, hhi, crt_addResidues hlo hhi⟩

/-- The table of R139, from the magnitudes of the images and the number of terms. -/
theorem residueTable : ∀ e ∈ [(Fmt.k8, Fmt.k8, 32, 1932735283200), (.k8, .k4, 32, 94371840), (.k4, .k8, 32, 94371840),
      (.k4, .k4, 32, 4608), (.i8, .i8, 1024, 16777216), (.i4, .i4, 1024, 65536)],
    e.2.2.1 * (imageMax e.1 * imageMax e.2.1) = e.2.2.2 ∧ e.2.2.2 ≤ 140737488322559 := by decide

/-- Settles O45: the sums are bounded product by product (`natAbs_imageSum_le`), and within the bound the channels determine them
(`crt_addResidues`). -/
theorem residuesRecoverSums : Obligations.ResiduesRecoverSums := by
  refine ⟨fun e he a b _ _ hlen => ?sums, fun raw _ => ⟨natAbs_imageOf_le .k8 raw, natAbs_imageOf_le .i8 raw⟩,
    fun raw _ => ⟨natAbs_imageOf_le .k4 raw, natAbs_imageOf_le .i4 raw⟩,
    fun x hlo hhi => ⟨addResidues_zero x, crt_addResidues hlo hhi⟩, addResidues_addResidues, fun r1 r2 r3 _ _ _ => crt_eq r1 r2 r3⟩
  case sums =>
    obtain ⟨htop, hM⟩ := residueTable e he
    exact imageSum_recovered hlen htop hM

end Sys2Proof.Machine

/-!
SUPPORT. The loop state (R253): what the end of a pass (R255) and of an overwrite iteration (R263) make of the pass number and of the
passes left, and what `lp.cnt` reads of them (R257).
-/

namespace Sys2Proof.Machine

/-! ## The end of a pass or an iteration (R255, R263) -/

theorem LoopState.running_iff (l : LoopState) : l.running = true ↔ l.mode ≠ .none ∧ l.suspended = false := by
  simp [LoopState.running]

/-- A pass of an `lp.set` loop that is not its last ends: the next one begins. -/
theorem Core.goTo_bodyEnd_of_loop {c : Core} (hmode : c.loop.mode = .loop) (hsusp : c.loop.suspended = false)
    (hleft : c.loop.left ≠ 0) : c.goTo c.loop.bodyEnd =
      { c with pc := c.loop.start, loop := { c.loop with pass := c.loop.pass + 1, left := c.loop.left - 1 } } := by
  have hrun : c.loop.running = true := c.loop.running_iff.mpr ⟨by simp [hmode], hsusp⟩
  simp [Core.goTo, hrun, hmode, hleft]

/-- The end of the body of an overwrite loop ends the iteration. -/
theorem Core.goTo_bodyEnd_of_overwrite {c : Core} (hmode : c.loop.mode = .overwrite) (hsusp : c.loop.suspended = false) :
    c.goTo c.loop.bodyEnd = c.endIteration := by
  have hrun : c.loop.running = true := c.loop.running_iff.mpr ⟨by simp [hmode], hsusp⟩
  simp [Core.goTo, hrun, hmode]

/-- Covering a footprint writes the scratchpad only. -/
@[simp] theorem Core.coverFootprint_loop (c : Core) : c.coverFootprint.loop = c.loop := by
  unfold Core.coverFootprint; split <;> rfl

@[simp] theorem Core.beginIteration_pass (c : Core) : c.beginIteration.loop.pass = c.loop.pass := rfl

@[simp] theorem Core.beginIteration_left (c : Core) : c.beginIteration.loop.left = c.loop.left := rfl

/-- An iteration that is not the last ends: its number and the count of those left go down. -/
theorem Core.endIteration_counts {c : Core} (hleft : c.loop.left ≠ 0) :
    c.endIteration.loop.pass = c.loop.pass - 1 ∧ c.endIteration.loop.left = c.loop.left - 1 := by
  simp [Core.endIteration, hleft]

/-! ## Reading the pass number (R257) -/

theorem effLpCnt_of_loop {s : State} (d : Reg) (h : s.loop.mode ≠ .none) :
    effLpCnt d s = s.okay (s.setX d (BitVec.ofNat 64 s.loop.pass)) := by
  rw [effLpCnt, if_neg h, w64]

theorem effLpCnt_of_no_loop {s : State} (d : Reg) (h : s.loop.mode = .none) :
    effLpCnt d s = s.okay (s.setX d 0xFFFFFFFFFFFFFFFF) := by
  rw [effLpCnt, if_pos h, show BitVec.allOnes 64 = 0xFFFFFFFFFFFFFFFF from rfl]

/-- `lp.cnt` may stand in an overwrite body too (R256), so wherever it is executed it completes with what its effect writes. -/
theorem completes_lpCnt {s t : State} {d : Reg} (h : effLpCnt d s = s.okay t) : Completes (.lpCnt d) s t :=
  completes_of_okay rfl (allowed_of_not_forbidden rfl) h

/-- Settles O29: by the two cases of `effLpCnt`, and for the counting by how each kind of loop goes on past its body
(`Core.goTo_bodyEnd_of_loop`, `Core.goTo_bodyEnd_of_overwrite`). -/
theorem loopCount : Obligations.LoopCount := by
  refine ⟨fun s d hmode => completes_lpCnt (effLpCnt_of_loop d hmode), fun s d hmode => completes_lpCnt (effLpCnt_of_no_loop d hmode),
    fun c hmode hsusp hleft => ?up, fun c hmode hsusp hleft => ?down, fun l b => ⟨rfl, rfl, rfl⟩⟩
  case up =>
    rw [Core.goTo_bodyEnd_of_loop hmode hsusp hleft]
    exact ⟨rfl, rfl⟩
  case down =>
    rw [Core.goTo_bodyEnd_of_overwrite hmode hsusp]
    exact Core.endIteration_counts hleft

end Sys2Proof.Machine
